-- ==== Sys2Proof/Word.lean ====
section
/-! DEFINITION. The words of the machine (00_scope R10 to R12) and the one way a fixed-size array is built. -/

namespace Sys2Proof

/-- One byte of device memory, of the scratchpad or of a fragment. -/
abbrev Byte := BitVec 8

/-- One command word (30_encoding R76). -/
abbrev Cmd := BitVec 32

/-- A device address held in a register, u64 (00_scope R8, ADDR_W). -/
abbrev Addr := BitVec 64

/-- An unsigned 32-bit register: M, N, K, BM, BN and PC (00_scope R8, DIM_W and PC_W). -/
abbrev U32 := BitVec 32

/-- A bit pattern of IEEE 754 binary16 (00_scope R12). -/
abbrev F16 := BitVec 16

/-- A bit pattern of IEEE 754 binary32 (00_scope R12). -/
abbrev F32 := BitVec 32

/-- A two's-complement signed 32-bit value (00_scope R11). -/
abbrev S32 := BitVec 32

/-- A warp's number within its block, 0..7 (00_scope R7, NWARPS). -/
abbrev WarpId := Fin 8

/-- The array whose element `i` is `f i`. -/
def tab {α : Type} {n : Nat} (f : Fin n → α) : Vector α n :=
  ⟨⟨List.ofFn f⟩, by simp⟩

end Sys2Proof
end

