-- ==== Sys2Proof/Config.lean ====
section
/-! DEFINITION. What an implementation fixes (the open parameters of 00_scope R8) and the free values. -/

namespace Sys2Proof

/-- The output types of 10_state R18. -/
inductive OutType where
  | f32 | f16 | f8
  deriving DecidableEq, Repr

/-- NAN_MODE (44_dequant R130): NaN results are the canonical NaN, or any NaN. -/
inductive NanMode where
  | canonical | anyNan
  deriving DecidableEq, Repr

/-- FP8_FMT (45_epilogue R137). -/
inductive Fp8Fmt where
  | e4m3Sat | e5m2Sat
  deriving DecidableEq, Repr

/-- The open parameters of 00_scope R8, "the model takes the parameter as an argument": plain data that
`State.cfg` holds and no step changes. DESIGN CHOICE, safe (log 3). -/
structure Config where
  /-- SWZ (40_loader R87): tile row to 2-bit chunk mask. -/
  swz : Vector (Fin 4) 128
  /-- PERM_A (20_memory R47): in-tile position to tile row. -/
  permA : Vector (Fin 128) 128
  /-- DEQ_FUSED (44_dequant R131). -/
  deqFused : Bool
  /-- FTZ (44_dequant R129). -/
  ftz : Bool
  /-- NAN_MODE (44_dequant R130). -/
  nanMode : NanMode
  /-- FP8_FMT (45_epilogue R137). -/
  fp8Fmt : Fp8Fmt
  /-- SUPPORTED (60_exceptions R164): the output types the build supports. -/
  supported : List OutType
  /-- SCRATCH_CAPACITY (60_exceptions R169), in bytes. -/
  scratchCapacity : Nat
  deriving DecidableEq, Repr

/-- The defaults of 00_scope R8. -/
def Config.standard : Config where
  swz := tab fun r => Fin.ofNat 4 (r.val / 2)
  permA := tab fun p => p
  deqFused := true
  ftz := false
  nanMode := .canonical
  fp8Fmt := .e4m3Sat
  supported := [.f32, .f16, .f8]
  scratchCapacity := 101376

/-- PERM_A is a permutation of 0..127 (20_memory R47): no two positions hold one row. -/
abbrev Config.Wf (c : Config) : Prop := c.permA.toList.Nodup

/-- Where a copy record stands (10_state R35): in OPEN[w], or in a group of GROUPS[w]. -/
inductive CopyPlace where
  | inOpen (k : Nat)
  | inGroup (g k : Nat)
  deriving DecidableEq, Repr, Inhabited

/-- The agents of 10_state R16, with the choice each step of theirs makes. `blk` is the place of a block in the
grid's list. -/
inductive Agent where
  /-- Warp `w` of block `blk` executes its next command. -/
  | warp (blk : Nat) (w : WarpId)
  /-- The copy agent of block `blk` performs the record of warp `w` at `place` (41_pipeline_sync R102). -/
  | copy (blk : Nat) (w : WarpId) (place : CopyPlace)
  /-- The barrier of block `blk` releases its warps (41_pipeline_sync R107). -/
  | barrier (blk : Nat)
  /-- The host launches the next invocation (60_exceptions R163). -/
  | host
  deriving DecidableEq, Repr, Inhabited

/-- FREE VALUE: the agent that steps when `State.sched` names none. The schedule is left free (10_state R41,
46_sequencer R148). DESIGN CHOICE, safe (log 1). -/
opaque Config.freeAgent : Nat → Agent

/-- FREE VALUE: the raw bits of a NaN result under NAN_MODE = ANY, by the drawing command's number and the place
of the result within it (44_dequant R130, "a free draw of the step"). DESIGN CHOICE, safe (log 13). -/
opaque Config.nanDraw : Nat → Nat → BitVec 32

/-- FREE VALUE: the byte the host finds at an address of D after a fault, at a count of steps (60_exceptions R160, "The contents
of D are unspecified"; 93 U16, any value). DESIGN CHOICE, safe (log 22). -/
opaque Config.lostByte : Nat → Nat → Byte

end Sys2Proof
end

