-- ==== Sys2Proof/Machine/Float.lean ====
section
/-! DEFINITION. The numeric primitives (44_dequant R124 to R130, 45_epilogue R136, R137): values are computed exactly
and narrowed once, to nearest, ties to even. The block has no rounding-mode register and no exception flags (R124). -/

namespace Sys2Proof.Machine

/-- An exact floating-point value: NaN, an infinity of a sign, or ±m·2^e. A zero keeps its sign. -/
inductive FVal where
  | nan
  | inf (neg : Bool)
  | fin (neg : Bool) (m : Nat) (e : Int)
  deriving DecidableEq, Repr

/-- The value of a bit pattern of the IEEE format with `eb` exponent and `fb` fraction bits (44_dequant R124). -/
def unpack (eb fb : Nat) (bits : Nat) : FVal :=
  let bias : Int := 2 ^ (eb - 1) - 1
  let neg := decide (bits / 2 ^ (eb + fb) % 2 = 1)
  let ex := bits / 2 ^ fb % 2 ^ eb
  let fr := bits % 2 ^ fb
  if ex = 2 ^ eb - 1 then (if fr = 0 then .inf neg else .nan)
  else if ex = 0 then .fin neg fr (1 - bias - fb)
  else .fin neg (2 ^ fb + fr) (ex - bias - fb)

/-- `m / 2^sh` to the nearest natural number, ties to even (44_dequant R125). -/
def rne (m sh : Nat) : Nat :=
  let q := m / 2 ^ sh
  let r := m % 2 ^ sh
  if 2 ^ sh < 2 * r ∨ (2 * r = 2 ^ sh ∧ q % 2 = 1) then q + 1 else q

/-- The magnitude bits of `m·2^e` rounded to nearest even in a format with `eb` exponent and `fb` fraction bits,
subnormals kept, the exponent unbounded above (44_dequant R125, 45_epilogue R137). -/
def roundMag (eb fb m : Nat) (e : Int) : Nat :=
  if m = 0 then 0 else
  let qmin : Int := 2 - 2 ^ (eb - 1) - fb
  let q : Int := max (Nat.log2 m + e - fb) qmin
  let n := if q ≤ e then m * 2 ^ (e - q).toNat else rne m (q - e).toNat
  (q - qmin).toNat * 2 ^ fb + n

/-- The sign bit of a format of `width` bits. -/
def signBit (width : Nat) (neg : Bool) : Nat := if neg then 2 ^ (width - 1) else 0

/-- An exact value rounded to the IEEE format with `eb` exponent and `fb` fraction bits: overflow gives an infinity
(44_dequant R125), NaN gives the bits `nan` (R130). -/
def packIeee (eb fb : Nat) (nan : Nat) : FVal → Nat
  | .nan => nan
  | .inf neg => signBit (1 + eb + fb) neg + (2 ^ eb - 1) * 2 ^ fb
  | .fin neg m e => signBit (1 + eb + fb) neg + min (roundMag eb fb m e) ((2 ^ eb - 1) * 2 ^ fb)

/-- The exact product (44_dequant R126): an infinity times a zero is NaN, signs combine by exclusive-or. -/
def FVal.mul : FVal → FVal → FVal
  | .nan, _ => .nan
  | _, .nan => .nan
  | .inf a, .inf b => .inf (a ^^ b)
  | .inf a, .fin b m _ => if m = 0 then .nan else .inf (a ^^ b)
  | .fin a m _, .inf b => if m = 0 then .nan else .inf (a ^^ b)
  | .fin a m e, .fin b n f => .fin (a ^^ b) (m * n) (e + f)

/-- `±m·2^k` as an integer. -/
def signedMag (neg : Bool) (m k : Nat) : Int := if neg then -(m * 2 ^ k : Nat) else (m * 2 ^ k : Nat)

/-- The exact sum (44_dequant R129): inf − inf is NaN; an exact zero sum is −0 only of two negative zeros. -/
def FVal.add : FVal → FVal → FVal
  | .nan, _ => .nan
  | _, .nan => .nan
  | .inf a, .inf b => if a = b then .inf a else .nan
  | .inf a, .fin _ _ _ => .inf a
  | .fin _ _ _, .inf b => .inf b
  | .fin a m e, .fin b n f =>
    let lo := min e f
    let sum := signedMag a m (e - lo).toNat + signedMag b n (f - lo).toNat
    if sum = 0 then .fin (a && b) 0 lo else .fin (decide (sum < 0)) sum.natAbs lo

/-- The value of an f16 (44_dequant R126: subnormals are never flushed). -/
def readF16 (h : F16) : FVal := unpack 5 10 h.toNat

/-- The value of an f32; when FTZ is true a subnormal is read as a zero of its sign (44_dequant R129). -/
def readF32 (ftz : Bool) (x : F32) : FVal :=
  match unpack 8 23 x.toNat with
  | .fin neg m e => if ftz && decide (m < 2 ^ 23) then .fin neg 0 e else .fin neg m e
  | v => v

/-- A value rounded to f16 (44_dequant R125). -/
def roundF16 (nan : F16) (v : FVal) : F16 := BitVec.ofNat 16 (packIeee 5 10 nan.toNat v)

/-- A value rounded to f32 (44_dequant R125). -/
def roundF32 (nan : F32) (v : FVal) : F32 := BitVec.ofNat 32 (packIeee 8 23 nan.toNat v)

/-- When FTZ is true a subnormal f32 result is replaced by a zero of its sign (44_dequant R129; log 14). -/
def flushF32 (ftz : Bool) (x : F32) : F32 :=
  if ftz && decide (x.toNat / 2 ^ 23 % 2 ^ 8 = 0) then BitVec.ofNat 32 (signBit 32 x.msb) else x

/-- f16mul (44_dequant R126); `nan` is the NaN a NaN result returns (R130). -/
def f16mul (nan a b : F16) : F16 := roundF16 nan ((readF16 a).mul (readF16 b))

/-- cvt_f16_f32, exact (44_dequant R127). -/
def cvtF16F32 (nan : F32) (h : F16) : F32 := roundF32 nan (readF16 h)

/-- cvt_s32_f32 (44_dequant R128). -/
def cvtS32F32 (p : S32) : F32 := roundF32 0 (.fin (decide (p.toInt < 0)) p.toInt.natAbs 0)

/-- f32mul (44_dequant R129). -/
def f32mul (ftz : Bool) (nan a b : F32) : F32 := flushF32 ftz (roundF32 nan ((readF32 ftz a).mul (readF32 ftz b)))

/-- f32add (44_dequant R129). -/
def f32add (ftz : Bool) (nan a b : F32) : F32 := flushF32 ftz (roundF32 nan ((readF32 ftz a).add (readF32 ftz b)))

/-- f32fma, one rounding (44_dequant R129). -/
def f32fma (ftz : Bool) (nan a b c : F32) : F32 :=
  flushF32 ftz (roundF32 nan (((readF32 ftz a).mul (readF32 ftz b)).add (readF32 ftz c)))

/-- cvt_f32_f16 (45_epilogue R136). -/
def cvtF32F16 (ftz : Bool) (nan : F16) (x : F32) : F16 := roundF16 nan (readF32 ftz x)

/-- The largest finite magnitude of an 8-bit format (45_epilogue R137). -/
def fp8Max : Fp8Fmt → Nat
  | .e4m3Sat => 0x7E
  | .e5m2Sat => 0x7B

/-- The magnitude bits of a finite value rounded to an 8-bit format, before saturation (45_epilogue R137). -/
def fp8Mag (fmt : Fp8Fmt) (m : Nat) (e : Int) : Nat :=
  match fmt with
  | .e4m3Sat => roundMag 4 3 m e
  | .e5m2Sat => roundMag 5 2 m e

/-- cvt_f32_f8 (45_epilogue R137): rounded first, then saturated. -/
def cvtF32F8 (fmt : Fp8Fmt) (ftz : Bool) (nan : Byte) (x : F32) : Byte :=
  match readF32 ftz x with
  | .nan => nan
  | .inf neg => BitVec.ofNat 8 (signBit 8 neg + fp8Max fmt)
  | .fin neg m e => BitVec.ofNat 8 (signBit 8 neg + min (fp8Mag fmt m e) (fp8Max fmt))

/-! ## NaN results (44_dequant R130) -/

/-- The bits `raw` made a NaN of a format of `width` bits whose exponent field of ones is `expOnes` and whose fraction
has `fb` bits: a zero fraction becomes 1 (log 13). -/
def nanOfBits (width fb expOnes raw : Nat) : Nat :=
  raw / 2 ^ (width - 1) % 2 * 2 ^ (width - 1) + expOnes + (if raw % 2 ^ fb = 0 then 1 else raw % 2 ^ fb)

/-- The f32 NaN of place `p` in the drawing command number `d`: canonical, or any. -/
def nanF32 (cfg : Config) (d p : Nat) : F32 :=
  match cfg.nanMode with
  | .canonical => 0x7FFFFFFF
  | .anyNan => BitVec.ofNat 32 (nanOfBits 32 23 0x7F800000 (Config.nanDraw d p).toNat)

/-- The f16 NaN of place `p` in the drawing command number `d`: canonical, or any. -/
def nanF16 (cfg : Config) (d p : Nat) : F16 :=
  match cfg.nanMode with
  | .canonical => 0x7FFF
  | .anyNan => BitVec.ofNat 16 (nanOfBits 16 10 0x7C00 (Config.nanDraw d p).toNat)

/-- The 8-bit NaN of place `p` in the drawing command number `d`: 0x7F, or any NaN byte of the format (45_epilogue
R137). E4M3 has two NaN bytes, 0x7F and 0xFF. -/
def nanF8 (cfg : Config) (d p : Nat) : Byte :=
  match cfg.nanMode with
  | .canonical => 0x7F
  | .anyNan => match cfg.fp8Fmt with
    | .e4m3Sat => BitVec.ofNat 8 ((Config.nanDraw d p).toNat % 2 * 128 + 0x7F)
    | .e5m2Sat => BitVec.ofNat 8 (nanOfBits 8 2 0x7C (Config.nanDraw d p).toNat)

end Sys2Proof.Machine
end

