-- ==== Sys2Proof/Syntax.lean ====
section
/-! DEFINITION. The commands of the machine: one constructor for each row of spec/opcode_table.json (30_encoding R79). -/

namespace Sys2Proof

/-- The phase of a command, its PH field (30_encoding R77): main (4-bit operands) or keeper (8-bit operands). -/
inductive Phase where
  | main | keeper
  deriving DecidableEq, Repr

/-- A command. A field that selects an element of a register file or a ring slot has the range of its field
as its type; the numbers KT, N and IT are checked by `Instr.wf` (30_encoding R80, R83). -/
inductive Instr where
  /-- NOP (46_sequencer R146). -/
  | nop
  /-- LDG.A s, kt (40_loader R94). -/
  | ldgA (ph : Phase) (slot : Fin 4) (kt : Nat)
  /-- LDG.B s, kt (40_loader R95). -/
  | ldgB (ph : Phase) (slot : Fin 4) (kt : Nat)
  /-- LDGS s, kt (40_loader R98). -/
  | ldgs (ph : Phase) (slot : Fin 4) (kt : Nat)
  /-- COMMIT (41_pipeline_sync R105). -/
  | commit
  /-- WAIT n (41_pipeline_sync R106). -/
  | wait (n : Nat)
  /-- BAR (41_pipeline_sync R107). -/
  | bar
  /-- LDM.A s, ks, mi (42_extract R113). -/
  | ldmA (slot : Fin 4) (ks : Fin 2) (mi : Fin 2)
  /-- LDM.B s, ks, ni (42_extract R114). -/
  | ldmB (slot : Fin 4) (ks : Fin 2) (ni : Fin 8)
  /-- LDSC s (42_extract R116). -/
  | ldsc (ph : Phase) (slot : Fin 4)
  /-- MMA4 mi, ni (43_mma R119). -/
  | mma4 (mi : Fin 2) (ni : Fin 8)
  /-- MMA8 mi, ni (43_mma R120). -/
  | mma8 (mi : Fin 2) (ni : Fin 8)
  /-- DEQ (44_dequant R131). -/
  | deq
  /-- CVTS (45_epilogue R139). -/
  | cvts
  /-- STG it (45_epilogue R140). -/
  | stg (it : Nat)
  /-- END (45_epilogue R141). -/
  | endWarp
  deriving DecidableEq, Repr

end Sys2Proof
end

