-- ==== Sys2Proof/WellFormed.lean ====
section
/-! DEFINITION. Which commands the assembler accepts: every operand fits its field (30_encoding R83). -/

namespace Sys2Proof

/-- The k-tile index of LDG and LDGS fits IMM[15:0] (30_encoding R83, "kt > 65535" is refused). -/
def ktFits (kt : Nat) : Bool := kt < 65536

/-- The group count of WAIT fits IMM[3:0] (30_encoding R83, "n > 15" is refused). -/
def waitFits (n : Nat) : Bool := n < 16

/-- The iteration of STG fits IMM[7:0] (30_encoding R83, "it > 255" is refused). -/
def itFits (it : Nat) : Bool := it < 256

/-- The check of 30_encoding R83; the operands with a bounded type (slot, ks, mi, ni) fit their fields by type. -/
def Instr.wf : Instr → Bool
  | .nop => true
  | .ldgA _ _ kt => ktFits kt
  | .ldgB _ _ kt => ktFits kt
  | .ldgs _ _ kt => ktFits kt
  | .commit => true
  | .wait n => waitFits n
  | .bar => true
  | .ldmA _ _ _ => true
  | .ldmB _ _ _ => true
  | .ldsc _ _ => true
  | .mma4 _ _ => true
  | .mma8 _ _ => true
  | .deq => true
  | .cvts => true
  | .stg it => itFits it
  | .endWarp => true

end Sys2Proof
end

