-- ==== Sys2Proof/Decode.lean ====
section
/-! DEFINITION. Decoding (30_encoding R77 to R82), total on every 32-bit word, and the encoder. -/

namespace Sys2Proof

/-- The fields of a command word (30_encoding R77). -/
structure Fields where
  opc : BitVec 5
  ph : BitVec 1
  op : BitVec 1
  slot : BitVec 2
  ks : BitVec 1
  idx : BitVec 3
  mi : BitVec 1
  rsv : BitVec 2
  imm : BitVec 16
  deriving DecidableEq, Repr

/-- The fields of the word `w`, each at the bits 30_encoding R77 gives it. -/
def fieldsOfWord (w : Cmd) : Fields where
  opc := w.extractLsb' 27 5
  ph := w.extractLsb' 26 1
  op := w.extractLsb' 25 1
  slot := w.extractLsb' 23 2
  ks := w.extractLsb' 22 1
  idx := w.extractLsb' 19 3
  mi := w.extractLsb' 18 1
  rsv := w.extractLsb' 16 2
  imm := w.extractLsb' 0 16

/-- The word that holds the fields `f` (30_encoding R77). -/
def wordOfFields (f : Fields) : Cmd :=
  f.opc.setWidth 32 <<< 27 ||| f.ph.setWidth 32 <<< 26 ||| f.op.setWidth 32 <<< 25 |||
    f.slot.setWidth 32 <<< 23 ||| f.ks.setWidth 32 <<< 22 ||| f.idx.setWidth 32 <<< 19 |||
    f.mi.setWidth 32 <<< 18 ||| f.rsv.setWidth 32 <<< 16 ||| f.imm.setWidth 32

/-- PH: 0 = main, 1 = keeper (30_encoding R77). -/
def phaseOfBit (b : BitVec 1) : Phase := if b = 0 then .main else .keeper

/-- The PH bit of a phase (30_encoding R77). -/
def bitOfPhase : Phase → BitVec 1
  | .main => 0
  | .keeper => 1

/-- One row of the opcode map (30_encoding R79): a word selects the row iff `w &&& mask = pattern`, and the row
builds its command from the word's fields (R80: every field zero-extended, none scaled). -/
structure OpcodeRow where
  mnemonic : String
  pattern : Cmd
  mask : Cmd
  command : Fields → Instr

/-- The opcode map of 30_encoding R79, in its order. -/
def opcodeTable : List OpcodeRow := [
  ⟨"NOP", 0x00000000, 0xFFFFFFFF, fun _ => .nop⟩,
  ⟨"LDG.A", 0x08000000, 0xFA7F0000, fun f => .ldgA (phaseOfBit f.ph) f.slot.toFin f.imm.toNat⟩,
  ⟨"LDG.B", 0x0A000000, 0xFA7F0000, fun f => .ldgB (phaseOfBit f.ph) f.slot.toFin f.imm.toNat⟩,
  ⟨"LDGS", 0x10000000, 0xFA7F0000, fun f => .ldgs (phaseOfBit f.ph) f.slot.toFin f.imm.toNat⟩,
  ⟨"COMMIT", 0x18000000, 0xFFFFFFFF, fun _ => .commit⟩,
  ⟨"WAIT", 0x20000000, 0xFFFFFFF0, fun f => .wait (f.imm.extractLsb' 0 4).toNat⟩,
  ⟨"BAR", 0x28000000, 0xFFFFFFFF, fun _ => .bar⟩,
  ⟨"LDM.A", 0x30000000, 0xFE37FFFF, fun f => .ldmA f.slot.toFin f.ks.toFin (f.idx.extractLsb' 0 1).toFin⟩,
  ⟨"LDM.B", 0x32000000, 0xFE07FFFF, fun f => .ldmB f.slot.toFin f.ks.toFin f.idx.toFin⟩,
  ⟨"LDSC", 0x38000000, 0xFA7FFFFF, fun f => .ldsc (phaseOfBit f.ph) f.slot.toFin⟩,
  ⟨"MMA4", 0x40000000, 0xFFC3FFFF, fun f => .mma4 f.mi.toFin f.idx.toFin⟩,
  ⟨"MMA8", 0x48000000, 0xFFC3FFFF, fun f => .mma8 f.mi.toFin f.idx.toFin⟩,
  ⟨"DEQ", 0x50000000, 0xFFFFFFFF, fun _ => .deq⟩,
  ⟨"CVTS", 0x58000000, 0xFFFFFFFF, fun _ => .cvts⟩,
  ⟨"STG", 0x60000000, 0xFFFFFF00, fun f => .stg (f.imm.extractLsb' 0 8).toNat⟩,
  ⟨"END", 0x68000000, 0xFFFFFFFF, fun _ => .endWarp⟩]

/-- The word `w` selects the row `r` (30_encoding R79). -/
def rowMatches (w : Cmd) (r : OpcodeRow) : Bool := w &&& r.mask = r.pattern

/-- Why a word is illegal (30_encoding R81). -/
inductive Illegal where
  /-- OPC 14 to 31. Raised by `decode`; the warp step takes ILLEGAL_CMD. -/
  | reservedOpc (opc : BitVec 5)
  /-- LDGS with OP = 1. Raised by `decode`; the warp step takes ILLEGAL_CMD. -/
  | ldgsOperandB
  /-- LDM.A with IDX of 2 or more. Raised by `decode`; the warp step takes ILLEGAL_CMD. -/
  | ldmAIndex (idx : BitVec 3)
  /-- A must-be-zero bit of the opcode's format is set. Raised by `decode`; the warp step takes ILLEGAL_CMD. -/
  | mustBeZero (opc : BitVec 5)
  deriving DecidableEq, Repr

/-- The reason of 30_encoding R81 for a word no row matches. -/
def illegalReason (w : Cmd) : Illegal :=
  let f := fieldsOfWord w
  if 14 ≤ f.opc.toNat then .reservedOpc f.opc
  else if f.opc = 2 ∧ f.op = 1 then .ldgsOperandB
  else if f.opc = 6 ∧ f.op = 0 ∧ 2 ≤ f.idx.toNat then .ldmAIndex f.idx
  else .mustBeZero f.opc

/-- Decoding (30_encoding R82): the command of the row the word matches, or ILLEGAL. -/
def decode (w : Cmd) : Except Illegal Instr :=
  match opcodeTable.find? (rowMatches w) with
  | some r => .ok (r.command (fieldsOfWord w))
  | none => .error (illegalReason w)

/-- All fields zero but OPC: format Z of 30_encoding R78. -/
def formatZ (opc : BitVec 5) : Fields := ⟨opc, 0, 0, 0, 0, 0, 0, 0, 0⟩

/-- The fields of a command, by its format (30_encoding R78). -/
def fieldsOfInstr : Instr → Fields
  | .nop => formatZ 0
  | .ldgA ph slot kt => { formatZ 1 with ph := bitOfPhase ph, slot := .ofFin slot, imm := .ofNat 16 kt }
  | .ldgB ph slot kt => { formatZ 1 with ph := bitOfPhase ph, op := 1, slot := .ofFin slot, imm := .ofNat 16 kt }
  | .ldgs ph slot kt => { formatZ 2 with ph := bitOfPhase ph, slot := .ofFin slot, imm := .ofNat 16 kt }
  | .commit => formatZ 3
  | .wait n => { formatZ 4 with imm := .ofNat 16 n }
  | .bar => formatZ 5
  | .ldmA slot ks mi => { formatZ 6 with slot := .ofFin slot, ks := .ofFin ks, idx := .ofNat 3 mi.val }
  | .ldmB slot ks ni => { formatZ 6 with op := 1, slot := .ofFin slot, ks := .ofFin ks, idx := .ofFin ni }
  | .ldsc ph slot => { formatZ 7 with ph := bitOfPhase ph, slot := .ofFin slot }
  | .mma4 mi ni => { formatZ 8 with idx := .ofFin ni, mi := .ofFin mi }
  | .mma8 mi ni => { formatZ 9 with idx := .ofFin ni, mi := .ofFin mi }
  | .deq => formatZ 10
  | .cvts => formatZ 11
  | .stg it => { formatZ 12 with imm := .ofNat 16 it }
  | .endWarp => formatZ 13

/-- The command word of an instruction (30_encoding R76 to R78). Meant for well-formed instructions. -/
def encode (i : Instr) : Cmd := wordOfFields (fieldsOfInstr i)

/-- The instruction the decoder reads from a table row's bits. Every command is one 32-bit word (30_encoding R76),
bit 0 its least significant bit. -/
def decodeTableWord (nbits w : Nat) : Option Instr :=
  if nbits ≤ 32 ∧ w < 2 ^ 32 then
    match decode (BitVec.ofNat 32 w) with
    | .ok i => some i
    | .error _ => none
  else none

end Sys2Proof
end

