-- ==== Sys2Proof/Machine/State.lean ====
section
/-! DEFINITION. The state of the machine (10_state) as plain data, its reset, and why a step can stop. -/

namespace Sys2Proof.Machine

/-! ## Registers of the invocation -/

/-- The parameter registers 0 to 12 (10_state R17). Written by a launch, read-only to commands. -/
structure Params where
  pA : Addr
  pB : Addr
  pAS : Addr
  pBS : Addr
  pAK : Addr
  pBK : Addr
  pAKS : Addr
  pBKS : Addr
  pD : Addr
  m : U32
  n : U32
  k : U32
  outType : BitVec 2
  deriving DecidableEq, Repr

/-- The derived registers (00_scope R9, 10_state R20). Computed at launch, read-only to commands. -/
structure Derived where
  kMain : Nat
  rb : Nat
  t : Nat
  g : Nat
  s : Nat
  mpad : Nat
  gm : Nat
  gn : Nat
  sz : Nat
  iters : Nat
  scrBytes : Nat
  deriving DecidableEq, Repr

/-- INV (10_state R37). -/
inductive Inv where
  | idle | running | complete | failed | rejected
  deriving DecidableEq, Repr

/-! ## The scratchpad and the asynchronous copies -/

/-- The `vis` field of a scratch tag (20_memory R59). -/
inductive Vis where
  | unwritten
  | pending
  | done (g : Nat)
  deriving DecidableEq, Repr

/-- The tag of a scratch byte (20_memory R59); `rd[w] = none` is the rule's -1. -/
structure Tag where
  val : Option Byte
  writer : Option WarpId
  vis : Vis
  rd : Vector (Option Nat) 8
  deriving DecidableEq, Repr

/-- The reset tag (20_memory R59): no value, no writer, NONE, every `rd[w]` -1. -/
def Tag.empty : Tag := ⟨none, none, .unwritten, Vector.replicate 8 none⟩

/-- A copy record (10_state R35); its n is the length of `data`. -/
structure CopyRecord where
  dst : Nat
  data : List Byte
  performed : Bool
  deriving DecidableEq, Repr

/-! ## A warp -/

/-- ST (10_state R31). -/
inductive WarpStatus where
  | run | atBar | done | faulted
  deriving DecidableEq, Repr

/-- A register file of shape [2][8][16][8] (10_state R21): indices mi, ni, r, c. -/
abbrev AccFile := Vector (Vector (Vector (Vector (BitVec 32) 8) 16) 8) 2

/-- An A fragment: 16 rows of 32 bytes (10_state R24). -/
abbrev FragA := Vector (Vector Byte 32) 16

/-- A B fragment: 8 columns of 32 bytes (10_state R25). -/
abbrev FragB := Vector (Vector Byte 32) 8

/-- The state of a warp (10_state R21 to R31, R35). A fragment or a scale file is `none` exactly when its valid
bit is false: "a register that nothing has written holds no value" (R28; log 9). -/
structure Warp where
  pc : U32
  st : WarpStatus
  iacc : AccFile
  facc : AccFile
  fa : Vector (Option FragA) 2
  fb : Vector (Option FragB) 8
  sa : Option (Vector (Vector F16 16) 2)
  sb : Option (Vector (Vector F16 8) 8)
  openGrp : List CopyRecord
  groups : List (List CopyRecord)
  deriving DecidableEq, Repr

/-- A register file of shape [2][8][16][8] with one value in every element. -/
def accFill (v : BitVec 32) : AccFile :=
  Vector.replicate 2 (Vector.replicate 8 (Vector.replicate 16 (Vector.replicate 8 v)))

/-- A warp when its block starts (10_state R39). -/
def Warp.reset : Warp where
  pc := 0
  st := .run
  iacc := accFill 0
  facc := accFill 0
  fa := Vector.replicate 2 none
  fb := Vector.replicate 8 none
  sa := none
  sb := none
  openGrp := []
  groups := []

/-! ## Faults of the machine -/

/-- The register file a REG_UNINIT record names (60_exceptions R157); `scales` is the SA/SB of 44_dequant R131 (log 24). -/
inductive RegFile where
  | fa | fb | scales
  deriving DecidableEq, Repr

/-- The cause of a command fault, codes 0x01 to 0x0C of 60_exceptions R157, with the information its record
holds beside the pc and the word, which stand in the record. Each is TAKEN: the step answers a next state
(`State.raise`, 60_exceptions R158). -/
inductive Cause where
  | illegalCmd
  | illegalOperand (operand : Nat)
  | oobGlobal (addr n : Nat)
  | misaligned (addr n : Nat)
  | scratchOob (off : Nat)
  | scratchUninit (off : Nat)
  | hazardRaw (off : Nat) (writer : Option WarpId)
  | hazardWar (off : Nat) (reader : WarpId)
  | hazardWaw (off : Nat) (writer : Option WarpId)
  | regUninit (file : RegFile) (index : Nat)
  | barMismatch (pcs : List (Option U32))
  | pcOverrun
  deriving DecidableEq, Repr

/-- A fault record (60_exceptions R158). A BAR_MISMATCH is the block's, so it names no warp, pc or word (log 10);
a PC_OVERRUN has no word at its pc (log 11). -/
structure FaultRecord where
  cause : Cause
  bm : U32
  bn : U32
  warp : Option WarpId
  pc : Option U32
  word : Option Cmd
  deriving DecidableEq, Repr

/-- A launch fault, codes 0x10 to 0x13 of 60_exceptions R157, with the information its record holds. -/
inductive LaunchFault where
  | badDims (m n k : Nat)
  | misalignedPtr (register : Nat) (value : Addr)
  | scratchSize (registered scrBytes capacity : Nat)
  | overlapsD (input d : Nat)
  deriving DecidableEq, Repr

/-! ## A block -/

/-- The state of a block (10_state R16, R19, R33, R34, R36). `scr` lists, in rising order, the scratch bytes whose
tag is not the reset tag. -/
structure Block where
  bm : U32
  bn : U32
  warps : Vector Warp 8
  gen : Nat
  arrived : Vector (Option U32) 8
  scr : List (Nat × Tag)
  log : List FaultRecord
  deriving DecidableEq, Repr

/-- A block when it starts (10_state R39). -/
def Block.reset (bm bn : U32) : Block where
  bm := bm
  bn := bn
  warps := Vector.replicate 8 Warp.reset
  gen := 0
  arrived := Vector.replicate 8 none
  scr := []
  log := []

/-! ## The invocation -/

/-- Device memory (20_memory R42): in rising order of address, the bytes that are not 0x00, which is what an unlisted
address reads as. DESIGN CHOICE, unsafe (log 4). After a fault these are the bytes the block last stored, and what D holds is
free: `State.hostByte` (60_exceptions R160; log 22). -/
abbrev Memory := List Host.Cell

/-- A command stream the host may hand over: its length fits the program counter, "L ≤ 2^32 − 1" (46_sequencer R145), so no
pc that a run reaches ever wraps (log 18). -/
abbrev CmdStream := { cs : List Cmd // cs.length < 2 ^ 32 }

/-- What the host hands over at a launch (60_exceptions R163): the arguments, the buffer lengths, the registered
scratch size, the command stream (none: the canonical stream of 46_sequencer R149) and the bytes of device
memory (10_state R38). M, N and K are numbers, since the launch checks that they fit 32 bits (60_exceptions R166). -/
structure LaunchRecord where
  pA : Addr
  pB : Addr
  pAS : Addr
  pBS : Addr
  pAK : Addr
  pBK : Addr
  pAKS : Addr
  pBKS : Addr
  pD : Addr
  m : Nat
  n : Nat
  k : Nat
  outType : BitVec 2
  bufLen : Vector Nat 9
  rs : Nat
  cs : Option CmdStream
  bytes : List Host.Cell
  deriving DecidableEq, Repr

/-- The warp whose command `exec` runs: a block's place in the grid's list, and a warp of it. The model's own. -/
structure WarpRef where
  blk : Nat
  w : WarpId
  deriving DecidableEq, Repr

/-- The state of the machine: one invocation (10_state R16). The last six fields are the model's own. -/
structure State where
  params : Params
  derived : Derived
  bufLen : Vector Nat 9
  rs : Nat
  cs : List Cmd
  mem : Memory
  inv : Inv
  ret : Bool
  launchFault : Option LaunchFault
  blocks : List Block
  cfg : Config
  sched : List Agent
  tick : Nat
  draws : Nat
  cur : WarpRef
  launches : List LaunchRecord
  deriving DecidableEq, Repr

/-- The parameter registers before any launch. DESIGN CHOICE, unsafe: the spec gives only launch values (log 6). -/
def Params.unset : Params := ⟨0, 0, 0, 0, 0, 0, 0, 0, 0, 0, 0, 0, 0⟩

/-- The derived registers before any launch: 00_scope R9 at K_MAIN = 0, M = N = 0 and F32. DESIGN CHOICE, unsafe
(log 6). -/
def Derived.unset : Derived where
  kMain := 0
  rb := 0
  t := 0
  g := 0
  s := 2
  mpad := 0
  gm := 0
  gn := 0
  sz := 4
  iters := 16
  scrBytes := 67584

/-- The machine before any launch: INV is IDLE (10_state R37), no launch fault, no block. A block's own reset is
`Block.reset` (10_state R39), taken at a launch (70_reset_and_hazards R179). -/
def State.reset : State where
  params := Params.unset
  derived := Derived.unset
  bufLen := Vector.replicate 9 0
  rs := 0
  cs := []
  mem := []
  inv := .idle
  ret := false
  launchFault := none
  blocks := []
  cfg := Config.standard
  sched := []
  tick := 0
  draws := 0
  cur := ⟨0, 0⟩
  launches := []

/-! ## Why a step can stop -/

/-- Why a step stops. A fault of the spec is no stop: it is taken (60_exceptions R158). -/
inductive Fault where
  /-- Raised by `step` while the invocation is RUNNING and no block has an enabled step (41_pipeline_sync R109):
  the machine is stuck for good. Safe (log 2). -/
  | stuck
  /-- Raised by `exec` when `State.cur` names no block of the grid: there is no warp to run the command. `step`
  never raises it. Safe (log 2). -/
  | noWarp
  deriving DecidableEq, Repr

/-- Why an instruction has no meaning. -/
inductive Refusal where
  /-- Raised by an arm of `exec` whose instruction has no meaning yet; no arm is left. Safe. -/
  | notModelled (mnemonic : String)
  deriving DecidableEq, Repr

end Sys2Proof.Machine
end

