-- ==== Sys2Proof/Machine/Ops.lean ====
section
/-! DEFINITION. The named operations over memory, scratchpad, warps and blocks; raising a fault; running a command. -/

namespace Sys2Proof.Machine

/-! ## Sparse arrays: cells in strictly rising order, none equal to the default -/

/-- The element at `a`: the listed one, else the default `d`. -/
def cellGet {α : Type} (d : α) : List (Nat × α) → Nat → α
  | [], _ => d
  | (k, x) :: t, a => if a = k then x else if a < k then d else cellGet d t a

/-- `v` at `a`; the default is never listed. -/
def cellSet {α : Type} [DecidableEq α] (d : α) : List (Nat × α) → Nat → α → List (Nat × α)
  | [], a, v => if v = d then [] else [(a, v)]
  | (k, x) :: t, a, v =>
    if a < k then (if v = d then (k, x) :: t else (a, v) :: (k, x) :: t)
    else if a = k then (if v = d then t else (a, v) :: t)
    else (k, x) :: cellSet d t a v

/-- The canonical form: addresses strictly rising and below `lim`, no entry equal to the default. -/
def cellsWf {α : Type} [DecidableEq α] (d : α) (lim : Nat) (m : List (Nat × α)) : Bool :=
  decide (m.Pairwise fun x y => x.1 < y.1) && m.all fun c => decide (c.2 ≠ d) && decide (c.1 < lim)

/-! ## Device memory -/

/-- What an unlisted device byte reads as. DESIGN CHOICE, unsafe (log 4). -/
def memDefault : Byte := 0

/-- The number of device addresses, 2^ADDR_W (10_state R38). -/
def memSize : Nat := 2 ^ 64

/-- The device byte at `a`. -/
def Memory.read (m : Memory) (a : Nat) : Byte := cellGet memDefault m a

/-- The device byte `v` at `a`; an address that does not exist takes nothing (10_state R38). -/
def Memory.write (m : Memory) (a : Nat) (v : Byte) : Memory :=
  if a < memSize then cellSet memDefault m a v else m

/-- The bytes `vs` at `a` and up, the first at `a` (20_memory R56). -/
def Memory.writeBytes (m : Memory) (a : Nat) : List Byte → Memory
  | [] => m
  | v :: vs => Memory.writeBytes (m.write a v) (a + 1) vs

/-- The `n` bytes at `a`, the lowest address first (20_memory R55). -/
def Memory.readBytes (m : Memory) (a n : Nat) : List Byte := (List.range' a n).map m.read

/-- The canonical form of device memory. -/
def Memory.wf (m : Memory) : Bool := cellsWf memDefault memSize m

/-- Device memory holding the cells the host hands over; a later cell of one address wins. -/
def memOfCells (cells : List Host.Cell) : Memory := cells.foldl (fun m c => m.write c.1 c.2) []

/-- The pointers of the nine buffers, in register order (10_state R17). -/
def Params.ptrs (p : Params) : Vector Addr 9 := #v[p.pA, p.pB, p.pAS, p.pBS, p.pAK, p.pBK, p.pAKS, p.pBKS, p.pD]

/-- The range [addr, addr + n) lies inside buffer `i` and inside the address space (20_memory R51, R52; log 12). -/
def State.inBuffer (s : State) (i : Fin 9) (addr n : Nat) : Bool :=
  decide (s.params.ptrs[i].toNat ≤ addr) && decide (addr + n ≤ s.params.ptrs[i].toNat + s.bufLen[i])
    && decide (addr + n ≤ memSize)

/-- A device read is admitted iff its whole range lies inside one read-access allocation, the buffers 0 to 7
(20_memory R52). -/
def State.readAdmitted (s : State) (addr n : Nat) : Bool :=
  (List.finRange 8).any fun i => s.inBuffer i.castSucc addr n

/-- A device write is admitted iff its whole range lies inside the D allocation, buffer 8 (20_memory R52). -/
def State.writeAdmitted (s : State) (addr n : Nat) : Bool := s.inBuffer 8 addr n

/-- The checks of MemRead (20_memory R55): MISALIGNED before OOB_GLOBAL. -/
def State.memReadFault (s : State) (addr n : Nat) : Option Cause :=
  if addr % n ≠ 0 then some (.misaligned addr n)
  else if s.readAdmitted addr n then none else some (.oobGlobal addr n)

/-- The checks of MemWrite (20_memory R56): MISALIGNED before OOB_GLOBAL. -/
def State.memWriteFault (s : State) (addr n : Nat) : Option Cause :=
  if addr % n ≠ 0 then some (.misaligned addr n)
  else if s.writeAdmitted addr n then none else some (.oobGlobal addr n)

/-! ## The scratchpad -/

/-- The tag of the scratch byte at `off` (20_memory R59). -/
def Block.tag (b : Block) (off : Nat) : Tag := cellGet Tag.empty b.scr off

/-- The tag `t` at `off`. -/
def Block.setTag (b : Block) (off : Nat) (t : Tag) : Block := { b with scr := cellSet Tag.empty b.scr off t }

/-- Every tag at an offset of `offs` changed by `f`, in order: the one operation that changes tags. -/
def Block.updTags (f : Nat → Tag → Tag) : List Nat → Block → Block
  | [], b => b
  | a :: t, b => Block.updTags f t (b.setTag a (f a (b.tag a)))

/-- The checks of ScrRead on one byte (20_memory R60). A byte whose last write completed but that has no value,
which no run reaches, is SCRATCH_UNINIT (log 7). `lim` is SCR_BYTES. -/
def Block.readByteFault (b : Block) (lim : Nat) (w : WarpId) (off : Nat) : Option Cause :=
  let t := b.tag off
  if lim ≤ off then some (.scratchOob off)
  else match t.vis with
    | .unwritten => some (.scratchUninit off)
    | .pending => some (.hazardRaw off t.writer)
    | .done g0 =>
      if t.writer ≠ some w ∧ b.gen ≤ g0 then some (.hazardRaw off t.writer)
      else if t.val = none then some (.scratchUninit off)
      else none

/-- The least other warp that read the byte in the current generation (20_memory R61; log 8). -/
def Block.otherReader (b : Block) (w : WarpId) (off : Nat) : Option WarpId :=
  (List.finRange 8).find? fun w2 => decide (w2 ≠ w) && decide ((b.tag off).rd[w2] = some b.gen)

/-- The checks of ScrWrite and ScrIssue on one byte (20_memory R61, R62). -/
def Block.writeByteFault (b : Block) (lim : Nat) (w : WarpId) (off : Nat) : Option Cause :=
  let t := b.tag off
  if lim ≤ off then some (.scratchOob off)
  else match b.otherReader w off with
    | some w2 => some (.hazardWar off w2)
    | none => match t.vis with
      | .unwritten => none
      | .pending => some (.hazardWaw off t.writer)
      | .done g0 => if t.writer ≠ some w ∧ b.gen ≤ g0 then some (.hazardWaw off t.writer) else none

/-- The first failing check of ScrRead over `n` bytes at `off`, in rising order (20_memory R60). -/
def Block.readFault (b : Block) (lim : Nat) (w : WarpId) (off n : Nat) : Option Cause :=
  (List.range' off n).findSome? (b.readByteFault lim w)

/-- The first failing check of ScrWrite or ScrIssue over `n` bytes at `off`, in rising order (20_memory R61, R62). -/
def Block.writeFault (b : Block) (lim : Nat) (w : WarpId) (off n : Nat) : Option Cause :=
  (List.range' off n).findSome? (b.writeByteFault lim w)

/-- The value of a scratch byte; read only where `readByteFault` found one. -/
def Block.byte (b : Block) (off : Nat) : Byte := (b.tag off).val.getD 0

/-- The little-endian 16-bit value at `off` (20_memory R43). -/
def Block.half (b : Block) (off : Nat) : BitVec 16 := b.byte (off + 1) ++ b.byte off

/-- A read of the byte by warp `w` in generation `gen` (20_memory R60). -/
def Tag.markRead (gen : Nat) (w : WarpId) (t : Tag) : Tag := { t with rd := t.rd.set w (some gen) }

/-- A synchronous write of `v` by warp `w` in generation `gen` (20_memory R61). -/
def Tag.written (gen : Nat) (w : WarpId) (v : Byte) (t : Tag) : Tag :=
  { t with val := some v, writer := some w, vis := .done gen }

/-- The claim of an asynchronous copy by warp `w` (20_memory R62). -/
def Tag.claimed (w : WarpId) (t : Tag) : Tag := { t with writer := some w, vis := .pending }

/-- The landing of a copied byte (41_pipeline_sync R102). -/
def Tag.landed (v : Byte) (t : Tag) : Tag := { t with val := some v }

/-- The retirement of a copied byte by a WAIT in generation `gen` (41_pipeline_sync R106). -/
def Tag.retired (gen : Nat) (t : Tag) : Tag := { t with vis := .done gen }

/-- The reads of ScrRead over the offsets `offs` (20_memory R60). -/
def Block.markReads (b : Block) (w : WarpId) (offs : List Nat) : Block :=
  b.updTags (fun _ t => t.markRead b.gen w) offs

/-- The bytes `vs` written at `off` and up (20_memory R61). -/
def Block.writeBytes (b : Block) (w : WarpId) (off : Nat) (vs : List Byte) : Block :=
  b.updTags (fun a t => t.written b.gen w (vs.getD (a - off) 0)) (List.range' off vs.length)

/-- The claims of ScrIssue over the offsets `offs` (20_memory R62). -/
def Block.claim (b : Block) (w : WarpId) (offs : List Nat) : Block :=
  b.updTags (fun _ t => t.claimed w) offs

/-- The bytes `vs` landing at `off` and up (41_pipeline_sync R102). -/
def Block.land (b : Block) (off : Nat) (vs : List Byte) : Block :=
  b.updTags (fun a t => t.landed (vs.getD (a - off) 0)) (List.range' off vs.length)

/-- The copied bytes at `offs` retired by a WAIT (41_pipeline_sync R106). -/
def Block.retire (b : Block) (offs : List Nat) : Block :=
  b.updTags (fun _ t => t.retired b.gen) offs

/-- The canonical form of the scratchpad (20_memory R58, R59). -/
def Block.scrWf (b : Block) : Bool := cellsWf Tag.empty 67584 b.scr

/-! ## Warps and blocks -/

/-- Warp `w` changed by `f`. -/
def Block.updWarp (b : Block) (w : WarpId) (f : Warp → Warp) : Block := { b with warps := b.warps.set w (f b.warps[w]) }

/-- pc <- pc + 1 (46_sequencer R145). It never wraps: a pc from which a command is fetched is below L ≤ 2^32 − 1. -/
def Warp.advance (x : Warp) : Warp := { x with pc := x.pc + 1 }

/-- The block of the warp whose command runs. -/
def State.block? (s : State) : Option Block := s.blocks[s.cur.blk]?

/-- `b` in the place of the block of the warp whose command runs. -/
def State.setBlock (s : State) (b : Block) : State := { s with blocks := s.blocks.set s.cur.blk b }

/-- Every copy record of a warp, committed groups first (10_state R35). -/
def Warp.records (x : Warp) : List CopyRecord := x.groups.flatten ++ x.openGrp

/-- A block has ended (46_sequencer R152): every warp is DONE and no record of any warp is unperformed. -/
def Block.ended (b : Block) : Bool :=
  (List.finRange 8).all fun w => decide (b.warps[w].st = .done) && b.warps[w].records.all fun r => r.performed

/-- INV becomes COMPLETE when every block of the grid has ended and none has failed (46_sequencer R154). -/
def State.settle (s : State) : State :=
  if s.inv = .running ∧ s.blocks.all (fun b => b.ended && b.log.isEmpty) then { s with inv := .complete } else s

/-! ## Raising a fault -/

/-- The code of a command fault (60_exceptions R157). -/
def Cause.code : Cause → BitVec 8
  | .illegalCmd => 0x01
  | .illegalOperand _ => 0x02
  | .oobGlobal _ _ => 0x03
  | .misaligned _ _ => 0x04
  | .scratchOob _ => 0x05
  | .scratchUninit _ => 0x06
  | .hazardRaw _ _ => 0x07
  | .hazardWar _ _ => 0x08
  | .hazardWaw _ _ => 0x09
  | .regUninit _ _ => 0x0A
  | .barMismatch _ => 0x0B
  | .pcOverrun => 0x0C

/-- The code of a launch fault (60_exceptions R157). -/
def LaunchFault.code : LaunchFault → BitVec 8
  | .badDims _ _ _ => 0x10
  | .misalignedPtr _ _ => 0x11
  | .scratchSize _ _ _ => 0x12
  | .overlapsD _ _ => 0x13

/-- The code of a fault record (60_exceptions R157, R158). -/
def FaultRecord.code (r : FaultRecord) : BitVec 8 := r.cause.code

/-- `raise Fault` by the running warp of block `b` (60_exceptions R158): the record, ST FAULTED and INV FAILED, and
no other effect: the pc stays at the faulting command. -/
def State.raise (s : State) (b : Block) (c : Cause) : State :=
  let w := s.cur.w
  let pc := b.warps[w].pc
  let r : FaultRecord := ⟨c, b.bm, b.bn, some w, some pc, s.cs[pc.toNat]?⟩
  { s.setBlock { (b.updWarp w fun x => { x with st := .faulted }) with log := b.log ++ [r] } with inv := .failed }

/-- Run a command of the current warp: its checks come first and, if one fails, the command raises that fault and
changes nothing else (00_scope R14). -/
def State.runCommand (s : State) (f : Block → Except Cause State) : Host.Outcome State Fault Refusal :=
  match s.block? with
  | none => .fault .noWarp
  | some b => .next (match f b with | .ok t => t | .error c => s.raise b c)

/-! ## Fetching -/

/-- The word at the current warp's pc (46_sequencer R144); none past the end of the stream. -/
def State.fetch (s : State) (b : Block) (w : WarpId) : Option Cmd := s.cs[b.warps[w].pc.toNat]?

end Sys2Proof.Machine
end

