-- ==== Sys2Proof/Machine/Flags.lean ====
section
/-! DEFINITION. The block has no flags, condition codes or predicate registers (10_state R32); here stand the validity
predicates a copy command computes for each chunk and stores nowhere, and the operand range checks. -/

namespace Sys2Proof.Machine

/-- An operand chunk's row predicate: "row index within the live output-row range" (40_loader R90). -/
def rowLive (s : State) (row : Nat) : Bool := row < s.params.m.toNat

/-- An operand chunk's K predicate: "column offset within the live K range"; true in the keeper phase
(40_loader R90). -/
def kLive (s : State) (ph : Phase) (kt cc : Nat) : Bool :=
  match ph with
  | .main => 64 * kt + 16 * cc < s.derived.rb
  | .keeper => true

/-- PERM_A (20_memory R47): the tile row at in-tile position `p`. -/
def permA (s : State) (p : Nat) : Nat :=
  match s.cfg.permA[p]? with
  | some r => r.val
  | none => p

/-- PERM_A_INV (42_extract R116): the in-tile position that holds tile row `r`; `r` itself where no position does,
which no permutation reaches (log 23). -/
def permAInv (s : State) (r : Nat) : Nat :=
  match (List.finRange 128).find? fun p => decide (s.cfg.permA[p].val = r) with
  | some p => p.val
  | none => r

/-- The predicate of an A-side scale chunk (40_loader R97): in the main phase one of its two rows is live, in the
keeper phase the lower one. -/
def scaleLive (s : State) (ph : Phase) (bm j : Nat) : Bool :=
  match ph with
  | .main => rowLive s (128 * bm + permA s (2 * j)) || rowLive s (128 * bm + permA s (2 * j + 1))
  | .keeper => rowLive s (128 * bm + 2 * j)

/-- The k-tile index of a keeper-phase copy is out of range (40_loader R94, R95, R98). -/
def keeperKtBad (ph : Phase) (kt : Nat) : Bool := decide (ph = .keeper) && decide (2 ≤ kt)

end Sys2Proof.Machine
end

