-- ==== Sys2Proof/Machine/Operands.lean ====
section
/-! DEFINITION. Where the operands of the commands lie: threads, chunks, the swizzle, the scratchpad map and the
source addresses. Addresses are exact numbers (00_scope R11). -/

namespace Sys2Proof.Machine

/-- The thread index of lane `l` of warp `w` (40_loader R86). -/
def threadIdx (w : WarpId) (l : Nat) : Nat := 32 * w.val + l

/-- The warp's row tile (00_scope R8). -/
def wm (w : WarpId) : Nat := w.val / 2

/-- The warp's column tile (00_scope R8). -/
def wn (w : WarpId) : Nat := w.val % 2

/-- OPA(s) (20_memory R57). -/
def opaBase (slot : Fin 4) : Nat := 8192 * slot.val

/-- OPB(s) (20_memory R57). -/
def opbBase (slot : Fin 4) : Nat := 32768 + 8192 * slot.val

/-- SCA(s) (20_memory R57). -/
def scaBase (slot : Fin 4) : Nat := 65536 + 512 * slot.val

/-- SCB(s) (20_memory R57). -/
def scbBase (slot : Fin 4) : Nat := 65536 + 512 * slot.val + 256

/-- EPI (20_memory R57). -/
def epiBase : Nat := 0

/-- The swizzle `cc ^ SWZ(r)` (40_loader R87), shared by LDG and LDM. -/
def swizzle (s : State) (r cc : Nat) : Nat :=
  cc ^^^ (match s.cfg.swz[r]? with
    | some f => f.val
    | none => 0)

/-- Where the 16-byte chunk `cc` of tile row `r` lies in the operand region at `base` (40_loader R88). -/
def opOff (s : State) (base r cc : Nat) : Nat := base + 64 * r + 16 * swizzle s r cc

/-- One asynchronous copy a lane issues: `n` bytes to `dst`, from `src` where the chunk is live, else zeros
(40_loader R91). -/
structure Chunk where
  dst : Nat
  n : Nat
  src : Option Nat
  deriving DecidableEq, Repr

/-- The offsets a chunk claims. -/
def Chunk.offs (c : Chunk) : List Nat := List.range' c.dst c.n

/-- The chunk lane `l` copies in iteration `i` of an LDG by warp `w` (40_loader R89). -/
def chunkIdx (w : WarpId) (i l : Nat) : Nat := 256 * i + threadIdx w l

/-- The lanes of the two iterations of an LDG, in the order of its loops (40_loader R94). -/
def ldgLanes : List (Nat × Nat) := (List.range 2).flatMap fun i => (List.range 32).map fun l => (i, l)

/-- The copy lane `l` issues in iteration `i` of LDG.A (40_loader R92, R94). -/
def ldgAChunk (s : State) (b : Block) (w : WarpId) (ph : Phase) (slot : Fin 4) (kt i l : Nat) : Chunk :=
  let c := chunkIdx w i l
  let r := c / 4
  let cc := c % 4
  let row := 128 * b.bm.toNat + r
  let src := match ph with
    | .main => s.params.pA.toNat + row * s.derived.rb + 64 * kt + 16 * cc
    | .keeper => s.params.pAK.toNat + row * 128 + 64 * kt + 16 * cc
  ⟨opOff s (opaBase slot) r cc, 16, if rowLive s row && kLive s ph kt cc then some src else none⟩

/-- The copy lane `l` issues in iteration `i` of LDG.B (40_loader R92, R95). -/
def ldgBChunk (s : State) (b : Block) (w : WarpId) (ph : Phase) (slot : Fin 4) (kt i l : Nat) : Chunk :=
  let c := chunkIdx w i l
  let r := c / 4
  let cc := c % 4
  let col := 128 * b.bn.toNat + r
  let src := match ph with
    | .main => s.params.pB.toNat + col * s.derived.rb + 64 * kt + 16 * cc
    | .keeper => s.params.pBK.toNat + col * 128 + 64 * kt + 16 * cc
  ⟨opOff s (opbBase slot) r cc, 16, if kLive s ph kt cc then some src else none⟩

/-- The copies of an LDG.A by warp `w`, in loop order (40_loader R94). -/
def ldgAChunks (s : State) (b : Block) (w : WarpId) (ph : Phase) (slot : Fin 4) (kt : Nat) : List Chunk :=
  ldgLanes.map fun p => ldgAChunk s b w ph slot kt p.1 p.2

/-- The copies of an LDG.B by warp `w`, in loop order (40_loader R95). -/
def ldgBChunks (s : State) (b : Block) (w : WarpId) (ph : Phase) (slot : Fin 4) (kt : Nat) : List Chunk :=
  ldgLanes.map fun p => ldgBChunk s b w ph slot kt p.1 p.2

/-- The copy of thread `t` of an LDGS, if it makes one (40_loader R96 to R98): threads 0..63 copy the A side,
64..127 the B side, 128..255 nothing. -/
def ldgsChunk (s : State) (b : Block) (ph : Phase) (slot : Fin 4) (kt t : Nat) : Option Chunk :=
  if t < 64 then
    let j := t
    let src := match ph with
      | .main => s.params.pAS.toNat + 2 * (kt * s.derived.mpad + 128 * b.bm.toNat + 2 * j)
      | .keeper => s.params.pAKS.toNat + 2 * (128 * b.bm.toNat + 2 * j)
    some ⟨scaBase slot + 4 * j, 4, if scaleLive s ph b.bm.toNat j then some src else none⟩
  else if t < 128 then
    let j := t - 64
    let src := match ph with
      | .main => s.params.pBS.toNat + 2 * (kt * s.params.n.toNat + 128 * b.bn.toNat + 2 * j)
      | .keeper => s.params.pBKS.toNat + 2 * (128 * b.bn.toNat + 2 * j)
    some ⟨scbBase slot + 4 * j, 4, some src⟩
  else none

/-- The copies of an LDGS by warp `w`, in lane order (40_loader R98). -/
def ldgsChunks (s : State) (b : Block) (w : WarpId) (ph : Phase) (slot : Fin 4) (kt : Nat) : List Chunk :=
  (List.range 32).filterMap fun l => ldgsChunk s b ph slot kt (threadIdx w l)

/-- The tile row of row `r2` of A fragment `mi` of warp `w` (42_extract R113). -/
def rowOf (w : WarpId) (mi : Fin 2) (r2 : Nat) : Nat := 32 * wm w + 16 * mi.val + r2

/-- The tile column of column `c2` of B fragment `ni` of warp `w` (42_extract R114). -/
def colOf (w : WarpId) (ni : Fin 8) (c2 : Nat) : Nat := 64 * wn w + 8 * ni.val + c2

/-- Where byte `k` of row `r2` of an A fragment lies (42_extract R113). -/
def ldmAOff (s : State) (w : WarpId) (slot : Fin 4) (ks mi : Fin 2) (r2 k : Nat) : Nat :=
  opOff s (opaBase slot) (rowOf w mi r2) (2 * ks.val + k / 16) + k % 16

/-- Where byte `k` of column `c2` of a B fragment lies (42_extract R114). -/
def ldmBOff (s : State) (w : WarpId) (slot : Fin 4) (ks : Fin 2) (ni : Fin 8) (c2 k : Nat) : Nat :=
  opOff s (opbBase slot) (colOf w ni c2) (2 * ks.val + k / 16) + k % 16

/-- The bytes an LDM.A reads, in loop order (42_extract R113). -/
def ldmAOffs (s : State) (w : WarpId) (slot : Fin 4) (ks mi : Fin 2) : List Nat :=
  (List.range 16).flatMap fun r2 => (List.range 32).map fun k => ldmAOff s w slot ks mi r2 k

/-- The bytes an LDM.B reads, in loop order (42_extract R114). -/
def ldmBOffs (s : State) (w : WarpId) (slot : Fin 4) (ks : Fin 2) (ni : Fin 8) : List Nat :=
  (List.range 8).flatMap fun c2 => (List.range 32).map fun k => ldmBOff s w slot ks ni c2 k

/-- Where the scale of tile row `rowOf w mi i` lies in the A-side scale tile (42_extract R116). -/
def scaOff (s : State) (w : WarpId) (ph : Phase) (slot : Fin 4) (mi : Fin 2) (i : Nat) : Nat :=
  let r := rowOf w mi i
  let p := match ph with
    | .main => permAInv s r
    | .keeper => r
  scaBase slot + 2 * p

/-- Where the scale of tile column `colOf w ni j` lies in the B-side scale tile (42_extract R116). -/
def scbOff (w : WarpId) (slot : Fin 4) (ni : Fin 8) (j : Nat) : Nat := scbBase slot + 2 * colOf w ni j

/-- The bytes an LDSC reads, in loop order (42_extract R116). -/
def ldscOffs (s : State) (w : WarpId) (ph : Phase) (slot : Fin 4) : List Nat :=
  ((List.finRange 2).flatMap fun mi => (List.range 16).flatMap fun i => List.range' (scaOff s w ph slot mi i) 2) ++
    (List.finRange 8).flatMap fun ni => (List.range 8).flatMap fun j => List.range' (scbOff w slot ni j) 2

/-- The staging offset of tile element (R, C) (45_epilogue R138). -/
def epiOff (s : State) (row col : Nat) : Nat := epiBase + (128 * row + col) * s.derived.sz

/-- The indices (mi, ni, r, c) of an accumulator file, in loop order (44_dequant R131, 45_epilogue R139). -/
def accIndices : List (Fin 2 × Fin 8 × Fin 16 × Fin 8) :=
  (List.finRange 2).flatMap fun mi => (List.finRange 8).flatMap fun ni =>
    (List.finRange 16).flatMap fun r => (List.finRange 8).map fun c => (mi, ni, r, c)

/-- The place of an element in loop order, which tells the draws of one command apart (log 13). -/
def accPlace (mi : Fin 2) (ni : Fin 8) (r : Fin 16) (c : Fin 8) : Nat :=
  ((mi.val * 8 + ni.val) * 16 + r.val) * 8 + c.val

/-- One 16-byte piece of the staged tile that an STG copies: from scratch offset `off` to device address `dst`. -/
structure StorePiece where
  off : Nat
  dst : Nat
  deriving DecidableEq, Repr

/-- The piece lane `l` of STG `it` copies, none for a row at or beyond M (45_epilogue R140). -/
def stgPiece (s : State) (b : Block) (w : WarpId) (it l : Nat) : Option StorePiece :=
  let cpr := 8 * s.derived.sz
  let c := 256 * it + threadIdx w l
  let row := c / cpr
  let cc := c % cpr
  let grow := 128 * b.bm.toNat + row
  if rowLive s grow then
    some ⟨epiBase + 128 * s.derived.sz * row + 16 * cc,
      s.params.pD.toNat + (grow * s.params.n.toNat + 128 * b.bn.toNat) * s.derived.sz + 16 * cc⟩
  else none

/-- The pieces of an STG by warp `w`, in lane order (45_epilogue R140). -/
def stgPieces (s : State) (b : Block) (w : WarpId) (it : Nat) : List StorePiece :=
  (List.range 32).filterMap fun l => stgPiece s b w it l

end Sys2Proof.Machine
end

