-- ==== Sys2Proof/Machine/Dequant.lean ====
section
/-! DEFINITION. DEQ and the floating-point accumulator (44_dequant). -/

namespace Sys2Proof.Machine

/-- The combined scale of a row and a column scale, rounded to f16 and widened exactly (44_dequant R131, steps h and
s). `d` is the drawing command's number and `p` the element's place, used only by NaN results (log 13). -/
def scaleOf (cfg : Config) (d p : Nat) (x y : F16) : F32 :=
  cvtF16F32 (nanF32 cfg d (4 * p + 1)) (f16mul (nanF16 cfg d (4 * p)) x y)

/-- fold(a, i, x, y): the element `acc` after folding the integer partial product `i` under the scales `x` and `y`
(44_dequant R131, R134). -/
def foldElem (cfg : Config) (d p : Nat) (acc : F32) (i : S32) (x y : F16) : F32 :=
  if cfg.deqFused then
    f32fma cfg.ftz (nanF32 cfg d (4 * p + 3)) (cvtS32F32 i) (scaleOf cfg d p x y) acc
  else
    f32add cfg.ftz (nanF32 cfg d (4 * p + 3))
      (f32mul cfg.ftz (nanF32 cfg d (4 * p + 2)) (cvtS32F32 i) (scaleOf cfg d p x y)) acc

/-- FACC after a DEQ (44_dequant R131). -/
def foldedFacc (s : State) (x : Warp) (sa : Vector (Vector F16 16) 2) (sb : Vector (Vector F16 8) 8) : AccFile :=
  tab fun mi => tab fun ni => tab fun r => tab fun c =>
    foldElem s.cfg s.draws (accPlace mi ni r c) x.facc[mi][ni][r][c] x.iacc[mi][ni][r][c] sa[mi][r] sb[ni][c]

/-- The machine after the current command drew its free values (log 13). -/
def State.drawn (s : State) : State := { s with draws := s.draws + 1 }

/-- Warp `x` after a DEQ: FACC folded, IACC 0, SA and SB kept (44_dequant R131). -/
def dequantized (s : State) (sa : Vector (Vector F16 16) 2) (sb : Vector (Vector F16 8) 8) (x : Warp) : Warp :=
  { x with facc := foldedFacc s x sa sb, iacc := accFill 0 }

/-- DEQ (44_dequant R131). The spec gives the REG_UNINIT record of the scale registers no index; the model's is 0. DESIGN
CHOICE, unsafe (log 24). -/
def execDeq (s : State) : Host.Outcome State Fault Refusal :=
  s.runCommand fun b => match b.warps[s.cur.w].sa, b.warps[s.cur.w].sb with
    | some sa, some sb =>
      .ok (s.setBlock (b.updWarp s.cur.w fun x => (dequantized s sa sb x).advance)).drawn
    | _, _ => .error (.regUninit .scales 0)

end Sys2Proof.Machine
end

