-- ==== Sys2Proof/Machine/Epilogue.lean ====
section
/-! DEFINITION. CVTS, STG and END (45_epilogue). -/

namespace Sys2Proof.Machine

/-- The OUT_TYPE encoding (10_state R18): 3 is reserved. -/
def outTypeOfBits (b : BitVec 2) : Option OutType :=
  if b = 0 then some .f32 else if b = 1 then some .f16 else if b = 2 then some .f8 else none

/-- The `n` bytes of a value, the lowest first (20_memory R43). -/
def leBytes (n : Nat) (v : Nat) : List Byte := (List.range n).map fun i => BitVec.ofNat 8 (v / 256 ^ i)

/-- cvt_out (45_epilogue R135): the SZ bytes of an FACC element in the output type; no byte for the reserved type,
which no launch accepts (log 19). `p` is the element's place, used only by NaN results (log 13). -/
def cvtOut (s : State) (p : Nat) (x : F32) : List Byte :=
  match outTypeOfBits s.params.outType with
  | some .f32 => leBytes 4 x.toNat
  | some .f16 => leBytes 2 (cvtF32F16 s.cfg.ftz (nanF16 s.cfg s.draws p) x).toNat
  | some .f8 => leBytes 1 (cvtF32F8 s.cfg.fp8Fmt s.cfg.ftz (nanF8 s.cfg s.draws p) x).toNat
  | none => []

/-- The tile row of element r of sub-tile row mi, and the tile column of element c of sub-tile column ni
(45_epilogue R138). -/
def stageOff (s : State) (w : WarpId) (mi : Fin 2) (ni : Fin 8) (r : Fin 16) (c : Fin 8) : Nat :=
  epiOff s (rowOf w mi r.val) (colOf w ni c.val)

/-- The staging writes of a CVTS, in loop order: offset and bytes (45_epilogue R139). -/
def stageWrites (s : State) (x : Warp) (w : WarpId) : List (Nat × List Byte) :=
  accIndices.map fun (mi, ni, r, c) =>
    (stageOff s w mi ni r c, cvtOut s (accPlace mi ni r c) x.facc[mi][ni][r][c])

/-- The staging writes performed one after another. -/
def Block.writeAll (b : Block) (w : WarpId) (ws : List (Nat × List Byte)) : Block :=
  ws.foldl (fun b p => b.writeBytes w p.1 p.2) b

/-- CVTS (45_epilogue R139). -/
def execCvts (s : State) : Host.Outcome State Fault Refusal :=
  s.runCommand fun b =>
    let ws := stageWrites s b.warps[s.cur.w] s.cur.w
    match ws.findSome? fun p => b.writeFault s.derived.scrBytes s.cur.w p.1 p.2.length with
    | some c => .error c
    | none => .ok (s.setBlock ((b.writeAll s.cur.w ws).updWarp s.cur.w Warp.advance)).drawn

/-- The first failing check of one stored piece: its scratch read, then its device write (60_exceptions R162). -/
def storeFault (s : State) (b : Block) (p : StorePiece) : Option Cause :=
  (b.readFault s.derived.scrBytes s.cur.w p.off 16).or (s.memWriteFault p.dst 16)

/-- The 16 staged bytes of a piece (45_epilogue R140). -/
def pieceBytes (b : Block) (p : StorePiece) : List Byte := (List.range' p.off 16).map b.byte

/-- Device memory after the pieces are copied out of the block's staging area (45_epilogue R140). -/
def storePieces (b : Block) (ps : List StorePiece) (m : Memory) : Memory :=
  ps.foldl (fun m p => m.writeBytes p.dst (pieceBytes b p)) m

/-- An STG iteration is out of range: it >= ITERS (45_epilogue R140). -/
def stgItBad (s : State) (it : Nat) : Bool := s.derived.iters ≤ it

/-- Block `b` after an STG of the pieces `ps` by warp `w`: their bytes read, pc + 1. -/
def storedFrom (b : Block) (w : WarpId) (ps : List StorePiece) : Block :=
  (b.markReads w (ps.flatMap fun p => List.range' p.off 16)).updWarp w Warp.advance

/-- STG it (45_epilogue R140). -/
def execStg (it : Nat) (s : State) : Host.Outcome State Fault Refusal :=
  s.runCommand fun b =>
    let ps := stgPieces s b s.cur.w it
    if stgItBad s it then .error (.illegalOperand it)
    else match ps.findSome? (storeFault s b) with
      | some c => .error c
      | none => .ok { s.setBlock (storedFrom b s.cur.w ps) with mem := storePieces b ps s.mem }

/-- END (45_epilogue R141): the pc stays; the last END of a grid with no unperformed copy completes the invocation
(46_sequencer R152, R154). -/
def execEnd (s : State) : Host.Outcome State Fault Refusal :=
  s.runCommand fun b => .ok (s.setBlock (b.updWarp s.cur.w fun x => { x with st := .done })).settle

end Sys2Proof.Machine
end

