-- ==== Sys2Proof/Machine/Extract.lean ====
section
/-! DEFINITION. LDM.A, LDM.B and LDSC: checked reads of the scratchpad into the fragments and the scale registers
(42_extract). -/

namespace Sys2Proof.Machine

/-- Read the scratch bytes `offs` for the current warp, then load its registers by `f` and advance the pc: all
checks first, in order (20_memory R60, 00_scope R14). -/
def loadRegs (s : State) (b : Block) (offs : List Nat) (f : Warp → Warp) : Except Cause State :=
  match offs.findSome? (b.readByteFault s.derived.scrBytes s.cur.w) with
  | some c => .error c
  | none => .ok (s.setBlock ((b.markReads s.cur.w offs).updWarp s.cur.w fun x => (f x).advance))

/-- The A fragment an LDM.A reads (42_extract R113). -/
def fragAOf (s : State) (b : Block) (w : WarpId) (slot : Fin 4) (ks mi : Fin 2) : FragA :=
  tab fun r2 => tab fun k => b.byte (ldmAOff s w slot ks mi r2.val k.val)

/-- The B fragment an LDM.B reads (42_extract R114). -/
def fragBOf (s : State) (b : Block) (w : WarpId) (slot : Fin 4) (ks : Fin 2) (ni : Fin 8) : FragB :=
  tab fun c2 => tab fun k => b.byte (ldmBOff s w slot ks ni c2.val k.val)

/-- The row scales an LDSC reads (42_extract R116). -/
def saOf (s : State) (b : Block) (w : WarpId) (ph : Phase) (slot : Fin 4) : Vector (Vector F16 16) 2 :=
  tab fun mi => tab fun i => b.half (scaOff s w ph slot mi i.val)

/-- The column scales an LDSC reads (42_extract R116). -/
def sbOf (b : Block) (w : WarpId) (slot : Fin 4) : Vector (Vector F16 8) 8 :=
  tab fun ni => tab fun j => b.half (scbOff w slot ni j.val)

/-- LDM.A s, ks, mi (42_extract R113). -/
def execLdmA (slot : Fin 4) (ks mi : Fin 2) (s : State) : Host.Outcome State Fault Refusal :=
  s.runCommand fun b => loadRegs s b (ldmAOffs s s.cur.w slot ks mi) fun x =>
    { x with fa := x.fa.set mi (some (fragAOf s b s.cur.w slot ks mi)) }

/-- LDM.B s, ks, ni (42_extract R114). -/
def execLdmB (slot : Fin 4) (ks : Fin 2) (ni : Fin 8) (s : State) : Host.Outcome State Fault Refusal :=
  s.runCommand fun b => loadRegs s b (ldmBOffs s s.cur.w slot ks ni) fun x =>
    { x with fb := x.fb.set ni (some (fragBOf s b s.cur.w slot ks ni)) }

/-- LDSC s (42_extract R116). -/
def execLdsc (ph : Phase) (slot : Fin 4) (s : State) : Host.Outcome State Fault Refusal :=
  s.runCommand fun b => loadRegs s b (ldscOffs s s.cur.w ph slot) fun x =>
    { x with sa := some (saOf s b s.cur.w ph slot), sb := some (sbOf b s.cur.w slot) }

end Sys2Proof.Machine
end

