-- ==== Sys2Proof/Machine/Loader.lean ====
section
/-! DEFINITION. The asynchronous copy commands LDG.A, LDG.B and LDGS (40_loader). -/

namespace Sys2Proof.Machine

/-- The first failing check of one copy: the device read of a live chunk, then its scratch claim (60_exceptions
R162, 20_memory R55, R62). -/
def copyFault (s : State) (b : Block) (w : WarpId) (c : Chunk) : Option Cause :=
  (c.src.bind fun a => s.memReadFault a c.n).or (b.writeFault s.derived.scrBytes w c.dst c.n)

/-- The record of an issued copy: the bytes read at issue, or zeros where the chunk is not live (10_state R35,
41_pipeline_sync R101). -/
def copyRecord (s : State) (c : Chunk) : CopyRecord where
  dst := c.dst
  data := match c.src with
    | some a => s.mem.readBytes a c.n
    | none => List.replicate c.n 0
  performed := false

/-- Warp `x` after issuing the records `rs` (41_pipeline_sync R101). -/
def Warp.issue (rs : List CopyRecord) (x : Warp) : Warp := { x with openGrp := x.openGrp ++ rs }

/-- Block `b` after warp `w` issued the copies `chunks`: their bytes claimed, their records in OPEN[w], pc + 1. -/
def issued (s : State) (b : Block) (w : WarpId) (chunks : List Chunk) : Block :=
  (b.claim w (chunks.flatMap Chunk.offs)).updWarp w fun x => (x.issue (chunks.map (copyRecord s))).advance

/-- Issue the copies `chunks` of the current warp, all or none (00_scope R14). -/
def issueCopies (s : State) (b : Block) (chunks : List Chunk) : Except Cause State :=
  match chunks.findSome? (copyFault s b s.cur.w) with
  | some c => .error c
  | none => .ok (s.setBlock (issued s b s.cur.w chunks))

/-- LDG.A s, kt (40_loader R94). -/
def execLdgA (ph : Phase) (slot : Fin 4) (kt : Nat) (s : State) : Host.Outcome State Fault Refusal :=
  s.runCommand fun b =>
    if keeperKtBad ph kt then .error (.illegalOperand kt)
    else issueCopies s b (ldgAChunks s b s.cur.w ph slot kt)

/-- LDG.B s, kt (40_loader R95). -/
def execLdgB (ph : Phase) (slot : Fin 4) (kt : Nat) (s : State) : Host.Outcome State Fault Refusal :=
  s.runCommand fun b =>
    if keeperKtBad ph kt then .error (.illegalOperand kt)
    else issueCopies s b (ldgBChunks s b s.cur.w ph slot kt)

/-- LDGS s, kt (40_loader R98). -/
def execLdgs (ph : Phase) (slot : Fin 4) (kt : Nat) (s : State) : Host.Outcome State Fault Refusal :=
  s.runCommand fun b =>
    if keeperKtBad ph kt then .error (.illegalOperand kt)
    else issueCopies s b (ldgsChunks s b s.cur.w ph slot kt)

end Sys2Proof.Machine
end

