-- ==== Sys2Proof/Machine/Mma.lean ====
section
/-! DEFINITION. MMA4 and MMA8 and the integer accumulator (43_mma). -/

namespace Sys2Proof.Machine

/-- Element `k` of a fragment row read as 64 signed 4-bit elements, the low nibble first (43_mma R118). -/
def s4 (x : Vector Byte 32) (k : Fin 64) : Int := (x[k.val / 2].extractLsb' (4 * (k.val % 2)) 4).toInt

/-- Element `k` of a fragment row read as 32 signed 8-bit elements (43_mma R118). -/
def s8 (x : Vector Byte 32) (k : Fin 32) : Int := x[k].toInt

/-- The exact sum of 64 products (43_mma R119). -/
def dot4 (x y : Vector Byte 32) : Int := ((List.finRange 64).map fun k => s4 x k * s4 y k).sum

/-- The exact sum of 32 products (43_mma R120). -/
def dot8 (x y : Vector Byte 32) : Int := ((List.finRange 32).map fun k => s8 x k * s8 y k).sum

/-- wrap32 of the accumulator plus an exact sum (00_scope R11, 43_mma R121). -/
def accAdd (acc : S32) (sum : Int) : S32 := BitVec.ofInt 32 (acc.toInt + sum)

/-- The accumulator file with sub-tile (mi, ni) changed by `f` at every row and column. -/
def updSubtile (acc : AccFile) (mi : Fin 2) (ni : Fin 8) (f : Fin 16 → Fin 8 → BitVec 32 → BitVec 32) : AccFile :=
  acc.set mi (acc[mi].set ni (tab fun r => tab fun c => f r c acc[mi][ni][r][c]))

/-- A multiply-accumulate of sub-tile (mi, ni) by the dot product `dot`, with the checks of 10_state R28: FA before FB
(60_exceptions R162). -/
def mmaWith (dot : Vector Byte 32 → Vector Byte 32 → Int) (mi : Fin 2) (ni : Fin 8) (s : State) (b : Block) :
    Except Cause State :=
  let x := b.warps[s.cur.w]
  match x.fa[mi] with
  | none => .error (.regUninit .fa mi.val)
  | some fa => match x.fb[ni] with
    | none => .error (.regUninit .fb ni.val)
    | some fb => .ok (s.setBlock (b.updWarp s.cur.w fun x =>
        { x with iacc := updSubtile x.iacc mi ni fun r c acc => accAdd acc (dot fa[r] fb[c]) }.advance))

/-- MMA4 mi, ni (43_mma R119). -/
def execMma4 (mi : Fin 2) (ni : Fin 8) (s : State) : Host.Outcome State Fault Refusal :=
  s.runCommand fun b => mmaWith dot4 mi ni s b

/-- MMA8 mi, ni (43_mma R120). -/
def execMma8 (mi : Fin 2) (ni : Fin 8) (s : State) : Host.Outcome State Fault Refusal :=
  s.runCommand fun b => mmaWith dot8 mi ni s b

end Sys2Proof.Machine
end

