-- ==== Sys2Proof/Machine/Sequencer.lean ====
section
/-! DEFINITION. NOP, the pseudo-commands (30_encoding R84) and the canonical command stream (46_sequencer R149). -/

namespace Sys2Proof.Machine

/-- NOP (46_sequencer R146). -/
def execNop (s : State) : Host.Outcome State Fault Refusal :=
  s.runCommand fun b => .ok (s.setBlock (b.updWarp s.cur.w Warp.advance))

/-! ## Pseudo-commands (30_encoding R84) -/

/-- LOAD.p s, kt. -/
def pseudoLoad (ph : Phase) (slot : Fin 4) (kt : Nat) : List Instr := [.ldgA ph slot kt, .ldgB ph slot kt, .ldgs ph slot kt]

/-- The MMA of a phase: MMA4 for main stages, MMA8 for keeper stages (43_mma R122). -/
def mmaOf : Phase → Fin 2 → Fin 8 → Instr
  | .main, mi, ni => .mma4 mi ni
  | .keeper, mi, ni => .mma8 mi ni

/-- KSTEP.p s, ks. -/
def pseudoKstep (ph : Phase) (slot : Fin 4) (ks : Fin 2) : List Instr :=
  (List.finRange 2).map (Instr.ldmA slot ks) ++ (List.finRange 8).map (Instr.ldmB slot ks) ++
    (List.finRange 2).flatMap fun mi => (List.finRange 8).map (mmaOf ph mi)

/-- COMPUTE.p s. -/
def pseudoCompute (ph : Phase) (slot : Fin 4) : List Instr := pseudoKstep ph slot 0 ++ pseudoKstep ph slot 1

/-- FOLD.p s. -/
def pseudoFold (ph : Phase) (slot : Fin 4) : List Instr := [.ldsc ph slot, .deq]

/-- EPILOGUE, with ITERS = 4·SZ. -/
def pseudoEpilogue (sz : Nat) : List Instr :=
  [.wait 0, .bar, .cvts, .bar] ++ (List.range (4 * sz)).map Instr.stg ++ [.endWarp]

/-! ## The canonical stream (46_sequencer R149) -/

/-- stage(j): the phase and k-tile of stage `j` of an invocation with `t` main stages. -/
def stageOf (t j : Nat) : Phase × Nat := if j < t then (.main, j) else (.keeper, j - t)

/-- slot(j) = j mod 4. -/
def slotOf (j : Nat) : Fin 4 := Fin.ofNat 4 j

/-- LOAD(j). -/
def loadStage (t j : Nat) : List Instr := pseudoLoad (stageOf t j).1 (slotOf j) (stageOf t j).2

/-- Iteration `j` of the prologue. -/
def prologueIter (t j : Nat) : List Instr := (if j < t + 2 then loadStage t j else []) ++ [.commit]

/-- The end of a group: every main stage, and the second keeper stage. -/
def foldStage (t j : Nat) : List Instr :=
  if (stageOf t j).1 = .main ∨ (stageOf t j).2 = 1 then pseudoFold (stageOf t j).1 (slotOf j) else []

/-- Iteration `j` of the main loop. -/
def mainIter (t j : Nat) : List Instr :=
  [.wait 2, .bar] ++ (if j + 3 < t + 2 then loadStage t (j + 3) else []) ++ [.commit] ++
    pseudoCompute (stageOf t j).1 (slotOf j) ++ foldStage t j

/-- canonical(T, SZ). -/
def canonical (t sz : Nat) : List Instr :=
  (List.range 3).flatMap (prologueIter t) ++ (List.range (t + 2)).flatMap (mainIter t) ++ pseudoEpilogue sz

/-- The words of the canonical stream. -/
def canonicalWords (t sz : Nat) : List Cmd := (canonical t sz).map encode

end Sys2Proof.Machine
end

