-- ==== Sys2Proof/Machine/Sync.lean ====
section
/-! DEFINITION. COMMIT, WAIT and BAR, the copy agent's step and the barrier's release (41_pipeline_sync). -/

namespace Sys2Proof.Machine

/-- Close the open copy group (41_pipeline_sync R105). -/
def Warp.commitGroup (x : Warp) : Warp := { x with groups := x.groups ++ [x.openGrp], openGrp := [] }

/-- COMMIT (41_pipeline_sync R105). -/
def execCommit (s : State) : Host.Outcome State Fault Refusal :=
  s.runCommand fun b => .ok (s.setBlock (b.updWarp s.cur.w fun x => x.commitGroup.advance))

/-- The records of all but the `n` most recent committed groups (41_pipeline_sync R106). -/
def Warp.oldRecords (x : Warp) (n : Nat) : List CopyRecord := (x.groups.take (x.groups.length - n)).flatten

/-- A WAIT n of this warp holds: a record of the groups it waits for is not performed (41_pipeline_sync R106). -/
def Warp.waitHolds (x : Warp) (n : Nat) : Bool := (x.oldRecords n).any fun r => !r.performed

/-- Keep the `n` most recent committed groups (41_pipeline_sync R106). -/
def Warp.keepGroups (n : Nat) (x : Warp) : Warp := { x with groups := x.groups.drop (x.groups.length - n) }

/-- The scratch offsets of a copy record. -/
def CopyRecord.offs (r : CopyRecord) : List Nat := List.range' r.dst r.data.length

/-- Block `b` after warp `w` completed WAIT n (41_pipeline_sync R106). -/
def waited (b : Block) (w : WarpId) (n : Nat) : Block :=
  (b.retire ((b.warps[w].oldRecords n).flatMap CopyRecord.offs)).updWarp w fun x => (x.keepGroups n).advance

/-- WAIT n (41_pipeline_sync R106). A WAIT that holds has no enabled step: nothing changes (log 2). -/
def execWait (n : Nat) (s : State) : Host.Outcome State Fault Refusal :=
  s.runCommand fun b =>
    if b.warps[s.cur.w].waitHolds n then .ok s else .ok (s.setBlock (waited b s.cur.w n))

/-- Block `b` after warp `w` arrived at a BAR; the pc is not advanced (41_pipeline_sync R107). -/
def arrivedAt (b : Block) (w : WarpId) : Block :=
  { b.updWarp w fun x => { x with st := .atBar } with arrived := b.arrived.set w (some b.warps[w].pc) }

/-- BAR, the arrival (41_pipeline_sync R107). -/
def execBar (s : State) : Host.Outcome State Fault Refusal :=
  s.runCommand fun b => .ok (s.setBlock (arrivedAt b s.cur.w))

/-! ## The barrier's release -/

/-- The release is enabled: every warp has ST = AT_BAR (41_pipeline_sync R107). -/
def Block.releaseEnabled (b : Block) : Bool := (List.finRange 8).all fun w => decide (b.warps[w].st = .atBar)

/-- All eight recorded pcs are equal (41_pipeline_sync R107). -/
def Block.samePcs (b : Block) : Bool := (List.finRange 8).all fun w => decide (b.arrived[w] = b.arrived[0])

/-- Block `b` after a release with equal pcs (41_pipeline_sync R107). -/
def Block.released (b : Block) : Block :=
  { b with
    gen := b.gen + 1
    warps := tab fun w => { b.warps[w].advance with st := .run }
    arrived := Vector.replicate 8 none }

/-- Block `b` after a release with different pcs: one BAR_MISMATCH record, every warp FAULTED (41_pipeline_sync
R107, 60_exceptions R158; log 10). No warp is AT_BAR any more, so ARRIVED is empty (10_state R33; log 20). -/
def Block.mismatched (b : Block) : Block :=
  { b with
    warps := tab fun w => { b.warps[w] with st := .faulted }
    arrived := Vector.replicate 8 none
    log := b.log ++ [⟨.barMismatch b.arrived.toList, b.bm, b.bn, none, none, none⟩] }

/-- The machine after the release of the block `b` at place `blk`. -/
def State.release (s : State) (blk : Nat) (b : Block) : State :=
  if b.samePcs then { s with blocks := s.blocks.set blk b.released }
  else { s with blocks := s.blocks.set blk b.mismatched, inv := .failed }

/-! ## The copy agent -/

/-- The record at a place. -/
def Warp.recordAt (x : Warp) : CopyPlace → Option CopyRecord
  | .inOpen k => x.openGrp[k]?
  | .inGroup g k => x.groups[g]?.bind fun grp => grp[k]?

/-- The performed flag set (41_pipeline_sync R102). -/
def CopyRecord.perform (r : CopyRecord) : CopyRecord := { r with performed := true }

/-- The performed flag set in the record at a place. -/
def Warp.performAt (x : Warp) : CopyPlace → Warp
  | .inOpen k => { x with openGrp := x.openGrp.modify k CopyRecord.perform }
  | .inGroup g k => { x with groups := x.groups.modify g fun grp => grp.modify k CopyRecord.perform }

/-- Block `b` after its copy agent performed the record `r` of warp `w` at `place`: the bytes land, the tags' writer
and vis do not change (41_pipeline_sync R102). -/
def Block.performed (b : Block) (w : WarpId) (place : CopyPlace) (r : CopyRecord) : Block :=
  (b.land r.dst r.data).updWarp w fun x => x.performAt place

/-- The unperformed record the copy agent's choice names, if there is one (41_pipeline_sync R102). -/
def Block.toPerform (b : Block) (w : WarpId) (place : CopyPlace) : Option CopyRecord :=
  (b.warps[w].recordAt place).filter fun r => !r.performed

/-- The machine after the copy agent's step; the last copy of a grid whose warps are all DONE completes the
invocation (46_sequencer R152, R154). -/
def State.performCopy (s : State) (blk : Nat) (b : Block) (w : WarpId) (place : CopyPlace) (r : CopyRecord) : State :=
  State.settle { s with blocks := s.blocks.set blk (b.performed w place r) }

end Sys2Proof.Machine
end

