-- ==== Sys2Proof/Machine/Dispatch.lean ====
section
/-! DEFINITION. One arm per command: each calls its meaning. -/

namespace Sys2Proof.Machine

def exec (i : Instr) (s : State) : Host.Outcome State Fault Refusal :=
  match i with
  | .nop => Sys2Proof.Machine.execNop s
  | .ldgA ph slot kt => Sys2Proof.Machine.execLdgA ph slot kt s
  | .ldgB ph slot kt => Sys2Proof.Machine.execLdgB ph slot kt s
  | .ldgs ph slot kt => Sys2Proof.Machine.execLdgs ph slot kt s
  | .commit => Sys2Proof.Machine.execCommit s
  | .wait n => Sys2Proof.Machine.execWait n s
  | .bar => Sys2Proof.Machine.execBar s
  | .ldmA slot ks mi => Sys2Proof.Machine.execLdmA slot ks mi s
  | .ldmB slot ks ni => Sys2Proof.Machine.execLdmB slot ks ni s
  | .ldsc ph slot => Sys2Proof.Machine.execLdsc ph slot s
  | .mma4 mi ni => Sys2Proof.Machine.execMma4 mi ni s
  | .mma8 mi ni => Sys2Proof.Machine.execMma8 mi ni s
  | .deq => Sys2Proof.Machine.execDeq s
  | .cvts => Sys2Proof.Machine.execCvts s
  | .stg it => Sys2Proof.Machine.execStg it s
  | .endWarp => Sys2Proof.Machine.execEnd s

end Sys2Proof.Machine
end

