-- ==== Sys2Proof/Machine/Launch.lean ====
section
/-! DEFINITION. The launch: the return flag, the four checks, the derived registers and the grid (60_exceptions R163 to
R169, 70_reset_and_hazards R179, 46_sequencer R153). -/

namespace Sys2Proof.Machine

/-- SZ (00_scope R9): 4 if F32, 2 if F16, 1 if F8; 0 for the reserved encoding, which no launch accepts (log 19). -/
def szOf (b : BitVec 2) : Nat :=
  match outTypeOfBits b with
  | some .f32 => 4
  | some .f16 => 2
  | some .f8 => 1
  | none => 0

/-- SCR_BYTES by the formula of 00_scope R9. -/
def scrBytesOf (sz : Nat) : Nat := max (4 * (2 * 128 * 64) + 4 * (2 * 128 * 2)) (128 * 128 * sz)

/-- The derived registers of the arguments M, N, K and OUT_TYPE (00_scope R9). -/
def deriveRegs (m n k : Nat) (outType : BitVec 2) : Derived where
  kMain := k - 128
  rb := (k - 128) / 2
  t := (k - 128 + 127) / 128
  g := (k - 128 + 127) / 128
  s := (k - 128 + 127) / 128 + 2
  mpad := 128 * ((m + 127) / 128)
  gm := (m + 127) / 128
  gn := n / 128
  sz := szOf outType
  iters := 4 * szOf outType
  scrBytes := scrBytesOf (szOf outType)

/-- The derived registers of the parameter registers (10_state R20). -/
def Params.derive (p : Params) : Derived := deriveRegs p.m.toNat p.n.toNat p.k.toNat p.outType

/-- RET = (OUT_TYPE in SUPPORTED) (60_exceptions R164). -/
def retFlag (cfg : Config) (outType : BitVec 2) : Bool :=
  match outTypeOfBits outType with
  | some o => decide (o ∈ cfg.supported)
  | none => false

/-- The dimension check (60_exceptions R166), true where all of it holds. -/
def dimsOk (m n k : Nat) : Bool :=
  decide (1 ≤ m) && decide (128 ≤ n) && decide (n % 128 = 0) && decide (128 ≤ k) && decide ((k - 128) % 32 = 0) &&
    decide ((k - 128 + 127) / 128 ≤ 65536) && decide (m < 2 ^ 32) && decide (n < 2 ^ 32) && decide (k < 2 ^ 32)

/-- The pointers of a launch record, in register order. -/
def LaunchRecord.ptrs (r : LaunchRecord) : Vector Addr 9 :=
  #v[r.pA, r.pB, r.pAS, r.pBS, r.pAK, r.pBK, r.pAKS, r.pBKS, r.pD]

/-- The pointer check (60_exceptions R167): the first pointer, in register order, that is not a multiple of 128. -/
def misalignedPtr? (r : LaunchRecord) : Option LaunchFault :=
  (List.finRange 9).findSome? fun i =>
    if r.ptrs[i].toNat % 128 = 0 then none else some (.misalignedPtr i.val r.ptrs[i])

/-- The ranges [a, a + la) and [d, d + ld) share a byte. -/
def rangesMeet (a la d ld : Nat) : Bool := decide (max a d < min (a + la) (d + ld))

/-- The aliasing check (60_exceptions R168). Where several inputs share a byte with D, the record names the first in
register order, and 8 for D. DESIGN CHOICE, unsafe (log 25). -/
def overlapsD? (r : LaunchRecord) : Option LaunchFault :=
  (List.finRange 8).findSome? fun i =>
    if rangesMeet r.ptrs[i.castSucc].toNat r.bufLen[i.castSucc] r.pD.toNat r.bufLen[8] then some (.overlapsD i.val 8)
    else none

/-- The scratch check (60_exceptions R169). -/
def scratchFault? (cfg : Config) (r : LaunchRecord) : Option LaunchFault :=
  let need := scrBytesOf (szOf r.outType)
  if need ≤ r.rs ∧ need ≤ cfg.scratchCapacity then none else some (.scratchSize r.rs need cfg.scratchCapacity)

/-- The launch checks in the order of 60_exceptions R165; the first that fails is reported alone (R162). -/
def launchCheck (cfg : Config) (r : LaunchRecord) : Option LaunchFault :=
  if dimsOk r.m r.n r.k then (misalignedPtr? r).or ((overlapsD? r).or (scratchFault? cfg r))
  else some (.badDims r.m r.n r.k)

/-- The parameter registers a launch writes (10_state R17). An M, N or K that does not fit 32 bits, which the dimension check
refuses, is held modulo 2^32. DESIGN CHOICE, unsafe (log 16). -/
def LaunchRecord.params (r : LaunchRecord) : Params where
  pA := r.pA
  pB := r.pB
  pAS := r.pAS
  pBS := r.pBS
  pAK := r.pAK
  pBK := r.pBK
  pAKS := r.pAKS
  pBKS := r.pBKS
  pD := r.pD
  m := BitVec.ofNat 32 r.m
  n := BitVec.ofNat 32 r.n
  k := BitVec.ofNat 32 r.k
  outType := r.outType

/-- The blocks of the grid, each at its reset, the columns of one row after another (46_sequencer R153). -/
def gridOf (gm gn : Nat) : List Block :=
  (List.range gm).flatMap fun bm => (List.range gn).map fun bn => Block.reset (BitVec.ofNat 32 bm) (BitVec.ofNat 32 bn)

/-- The command stream of a launch: the host's, else the canonical one (60_exceptions R163; log 21). Both have at most
2^32 − 1 words, the canonical one where the dimension check passes (46_sequencer R145, R150). -/
def LaunchRecord.stream (r : LaunchRecord) (d : Derived) : List Cmd :=
  match r.cs with
  | some cs => cs.val
  | none => canonicalWords d.t d.sz

/-- The machine holding the arguments of a launch, before RET and the checks: no state of an earlier invocation is
left (10_state R40), device memory is what the host gives (10_state R38; log 5), and no derived register is computed yet:
they hold what they hold before any launch (log 16). -/
def State.withArguments (s : State) (r : LaunchRecord) : State :=
  { s with
    params := r.params
    derived := Derived.unset
    bufLen := r.bufLen
    rs := r.rs
    cs := []
    mem := memOfCells r.bytes
    inv := .rejected
    ret := false
    launchFault := none
    blocks := [] }

/-- A launch of the record `r` (70_reset_and_hazards R179): RET first, then the checks, and where all pass the derived registers
and then the grid. -/
def State.launch (s : State) (r : LaunchRecord) : State :=
  let s1 := s.withArguments r
  if retFlag s.cfg r.outType then
    match launchCheck s.cfg r with
    | some f => { s1 with ret := true, launchFault := some f }
    | none =>
      let d := r.params.derive
      { s1 with
        ret := true
        derived := d
        cs := r.stream d
        inv := .running
        blocks := gridOf d.gm d.gn }
  else s1

/-! ## What the host finds (60_exceptions R160, R170) -/

/-- What the host finds at the device address `a`: nothing while an invocation runs, when it makes no move (60_exceptions
R163); after a fault any bytes in D, free values whatever the STGs before it stored (R160); else what memory holds.
DESIGN CHOICE, safe (log 22). -/
def State.hostByte (s : State) (a : Nat) : Option Byte :=
  match s.inv with
  | .running => none
  | .failed =>
    some (if s.inBuffer 8 a 1 then Config.lostByte s.tick a else s.mem.read a)
  | _ => some (s.mem.read a)

/-- The host reads D only when the invocation is COMPLETE (60_exceptions R170, 46_sequencer R154): the SZ bytes of
D[m][n] (20_memory R50). -/
def hostReadsD (s : State) (m n : Nat) : Option (List Byte) :=
  if s.inv = .complete then
    some (s.mem.readBytes (s.params.pD.toNat + s.derived.sz * (m * s.params.n.toNat + n)) s.derived.sz)
  else none

end Sys2Proof.Machine
end

