-- ==== Sys2Proof/Machine/Agents.lean ====
section
/-! DEFINITION. The steps of the agents of 10_state R16, and which agent steps next. -/

namespace Sys2Proof.Machine

/-- The agent that steps next: the first of the schedule, else a free one (log 1). -/
def State.nextAgent (s : State) : Agent :=
  match s.sched with
  | a :: _ => a
  | [] => Config.freeAgent s.tick

/-- The machine after the choice of the next agent is used up. -/
def State.choiceTaken (s : State) : State := { s with sched := s.sched.tail, tick := s.tick + 1 }

/-- The command at warp `w`'s pc is a WAIT that holds (46_sequencer R144). -/
def Block.warpHolds (b : Block) (s : State) (w : WarpId) : Bool :=
  match s.fetch b w with
  | none => false
  | some word => match decode word with
    | .ok (.wait n) => b.warps[w].waitHolds n
    | _ => false

/-- Warp `w` of block `b` has an enabled step (46_sequencer R144): ST is RUN and its command is no WAIT that holds. -/
def Block.warpEnabled (b : Block) (s : State) (w : WarpId) : Bool :=
  decide (b.warps[w].st = .run) && !b.warpHolds s w

/-- The copy agent of block `b` has an enabled step (41_pipeline_sync R102). -/
def Block.copyEnabled (b : Block) : Bool := (List.finRange 8).any fun w => b.warps[w].records.any fun r => !r.performed

/-- Some agent of block `b` has an enabled step. -/
def Block.enabled (b : Block) (s : State) : Bool :=
  ((List.finRange 8).any fun w => b.warpEnabled s w) || b.copyEnabled || b.releaseEnabled

/-- The invocation is RUNNING and no agent of any block has an enabled step (41_pipeline_sync R109, 46_sequencer
R152). -/
def State.stuck (s : State) : Bool := decide (s.inv = .running) && s.blocks.all fun b => !b.enabled s

/-- The chosen agent has no enabled step: nothing but the choice is used up, or the machine is stuck for good
(log 2). -/
def State.idleStep (s : State) : Host.Outcome State Fault Refusal := if s.stuck then .fault .stuck else .next s

/-- The machine about to run a command of warp `w` of the block at `blk`. -/
def State.asWarp (s : State) (blk : Nat) (w : WarpId) : State := { s with cur := ⟨blk, w⟩ }

/-- A warp step of warp `w` of the block at `blk` (46_sequencer R144; the priority of 60_exceptions R162). -/
def State.warpStep (s : State) (blk : Nat) (w : WarpId) : Host.Outcome State Fault Refusal :=
  match s.blocks[blk]? with
  | none => s.idleStep
  | some b =>
    if s.inv = .running ∧ b.warps[w].st = .run then
      match s.fetch b w with
      | none => .next ((s.asWarp blk w).raise b .pcOverrun)
      | some word => match decode word with
        | .error _ => .next ((s.asWarp blk w).raise b .illegalCmd)
        | .ok i => exec i (s.asWarp blk w)
    else s.idleStep

/-- A step of the copy agent of the block at `blk` (41_pipeline_sync R102). -/
def State.copyStep (s : State) (blk : Nat) (w : WarpId) (place : CopyPlace) : Host.Outcome State Fault Refusal :=
  match s.blocks[blk]? with
  | none => s.idleStep
  | some b => match b.toPerform w place with
    | none => s.idleStep
    | some r => if s.inv = .running then .next (s.performCopy blk b w place r) else s.idleStep

/-- A release of the barrier of the block at `blk` (41_pipeline_sync R107). -/
def State.barrierStep (s : State) (blk : Nat) : Host.Outcome State Fault Refusal :=
  match s.blocks[blk]? with
  | none => s.idleStep
  | some b => if s.inv = .running ∧ b.releaseEnabled then .next (s.release blk b) else s.idleStep

/-- The host's step: it launches its next record while no invocation runs (60_exceptions R163; log 5). -/
def State.hostStep (s : State) : Host.Outcome State Fault Refusal :=
  match s.launches with
  | [] => s.idleStep
  | r :: rest => if s.inv = .running then s.idleStep else .next ({ s with launches := rest }.launch r)

/-- The step of an agent. -/
def State.agentStep (s : State) : Agent → Host.Outcome State Fault Refusal
  | .warp blk w => s.warpStep blk w
  | .copy blk w place => s.copyStep blk w place
  | .barrier blk => s.barrierStep blk
  | .host => s.hostStep

/-- The blocks of a machine whose warp 0 of block 0 can step: a machine without a grid gets the one block (0, 0), and
that warp is RUN. -/
def runnableBlocks : List Block → List Block
  | [] => [Block.reset 0 0]
  | b :: t => b.updWarp 0 (fun x => { x with st := .run }) :: t

/-- The command stream with `word` at index `at_`, NOPs before it where the stream was shorter. -/
def placeWord (cs : List Cmd) (at_ : Nat) (word : Cmd) : List Cmd :=
  (cs ++ List.replicate (at_ + 1 - cs.length) (0 : Cmd)).set at_ word

/-- The index of the command warp 0 of block 0 executes next. -/
def firstPc (bs : List Block) : Nat :=
  match bs with
  | [] => 0
  | b :: _ => b.warps[0].pc.toNat

/-- The machine that steps warp 0 of block 0 next, with `word` as its command: what a launch of a stream that holds
the word, and the schedule, would set (log 15). -/
def State.placedWord (s : State) (word : Cmd) : State :=
  let bs := runnableBlocks s.blocks
  { s with
    blocks := bs
    inv := .running
    cs := placeWord s.cs (firstPc bs) word
    sched := .warp 0 0 :: s.sched }

end Sys2Proof.Machine
end

