-- ==== Sys2Proof/Machine/Step.lean ====
section
/-! DEFINITION. The step of the machine: one step of one agent, which the state names (10_state R16, 46_sequencer
R148). -/

namespace Sys2Proof.Machine

/-- One step: the next agent takes its step in the state whose choice of it is used up. -/
def step (s : State) : Host.Outcome State Fault Refusal := s.choiceTaken.agentStep s.nextAgent

/-- `s` with the word `w` where the next step fetches (log 15). Every command is one 32-bit word. -/
def State.withFetchWord (s : State) (_nbits w : Nat) : State := s.placedWord (BitVec.ofNat 32 w)

end Sys2Proof.Machine
end

