-- ==== Sys2Proof/Machine/Runs.lean ====
section
/-! DEFINITION. The executions of the machine, and which of them the spec considers: the weakly fair ones (41_pipeline_sync
R103, 70_reset_and_hazards R187). -/

namespace Sys2Proof.Machine

/-- Agent `a` has an enabled step in `s` (10_state R16): a warp or a release as 46_sequencer R144 and 41_pipeline_sync
R107 say, a copy of an unperformed record (41_pipeline_sync R102), a launch while no invocation runs (60_exceptions
R163; log 5). -/
def State.agentEnabled (s : State) : Agent → Bool
  | .warp blk w => decide (s.inv = .running) && s.blocks[blk]?.any fun b => b.warpEnabled s w
  | .copy blk w place => decide (s.inv = .running) && s.blocks[blk]?.any fun b => (b.toPerform w place).isSome
  | .barrier blk => decide (s.inv = .running) && s.blocks[blk]?.any Block.releaseEnabled
  | .host => decide (s.inv ≠ .running) && !s.launches.isEmpty

/-- The copy record `r` of warp `w` of the block at `blk` waits for the copy agent of a RUNNING invocation. It keeps its
identity while a COMMIT or a WAIT moves it. -/
def State.copyWaits (s : State) (blk : Nat) (w : WarpId) (r : CopyRecord) : Prop :=
  s.inv = .running ∧ r.performed = false ∧ ∃ b, s.blocks[blk]? = some b ∧ r ∈ b.warps[w].records

/-- An execution: each state is what the step before it answers. -/
def IsRun (run : Nat → State) : Prop := ∀ n, step (run n) = .next (run (n + 1))

/-- Weak fairness to the copy agent: "a record that stays unperformed cannot be skipped forever" (41_pipeline_sync
R103). -/
def FairToCopies (run : Nat → State) : Prop :=
  ∀ n blk w r, (run n).copyWaits blk w r → ∃ m, n ≤ m ∧ ¬(run m).copyWaits blk w r

/-- The execution does not idle forever while some agent has an enabled step. The spec's runs have enabled steps only
(46_sequencer R148); a choice of an agent that has none is the model's own (log 2, log 17). -/
def NeverIdlesForever (run : Nat → State) : Prop :=
  ∀ n, (∃ a, (run n).agentEnabled a = true) → ∃ m, n ≤ m ∧ (run m).agentEnabled (run m).nextAgent = true

/-- The executions the spec considers (41_pipeline_sync R103, 70_reset_and_hazards R187; log 17). -/
structure FairRun (run : Nat → State) : Prop where
  steps : IsRun run
  copies : FairToCopies run
  progress : NeverIdlesForever run

end Sys2Proof.Machine
end

