-- ==== Sys2Proof/Safety.lean ====
section
/-! DEFINITION. What counts as a safe run, in the terms the statements use: when an access passes its checks, and
the invariants of the machine. -/

namespace Sys2Proof.Machine

/-! ## When an access passes its checks -/

/-- A device read of `n` bytes at `a` passes MemRead's checks (20_memory R52, R54, R55). -/
def ReadOk (s : State) (a n : Nat) : Prop :=
  a % n = 0 ∧ a + n ≤ 2 ^ 64 ∧
    ∃ i : Fin 8, s.params.ptrs[i.castSucc].toNat ≤ a ∧
      a + n ≤ s.params.ptrs[i.castSucc].toNat + s.bufLen[i.castSucc]

/-- A device write of `n` bytes at `a` passes MemWrite's checks (20_memory R52, R54, R56). -/
def WriteOk (s : State) (a n : Nat) : Prop :=
  a % n = 0 ∧ a + n ≤ 2 ^ 64 ∧ s.params.pD.toNat ≤ a ∧ a + n ≤ s.params.pD.toNat + s.bufLen[8]

/-- The last write of a scratch byte is ordered before a step of warp `w`: it is `w`'s own, or a barrier completed
since (20_memory R60, R61). -/
def OrderedFor (b : Block) (w : WarpId) (off : Nat) (g0 : Nat) : Prop := (b.tag off).writer = some w ∨ g0 < b.gen

/-- Warp `w` may read the scratch byte at `off`: it passes the checks of 20_memory R60 and holds a value. -/
def Readable (lim : Nat) (b : Block) (w : WarpId) (off : Nat) : Prop :=
  off < lim ∧ (b.tag off).val.isSome ∧ ∃ g0, (b.tag off).vis = .done g0 ∧ OrderedFor b w off g0

/-- Warp `w` may write or claim the scratch byte at `off`: it passes the checks of 20_memory R61 and R62. -/
def Writable (lim : Nat) (b : Block) (w : WarpId) (off : Nat) : Prop :=
  off < lim ∧ (∀ w2 : WarpId, w2 ≠ w → (b.tag off).rd[w2] ≠ some b.gen) ∧ (b.tag off).vis ≠ .pending ∧
    ∀ g0, (b.tag off).vis = .done g0 → OrderedFor b w off g0

/-- A copy passes its checks: its device read where the chunk is live, and the claim of its scratch bytes. -/
def CopyOk (s : State) (b : Block) (w : WarpId) (c : Chunk) : Prop :=
  (∀ a, c.src = some a → ReadOk s a c.n) ∧ ∀ off ∈ c.offs, Writable s.derived.scrBytes b w off

/-- A stored piece passes its checks: its scratch read and its device write. -/
def PieceOk (s : State) (b : Block) (w : WarpId) (p : StorePiece) : Prop :=
  (∀ off ∈ List.range' p.off 16, Readable s.derived.scrBytes b w off) ∧ WriteOk s p.dst 16

/-! ## Safe runs -/

/-- A run is safe where no fault is recorded and no launch was refused. -/
def State.safe (s : State) : Bool := decide (s.inv ≠ .failed) && decide (s.inv ≠ .rejected)

/-! ## Invariants -/

/-- Device memory and every scratchpad are in canonical form, SCR_BYTES is the scratchpad's size (20_memory R58), and
every copy record lies in the scratchpad. -/
structure Canonical (s : State) : Prop where
  mem : s.mem.wf = true
  size : s.derived.scrBytes = 67584
  scr : ∀ b ∈ s.blocks, b.scrWf = true
  recs : ∀ b ∈ s.blocks, ∀ w : WarpId, ∀ r ∈ b.warps[w].records, r.dst + r.data.length ≤ 67584

/-- How many fault records the blocks of the invocation hold. -/
def State.faultCount (s : State) : Nat := (s.blocks.map fun b => b.log.length).sum

/-- A FAILED invocation has exactly one fault record, any other has none (60_exceptions R159, R162). -/
def OneFault (s : State) : Prop := s.faultCount = if s.inv = .failed then 1 else 0

/-- ARRIVED is the set of the warps that are AT_BAR, with their pcs (10_state R33). -/
def BarrierOk (s : State) : Prop :=
  ∀ b ∈ s.blocks, ∀ w : WarpId,
    b.arrived[w] = if b.warps[w].st = .atBar then some b.warps[w].pc else none

/-- What a scratch tag means in its block (20_memory R59): a written byte has a value, a writer and a generation that
is not in the future, a pending byte has a writer, an untouched byte has neither value nor writer, and no reader
read in the future. -/
structure TagOk (gen : Nat) (t : Tag) : Prop where
  done : ∀ g, t.vis = .done g → g ≤ gen ∧ t.val.isSome ∧ t.writer.isSome
  pending : t.vis = .pending → t.writer.isSome
  unwritten : t.vis = .unwritten → t.val = none ∧ t.writer = none
  reads : ∀ (w : WarpId) (g : Nat), t.rd[w] = some g → g ≤ gen

/-- The copy records of every warp of a block that no WAIT has retired. -/
def Block.records (b : Block) : List CopyRecord := (List.finRange 8).flatMap fun w => b.warps[w].records

/-- Every tag of every block is meaningful; a byte of a copy record that no WAIT has retired is PENDING and its writer
is the record's warp, and it has a value once the copy has landed; a PENDING byte lies in such a record; no two
such records share a byte (20_memory R59 to R63, 41_pipeline_sync R102, R106). -/
structure TagsOk (s : State) : Prop where
  tags : ∀ b ∈ s.blocks, ∀ off, TagOk b.gen (b.tag off)
  pending : ∀ b ∈ s.blocks, ∀ w : WarpId, ∀ r ∈ b.warps[w].records, ∀ off ∈ r.offs,
    (b.tag off).vis = .pending ∧ (b.tag off).writer = some w
  landed : ∀ b ∈ s.blocks, ∀ r ∈ b.records, r.performed = true → ∀ off ∈ r.offs, (b.tag off).val.isSome
  covered : ∀ b ∈ s.blocks, ∀ off, (b.tag off).vis = .pending → ∃ r ∈ b.records, off ∈ r.offs
  disjoint : ∀ b ∈ s.blocks, b.records.Pairwise fun p q => ∀ off ∈ p.offs, off ∉ q.offs

/-- The device byte at `a` lies in the allocation of buffer `i` (20_memory R51). -/
def State.inAllocation (s : State) (i : Fin 9) (a : Nat) : Prop :=
  s.params.ptrs[i].toNat ≤ a ∧ a < s.params.ptrs[i].toNat + s.bufLen[i]

/-- The derived registers are those of the parameter registers (10_state R20). -/
def DerivedOk (s : State) : Prop := s.derived = s.params.derive

/-- What a grid says of its launch: the derived registers are those of the parameter registers (10_state R20), RET is true
and OUT_TYPE is supported (60_exceptions R164), the parameter registers passed the dimension and the pointer check (R166,
R167), no input shares a byte with D (R168), the scratchpad is large enough (R169), and every block lies in the grid of
the derived registers (10_state R19). -/
structure LaunchOk (s : State) : Prop where
  derived : s.blocks ≠ [] → DerivedOk s
  supported : s.blocks ≠ [] → s.ret = true ∧ ∃ o ∈ s.cfg.supported, outTypeOfBits s.params.outType = some o
  dims : s.blocks ≠ [] → 1 ≤ s.params.m.toNat ∧ 128 ≤ s.params.n.toNat ∧ s.params.n.toNat % 128 = 0 ∧
    128 ≤ s.params.k.toNat ∧ (s.params.k.toNat - 128) % 32 = 0 ∧ s.derived.t ≤ 65536
  aligned : s.blocks ≠ [] → ∀ i : Fin 9, s.params.ptrs[i].toNat % 128 = 0
  apart : s.blocks ≠ [] → ∀ (i : Fin 8) (a : Nat), s.inAllocation i.castSucc a → ¬s.inAllocation 8 a
  scratch : s.blocks ≠ [] → s.derived.scrBytes ≤ s.rs ∧ s.derived.scrBytes ≤ s.cfg.scratchCapacity
  grid : ∀ b ∈ s.blocks, b.bm.toNat < s.derived.gm ∧ b.bn.toNat < s.derived.gn

/-! ## Lock step at the barriers -/

/-- The word of BAR (41_pipeline_sync R107). -/
def barWord : Cmd := 0x28000000

/-- The word of END (45_epilogue R141). -/
def endWord : Cmd := 0x68000000

/-- A stream's indices fit the program counter (46_sequencer R145: L ≤ 2^32 − 1). -/
def streamFits (cs : List Cmd) : Prop := cs.length < 2 ^ 32

/-- Every warp of a block has passed as many BARs of the one stream as the block has completed barriers, and no END; a warp
that waits at a barrier stands at a BAR and a warp that is DONE at an END; a FAULTED warp or a fault record means
that the invocation has FAILED; and a RUNNING invocation has a block that has not ended. The stream fits the program
counter. (41_pipeline_sync R109, 46_sequencer R144, R145, R147) -/
structure InStep (s : State) : Prop where
  stream : streamFits s.cs
  bars : ∀ b ∈ s.blocks, ∀ w : WarpId, (s.cs.take b.warps[w].pc.toNat).count barWord = b.gen
  ends : ∀ b ∈ s.blocks, ∀ w : WarpId, endWord ∉ s.cs.take b.warps[w].pc.toNat
  atBar : ∀ b ∈ s.blocks, ∀ w : WarpId, b.warps[w].st = .atBar → s.cs[b.warps[w].pc.toNat]? = some barWord
  atEnd : ∀ b ∈ s.blocks, ∀ w : WarpId, b.warps[w].st = .done → s.cs[b.warps[w].pc.toNat]? = some endWord
  faulted : ∀ b ∈ s.blocks, ∀ w : WarpId, b.warps[w].st = .faulted → s.inv = .failed
  logs : s.inv ≠ .failed → ∀ b ∈ s.blocks, b.log = []
  arrived : BarrierOk s
  notEnded : s.inv = .running → ∃ b ∈ s.blocks, b.ended = false

end Sys2Proof.Machine
end

