-- ==== Sys2Proof/Certificates/Slice0/Obligations.lean ====
section
/-! DEFINITION. The statements for the provers, each from the numbered rules of the spec, and the words they are said in. -/

namespace Sys2Proof.Claims
open Sys2Proof Sys2Proof.Machine

/-! ## What is kept -/

/-- The fields of the invocation that no command and no agent but the host writes. -/
structure InvocationKept (s t : State) : Prop where
  params : t.params = s.params
  derived : t.derived = s.derived
  bufLen : t.bufLen = s.bufLen
  rs : t.rs = s.rs
  cs : t.cs = s.cs
  ret : t.ret = s.ret
  launchFault : t.launchFault = s.launchFault
  cfg : t.cfg = s.cfg
  launches : t.launches = s.launches

/-- Every block but the one at `blk` is as before. -/
def OtherBlocksKept (s t : State) (blk : Nat) : Prop :=
  t.blocks.length = s.blocks.length ∧ ∀ i, i ≠ blk → t.blocks[i]? = s.blocks[i]?

/-- The block's identity, its generation, its arrivals and its fault log are as before. -/
structure SharedKept (b b' : Block) : Prop where
  bm : b'.bm = b.bm
  bn : b'.bn = b.bn
  gen : b'.gen = b.gen
  arrived : b'.arrived = b.arrived
  log : b'.log = b.log

/-- Every warp of the block but `w` is as before. -/
def OtherWarpsKept (b b' : Block) (w : WarpId) : Prop := ∀ v : WarpId, v ≠ w → b'.warps[v] = b.warps[v]

/-- Of the block, nothing changed but warp `w`, which is `x` now, and maybe its scratchpad. -/
structure WarpBecomes (b b' : Block) (w : WarpId) (x : Warp) : Prop where
  shared : SharedKept b b'
  others : OtherWarpsKept b b' w
  warp : b'.warps[w] = x

/-- The six register files of a warp (10_state R21) are as before. -/
structure RegisterFilesKept (x x' : Warp) : Prop where
  iacc : x'.iacc = x.iacc
  facc : x'.facc = x.facc
  fa : x'.fa = x.fa
  fb : x'.fb = x.fb
  sa : x'.sa = x.sa
  sb : x'.sb = x.sb

/-- The tags of the scratch bytes in `P` change by `f`, every other tag is as before. -/
def TagsChange (b b' : Block) (P : Nat → Prop) (f : Nat → Tag → Tag) : Prop :=
  (∀ off, P off → b'.tag off = f off (b.tag off)) ∧ ∀ off, ¬P off → b'.tag off = b.tag off

/-- Every scratch byte's tag is as before. -/
def ScratchKept (b b' : Block) : Prop := ∀ off, b'.tag off = b.tag off

/-- Every device byte reads as before. -/
def DeviceKept (s t : State) : Prop := ∀ a, t.mem.read a = s.mem.read a

/-! ## Operands, written from the pseudocode of the command rules -/

/-- SWZ(r), for a tile row `r` below 128 (40_loader R87). -/
def swzAt (s : State) (r : Nat) : Nat := (s.cfg.swz.toList.getD r 0).val

/-- PERM_A(p), for a position `p` below 128 (20_memory R47). -/
def permAt (s : State) (p : Nat) : Nat := (s.cfg.permA.toList.getD p 0).val

/-- Iteration `i`, lane `l` of the loops of LDG.A by warp `w` (40_loader R94); no source where the chunk is not live. -/
def ldgACopy (s : State) (b : Block) (w : WarpId) (ph : Phase) (slot : Fin 4) (kt i l : Nat) : Chunk :=
  let c := 256 * i + 32 * w.val + l
  let r := c >>> 2
  let cc := c &&& 3
  let row := 128 * b.bm.toNat + r
  let dst := 8192 * slot.val + 64 * r + 16 * (cc ^^^ swzAt s r)
  match ph with
  | .main =>
    ⟨dst, 16, if row < s.params.m.toNat ∧ 64 * kt + 16 * cc < s.derived.rb then
      some (s.params.pA.toNat + row * s.derived.rb + 64 * kt + 16 * cc) else none⟩
  | .keeper =>
    ⟨dst, 16, if row < s.params.m.toNat then some (s.params.pAK.toNat + row * 128 + 64 * kt + 16 * cc) else none⟩

/-- Iteration `i`, lane `l` of the loops of LDG.B by warp `w` (40_loader R95). -/
def ldgBCopy (s : State) (b : Block) (w : WarpId) (ph : Phase) (slot : Fin 4) (kt i l : Nat) : Chunk :=
  let c := 256 * i + 32 * w.val + l
  let r := c >>> 2
  let cc := c &&& 3
  let col := 128 * b.bn.toNat + r
  let dst := 32768 + 8192 * slot.val + 64 * r + 16 * (cc ^^^ swzAt s r)
  match ph with
  | .main =>
    ⟨dst, 16, if 64 * kt + 16 * cc < s.derived.rb then
      some (s.params.pB.toNat + col * s.derived.rb + 64 * kt + 16 * cc) else none⟩
  | .keeper => ⟨dst, 16, some (s.params.pBK.toNat + col * 128 + 64 * kt + 16 * cc)⟩

/-- The copies of an LDG whose loops make `f i l`, in loop order. -/
def ldgLoops (f : Nat → Nat → Chunk) : List Chunk := (List.range 2).flatMap fun i => (List.range 32).map (f i)

/-- Lane `l` of the loop of LDGS by warp `w`, nothing for a thread of 128 or more (40_loader R98). -/
def ldgsCopy (s : State) (b : Block) (w : WarpId) (ph : Phase) (slot : Fin 4) (kt l : Nat) : Option Chunk :=
  let t := 32 * w.val + l
  let bm := b.bm.toNat
  let bn := b.bn.toNat
  let m := s.params.m.toNat
  if t < 64 then
    some ⟨65536 + 512 * slot.val + 4 * t, 4, match ph with
      | .main =>
        if 128 * bm + permAt s (2 * t) < m ∨ 128 * bm + permAt s (2 * t + 1) < m then
          some (s.params.pAS.toNat + 2 * (kt * s.derived.mpad + 128 * bm + 2 * t)) else none
      | .keeper => if 128 * bm + 2 * t < m then some (s.params.pAKS.toNat + 2 * (128 * bm + 2 * t)) else none⟩
  else if t < 128 then
    some ⟨65536 + 512 * slot.val + 256 + 4 * (t - 64), 4, some (match ph with
      | .main => s.params.pBS.toNat + 2 * (kt * s.params.n.toNat + 128 * bn + 2 * (t - 64))
      | .keeper => s.params.pBKS.toNat + 2 * (128 * bn + 2 * (t - 64)))⟩
  else none

/-- The scratch bytes the copies `cs` claim. -/
def ClaimedBy (cs : List Chunk) (off : Nat) : Prop := ∃ c ∈ cs, c.dst ≤ off ∧ off < c.dst + c.n

/-- The bytes a copy carries: those of device memory, or zeros where the chunk is not live. -/
def carried (s : State) (c : Chunk) : List Byte :=
  match c.src with
  | some a => (List.range c.n).map fun j => s.mem.read (a + j)
  | none => List.replicate c.n 0

/-- Warp `w` issued the copies `cs` in order: their scratch bytes are claimed, their records are in OPEN[w], pc + 1. -/
def Issues (s : State) (b b' : Block) (w : WarpId) (cs : List Chunk) : Prop :=
  WarpBecomes b b' w { b.warps[w] with
    pc := b.warps[w].pc + 1
    openGrp := b.warps[w].openGrp ++ cs.map fun c => ⟨c.dst, carried s c, false⟩ } ∧
  TagsChange b b' (ClaimedBy cs) fun _ t => { t with writer := some w, vis := .pending }

/-- Tile row of row `r2` of A fragment `mi` of warp `w` (42_extract R113). -/
def aRow (w : WarpId) (mi r2 : Nat) : Nat := 32 * (w.val / 2) + 16 * mi + r2

/-- Tile column of column `c2` of B fragment `ni` of warp `w` (42_extract R114). -/
def bCol (w : WarpId) (ni c2 : Nat) : Nat := 64 * (w.val % 2) + 8 * ni + c2

/-- Where LDM.A reads byte `k` of row `r2` (42_extract R113). -/
def ldmAByte (s : State) (w : WarpId) (slot : Fin 4) (ks mi : Fin 2) (r2 k : Nat) : Nat :=
  let r := aRow w mi.val r2
  8192 * slot.val + 64 * r + 16 * ((2 * ks.val + k / 16) ^^^ swzAt s r) + k % 16

/-- Where LDM.B reads byte `k` of column `c2` (42_extract R114). -/
def ldmBByte (s : State) (w : WarpId) (slot : Fin 4) (ks : Fin 2) (ni : Fin 8) (c2 k : Nat) : Nat :=
  let q := bCol w ni.val c2
  32768 + 8192 * slot.val + 64 * q + 16 * ((2 * ks.val + k / 16) ^^^ swzAt s q) + k % 16

/-- The bytes LDM.A reads, in the order of its loops (42_extract R113). -/
def ldmALoop (s : State) (w : WarpId) (slot : Fin 4) (ks mi : Fin 2) : List Nat :=
  (List.range 16).flatMap fun r2 => (List.range 32).map (ldmAByte s w slot ks mi r2)

/-- The bytes LDM.B reads, in the order of its loops (42_extract R114). -/
def ldmBLoop (s : State) (w : WarpId) (slot : Fin 4) (ks : Fin 2) (ni : Fin 8) : List Nat :=
  (List.range 8).flatMap fun c2 => (List.range 32).map (ldmBByte s w slot ks ni c2)

/-- `pos` gives each tile row the in-tile position of its scale: PERM_A_INV in the main phase, the row itself in the keeper
phase (42_extract R116). In the main phase there is such a `pos` exactly where PERM_A is a permutation. -/
def PositionOf (s : State) (ph : Phase) (pos : Nat → Nat) : Prop :=
  ∀ r < 128, match ph with
    | .main => pos r < 128 ∧ permAt s (pos r) = r
    | .keeper => pos r = r

/-- Where LDSC reads the scale of tile row `aRow w mi i` (42_extract R116). -/
def rowScaleAt (w : WarpId) (slot : Fin 4) (pos : Nat → Nat) (mi i : Nat) : Nat :=
  65536 + 512 * slot.val + 2 * pos (aRow w mi i)

/-- Where LDSC reads the scale of tile column `bCol w ni j` (42_extract R116). -/
def colScaleAt (w : WarpId) (slot : Fin 4) (ni j : Nat) : Nat := 65536 + 512 * slot.val + 256 + 2 * bCol w ni j

/-- The bytes LDSC reads, in the order of its loops (42_extract R116). -/
def ldscLoop (w : WarpId) (slot : Fin 4) (pos : Nat → Nat) : List Nat :=
  ((List.range 2).flatMap fun mi => (List.range 16).flatMap fun i =>
    [rowScaleAt w slot pos mi i, rowScaleAt w slot pos mi i + 1]) ++
  (List.range 8).flatMap fun ni => (List.range 8).flatMap fun j => [colScaleAt w slot ni j, colScaleAt w slot ni j + 1]

/-- `v` is the little-endian f16 at `off` (20_memory R43). -/
def HalfAt (b : Block) (off : Nat) (v : F16) : Prop :=
  ∃ lo hi, (b.tag off).val = some lo ∧ (b.tag (off + 1)).val = some hi ∧ v.toNat = 256 * hi.toNat + lo.toNat

/-- Warp `w` read the scratch bytes in `P`, is `x` now and changed nothing else (20_memory R60). -/
def ReadsInto (b b' : Block) (w : WarpId) (P : Nat → Prop) (x : Warp) : Prop :=
  WarpBecomes b b' w x ∧ TagsChange b b' P fun _ t => { t with rd := t.rd.set w (some b.gen) }

/-- Element `k` of 64 signed 4-bit elements, the low nibble first (43_mma R118). -/
def nibble (x : Vector Byte 32) (k : Fin 64) : Int := ((x[k.val / 2] >>> (4 * (k.val % 2))).setWidth 4).toInt

/-- `x` is wrap32 of the integer `n`: the s32 congruent to `n` modulo 2^32 (00_scope R11). -/
def IsWrap32 (x : S32) (n : Int) : Prop := (x.toInt - n) % 4294967296 = 0

/-- `acc'` is `acc` with sub-tile (mi, ni) accumulated by the sums `f r c`, wrapped, and every other element as
before. -/
def Accumulates (acc acc' : AccFile) (mi : Fin 2) (ni : Fin 8) (f : Fin 16 → Fin 8 → Int) : Prop :=
  ∀ (i : Fin 2) (j : Fin 8) (r : Fin 16) (c : Fin 8),
    if i = mi ∧ j = ni then IsWrap32 acc'[i][j][r][c] (acc[i][j][r][c].toInt + f r c)
    else acc'[i][j][r][c] = acc[i][j][r][c]

/-- What an MMA of sub-tile (mi, ni) with the dot product `f` does (43_mma R119, R120): the fault of FA before that of
FB, else the accumulation; every sum lies between `lo` and `hi`. -/
def MmaResult (i : Instr) (mi : Fin 2) (ni : Fin 8) (f : Vector Byte 32 → Vector Byte 32 → Int) (lo hi : Int) : Prop :=
  (∀ x y, lo ≤ f x y ∧ f x y ≤ hi) ∧ ∀ (s : State) (b : Block), s.block? = some b →
    (b.warps[s.cur.w].fa[mi] = none → exec i s = .next (s.raise b (.regUninit .fa mi.val))) ∧
    (∀ fa, b.warps[s.cur.w].fa[mi] = some fa → b.warps[s.cur.w].fb[ni] = none →
      exec i s = .next (s.raise b (.regUninit .fb ni.val))) ∧
    ∀ fa fb, b.warps[s.cur.w].fa[mi] = some fa → b.warps[s.cur.w].fb[ni] = some fb →
      ∃ b' acc, exec i s = .next (s.setBlock b') ∧ ScratchKept b b' ∧
        WarpBecomes b b' s.cur.w { b.warps[s.cur.w] with pc := b.warps[s.cur.w].pc + 1, iacc := acc } ∧
        Accumulates b.warps[s.cur.w].iacc acc mi ni fun r c => f fa[r] fb[c]

/-- A NaN an f32 primitive may return (44_dequant R130). -/
def NanOk32 (cfg : Config) (x : F32) : Prop :=
  match cfg.nanMode with
  | .canonical => x = 0x7FFFFFFF
  | .anyNan => x.toNat / 2 ^ 23 % 2 ^ 8 = 255 ∧ x.toNat % 2 ^ 23 ≠ 0

/-- A NaN an f16 primitive may return (44_dequant R130). -/
def NanOk16 (cfg : Config) (x : F16) : Prop :=
  match cfg.nanMode with
  | .canonical => x = 0x7FFF
  | .anyNan => x.toNat / 2 ^ 10 % 2 ^ 5 = 31 ∧ x.toNat % 2 ^ 10 ≠ 0

/-- A NaN byte cvt_f32_f8 may return (45_epilogue R137). -/
def NanOk8 (cfg : Config) (x : Byte) : Prop :=
  match cfg.nanMode, cfg.fp8Fmt with
  | .canonical, _ => x = 0x7F
  | .anyNan, .e4m3Sat => x = 0x7F ∨ x = 0xFF
  | .anyNan, .e5m2Sat => x.toNat / 2 ^ 2 % 2 ^ 5 = 31 ∧ x.toNat % 2 ^ 2 ≠ 0

/-- `a'` is fold(a, p, x, y) of 44_dequant R131 and R134, for some NaN results the rule allows. -/
def IsFold (cfg : Config) (a a' : F32) (p : S32) (x y : F16) : Prop :=
  ∃ nh ns nm na, NanOk16 cfg nh ∧ NanOk32 cfg ns ∧ NanOk32 cfg nm ∧ NanOk32 cfg na ∧
    a' = if cfg.deqFused then f32fma cfg.ftz na (cvtS32F32 p) (cvtF16F32 ns (f16mul nh x y)) a
      else f32add cfg.ftz na (f32mul cfg.ftz nm (cvtS32F32 p) (cvtF16F32 ns (f16mul nh x y))) a

/-- `v` is cvt_out(x) as a number of SZ bytes, for some NaN result the rules allow (45_epilogue R135 to R137). -/
def IsCvtOut (s : State) (x : F32) (v : Nat) : Prop :=
  (s.params.outType = 0 ∧ v = x.toNat) ∨
  (s.params.outType = 1 ∧ ∃ n, NanOk16 s.cfg n ∧ v = (cvtF32F16 s.cfg.ftz n x).toNat) ∨
  (s.params.outType = 2 ∧ ∃ n, NanOk8 s.cfg n ∧ v = (cvtF32F8 s.cfg.fp8Fmt s.cfg.ftz n x).toNat)

/-- Where CVTS stages element (mi, ni, r, c) of warp `w` (45_epilogue R138, R139). -/
def stagedAt (s : State) (w : WarpId) (mi ni r c : Nat) : Nat := (128 * aRow w mi r + bCol w ni c) * s.derived.sz

/-- The bytes CVTS stages, in the order of its loops (45_epilogue R139). -/
def stagedLoop (s : State) (w : WarpId) : List Nat :=
  (List.range 2).flatMap fun mi => (List.range 8).flatMap fun ni => (List.range 16).flatMap fun r =>
    (List.range 8).flatMap fun c => (List.range s.derived.sz).map fun j => stagedAt s w mi ni r c + j

/-- The piece lane `l` of STG `it` by warp `w` copies, none for a row at or beyond M (45_epilogue R140). -/
def stgCopy (s : State) (b : Block) (w : WarpId) (it l : Nat) : Option StorePiece :=
  let cpr := 8 * s.derived.sz
  let c := 256 * it + 32 * w.val + l
  let row := c / cpr
  let cc := c % cpr
  let grow := 128 * b.bm.toNat + row
  if grow < s.params.m.toNat then
    some ⟨128 * s.derived.sz * row + 16 * cc,
      s.params.pD.toNat + (grow * s.params.n.toNat + 128 * b.bn.toNat) * s.derived.sz + 16 * cc⟩
  else none

/-- The pieces of STG `it` by warp `w`, in lane order (45_epilogue R140). -/
def stgLoop (s : State) (b : Block) (w : WarpId) (it : Nat) : List StorePiece :=
  (List.range 32).filterMap (stgCopy s b w it)

/-! ## Faults, in the order of the checks -/

/-- The check of ScrRead that fails first on the byte at `off`, and its fault (20_memory R60). -/
def ReadFails (lim : Nat) (b : Block) (w : WarpId) (off : Nat) (c : Cause) : Prop :=
  (lim ≤ off ∧ c = .scratchOob off) ∨
  (off < lim ∧ (b.tag off).vis = .unwritten ∧ c = .scratchUninit off) ∨
  (off < lim ∧ (b.tag off).vis = .pending ∧ c = .hazardRaw off (b.tag off).writer) ∨
  (off < lim ∧ ∃ g0, (b.tag off).vis = .done g0 ∧ (b.tag off).writer ≠ some w ∧ g0 ≥ b.gen ∧
    c = .hazardRaw off (b.tag off).writer)

/-- Some warp other than `w` read the byte at `off` in the current generation. -/
def ReadByOther (b : Block) (w : WarpId) (off : Nat) : Prop := ∃ w2 : WarpId, w2 ≠ w ∧ (b.tag off).rd[w2] = some b.gen

/-- A check of ScrWrite or ScrIssue that fails first on the byte at `off`, and its fault (20_memory R61, R62). -/
def WriteFails (lim : Nat) (b : Block) (w : WarpId) (off : Nat) (c : Cause) : Prop :=
  (lim ≤ off ∧ c = .scratchOob off) ∨
  (off < lim ∧ ∃ w2 : WarpId, w2 ≠ w ∧ (b.tag off).rd[w2] = some b.gen ∧ c = .hazardWar off w2) ∨
  (off < lim ∧ ¬ReadByOther b w off ∧ (b.tag off).vis = .pending ∧ c = .hazardWaw off (b.tag off).writer) ∨
  (off < lim ∧ ¬ReadByOther b w off ∧ ∃ g0, (b.tag off).vis = .done g0 ∧ (b.tag off).writer ≠ some w ∧ g0 ≥ b.gen ∧
    c = .hazardWaw off (b.tag off).writer)

/-- MISALIGNED before OOB_GLOBAL (20_memory R55, R56). -/
def accessFault (addr n : Nat) : Cause := if addr % n ≠ 0 then .misaligned addr n else .oobGlobal addr n

/-- A fault of the first failing check of the copy `c`: its device read before its claim (60_exceptions R162). -/
def CopyFails (s : State) (b : Block) (w : WarpId) (c : Chunk) (f : Cause) : Prop :=
  (∃ a, c.src = some a ∧ ¬ReadOk s a c.n ∧ f = accessFault a c.n) ∨
  ((∀ a, c.src = some a → ReadOk s a c.n) ∧ ∃ k < c.n, (∀ j < k, Writable s.derived.scrBytes b w (c.dst + j)) ∧
    WriteFails s.derived.scrBytes b w (c.dst + k) f)

/-- The fault of the first failing check of the piece `p`: its scratch read before its device write (60_exceptions
R162). -/
def PieceFails (s : State) (b : Block) (w : WarpId) (p : StorePiece) (f : Cause) : Prop :=
  (∃ k < 16, (∀ j < k, Readable s.derived.scrBytes b w (p.off + j)) ∧
    ReadFails s.derived.scrBytes b w (p.off + k) f) ∨
  ((∀ j < 16, Readable s.derived.scrBytes b w (p.off + j)) ∧ ¬WriteOk s p.dst 16 ∧ f = accessFault p.dst 16)

/-- What the copy command `i` does whose loops make the copies `cs` (40_loader R94, R95, R98; 60_exceptions R162): the operand
fault; the issue of all copies where all pass their checks; else a fault of the first that fails. -/
def CopyCommandResult (i : Instr) (s : State) (b : Block) (ph : Phase) (kt : Nat) (cs : List Chunk) : Prop :=
  (ph = .keeper → 2 ≤ kt → exec i s = .next (s.raise b (.illegalOperand kt))) ∧
  ((ph = .keeper → kt < 2) →
    ((∀ c ∈ cs, CopyOk s b s.cur.w c) → ∃ b', exec i s = .next (s.setBlock b') ∧ Issues s b b' s.cur.w cs) ∧
    ∀ pre c post, cs = pre ++ c :: post → (∀ p ∈ pre, CopyOk s b s.cur.w p) → ¬CopyOk s b s.cur.w c →
      ∃ f, CopyFails s b s.cur.w c f ∧ exec i s = .next (s.raise b f))

/-- The command `i`, which reads the scratch bytes `offs` in this order, raises the fault of the first that fails a check
(20_memory R60, 60_exceptions R162). -/
def ReaderFaults (i : Instr) (s : State) (b : Block) (offs : List Nat) : Prop :=
  ∀ pre off post f, offs = pre ++ off :: post → (∀ a ∈ pre, Readable s.derived.scrBytes b s.cur.w a) →
    ReadFails s.derived.scrBytes b s.cur.w off f → exec i s = .next (s.raise b f)

/-! ## What each command writes (10_state R21, R31, R33, R35; 20_memory R66) -/

/-- The commands that write IACC. -/
def writesIacc : Instr → Bool
  | .mma4 _ _ => true
  | .mma8 _ _ => true
  | .deq => true
  | _ => false

/-- The command that writes FACC. -/
def writesFacc : Instr → Bool
  | .deq => true
  | _ => false

/-- The command that writes FA. -/
def writesFa : Instr → Bool
  | .ldmA _ _ _ => true
  | _ => false

/-- The command that writes FB. -/
def writesFb : Instr → Bool
  | .ldmB _ _ _ => true
  | _ => false

/-- The command that writes SA and SB. -/
def writesScales : Instr → Bool
  | .ldsc _ _ => true
  | _ => false

/-- The commands that write OPEN. -/
def writesOpen : Instr → Bool
  | .ldgA _ _ _ => true
  | .ldgB _ _ _ => true
  | .ldgs _ _ _ => true
  | .commit => true
  | _ => false

/-- The commands that write GROUPS. -/
def writesGroups : Instr → Bool
  | .commit => true
  | .wait _ => true
  | _ => false

/-- The commands that write ST. -/
def writesSt : Instr → Bool
  | .bar => true
  | .endWarp => true
  | _ => false

/-- The commands that change scratch tags. -/
def writesTags : Instr → Bool
  | .ldgA _ _ _ => true
  | .ldgB _ _ _ => true
  | .ldgs _ _ _ => true
  | .wait _ => true
  | .ldmA _ _ _ => true
  | .ldmB _ _ _ => true
  | .ldsc _ _ => true
  | .cvts => true
  | .stg _ => true
  | _ => false

/-- The command that stores to device memory. -/
def writesDevice : Instr → Bool
  | .stg _ => true
  | _ => false

/-- The commands that draw free values (log 13). -/
def drawsFree : Instr → Bool
  | .deq => true
  | .cvts => true
  | _ => false

/-- What command `i` of a warp leaves of the warp `x`: every field it does not write is as before. -/
structure WarpKept (i : Instr) (x x' : Warp) : Prop where
  iacc : writesIacc i = false → x'.iacc = x.iacc
  facc : writesFacc i = false → x'.facc = x.facc
  fa : writesFa i = false → x'.fa = x.fa
  fb : writesFb i = false → x'.fb = x.fb
  scales : writesScales i = false → x'.sa = x.sa ∧ x'.sb = x.sb
  openGrp : writesOpen i = false → x'.openGrp = x.openGrp
  groups : writesGroups i = false → x'.groups = x.groups
  st : writesSt i = false → x'.st = x.st

/-- A command that leaves the pc where it is: BAR, END and a holding WAIT (46_sequencer R145). -/
def LeavesPc (i : Instr) (x : Warp) : Prop :=
  i = .bar ∨ i = .endWarp ∨ ∃ n, i = .wait n ∧ ∃ g ∈ x.groups.take (x.groups.length - n), ∃ r ∈ g, r.performed = false

/-- What a command that raised no fault leaves unchanged: from `s` and the block `b` of the running warp to `t` and
`b'`. -/
structure CommandKept (i : Instr) (s t : State) (b b' : Block) : Prop where
  invocation : InvocationKept s t
  chooser : t.sched = s.sched ∧ t.tick = s.tick ∧ t.cur = s.cur
  otherBlocks : OtherBlocksKept s t s.cur.blk
  identity : b'.bm = b.bm ∧ b'.bn = b.bn ∧ b'.gen = b.gen ∧ b'.log = b.log
  arrived : i ≠ .bar → b'.arrived = b.arrived
  otherWarps : OtherWarpsKept b b' s.cur.w
  warp : WarpKept i b.warps[s.cur.w] b'.warps[s.cur.w]
  pc : (LeavesPc i b.warps[s.cur.w] → b'.warps[s.cur.w].pc = b.warps[s.cur.w].pc) ∧
    (¬LeavesPc i b.warps[s.cur.w] → b'.warps[s.cur.w].pc = b.warps[s.cur.w].pc + 1)
  inv : i ≠ .endWarp → t.inv = s.inv
  draws : drawsFree i = false → t.draws = s.draws
  device : writesDevice i = false → DeviceKept s t
  scratch : writesTags i = false → ScratchKept b b'

/-- The scratch bytes a command claims, writes or retires, by the model's address functions. -/
def ScratchWritten (i : Instr) (s : State) (b : Block) (off : Nat) : Prop :=
  match i with
  | .ldgA ph slot kt => ∃ c ∈ ldgAChunks s b s.cur.w ph slot kt, off ∈ c.offs
  | .ldgB ph slot kt => ∃ c ∈ ldgBChunks s b s.cur.w ph slot kt, off ∈ c.offs
  | .ldgs ph slot kt => ∃ c ∈ ldgsChunks s b s.cur.w ph slot kt, off ∈ c.offs
  | .wait n => ∃ r ∈ b.warps[s.cur.w].oldRecords n, off ∈ r.offs
  | .cvts => ∃ p ∈ stageWrites s b.warps[s.cur.w] s.cur.w, off ∈ List.range' p.1 p.2.length
  | _ => False

/-- The scratch bytes a command reads, by the model's address functions. -/
def ScratchRead (i : Instr) (s : State) (b : Block) (off : Nat) : Prop :=
  match i with
  | .ldmA slot ks mi => off ∈ ldmAOffs s s.cur.w slot ks mi
  | .ldmB slot ks ni => off ∈ ldmBOffs s s.cur.w slot ks ni
  | .ldsc ph slot => off ∈ ldscOffs s s.cur.w ph slot
  | .stg it => ∃ p ∈ stgPieces s b s.cur.w it, off ∈ List.range' p.off 16
  | _ => False

/-! ## Agents and the end of a run -/

/-- The command at warp `w`'s pc is a WAIT n and a record of the groups it waits for is not performed (46_sequencer R144,
41_pipeline_sync R106). -/
def HoldsAtWait (s : State) (b : Block) (w : WarpId) : Prop :=
  ∃ word n, s.cs[b.warps[w].pc.toNat]? = some word ∧ decode word = .ok (.wait n) ∧
    ∃ g ∈ b.warps[w].groups.take (b.warps[w].groups.length - n), ∃ r ∈ g, r.performed = false

/-- Some copy record of some warp is not performed (41_pipeline_sync R102). -/
def CopyWaits (b : Block) : Prop := ∃ w : WarpId, ∃ r ∈ b.warps[w].records, r.performed = false

/-- No agent of the block has an enabled step (46_sequencer R144, 41_pipeline_sync R102, R107). -/
def NoneEnabled (s : State) (b : Block) : Prop :=
  (∀ w : WarpId, b.warps[w].st = .run → HoldsAtWait s b w) ∧ ¬CopyWaits b ∧ ∃ w : WarpId, b.warps[w].st ≠ .atBar

/-- A block has ended (46_sequencer R152). -/
def Ended (b : Block) : Prop := (∀ w : WarpId, b.warps[w].st = .done) ∧ ¬CopyWaits b

/-- INV after a step that may end the invocation: COMPLETE where it was RUNNING and every block of `bs` has ended and none
has failed (46_sequencer R154). -/
def InvAfter (before after : Inv) (bs : List Block) : Prop :=
  ((before = .running ∧ ∀ b ∈ bs, Ended b ∧ b.log = []) → after = .complete) ∧
    (¬(before = .running ∧ ∀ b ∈ bs, Ended b ∧ b.log = []) → after = before)

/-- The state `t` is `s` but for its blocks `bs` and for INV, which is as `InvAfter` says. -/
def EndsInto (s t : State) (bs : List Block) : Prop :=
  InvAfter s.inv t.inv bs ∧ t = { s with blocks := bs, inv := t.inv }

/-! ## The launch (60_exceptions R164 to R169) -/

/-- OUT_TYPE is in SUPPORTED (10_state R18, 60_exceptions R164). -/
def OutTypeSupported (cfg : Config) (bits : BitVec 2) : Prop :=
  (bits = 0 ∧ .f32 ∈ cfg.supported) ∨ (bits = 1 ∧ .f16 ∈ cfg.supported) ∨ (bits = 2 ∧ .f8 ∈ cfg.supported)

/-- The dimension check (60_exceptions R166). -/
def DimsPass (r : LaunchRecord) : Prop :=
  1 ≤ r.m ∧ 128 ≤ r.n ∧ r.n % 128 = 0 ∧ 128 ≤ r.k ∧ (r.k - 128) % 32 = 0 ∧ (r.k - 128 + 127) / 128 ≤ 65536 ∧
    r.m < 2 ^ 32 ∧ r.n < 2 ^ 32 ∧ r.k < 2 ^ 32

/-- Pointer register `i` is a multiple of 128 (60_exceptions R167). -/
def PointerPasses (r : LaunchRecord) (i : Fin 9) : Prop := r.ptrs[i].toNat % 128 = 0

/-- Input `i`'s allocation and D's share a byte (60_exceptions R168). -/
def SharesByteWithD (r : LaunchRecord) (i : Fin 8) : Prop :=
  ∃ a, (r.ptrs[i.castSucc].toNat ≤ a ∧ a < r.ptrs[i.castSucc].toNat + r.bufLen[i.castSucc]) ∧
    r.pD.toNat ≤ a ∧ a < r.pD.toNat + r.bufLen[8]

/-- The scratch check (60_exceptions R169). -/
def ScratchPasses (cfg : Config) (r : LaunchRecord) : Prop := 67584 ≤ r.rs ∧ 67584 ≤ cfg.scratchCapacity

/-- A launch refused with the launch fault `f`, or none where RET is false: no block starts (60_exceptions R164,
R165). -/
def Refused (t : State) (f : Option LaunchFault) : Prop := t.inv = .rejected ∧ t.launchFault = f ∧ t.blocks = []

/-- A warp at its block's reset (10_state R39). -/
structure WarpAtReset (x : Warp) : Prop where
  pc : x.pc = 0
  st : x.st = .run
  iacc : ∀ (mi : Fin 2) (ni : Fin 8) (r : Fin 16) (c : Fin 8), x.iacc[mi][ni][r][c] = 0
  facc : ∀ (mi : Fin 2) (ni : Fin 8) (r : Fin 16) (c : Fin 8), x.facc[mi][ni][r][c] = 0x00000000
  fa : ∀ mi : Fin 2, x.fa[mi] = none
  fb : ∀ ni : Fin 8, x.fb[ni] = none
  scales : x.sa = none ∧ x.sb = none
  copies : x.openGrp = [] ∧ x.groups = []

/-- A block at its reset (10_state R39). -/
structure BlockAtReset (b : Block) : Prop where
  warps : ∀ w : WarpId, WarpAtReset b.warps[w]
  gen : b.gen = 0
  arrived : ∀ w : WarpId, b.arrived[w] = none
  tags : ∀ off, (b.tag off).val = none ∧ (b.tag off).writer = none ∧ (b.tag off).vis = .unwritten ∧
    ∀ w : WarpId, (b.tag off).rd[w] = none
  log : b.log = []

/-! ## Numbers -/

/-- The value of the magnitude bits `n` in a format with `eb` exponent and `fb` fraction bits, the exponent unbounded
above (44_dequant R124, R125; 45_epilogue R137). -/
def magValue (eb fb n : Nat) : ℚ :=
  if n < 2 ^ fb then n * 2 ^ (2 - 2 ^ (eb - 1) - fb : ℤ)
  else (2 ^ fb + n % 2 ^ fb : ℕ) * 2 ^ (2 - 2 ^ (eb - 1) - fb + (n / 2 ^ fb : ℕ) - 1 : ℤ)

/-- The formats the block rounds to: binary16, binary32, E4M3 and E5M2. -/
def roundedFormats : List (Nat × Nat) := [(5, 10), (8, 23), (4, 3), (5, 2)]

/-- The value of a finite number; 0 otherwise. -/
def valueOf : FVal → ℚ
  | .fin neg m e => (if neg then -1 else 1) * m * 2 ^ e
  | _ => 0

/-- A number is finite. -/
def IsFinite : FVal → Prop
  | .fin _ _ _ => True
  | _ => False

/-- `v` is the number of sign `neg` and magnitude bits `n` in the IEEE format of `eb` exponent and `fb` fraction bits
(44_dequant R124). -/
def ReadsAs (eb fb : Nat) (neg : Bool) (n : Nat) (v : FVal) : Prop :=
  if n < (2 ^ eb - 1) * 2 ^ fb then ∃ (m : Nat) (e : Int), v = .fin neg m e ∧ (m * 2 ^ e : ℚ) = magValue eb fb n
  else if n = (2 ^ eb - 1) * 2 ^ fb then v = .inf neg
  else v = .nan

/-- `z` is the exact product of `x` and `y` (44_dequant R126, R129, R130): a zero has the exclusive-or of the signs too. -/
def IsExactProduct (z : FVal) : FVal → FVal → Prop
  | .nan, _ => z = .nan
  | _, .nan => z = .nan
  | .inf p, .inf q => z = .inf (p ^^ q)
  | .inf p, .fin q n _ => z = if n = 0 then .nan else .inf (p ^^ q)
  | .fin p m _, .inf q => z = if m = 0 then .nan else .inf (p ^^ q)
  | .fin p m e, .fin q n f =>
    ∃ (k : Nat) (g : Int), z = .fin (p ^^ q) k g ∧ (k * 2 ^ g : ℚ) = m * 2 ^ e * (n * 2 ^ f)

/-- `z` is the exact sum of `x` and `y` (44_dequant R129, R130): a zero sum is negative only where both signs are. -/
def IsExactSum (z : FVal) : FVal → FVal → Prop
  | .nan, _ => z = .nan
  | _, .nan => z = .nan
  | .inf p, .inf q => z = if p = q then .inf p else .nan
  | .inf p, .fin _ _ _ => z = .inf p
  | .fin _ _ _, .inf q => z = .inf q
  | .fin p m e, .fin q n f =>
    let v := valueOf (.fin p m e) + valueOf (.fin q n f)
    ∃ (neg : Bool) (k : Nat) (g : Int), z = .fin neg k g ∧ (k * 2 ^ g : ℚ) = |v| ∧
      (v < 0 → neg = true) ∧ (0 < v → neg = false) ∧ (v = 0 → neg = (p && q))

/-- What FTZ makes of an f32: a subnormal becomes a zero of its sign (44_dequant R129). -/
def flushed (x : F32) : F32 := if x.toNat % 2 ^ 31 < 2 ^ 23 then (if x.msb then 0x80000000 else 0) else x

/-- The exponent and fraction bits of an 8-bit float format and the magnitude bits of its largest finite value
(45_epilogue R137). -/
def fp8Format : Fp8Fmt → Nat × Nat × Nat
  | .e4m3Sat => (4, 3, 0x7E)
  | .e5m2Sat => (5, 2, 0x7B)

/-! ## The canonical stream, place by place (46_sequencer R149, 30_encoding R84) -/

/-- The command at index `k` of the canonical stream of `t` main stages and output size `sz` is `i`. -/
def StreamHas (t sz k : Nat) (i : Instr) : Prop := (canonicalWords t sz)[k]? = some (encode i)

/-- The phase of stage `j`. -/
def phaseOf (t j : Nat) : Phase := if j < t then .main else .keeper

/-- The ring slot of stage `j`. -/
def ringSlot (j : Nat) : Fin 4 := ⟨j % 4, Nat.mod_lt j (by decide)⟩

/-- LOAD(j) stands at index `k`: LDG.A, LDG.B and LDGS of stage `j`. -/
def LoadsAt (t sz k j : Nat) : Prop :=
  let kt := if j < t then j else j - t
  StreamHas t sz k (.ldgA (phaseOf t j) (ringSlot j) kt) ∧ StreamHas t sz (k + 1) (.ldgB (phaseOf t j) (ringSlot j) kt) ∧
    StreamHas t sz (k + 2) (.ldgs (phaseOf t j) (ringSlot j) kt)

/-- COMPUTE of stage `j` stands at index `k`: two K-steps of 10 LDMs and 16 MMAs. -/
def ComputesAt (t sz k j : Nat) : Prop :=
  ∀ ks mi : Fin 2, StreamHas t sz (k + 26 * ks.val + mi.val) (.ldmA (ringSlot j) ks mi) ∧
    ∀ ni : Fin 8, StreamHas t sz (k + 26 * ks.val + 2 + ni.val) (.ldmB (ringSlot j) ks ni) ∧
      StreamHas t sz (k + 26 * ks.val + 10 + 8 * mi.val + ni.val) (if j < t then .mma4 mi ni else .mma8 mi ni)

/-- The length of the prologue. -/
def prologueEnd (t : Nat) : Nat := 3 + 3 * min (t + 2) 3

/-- Where iteration `j` of the main loop begins: each before it has 55 commands, 3 more where it refills a slot and 2 more
where it folds. -/
def iterationAt (t j : Nat) : Nat := prologueEnd t + 55 * j + 3 * min j (t - 1) + 2 * min j t

/-- Where the epilogue begins: after every iteration, of which the last folds too. -/
def epilogueAt (t : Nat) : Nat := prologueEnd t + 55 * (t + 2) + 3 * (t - 1) + 2 * (t + 1)

end Sys2Proof.Claims

open Sys2Proof Sys2Proof.Machine Sys2Proof.Claims

/-! ## Encoding -/

/-- 30_encoding R77 to R80: the word of a well-formed command decodes to that command, every operand at every value. -/
def Obligations.DecodeOfEncodeIsTheCommand : Prop := ∀ i : Instr, i.wf = true → decode (encode i) = .ok i

/-- 30_encoding R77, R79, R80, R82: a word that decodes does so to a well-formed command, of which it is the one word. -/
def Obligations.DecodedWordIsTheEncoding : Prop :=
  ∀ (w : Cmd) (i : Instr), decode w = .ok i → i.wf = true ∧ encode i = w

/-- 30_encoding R78, R81: which words are illegal, in terms of their bits. -/
def Obligations.IllegalWordsAreTheReservedOnes : Prop :=
  ∀ w : Cmd, (∃ e, decode w = .error e) ↔
    let opc := w.toNat / 2 ^ 27
    let low := fun n => w.toNat % 2 ^ n
    let bit := fun n => w.toNat / 2 ^ n % 2
    14 ≤ opc ∨
    (opc ∈ [0, 3, 5, 10, 11, 13] ∧ low 27 ≠ 0) ∨
    (opc = 1 ∧ w.toNat / 2 ^ 16 % 2 ^ 7 ≠ 0) ∨
    (opc = 2 ∧ (bit 25 = 1 ∨ w.toNat / 2 ^ 16 % 2 ^ 7 ≠ 0)) ∨
    (opc = 4 ∧ low 27 / 2 ^ 4 ≠ 0) ∨
    (opc = 6 ∧ (bit 26 = 1 ∨ low 19 ≠ 0 ∨ (bit 25 = 0 ∧ 2 ≤ w.toNat / 2 ^ 19 % 2 ^ 3))) ∨
    (opc = 7 ∧ (bit 25 = 1 ∨ low 23 ≠ 0)) ∨
    ((opc = 8 ∨ opc = 9) ∧ (low 27 / 2 ^ 22 ≠ 0 ∨ low 18 ≠ 0)) ∨
    (opc = 12 ∧ low 27 / 2 ^ 8 ≠ 0)

/-- 30_encoding R79: at most one row of the opcode map matches any word. -/
def Obligations.AtMostOneRowMatches : Prop :=
  ∀ (w : Cmd) (j k : Fin 16), rowMatches w opcodeTable[j] = true → rowMatches w opcodeTable[k] = true → j = k

/-- 30_encoding R85: its examples, the illegal ones among them. -/
def Obligations.EncodingExamplesDecode : Prop :=
  ([0x00000000, 0x08000000, 0x0A800005, 0x0D000001, 0x0F800001, 0x10000000, 0x15800001, 0x18000000, 0x20000002,
    0x20000000, 0x28000000, 0x30000000, 0x30C80000, 0x33380000, 0x38000000, 0x3C800000, 0x40000000, 0x403C0000,
    0x48180000, 0x483C0000, 0x50000000, 0x58000000, 0x60000000, 0x6000000F, 0x68000000] : List Nat).map
      (decodeTableWord 32) =
    [.nop, .ldgA .main 0 0, .ldgB .main 1 5, .ldgA .keeper 2 1, .ldgB .keeper 3 1, .ldgs .main 0 0, .ldgs .keeper 3 1,
      .commit, .wait 2, .wait 0, .bar, .ldmA 0 0 0, .ldmA 1 1 1, .ldmB 2 0 7, .ldsc .main 0, .ldsc .keeper 1,
      .mma4 0 0, .mma4 1 7, .mma8 0 3, .mma8 1 7, .deq, .cvts, .stg 0, .stg 15, .endWarp].map some ∧
  ∀ w ∈ [0x70000000, 0x18000001, 0x12000000, 0x30100000, 0x08010000], decodeTableWord 32 w = none

/-! ## The warp step -/

/-- 46_sequencer R144, R145, 30_encoding R81: a step of a RUN warp of a RUNNING invocation is the execution of the command its
word decodes to, in the state whose choice of an agent is used up and whose current warp is that warp; an illegal word
and a pc at or past the end of the stream raise their faults. The choice of an agent is the model's (log 1), and so is that a
WAIT that holds, which has no enabled step, changes nothing but the choice (log 2). -/
def Obligations.WarpStepRunsTheDecodedCommand : Prop :=
  ∀ (s : State) (blk : Nat) (w : WarpId) (b : Block), s.nextAgent = .warp blk w → s.blocks[blk]? = some b →
    s.inv = .running → b.warps[w].st = .run →
    let c := s.choiceTaken.asWarp blk w
    c.block? = some b ∧ c.cur = ⟨blk, w⟩ ∧
    (s.cs.length ≤ b.warps[w].pc.toNat → step s = .next (c.raise b .pcOverrun)) ∧
    (∀ word e, s.cs[b.warps[w].pc.toNat]? = some word → decode word = .error e →
      step s = .next (c.raise b .illegalCmd)) ∧
    (∀ word i, s.cs[b.warps[w].pc.toNat]? = some word → decode word = .ok i → step s = exec i c) ∧
    (HoldsAtWait s b w → step s = .next c)

/-- 60_exceptions R158, 00_scope R14: what raising a fault does, and that it does nothing else. That a record has no word where
no command stands at the pc is the model's (log 11). Device memory keeps its bytes as R158 says; what the host finds in D
afterwards is free (R160; log 22). -/
def Obligations.RaisingAFaultIsPrecise : Prop :=
  ∀ (s : State) (b : Block) (c : Cause), s.block? = some b →
    ∃ b', (s.raise b c).block? = some b' ∧ (s.raise b c).inv = .failed ∧
      b'.log = b.log ++ [⟨c, b.bm, b.bn, some s.cur.w, some b.warps[s.cur.w].pc, s.cs[b.warps[s.cur.w].pc.toNat]?⟩] ∧
      b'.warps[s.cur.w] = { b.warps[s.cur.w] with st := .faulted } ∧ OtherWarpsKept b b' s.cur.w ∧
      b'.bm = b.bm ∧ b'.bn = b.bn ∧ b'.gen = b.gen ∧ b'.arrived = b.arrived ∧ ScratchKept b b' ∧
      OtherBlocksKept s (s.raise b c) s.cur.blk ∧ InvocationKept s (s.raise b c) ∧
      (s.raise b c).mem = s.mem ∧ (s.raise b c).draws = s.draws

/-! ## The copy commands -/

/-- 40_loader R94: LDG.A, its faults and its effect. That no access beyond 2^64 is
admitted is the model's clause (log 12). -/
def Obligations.LdgAIssuesItsCopies : Prop :=
  ∀ (s : State) (b : Block) (ph : Phase) (slot : Fin 4) (kt : Nat), s.block? = some b → Canonical s →
    CopyCommandResult (.ldgA ph slot kt) s b ph kt (ldgLoops (ldgACopy s b s.cur.w ph slot kt))

/-- 40_loader R95: LDG.B, its faults and its effect. That no access beyond 2^64 is admitted is the model's
clause (log 12). -/
def Obligations.LdgBIssuesItsCopies : Prop :=
  ∀ (s : State) (b : Block) (ph : Phase) (slot : Fin 4) (kt : Nat), s.block? = some b → Canonical s →
    CopyCommandResult (.ldgB ph slot kt) s b ph kt (ldgLoops (ldgBCopy s b s.cur.w ph slot kt))

/-- 40_loader R96, R97, R98: LDGS, its faults and its effect; warps 4 to 7 copy nothing, so there it only advances the pc.
That no access beyond 2^64 is admitted is the model's clause (log 12). -/
def Obligations.LdgsIssuesItsCopies : Prop :=
  ∀ (s : State) (b : Block) (ph : Phase) (slot : Fin 4) (kt : Nat), s.block? = some b → Canonical s →
    CopyCommandResult (.ldgs ph slot kt) s b ph kt ((List.range 32).filterMap (ldgsCopy s b s.cur.w ph slot kt)) ∧
    (4 ≤ s.cur.w.val → (List.range 32).filterMap (ldgsCopy s b s.cur.w ph slot kt) = [])

/-! ## Synchronisation -/

/-- 41_pipeline_sync R105: COMMIT, also with an empty OPEN[w]. -/
def Obligations.CommitClosesTheOpenGroup : Prop :=
  ∀ (s : State) (b : Block), s.block? = some b →
    ∃ b', exec .commit s = .next (s.setBlock b') ∧ ScratchKept b b' ∧
      WarpBecomes b b' s.cur.w { b.warps[s.cur.w] with
        groups := b.warps[s.cur.w].groups ++ [b.warps[s.cur.w].openGrp]
        openGrp := []
        pc := b.warps[s.cur.w].pc + 1 }

/-- 41_pipeline_sync R106: WAIT n holds while a record of a group it waits for is not performed, and else retires all but
the `n` most recent groups. That a WAIT that holds, which has no enabled step, changes nothing is the model's (log 2). -/
def Obligations.WaitHoldsOrRetires : Prop :=
  ∀ (s : State) (b : Block) (n : Nat), s.block? = some b → Canonical s →
    let x := b.warps[s.cur.w]
    let old := x.groups.take (x.groups.length - n)
    ((∃ g ∈ old, ∃ r ∈ g, r.performed = false) → exec (.wait n) s = .next s) ∧
    ((∀ g ∈ old, ∀ r ∈ g, r.performed = true) →
      ∃ b', exec (.wait n) s = .next (s.setBlock b') ∧
        WarpBecomes b b' s.cur.w { x with pc := x.pc + 1, groups := x.groups.drop (x.groups.length - n) } ∧
        TagsChange b b' (fun off => ∃ g ∈ old, ∃ r ∈ g, r.dst ≤ off ∧ off < r.dst + r.data.length)
          fun _ t => { t with vis := .done b.gen })

/-- 41_pipeline_sync R107, 60_exceptions R158: BAR's arrival, and the collective release, enabled where every warp is
AT_BAR. -/
def Obligations.BarrierArrivesAndReleases : Prop :=
  (∀ (s : State) (b : Block), s.block? = some b →
    ∃ b', exec .bar s = .next (s.setBlock b') ∧ ScratchKept b b' ∧ OtherWarpsKept b b' s.cur.w ∧
      b'.warps[s.cur.w] = { b.warps[s.cur.w] with st := .atBar } ∧
      (∀ v : WarpId, b'.arrived[v] = if v = s.cur.w then some b.warps[s.cur.w].pc else b.arrived[v]) ∧
      b'.bm = b.bm ∧ b'.bn = b.bn ∧ b'.gen = b.gen ∧ b'.log = b.log) ∧
  ∀ (s : State) (blk : Nat) (b : Block), s.nextAgent = .barrier blk → s.blocks[blk]? = some b → s.inv = .running →
    (∀ w : WarpId, b.warps[w].st = .atBar) →
    ((∀ v w : WarpId, b.arrived[v] = b.arrived[w]) →
      ∃ b', step s = .next { s.choiceTaken with blocks := s.blocks.set blk b' } ∧ ScratchKept b b' ∧
        b'.gen = b.gen + 1 ∧ (∀ w : WarpId, b'.arrived[w] = none) ∧
        (∀ w : WarpId, b'.warps[w] = { b.warps[w] with st := .run, pc := b.warps[w].pc + 1 }) ∧
        b'.bm = b.bm ∧ b'.bn = b.bn ∧ b'.log = b.log) ∧
    (¬(∀ v w : WarpId, b.arrived[v] = b.arrived[w]) →
      ∃ b', step s = .next { s.choiceTaken with blocks := s.blocks.set blk b', inv := .failed } ∧ ScratchKept b b' ∧
        b'.gen = b.gen ∧ (∀ w : WarpId, b'.warps[w] = { b.warps[w] with st := .faulted }) ∧
        b'.bm = b.bm ∧ b'.bn = b.bn ∧
        ∃ r, b'.log = b.log ++ [r] ∧ r.cause = .barMismatch b.arrived.toList ∧ r.bm = b.bm ∧ r.bn = b.bn)

/-- 41_pipeline_sync R102, 20_memory R63, 46_sequencer R152, R154: a step of the copy agent lands the bytes of an unperformed
record and sets its flag; writer and vis of the tags stay; the last copy of a grid whose warps are DONE completes the
invocation. -/
def Obligations.CopyLandsItsBytes : Prop :=
  ∀ (s : State) (blk : Nat) (b : Block) (w : WarpId) (place : CopyPlace) (r : CopyRecord),
    s.nextAgent = .copy blk w place → s.blocks[blk]? = some b → s.inv = .running → Canonical s →
    b.warps[w].recordAt place = some r → r.performed = false →
    ∃ b' t, step s = .next t ∧ EndsInto s.choiceTaken t (s.blocks.set blk b') ∧ SharedKept b b' ∧
      OtherWarpsKept b b' w ∧ RegisterFilesKept b.warps[w] b'.warps[w] ∧ b'.warps[w].pc = b.warps[w].pc ∧
      b'.warps[w].st = b.warps[w].st ∧ b'.warps[w].recordAt place = some { r with performed := true } ∧
      (∀ q, q ≠ place → b'.warps[w].recordAt q = b.warps[w].recordAt q) ∧
      b'.warps[w].groups.length = b.warps[w].groups.length ∧
      TagsChange b b' (fun off => r.dst ≤ off ∧ off < r.dst + r.data.length)
        fun off t => { t with val := r.data[off - r.dst]? }

/-! ## Reading the scratchpad -/

/-- 42_extract R113: LDM.A where every byte it reads is readable, and its first fault. -/
def Obligations.LdmALoadsTheFragment : Prop :=
  ∀ (s : State) (b : Block) (slot : Fin 4) (ks mi : Fin 2), s.block? = some b → Canonical s →
    let offs := ldmALoop s s.cur.w slot ks mi
    ((∀ off ∈ offs, Readable s.derived.scrBytes b s.cur.w off) →
      ∃ b' f, exec (.ldmA slot ks mi) s = .next (s.setBlock b') ∧
        (∀ (r2 : Fin 16) (k : Fin 32), (b.tag (ldmAByte s s.cur.w slot ks mi r2 k)).val = some f[r2][k]) ∧
        ReadsInto b b' s.cur.w (· ∈ offs)
          { b.warps[s.cur.w] with pc := b.warps[s.cur.w].pc + 1, fa := b.warps[s.cur.w].fa.set mi (some f) }) ∧
    ReaderFaults (.ldmA slot ks mi) s b offs

/-- 42_extract R114: LDM.B where every byte it reads is readable, and its first fault. -/
def Obligations.LdmBLoadsTheFragment : Prop :=
  ∀ (s : State) (b : Block) (slot : Fin 4) (ks : Fin 2) (ni : Fin 8), s.block? = some b → Canonical s →
    let offs := ldmBLoop s s.cur.w slot ks ni
    ((∀ off ∈ offs, Readable s.derived.scrBytes b s.cur.w off) →
      ∃ b' f, exec (.ldmB slot ks ni) s = .next (s.setBlock b') ∧
        (∀ (c2 : Fin 8) (k : Fin 32), (b.tag (ldmBByte s s.cur.w slot ks ni c2 k)).val = some f[c2][k]) ∧
        ReadsInto b b' s.cur.w (· ∈ offs)
          { b.warps[s.cur.w] with pc := b.warps[s.cur.w].pc + 1, fb := b.warps[s.cur.w].fb.set ni (some f) }) ∧
    ReaderFaults (.ldmB slot ks ni) s b offs

/-- 42_extract R116, 20_memory R43, R47: LDSC where every byte it reads is readable, and its first fault; `pos` is PERM_A_INV in
the main phase. -/
def Obligations.LdscLoadsTheScales : Prop :=
  ∀ (s : State) (b : Block) (ph : Phase) (slot : Fin 4) (pos : Nat → Nat), s.block? = some b → Canonical s →
    PositionOf s ph pos →
    let offs := ldscLoop s.cur.w slot pos
    ((∀ off ∈ offs, Readable s.derived.scrBytes b s.cur.w off) →
      ∃ (b' : Block) (sa : Vector (Vector F16 16) 2) (sb : Vector (Vector F16 8) 8),
        exec (.ldsc ph slot) s = .next (s.setBlock b') ∧
        (∀ (mi : Fin 2) (i : Fin 16), HalfAt b (rowScaleAt s.cur.w slot pos mi i) sa[mi][i]) ∧
        (∀ (ni : Fin 8) (j : Fin 8), HalfAt b (colScaleAt s.cur.w slot ni j) sb[ni][j]) ∧
        ReadsInto b b' s.cur.w (· ∈ offs)
          { b.warps[s.cur.w] with pc := b.warps[s.cur.w].pc + 1, sa := some sa, sb := some sb }) ∧
    ReaderFaults (.ldsc ph slot) s b offs

/-! ## Arithmetic commands -/

/-- 43_mma R118, R119, R121: MMA4, with its REG_UNINIT faults and the range of its sums. -/
def Obligations.Mma4Accumulates : Prop :=
  ∀ (mi : Fin 2) (ni : Fin 8), MmaResult (.mma4 mi ni) mi ni (fun x y => ∑ k : Fin 64, nibble x k * nibble y k)
    (-3584) 4096

/-- 43_mma R118, R120, R121: MMA8, with its REG_UNINIT faults and the range of its sums. -/
def Obligations.Mma8Accumulates : Prop :=
  ∀ (mi : Fin 2) (ni : Fin 8), MmaResult (.mma8 mi ni) mi ni (fun x y => ∑ k : Fin 32, x[k].toInt * y[k].toInt)
    (-520192) 524288

/-- 44_dequant R131, R130: DEQ, with its REG_UNINIT fault; every element is folded on its own, IACC is 0 and the scales stay.
The draw count is the model's (log 13), and so is the index 0 of the fault's record (log 24). -/
def Obligations.DeqFoldsEveryElement : Prop :=
  ∀ (s : State) (b : Block), s.block? = some b →
    let x := b.warps[s.cur.w]
    ((x.sa = none ∨ x.sb = none) → exec .deq s = .next (s.raise b (.regUninit .scales 0))) ∧
    ∀ sa sb, x.sa = some sa → x.sb = some sb →
      ∃ (b' : Block) (iacc facc : AccFile), exec .deq s = .next { s.setBlock b' with draws := s.draws + 1 } ∧ ScratchKept b b' ∧
        WarpBecomes b b' s.cur.w { x with pc := x.pc + 1, iacc := iacc, facc := facc } ∧
        ∀ (mi : Fin 2) (ni : Fin 8) (r : Fin 16) (c : Fin 8), iacc[mi][ni][r][c] = 0 ∧
          IsFold s.cfg x.facc[mi][ni][r][c] facc[mi][ni][r][c] x.iacc[mi][ni][r][c] sa[mi][r] sb[ni][c]

/-! ## The epilogue -/

/-- 45_epilogue R138, R139, R135: CVTS where every byte it stages is writable, and a fault of the first that is not. `LaunchOk`
gives SZ and OUT_TYPE together. The draw count is the model's (log 13). -/
def Obligations.CvtsStagesTheAccumulator : Prop :=
  ∀ (s : State) (b : Block), s.block? = some b → Canonical s → LaunchOk s →
    let offs := stagedLoop s s.cur.w
    ((∀ off ∈ offs, Writable s.derived.scrBytes b s.cur.w off) →
      ∃ (b' : Block) (v : Fin 2 → Fin 8 → Fin 16 → Fin 8 → Nat),
        exec .cvts s = .next { s.setBlock b' with draws := s.draws + 1 } ∧
        WarpBecomes b b' s.cur.w { b.warps[s.cur.w] with pc := b.warps[s.cur.w].pc + 1 } ∧
        (∀ (mi : Fin 2) (ni : Fin 8) (r : Fin 16) (c : Fin 8),
          IsCvtOut s b.warps[s.cur.w].facc[mi][ni][r][c] (v mi ni r c) ∧
          ∀ j < s.derived.sz, b'.tag (stagedAt s s.cur.w mi ni r c + j) =
            { b.tag (stagedAt s s.cur.w mi ni r c + j) with
              val := some (BitVec.ofNat 8 (v mi ni r c / 256 ^ j))
              writer := some s.cur.w
              vis := .done b.gen }) ∧
        ∀ off, off ∉ offs → b'.tag off = b.tag off) ∧
    ∀ pre off post, offs = pre ++ off :: post → (∀ a ∈ pre, Writable s.derived.scrBytes b s.cur.w a) →
      ¬Writable s.derived.scrBytes b s.cur.w off →
      ∃ f, WriteFails s.derived.scrBytes b s.cur.w off f ∧ exec .cvts s = .next (s.raise b f)

/-- 45_epilogue R140: STG it, its operand fault; its effect where every piece passes its checks: the stored bytes, and every
other device byte as before; and the fault of the first piece that fails. That no access beyond 2^64
is admitted is the model's clause (log 12). -/
def Obligations.StgStoresTheLiveRows : Prop :=
  ∀ (s : State) (b : Block) (it : Nat), s.block? = some b → Canonical s → LaunchOk s →
    let ps := stgLoop s b s.cur.w it
    (s.derived.iters ≤ it → exec (.stg it) s = .next (s.raise b (.illegalOperand it))) ∧
    (it < s.derived.iters →
      ((∀ p ∈ ps, PieceOk s b s.cur.w p) →
        ∃ (b' : Block) (mem : Memory), exec (.stg it) s = .next { s.setBlock b' with mem := mem } ∧
          ReadsInto b b' s.cur.w (fun off => ∃ p ∈ ps, p.off ≤ off ∧ off < p.off + 16)
            { b.warps[s.cur.w] with pc := b.warps[s.cur.w].pc + 1 } ∧
          (∀ p ∈ ps, ∀ j < 16, (b.tag (p.off + j)).val = some (mem.read (p.dst + j))) ∧
          ∀ a, (∀ p ∈ ps, ¬(p.dst ≤ a ∧ a < p.dst + 16)) → mem.read a = s.mem.read a) ∧
      ∀ pre p post f, ps = pre ++ p :: post → (∀ q ∈ pre, PieceOk s b s.cur.w q) → PieceFails s b s.cur.w p f →
        exec (.stg it) s = .next (s.raise b f))

/-- 45_epilogue R141, 46_sequencer R152, R154: END; the last END of a grid without an unperformed copy completes the
invocation. -/
def Obligations.EndMakesTheWarpDone : Prop :=
  ∀ (s : State) (b : Block), s.block? = some b →
    ∃ b' t, exec .endWarp s = .next t ∧ EndsInto s t (s.blocks.set s.cur.blk b') ∧ ScratchKept b b' ∧
      WarpBecomes b b' s.cur.w { b.warps[s.cur.w] with st := .done }

/-- 46_sequencer R146: NOP. -/
def Obligations.NopOnlyAdvancesThePc : Prop :=
  ∀ (s : State) (b : Block), s.block? = some b →
    ∃ b', exec .nop s = .next (s.setBlock b') ∧ ScratchKept b b' ∧
      WarpBecomes b b' s.cur.w { b.warps[s.cur.w] with pc := b.warps[s.cur.w].pc + 1 }

/-! ## What commands leave unchanged -/

/-- 10_state R21, R30, 46_sequencer R145: every command that answers a next state raised a fault or left unchanged every piece
of state it does not write: the other register files, the other warps and blocks, the parameter registers, device
memory and the scratchpad. -/
def Obligations.CommandsKeepWhatTheyDoNotWrite : Prop :=
  ∀ (i : Instr) (s t : State) (b : Block), s.block? = some b → exec i s = .next t →
    (∃ c, t = s.raise b c) ∨ ∃ b', t.block? = some b' ∧ CommandKept i s t b b'

/-- 43_mma R119, R120, 42_extract R113, R114: an MMA leaves every other sub-tile of IACC, an LDM.A the other A fragment and an
LDM.B every other B fragment unchanged, also where they raise a fault. -/
def Obligations.PartialRegisterWritesKeepTheRest : Prop :=
  ∀ (s t : State) (b b' : Block), s.block? = some b → t.block? = some b' →
    (∀ mi ni i j, (exec (.mma4 mi ni) s = .next t ∨ exec (.mma8 mi ni) s = .next t) → ¬(i = mi ∧ j = ni) →
      b'.warps[s.cur.w].iacc[(i : Fin 2)][(j : Fin 8)] = b.warps[s.cur.w].iacc[i][j]) ∧
    (∀ slot ks mi (i : Fin 2), exec (.ldmA slot ks mi) s = .next t → i ≠ mi →
      b'.warps[s.cur.w].fa[i] = b.warps[s.cur.w].fa[i]) ∧
    ∀ slot ks ni (i : Fin 8), exec (.ldmB slot ks ni) s = .next t → i ≠ ni →
      b'.warps[s.cur.w].fb[i] = b.warps[s.cur.w].fb[i]

/-- 20_memory R59 to R63: a command changes no tag outside the bytes it claims, writes, retires or reads, and of a byte it
only reads it changes only its own reader field. -/
def Obligations.ScratchAccessesKeepOtherBytes : Prop :=
  ∀ (i : Instr) (s t : State) (b b' : Block), s.block? = some b → Canonical s → exec i s = .next t →
    t.block? = some b' →
    (∀ off, ¬ScratchWritten i s b off → ¬ScratchRead i s b off → b'.tag off = b.tag off) ∧
    ∀ off, ScratchRead i s b off → b'.tag off = b.tag off ∨
      b'.tag off = { b.tag off with rd := (b.tag off).rd.set s.cur.w (some b.gen) }

/-- 45_epilogue R140, 20_memory R56: STG leaves every device byte outside its pieces unchanged, where `stgPieces` computes the
addresses it stores to; so an STG whose rows all lie at or beyond M stores nothing. -/
def Obligations.StgKeepsOtherDeviceBytes : Prop :=
  ∀ (s t : State) (b : Block) (it : Nat), s.block? = some b → Canonical s → exec (.stg it) s = .next t →
    ∀ a, (∀ p ∈ stgPieces s b s.cur.w it, ¬(p.dst ≤ a ∧ a < p.dst + 16)) → t.mem.read a = s.mem.read a

/-! ## Whole-machine rules -/

/-- 41_pipeline_sync R107: the step that raises a barrier's GEN is the only step that changes GEN. -/
def Obligations.OnlyABarrierChangesGen : Prop :=
  ∀ (s t : State) (blk : Nat) (b b' : Block), step s = .next t → s.inv = .running → s.blocks[blk]? = some b →
    t.blocks[blk]? = some b' → b'.gen ≠ b.gen →
    s.nextAgent = .barrier blk ∧ (∀ w : WarpId, b.warps[w].st = .atBar) ∧ b'.gen = b.gen + 1

/-- 41_pipeline_sync R108, 20_memory R60, R61, R64: after a release every byte whose last write had completed is readable by every
warp, and a write of a byte no copy has pending conflicts with no earlier read or write. -/
def Obligations.ReleaseOrdersEarlierAccesses : Prop :=
  ∀ (s t : State) (blk : Nat) (b b' : Block), TagsOk s → step s = .next t → s.inv = .running →
    s.blocks[blk]? = some b → t.blocks[blk]? = some b' → b'.gen ≠ b.gen →
    ∀ off < 67584, ∀ w : WarpId, b'.tag off = b.tag off ∧
      ((∃ g, (b.tag off).vis = .done g) → Readable 67584 b' w off) ∧
      ((b.tag off).vis ≠ .pending → Writable 67584 b' w off)

/-- 10_state R30, 46_sequencer R145: a step of a RUNNING invocation leaves every warp's pc where it is or adds one; and in a
machine whose warps are in step no pc wraps: it adds one to the number. -/
def Obligations.PcStaysOrAdvancesByOne : Prop :=
  ∀ (s t : State), step s = .next t → s.inv = .running → t.blocks.length = s.blocks.length ∧
    ∀ (blk : Nat) (b b' : Block) (w : WarpId), s.blocks[blk]? = some b → t.blocks[blk]? = some b' →
      (b'.warps[w].pc = b.warps[w].pc ∨ b'.warps[w].pc = b.warps[w].pc + 1) ∧
      (InStep s → b'.warps[w].pc.toNat = b.warps[w].pc.toNat ∨ b'.warps[w].pc.toNat = b.warps[w].pc.toNat + 1)

/-- 10_state R21, R16, 20_memory R69, 60_exceptions R176: a step of a block's agent touches no other block; a warp's step touches
no other warp; the copy agent and the barrier touch no register file. -/
def Obligations.StepsStayInTheirBlockAndWarp : Prop :=
  ∀ (s t : State), step s = .next t → s.inv = .running →
    (∀ blk w, s.nextAgent = .warp blk w → OtherBlocksKept s t blk ∧
      ∀ b b', s.blocks[blk]? = some b → t.blocks[blk]? = some b' → OtherWarpsKept b b' w) ∧
    (∀ blk w place, s.nextAgent = .copy blk w place → OtherBlocksKept s t blk ∧
      ∀ b b', s.blocks[blk]? = some b → t.blocks[blk]? = some b' → OtherWarpsKept b b' w ∧
        RegisterFilesKept b.warps[w] b'.warps[w] ∧ b'.warps[w].pc = b.warps[w].pc ∧
        b'.warps[w].st = b.warps[w].st) ∧
    (∀ blk, s.nextAgent = .barrier blk → OtherBlocksKept s t blk ∧
      ∀ b b' (w : WarpId), s.blocks[blk]? = some b → t.blocks[blk]? = some b' →
        RegisterFilesKept b.warps[w] b'.warps[w] ∧ b'.warps[w].openGrp = b.warps[w].openGrp ∧
        b'.warps[w].groups = b.warps[w].groups) ∧
    (s.nextAgent = .host → t.blocks = s.blocks)

/-- 20_memory R42, R52, R69: blocks never communicate: what a command does to its block depends on its block, the parameter
registers, the command stream, the input allocations and the count of draws alone, not on another block or on D. The count,
a premise here, is the model's name for the free draws of NAN_MODE ANY (log 13): what DEQ and CVTS of any block advance
decides no value but a free one. -/
def Obligations.BlocksLearnNothingOfEachOther : Prop :=
  ∀ (i : Instr) (s s' t : State) (b : Block), s.block? = some b → s'.block? = some b → s'.cur = s.cur →
    s'.draws = s.draws → InvocationKept s s' →
    (∀ (k : Fin 8) (a : Nat), s.params.ptrs[k.castSucc].toNat ≤ a →
      a < s.params.ptrs[k.castSucc].toNat + s.bufLen[k.castSucc] → s'.mem.read a = s.mem.read a) →
    exec i s = .next t → ∃ t', exec i s' = .next t' ∧ t'.block? = t.block?

/-- 10_state R17, R19, R20, 20_memory R71: no step of a RUNNING invocation writes a parameter or derived register, the
allocation table, the command stream, RET or a block's identity. -/
def Obligations.ReadOnlyStateStaysDuringARun : Prop :=
  ∀ (s t : State), step s = .next t → s.inv = .running → InvocationKept s t ∧
    ∀ (blk : Nat) (b b' : Block), s.blocks[blk]? = some b → t.blocks[blk]? = some b' → b'.bm = b.bm ∧ b'.bn = b.bn

/-- 20_memory R52, R55, R69, R70, 60_exceptions R168, R170: no step of a RUNNING invocation changes a device byte outside D's
allocation; so, where its launch passed the checks, every byte of the eight inputs stays. -/
def Obligations.OnlyDIsWrittenDuringARun : Prop :=
  ∀ (s t : State) (a : Nat), step s = .next t → s.inv = .running → Canonical s →
    (¬s.inAllocation 8 a → t.mem.read a = s.mem.read a) ∧
    (LaunchOk s → ∀ i : Fin 8, s.inAllocation i.castSucc a → t.mem.read a = s.mem.read a)

/-- 60_exceptions R159, 10_state R36: no step removes a fault record or changes a FAULTED warp, and in a FAILED invocation no
step changes anything; only a launch by the host, of another invocation, follows it (log 5). -/
def Obligations.FaultsAreStickyAndFinal : Prop :=
  (∀ (s t : State) (blk : Nat) (b b' : Block), step s = .next t → s.inv = .running → s.blocks[blk]? = some b →
    t.blocks[blk]? = some b' → b.log <+: b'.log ∧
      ∀ w : WarpId, b.warps[w].st = .faulted → b'.warps[w].st = .faulted) ∧
  ∀ s : State, s.inv = .failed → (s.launches = [] ∨ s.nextAgent ≠ .host) → step s = .next s.choiceTaken

/-- 41_pipeline_sync R109, 46_sequencer R144, R152: a step stops exactly where the invocation is RUNNING and no agent of any block
has an enabled step, and it refuses nothing. That the model stops there, and only there, is its own (log 2). -/
def Obligations.StepStopsExactlyWhenStuck : Prop :=
  ∀ s : State, (∀ r, step s ≠ .refused r) ∧
    ∀ f, step s = .fault f ↔ f = .stuck ∧ s.inv = .running ∧ ∀ b ∈ s.blocks, NoneEnabled s b

/-- 10_state R31, 41_pipeline_sync R102, R107, 45_epilogue R141, 46_sequencer R144: in a machine that is not stuck a chosen agent
without an enabled step changes nothing, which is how the model spends such a choice (log 2): a warp that is not RUN, a
barrier some warp has not reached, a copy choice that names no unperformed record, any agent where no invocation runs;
`agentEnabled` says when, and an enabled step does change a block, or is a launch. -/
def Obligations.AgentsWithoutAStepChangeNothing : Prop :=
  ∀ s : State,
    (s.inv = .running → (∃ b ∈ s.blocks, ¬NoneEnabled s b) → ∀ (blk : Nat) (b : Block), s.blocks[blk]? = some b →
      (∀ w, s.nextAgent = .warp blk w → b.warps[w].st ≠ .run → step s = .next s.choiceTaken) ∧
      (s.nextAgent = .barrier blk → (∃ w : WarpId, b.warps[w].st ≠ .atBar) → step s = .next s.choiceTaken) ∧
      ∀ w place, s.nextAgent = .copy blk w place → (∀ r, b.warps[w].recordAt place = some r → r.performed = true) →
        step s = .next s.choiceTaken) ∧
    (s.inv ≠ .running → s.nextAgent ≠ .host → step s = .next s.choiceTaken) ∧
    (s.agentEnabled s.nextAgent = false → ¬(s.inv = .running ∧ ∀ b ∈ s.blocks, NoneEnabled s b) →
      ∃ c, step s = .next { s.choiceTaken with cur := c }) ∧
    (s.agentEnabled s.nextAgent = true →
      ∃ t, step s = .next t ∧ (t.blocks ≠ s.blocks ∨ t.launches ≠ s.launches))

/-- 46_sequencer R152, R154: a step that makes INV COMPLETE leaves every block ended and none failed. -/
def Obligations.CompleteMeansEveryBlockEnded : Prop :=
  ∀ s t : State, step s = .next t → s.inv ≠ .complete → t.inv = .complete →
    s.inv = .running ∧ ∀ b ∈ t.blocks, Ended b ∧ b.log = []

/-! ## Invariants of the machine -/

/-- Every step keeps device memory and every scratchpad in canonical form, SCR_BYTES at the scratchpad's size (20_memory R58)
and every copy record inside it. -/
def Obligations.StepKeepsCanonicalForm : Prop := ∀ s t : State, Canonical s → step s = .next t → Canonical t

/-- 20_memory R59 to R63, 41_pipeline_sync R102, R106: every step keeps the meaning of the scratch tags. -/
def Obligations.StepKeepsTagsMeaningful : Prop :=
  ∀ s t : State, Canonical s → TagsOk s → step s = .next t → TagsOk t

/-- 60_exceptions R159, R162: every step keeps: a FAILED invocation has exactly one fault record, any other none. -/
def Obligations.StepKeepsOneFaultRecord : Prop := ∀ s t : State, OneFault s → step s = .next t → OneFault t

/-- 41_pipeline_sync R109, 46_sequencer R144, R145, R147: every step keeps the warps of each block in step at the barriers. -/
def Obligations.StepKeepsWarpsInStep : Prop := ∀ s t : State, InStep s → step s = .next t → InStep t

/-- 60_exceptions R164 to R169, 10_state R19, R20: every step keeps the grid within what its launch checked. -/
def Obligations.StepKeepsLaunchChecks : Prop := ∀ s t : State, LaunchOk s → step s = .next t → LaunchOk t

/-- The invariants hold at reset; INV is IDLE and no launch fault is recorded (10_state R37). -/
def Obligations.ResetMeetsTheInvariants : Prop :=
  Canonical State.reset ∧ TagsOk State.reset ∧ OneFault State.reset ∧ InStep State.reset ∧ LaunchOk State.reset ∧
    State.reset.inv = .idle ∧ State.reset.launchFault = none

/-- 41_pipeline_sync R109: in a machine whose warps are in step no BAR_MISMATCH can be raised, no warp waits at a barrier another
warp of its block cannot reach, and every step answers a next state: the machine is never stuck. -/
def Obligations.WarpsInStepAreNeverStuck : Prop :=
  ∀ s : State, InStep s → (∃ t, step s = .next t) ∧
    ∀ b ∈ s.blocks, ((∀ w : WarpId, b.warps[w].st = .atBar) → ∀ v w : WarpId, b.arrived[v] = b.arrived[w]) ∧
      (s.inv = .running → ∀ v w : WarpId, b.warps[v].st = .atBar →
        b.warps[w].st ≠ .done ∧ b.warps[w].st ≠ .faulted)

/-- 41_pipeline_sync R102, 46_sequencer R148: copies land in any order: two steps of copy agents that perform two different
records, of one block or of two, lead to one state in either order. -/
def Obligations.CopiesLandInAnyOrder : Prop :=
  ∀ (s : State) (rest : List Agent) (blk1 blk2 : Nat) (b1 b2 : Block) (w1 w2 : WarpId) (p1 p2 : CopyPlace)
    (r1 r2 : CopyRecord), Canonical s → TagsOk s → s.inv = .running →
    s.blocks[blk1]? = some b1 → s.blocks[blk2]? = some b2 →
    b1.warps[w1].recordAt p1 = some r1 → r1.performed = false →
    b2.warps[w2].recordAt p2 = some r2 → r2.performed = false → (blk1, w1, p1) ≠ (blk2, w2, p2) →
    ∃ u v t, step { s with sched := .copy blk1 w1 p1 :: .copy blk2 w2 p2 :: rest } = .next u ∧ step u = .next t ∧
      step { s with sched := .copy blk2 w2 p2 :: .copy blk1 w1 p1 :: rest } = .next v ∧ step v = .next t

/-! ## The launch -/

/-- 60_exceptions R164 to R169: the return flag first, then the four checks in order; the first that fails is reported
alone and starts no block, and device memory is what the host gave in every case, which is the model's reading of the
launch (log 5). That a LAUNCH_ALIAS record names one sharing input, and 8 for D, is the model's too (log 25). -/
def Obligations.LaunchChecksInOrder : Prop :=
  ∀ (s : State) (r : LaunchRecord), (s.launch r).mem = memOfCells r.bytes ∧
    (¬OutTypeSupported s.cfg r.outType → (s.launch r).ret = false ∧ Refused (s.launch r) none) ∧
    (OutTypeSupported s.cfg r.outType → (s.launch r).ret = true ∧
      (¬DimsPass r → Refused (s.launch r) (some (.badDims r.m r.n r.k))) ∧
      (DimsPass r →
        (∀ i : Fin 9, (∀ j < i, PointerPasses r j) → ¬PointerPasses r i →
          Refused (s.launch r) (some (.misalignedPtr i.val r.ptrs[i]))) ∧
        ((∀ i, PointerPasses r i) →
          ((∃ i, SharesByteWithD r i) →
            ∃ i : Fin 8, SharesByteWithD r i ∧ Refused (s.launch r) (some (.overlapsD i.val 8))) ∧
          ((∀ i, ¬SharesByteWithD r i) →
            (¬ScratchPasses s.cfg r →
              Refused (s.launch r) (some (.scratchSize r.rs 67584 s.cfg.scratchCapacity))) ∧
            (ScratchPasses s.cfg r → (s.launch r).inv = .running ∧ (s.launch r).launchFault = none)))))

/-- 46_sequencer R153, 10_state R39, R19, 00_scope R9: a launch that starts has GM × GN blocks, one for each (BM, BN), each at its
reset, the parameter registers, allocation lengths and RS of its record (10_state R17, 20_memory R51, 60_exceptions
R163), the derived registers of its arguments, and the stream of the host, or the canonical one where the record gives
none, which is the model's reading (log 21); it has at most 2^32 − 1 words (46_sequencer R145; log 18). -/
def Obligations.LaunchStartsTheGrid : Prop :=
  ∀ (s : State) (r : LaunchRecord), (s.launch r).inv = .running →
    let t := s.launch r
    let kMain := r.k - 128
    (t.params.pA = r.pA ∧ t.params.pB = r.pB ∧ t.params.pAS = r.pAS ∧ t.params.pBS = r.pBS ∧ t.params.pAK = r.pAK ∧
      t.params.pBK = r.pBK ∧ t.params.pAKS = r.pAKS ∧ t.params.pBKS = r.pBKS ∧ t.params.pD = r.pD) ∧
    t.params.m.toNat = r.m ∧ t.params.n.toNat = r.n ∧ t.params.k.toNat = r.k ∧ t.params.outType = r.outType ∧
    t.bufLen = r.bufLen ∧ t.rs = r.rs ∧
    t.derived.kMain = kMain ∧ t.derived.rb = kMain / 2 ∧ t.derived.t = (kMain + 127) / 128 ∧
    t.derived.g = (kMain + 127) / 128 ∧ t.derived.s = (kMain + 127) / 128 + 2 ∧
    t.derived.mpad = 128 * ((r.m + 127) / 128) ∧ t.derived.gm = (r.m + 127) / 128 ∧ t.derived.gn = r.n / 128 ∧
    t.derived.sz = (if r.outType = 0 then 4 else if r.outType = 1 then 2 else 1) ∧
    t.derived.iters = 4 * t.derived.sz ∧ t.derived.scrBytes = 67584 ∧
    t.cs = (r.cs.map Subtype.val).getD (canonicalWords t.derived.t t.derived.sz) ∧ t.cs.length ≤ 2 ^ 32 - 1 ∧
    t.blocks.length = t.derived.gm * t.derived.gn ∧
    (∀ bm < t.derived.gm, ∀ bn < t.derived.gn, ∃ b ∈ t.blocks, b.bm.toNat = bm ∧ b.bn.toNat = bn) ∧
    ∀ b ∈ t.blocks, BlockAtReset b

/-- 10_state R40, 60_exceptions R163: the host's step launches its next record, and the invocation that follows does not depend on
what an earlier one left. The queue of launches, when the host steps and that the record gives all of device memory are
the model's (log 5), and so is what a refused launch leaves in the parameter and derived registers
and in CS (log 16). -/
def Obligations.LaunchForgetsEarlierInvocations : Prop :=
  (∀ (s : State) (r : LaunchRecord) (rest : List LaunchRecord), s.nextAgent = .host → s.launches = r :: rest →
    s.inv ≠ .running → step s = .next (({ s.choiceTaken with launches := rest } : State).launch r)) ∧
  ∀ (s s' : State) (r : LaunchRecord), s.cfg = s'.cfg →
    let t := s.launch r
    let t' := s'.launch r
    t.params = t'.params ∧ t.derived = t'.derived ∧ t.bufLen = t'.bufLen ∧ t.rs = t'.rs ∧ t.cs = t'.cs ∧
      t.mem = t'.mem ∧ t.inv = t'.inv ∧ t.ret = t'.ret ∧ t.launchFault = t'.launchFault ∧ t.blocks = t'.blocks ∧
      ∀ b ∈ t.blocks, BlockAtReset b

/-! ## The canonical stream -/

/-- 46_sequencer R150: the length of the canonical stream, its examples and its bound; and every word of it decodes to its
command. -/
def Obligations.CanonicalStreamLengthAndWords : Prop :=
  (∀ t sz : Nat, (canonicalWords t sz).length =
    3 * min (t + 2) 3 + 3 + 55 * (t + 2) + 3 * max 0 (t + 2 - 3) + 2 * (t + 1) + 5 + 4 * sz) ∧
  (canonicalWords 0 4).length = 142 ∧ (canonicalWords 1 4).length = 202 ∧ (canonicalWords 3 4).length = 322 ∧
  (canonicalWords 0 1).length = 130 ∧
  (∀ t sz : Nat, t ≤ 65536 → sz ≤ 4 → (canonicalWords t sz).length ≤ 2 ^ 32 - 1) ∧
  ∀ t sz : Nat, t ≤ 65536 → sz ≤ 4 → ∀ (k : Nat) (i : Instr), (canonical t sz)[k]? = some i →
    ∃ word, (canonicalWords t sz)[k]? = some word ∧ decode word = .ok i

/-- 46_sequencer R149, 30_encoding R84: which command stands at which index of the canonical stream: the prologue, which loads
the first three stages and commits three groups; each iteration, which waits, arrives at the barrier, refills the slot
just freed, commits, computes its stage and folds it at the end of a group; and the epilogue. -/
def Obligations.CanonicalStreamPlacesItsCommands : Prop :=
  ∀ t sz : Nat,
    (∀ j < 3, (j < t + 2 → LoadsAt t sz (4 * j) j ∧ StreamHas t sz (4 * j + 3) .commit) ∧
      (t + 2 ≤ j → StreamHas t sz (3 * (t + 2) + j) .commit)) ∧
    (∀ j < t + 2,
      let k := iterationAt t j
      let c := if j + 3 < t + 2 then k + 5 else k + 2
      StreamHas t sz k (.wait 2) ∧ StreamHas t sz (k + 1) .bar ∧ (j + 3 < t + 2 → LoadsAt t sz (k + 2) (j + 3)) ∧
        StreamHas t sz c .commit ∧ ComputesAt t sz (c + 1) j ∧
        (j ≠ t → StreamHas t sz (c + 53) (.ldsc (phaseOf t j) (ringSlot j)) ∧ StreamHas t sz (c + 54) .deq)) ∧
    let e := epilogueAt t
    StreamHas t sz e (.wait 0) ∧ StreamHas t sz (e + 1) .bar ∧ StreamHas t sz (e + 2) .cvts ∧
      StreamHas t sz (e + 3) .bar ∧ (∀ it < 4 * sz, StreamHas t sz (e + 4 + it) (.stg it)) ∧
      StreamHas t sz (e + 4 + 4 * sz) .endWarp ∧ (canonicalWords t sz).length = e + 5 + 4 * sz

/-! ## Fair executions -/

/-- 70_reset_and_hazards R187, 41_pipeline_sync R103, R109: no fair execution runs forever: from a RUNNING machine whose warps are
in step, every execution that is weakly fair to the copy agent and does not idle forever while an agent is enabled comes
to the end of the invocation: no WAIT and no barrier holds forever. The second premise is the model's (log 17). -/
def Obligations.FairRunsEnd : Prop :=
  ∀ run : Nat → State, FairRun run → InStep (run 0) → (run 0).inv = .running →
    ∃ n, (run n).inv = .complete ∨ (run n).inv = .failed

/-! ## Numbers -/

/-- 44_dequant R124: f16 and f32 bit patterns read as IEEE 754 numbers, every one of them, with the sign of their top bit.
45_epilogue R137 and 44_dequant R125: rounding is to nearest, ties to even: no magnitude of the format, its exponent unbounded
above, is nearer to `m · 2^e` than the one `roundMag` gives, and where another is as near that one is even; a rounded
magnitude beyond the largest finite f32 or f16 becomes an infinity of the sign. -/
def Obligations.RoundingIsToNearestEven : Prop :=
  (∀ h : F16, ReadsAs 5 10 h.msb (h.toNat % 2 ^ 15) (readF16 h)) ∧
  (∀ x : F32, ReadsAs 8 23 x.msb (x.toNat % 2 ^ 31) (readF32 false x)) ∧
  (∀ (neg : Bool) (m : Nat) (e : Int) (nan : F32), (roundF32 nan (.fin neg m e)).toNat =
    (if neg then 2 ^ 31 else 0) + if roundMag 8 23 m e < 0x7F800000 then roundMag 8 23 m e else 0x7F800000) ∧
  (∀ (neg : Bool) (m : Nat) (e : Int) (nan : F16), (roundF16 nan (.fin neg m e)).toNat =
    (if neg then 2 ^ 15 else 0) + if roundMag 5 10 m e < 0x7C00 then roundMag 5 10 m e else 0x7C00) ∧
  ∀ f ∈ roundedFormats, ∀ (m : Nat) (e : Int) (n : Nat),
    let x : ℚ := m * 2 ^ e
    let v := roundMag f.1 f.2 m e
    |magValue f.1 f.2 v - x| ≤ |magValue f.1 f.2 n - x| ∧
      (n ≠ v → |magValue f.1 f.2 n - x| = |magValue f.1 f.2 v - x| → v % 2 = 0)

/-- 44_dequant R126, R129, R130: f16mul, f32mul, f32add and f32fma round once the exact result of their operands, for the fused
one the exact a·b + c; an infinite result is the infinity of its sign and a NaN result the NaN argument; and FTZ flushes
their operands and their results, and changes nothing else. That a result is judged subnormal after rounding is the
model's reading (log 14). -/
def Obligations.PrimitivesRoundTheExactResult : Prop :=
  (∀ (nan : F16) (neg : Bool), roundF16 nan .nan = nan ∧ roundF16 nan (.inf neg) = if neg then 0xFC00 else 0x7C00) ∧
  (∀ (nan : F32) (neg : Bool), roundF32 nan .nan = nan ∧
    roundF32 nan (.inf neg) = if neg then 0xFF800000 else 0x7F800000) ∧
  (∀ nan a b : F16, ∃ z, IsExactProduct z (readF16 a) (readF16 b) ∧ f16mul nan a b = roundF16 nan z) ∧
  (∀ nan a b : F32, ∃ z, IsExactProduct z (readF32 false a) (readF32 false b) ∧
    f32mul false nan a b = roundF32 nan z) ∧
  (∀ nan a b : F32, ∃ z, IsExactSum z (readF32 false a) (readF32 false b) ∧ f32add false nan a b = roundF32 nan z) ∧
  (∀ nan a b c : F32, ∃ y z, IsExactProduct y (readF32 false a) (readF32 false b) ∧
    IsExactSum z y (readF32 false c) ∧ f32fma false nan a b c = roundF32 nan z) ∧
  ∀ nan a b c : F32, f32mul true nan a b = flushed (f32mul false nan (flushed a) (flushed b)) ∧
    f32add true nan a b = flushed (f32add false nan (flushed a) (flushed b)) ∧
    f32fma true nan a b c = flushed (f32fma false nan (flushed a) (flushed b) (flushed c))

/-- 44_dequant R127, R128: cvt_f16_f32 is exact and keeps the sign, of a zero too; cvt_s32_f32 rounds its operand, and is exact
for |p| ≤ 2^24. -/
def Obligations.WideningConversionsAreExact : Prop :=
  (∀ (nan : F32) (h : F16), (IsFinite (readF16 h) →
      IsFinite (readF32 false (cvtF16F32 nan h)) ∧
        valueOf (readF32 false (cvtF16F32 nan h)) = valueOf (readF16 h) ∧ (cvtF16F32 nan h).msb = h.msb) ∧
    (∀ neg, readF16 h = .inf neg → readF32 false (cvtF16F32 nan h) = .inf neg) ∧
    (readF16 h = .nan → cvtF16F32 nan h = nan)) ∧
  (∀ (nan : F32) (p : S32), ∃ (m : Nat) (e : Int), (m * 2 ^ e : ℚ) = |(p.toInt : ℚ)| ∧
    cvtS32F32 p = roundF32 nan (.fin p.msb m e)) ∧
  ∀ p : S32, p.toInt.natAbs ≤ 2 ^ 24 →
    IsFinite (readF32 false (cvtS32F32 p)) ∧ valueOf (readF32 false (cvtS32F32 p)) = p.toInt

/-- 45_epilogue R136, R137: the narrowing conversions round the value of their operand once, to the format, and keep its sign,
of a zero too; a NaN gives the NaN argument. A finite f32 of magnitude 65520 or more, and an infinity, gives an infinite
f16, any smaller one a finite f16; an 8-bit float whose rounded magnitude is beyond the largest finite value, and that
of an infinity, is that value. FTZ flushes the operand and changes nothing else. -/
def Obligations.NarrowingConversionsOverflow : Prop :=
  (∀ (ftz : Bool) (x : F32), x.toNat % 2 ^ 31 ≤ 0x7F800000 →
    (∀ nan, (0x477FF000 ≤ x.toNat % 2 ^ 31 → (cvtF32F16 ftz nan x).toNat % 2 ^ 15 = 0x7C00) ∧
      (x.toNat % 2 ^ 31 < 0x477FF000 → (cvtF32F16 ftz nan x).toNat % 2 ^ 15 ≤ 0x7BFF) ∧
      (cvtF32F16 ftz nan x).msb = x.msb) ∧
    ∀ fmt nan, (cvtF32F8 fmt ftz nan x).toNat % 2 ^ 7 ≤ (fp8Format fmt).2.2 ∧ (cvtF32F8 fmt ftz nan x).msb = x.msb ∧
      (x.toNat % 2 ^ 31 = 0x7F800000 → (cvtF32F8 fmt ftz nan x).toNat % 2 ^ 7 = (fp8Format fmt).2.2)) ∧
  (∀ x : F32, x.toNat % 2 ^ 31 < 0x7F800000 → ∃ (m : Nat) (e : Int),
    (m * 2 ^ e : ℚ) = magValue 8 23 (x.toNat % 2 ^ 31) ∧
    (∀ nan, cvtF32F16 false nan x = roundF16 nan (.fin x.msb m e)) ∧
    ∀ fmt nan, (cvtF32F8 fmt false nan x).toNat % 2 ^ 7 =
      let v := roundMag (fp8Format fmt).1 (fp8Format fmt).2.1 m e
      if v ≤ (fp8Format fmt).2.2 then v else (fp8Format fmt).2.2) ∧
  ∀ x : F32, (0x7F800000 < x.toNat % 2 ^ 31 →
      ∀ ftz fmt, (∀ nan, cvtF32F16 ftz nan x = nan) ∧ ∀ nan, cvtF32F8 fmt ftz nan x = nan) ∧
    (∀ nan, cvtF32F16 true nan x = cvtF32F16 false nan (flushed x)) ∧
    ∀ fmt nan, cvtF32F8 fmt true nan x = cvtF32F8 fmt false nan (flushed x)

/-! ## Layout -/

/-- 40_loader R87, R88, R89: the chunks of an LDG of all eight warps tile the operand region of its slot: every byte of the
region is the destination of exactly one lane's one chunk, and no chunk reaches outside it. -/
def Obligations.LoaderChunksTileTheOperandRegion : Prop :=
  ∀ (s : State) (b : Block) (ph : Phase) (slot : Fin 4) (kt : Nat),
    (∀ off, 8192 * slot.val ≤ off ∧ off < 8192 * slot.val + 8192 ↔
      ∃ q : WarpId × Fin 2 × Fin 32, off ∈ (ldgAChunk s b q.1 ph slot kt q.2.1 q.2.2).offs) ∧
    (∀ off, 32768 + 8192 * slot.val ≤ off ∧ off < 32768 + 8192 * slot.val + 8192 ↔
      ∃ q : WarpId × Fin 2 × Fin 32, off ∈ (ldgBChunk s b q.1 ph slot kt q.2.1 q.2.2).offs) ∧
    ∀ (p q : WarpId × Fin 2 × Fin 32) (off : Nat),
      (off ∈ (ldgAChunk s b p.1 ph slot kt p.2.1 p.2.2).offs → off ∈ (ldgAChunk s b q.1 ph slot kt q.2.1 q.2.2).offs →
        p = q) ∧
      (off ∈ (ldgBChunk s b p.1 ph slot kt p.2.1 p.2.2).offs → off ∈ (ldgBChunk s b q.1 ph slot kt q.2.1 q.2.2).offs →
        p = q)

/-- In a machine whose launch passed its checks no command raises SCRATCH_OOB or MISALIGNED. Both are inferences the spec marks
as its own (20_memory R58, "no command of 30_encoding.md can form such an offset", and R54), from the scratchpad map
(R57), the address rules (40_loader R88, R89, R92, R96, R97, 42_extract R113 to R116, 45_epilogue R138 to R140), the
layouts (20_memory R45 to R50) and the launch checks (60_exceptions R166, by which RB is a multiple of 16, and R167). -/
def Obligations.NoCommandIsOutOfScratchOrMisaligned : Prop :=
  ∀ (i : Instr) (s t : State) (b : Block), LaunchOk s → s.block? = some b → exec i s = .next t →
    (∀ off, t ≠ s.raise b (.scratchOob off)) ∧ ∀ a n, t ≠ s.raise b (.misaligned a n)

/-- 45_epilogue R140, 20_memory R69, R70: in a machine whose launch passed its checks no two pieces of any STGs store to a common
device byte, unless they are one lane's piece of one iteration of one warp of blocks at one grid place; and a piece lies
in the SZ·M·N bytes of D (20_memory R50). -/
def Obligations.StoredPiecesAreDisjoint : Prop :=
  ∀ (s : State) (b1 b2 : Block) (w1 w2 : WarpId) (it1 it2 l1 l2 : Nat) (p1 p2 : StorePiece), LaunchOk s →
    b1 ∈ s.blocks → b2 ∈ s.blocks → it1 < s.derived.iters → it2 < s.derived.iters → l1 < 32 → l2 < 32 →
    stgPiece s b1 w1 it1 l1 = some p1 → stgPiece s b2 w2 it2 l2 = some p2 →
    (s.params.pD.toNat ≤ p1.dst ∧
      p1.dst + 16 ≤ s.params.pD.toNat + s.derived.sz * s.params.m.toNat * s.params.n.toNat) ∧
    ((b1.bm, b1.bn, w1, it1, l1) ≠ (b2.bm, b2.bn, w2, it2, l2) → p1.dst + 16 ≤ p2.dst ∨ p2.dst + 16 ≤ p1.dst)
end

