-- ==== Sys2Proof/Laws/Cells.lean ====
section
/-! SUPPORT. Sparse arrays: read after write, and the canonical form is kept by every operation on memory and on the
scratchpad. -/

namespace Sys2Proof.Machine

section Cells
variable {α : Type} [DecidableEq α] {d : α} {lim : Nat}

/-- The canonical form of a list with a first cell. -/
theorem cellsWf_cons {k : Nat} {x : α} {t : List (Nat × α)} :
    cellsWf d lim ((k, x) :: t) = true ↔
      (∀ c ∈ t, k < c.1) ∧ x ≠ d ∧ k < lim ∧ cellsWf d lim t = true := by
  simp only [cellsWf, List.pairwise_cons, List.all_cons, Bool.and_eq_true, decide_eq_true_eq]
  tauto

@[simp] theorem cellsWf_nil : cellsWf d lim [] = true := rfl

omit [DecidableEq α] in
/-- An address below every listed one reads as the default. -/
theorem cellGet_of_lt {m : List (Nat × α)} {a : Nat} (h : ∀ c ∈ m, a < c.1) : cellGet d m a = d := by
  cases m with
  | nil => rfl
  | cons c t =>
    have h1 := h c (by simp)
    simp [cellGet, h1, Nat.ne_of_lt h1]

/-- Every address a write lists was listed or is the one written. -/
theorem mem_cellSet {m : List (Nat × α)} {a : Nat} {v : α} {c : Nat × α} (h : c ∈ cellSet d m a v) :
    c ∈ m ∨ c = (a, v) := by
  induction m with
  | nil =>
    simp only [cellSet] at h
    split at h <;> simp_all
  | cons p t ih =>
    obtain ⟨k, x⟩ := p
    simp only [cellSet] at h
    split_ifs at h <;> simp at h ⊢
    · tauto
    · tauto
    · tauto
    · tauto
    · rcases h with h | h
      · tauto
      · rcases ih h with h | h <;> tauto

/-- A write keeps the canonical form. -/
theorem cellsWf_cellSet {m : List (Nat × α)} {a : Nat} {v : α} (hm : cellsWf d lim m = true) (ha : a < lim) :
    cellsWf d lim (cellSet d m a v) = true := by
  induction m with
  | nil =>
    simp only [cellSet]
    split
    · rfl
    · next h => exact cellsWf_cons.2 ⟨by simp, h, ha, rfl⟩
  | cons p t ih =>
    obtain ⟨k, x⟩ := p
    obtain ⟨h1, h2, h3, h4⟩ := cellsWf_cons.1 hm
    simp only [cellSet]
    split_ifs with c1 c2 c3 c4
    · exact hm
    · refine cellsWf_cons.2 ⟨?_, c2, ha, hm⟩
      intro c hc
      rcases List.mem_cons.1 hc with rfl | hc
      · exact c1
      · exact c1.trans (h1 c hc)
    · exact h4
    · exact cellsWf_cons.2 ⟨c3 ▸ h1, c4, ha, h4⟩
    · refine cellsWf_cons.2 ⟨?_, h2, h3, ih h4⟩
      intro c hc
      rcases mem_cellSet hc with hc | rfl
      · exact h1 c hc
      · show k < a
        omega

/-- Read after write: the value at the address written, every other address as before. -/
theorem cellGet_cellSet {m : List (Nat × α)} {a : Nat} {v : α} (hm : cellsWf d lim m = true) (a' : Nat) :
    cellGet d (cellSet d m a v) a' = if a' = a then v else cellGet d m a' := by
  induction m with
  | nil =>
    by_cases hv : v = d <;> by_cases e : a' = a <;> simp [cellSet, cellGet, hv, e]
  | cons p t ih =>
    obtain ⟨k, x⟩ := p
    obtain ⟨h1, h2, h3, h4⟩ := cellsWf_cons.1 hm
    rcases Nat.lt_trichotomy a k with c1 | c1 | c1
    · have hlow : ∀ b, b ≤ a → cellGet d ((k, x) :: t) b = d := fun b hb => by
        have hb : b < k := by omega
        simp [cellGet, hb, Nat.ne_of_lt hb]
      by_cases c2 : v = d
      · rw [cellSet, if_pos c1, if_pos c2]
        split_ifs with e
        · rw [e, hlow a (Nat.le_refl a), c2]
        · rfl
      · rw [cellSet, if_pos c1, if_neg c2, cellGet]
        split_ifs with e1 e2
        · rfl
        · exact (hlow a' (by omega)).symm
        · rfl
    · subst c1
      have hlow : ∀ b, b ≤ a → cellGet d t b = d := fun b hb => cellGet_of_lt fun c hc => by
        have := h1 c hc
        omega
      by_cases c2 : v = d
      · rw [cellSet, if_neg (by omega), if_pos rfl, if_pos c2, cellGet]
        split_ifs with e1 e2
        · rw [e1, hlow a (Nat.le_refl a), c2]
        · exact hlow a' (by omega)
        · rfl
      · rw [cellSet, if_neg (by omega), if_pos rfl, if_neg c2, cellGet, cellGet]
        split_ifs <;> rfl
    · rw [cellSet, if_neg (by omega), if_neg (by omega), cellGet, cellGet, ih h4]
      split_ifs <;> first | rfl | omega

end Cells

/-! ## Device memory -/

@[simp] theorem Memory.wf_nil : Memory.wf [] = true := rfl

/-- A write of a device byte keeps the canonical form. -/
theorem Memory.wf_write {m : Memory} (hm : m.wf = true) (a : Nat) (v : Byte) : (m.write a v).wf = true := by
  unfold Memory.write
  split
  · next h => exact cellsWf_cellSet hm h
  · exact hm

/-- A write of device bytes keeps the canonical form. -/
theorem Memory.wf_writeBytes {m : Memory} (hm : m.wf = true) (a : Nat) (vs : List Byte) :
    (m.writeBytes a vs).wf = true := by
  induction vs generalizing m a with
  | nil => exact hm
  | cons v vs ih => exact ih (Memory.wf_write hm a v) (a + 1)

/-- The memory the host hands over is in canonical form. -/
theorem wf_memOfCells (cells : List Host.Cell) : (memOfCells cells).wf = true := by
  have h : ∀ (cs : List Host.Cell) (m : Memory), m.wf = true → Memory.wf (cs.foldl (fun m c => m.write c.1 c.2) m) = true := by
    intro cs
    induction cs with
    | nil => intro m hm; exact hm
    | cons c t ih => intro m hm; exact ih _ (Memory.wf_write hm c.1 c.2)
  exact h cells [] rfl

/-- The memory after an STG's pieces is in canonical form. -/
theorem wf_foldl_writeBytes {β : Type} (f : β → Nat) (g : β → List Byte) (ps : List β) {m : Memory} (hm : m.wf = true) :
    Memory.wf (ps.foldl (fun m p => m.writeBytes (f p) (g p)) m) = true := by
  induction ps generalizing m with
  | nil => exact hm
  | cons p t ih => exact ih (Memory.wf_writeBytes hm (f p) (g p))

/-- Read after write of one device byte. -/
theorem Memory.read_write {m : Memory} (hm : m.wf = true) {a : Nat} (ha : a < 2 ^ 64) (v : Byte) (a' : Nat) :
    (m.write a v).read a' = if a' = a then v else m.read a' := by
  unfold Memory.write Memory.read
  rw [if_pos (by exact ha)]
  exact cellGet_cellSet hm a'

/-- Read after write of bytes at `a` and up. -/
theorem Memory.read_writeBytes {m : Memory} (hm : m.wf = true) {a : Nat} (vs : List Byte) (ha : a + vs.length ≤ 2 ^ 64)
    (a' : Nat) :
    (m.writeBytes a vs).read a' = if a ≤ a' ∧ a' < a + vs.length then vs.getD (a' - a) 0 else m.read a' := by
  induction vs generalizing m a with
  | nil =>
    rw [if_neg (by simp)]
    rfl
  | cons v vs ih =>
    rw [List.length_cons] at ha ⊢
    rw [Memory.writeBytes, ih (Memory.wf_write hm a v) (by omega), Memory.read_write hm (by omega)]
    by_cases h1 : a' = a
    · subst h1
      simp
    · split_ifs with h2 h3 h3
      · obtain ⟨k, hk⟩ : ∃ k, a' - a = k + 1 := ⟨a' - a - 1, by omega⟩
        rw [hk, show a' - (a + 1) = k by omega]
        simp
      · omega
      · omega
      · rfl

end Sys2Proof.Machine
end

