-- ==== Sys2Proof/Laws/Decode.lean ====
section
/-! SUPPORT. The fields of a word and the word of its fields determine each other, and a row's match is a match of fields. -/

namespace Sys2Proof

/-- The fields of a word built from fields. -/
@[simp] theorem fieldsOfWord_wordOfFields (f : Fields) : fieldsOfWord (wordOfFields f) = f := by
  obtain ⟨a, b, c, d, e, g, h, i, j⟩ := f
  simp only [fieldsOfWord, wordOfFields, Fields.mk.injEq]
  refine ⟨?_, ?_, ?_, ?_, ?_, ?_, ?_, ?_, ?_⟩ <;>
  · apply BitVec.eq_of_getLsbD_eq
    intro k hk
    simp only [BitVec.getLsbD_extractLsb', BitVec.getLsbD_or, BitVec.getLsbD_shiftLeft, BitVec.getLsbD_setWidth]
    interval_cases k <;> simp (decide := true) [BitVec.getLsbD_of_ge]

/-- The word built from the fields of a word: no bit of a word is dropped. -/
@[simp] theorem wordOfFields_fieldsOfWord (w : Cmd) : wordOfFields (fieldsOfWord w) = w := by
  apply BitVec.eq_of_getLsbD_eq
  intro k hk
  simp only [wordOfFields, fieldsOfWord, BitVec.getLsbD_or, BitVec.getLsbD_shiftLeft, BitVec.getLsbD_setWidth,
    BitVec.getLsbD_extractLsb']
  interval_cases k <;> simp (decide := true)

@[simp] theorem fieldsOfWord_encode (i : Instr) : fieldsOfWord (encode i) = fieldsOfInstr i :=
  fieldsOfWord_wordOfFields _

/-- The fields of a masked word. -/
def Fields.mask (f m : Fields) : Fields where
  opc := f.opc &&& m.opc
  ph := f.ph &&& m.ph
  op := f.op &&& m.op
  slot := f.slot &&& m.slot
  ks := f.ks &&& m.ks
  idx := f.idx &&& m.idx
  mi := f.mi &&& m.mi
  rsv := f.rsv &&& m.rsv
  imm := f.imm &&& m.imm

theorem fieldsOfWord_and (w m : Cmd) : fieldsOfWord (w &&& m) = (fieldsOfWord w).mask (fieldsOfWord m) := by
  simp [fieldsOfWord, Fields.mask, BitVec.extractLsb'_and]

/-- A word selects a row exactly where its fields, masked, are the pattern's. -/
theorem rowMatches_iff (w : Cmd) (r : OpcodeRow) :
    rowMatches w r = true ↔ (fieldsOfWord w).mask (fieldsOfWord r.mask) = fieldsOfWord r.pattern := by
  rw [rowMatches, decide_eq_true_eq, ← fieldsOfWord_and]
  constructor
  · intro h
    rw [h]
  · intro h
    rw [← wordOfFields_fieldsOfWord (w &&& r.mask), h, wordOfFields_fieldsOfWord]

end Sys2Proof
end

