-- ==== Sys2Proof/Laws/State.lean ====
section
/-! SUPPORT. What each update of a state leaves in each field, true by rfl: later proofs do not unfold a record. -/

namespace Sys2Proof.Machine

/-! ## `tab` -/

@[simp] theorem getElem_tab {α : Type} {n : Nat} (f : Fin n → α) (i : Nat) (h : i < n) : (tab f)[i] = f ⟨i, h⟩ := by
  simp [tab]

/-! ## Block updates -/

section Blocks
variable (b : Block) (w : WarpId) (f : Warp → Warp) (off : Nat) (t : Tag)

@[simp] theorem Block.updWarp_bm : (b.updWarp w f).bm = b.bm := rfl
@[simp] theorem Block.updWarp_bn : (b.updWarp w f).bn = b.bn := rfl
@[simp] theorem Block.updWarp_gen : (b.updWarp w f).gen = b.gen := rfl
@[simp] theorem Block.updWarp_arrived : (b.updWarp w f).arrived = b.arrived := rfl
@[simp] theorem Block.updWarp_scr : (b.updWarp w f).scr = b.scr := rfl
@[simp] theorem Block.updWarp_log : (b.updWarp w f).log = b.log := rfl
@[simp] theorem Block.updWarp_tag : (b.updWarp w f).tag off = b.tag off := rfl
@[simp] theorem Block.updWarp_warps : (b.updWarp w f).warps = b.warps.set w (f b.warps[w]) := rfl

@[simp] theorem Block.setTag_bm : (b.setTag off t).bm = b.bm := rfl
@[simp] theorem Block.setTag_bn : (b.setTag off t).bn = b.bn := rfl
@[simp] theorem Block.setTag_warps : (b.setTag off t).warps = b.warps := rfl
@[simp] theorem Block.setTag_gen : (b.setTag off t).gen = b.gen := rfl
@[simp] theorem Block.setTag_arrived : (b.setTag off t).arrived = b.arrived := rfl
@[simp] theorem Block.setTag_log : (b.setTag off t).log = b.log := rfl

/-- Warp `w` itself, after an update of it. -/
theorem Block.updWarp_same : (b.updWarp w f).warps[w] = f b.warps[w] := by simp

/-- Another warp, after an update of warp `w`. -/
theorem Block.updWarp_other {v : WarpId} (h : v ≠ w) : (b.updWarp w f).warps[v] = b.warps[v] := by
  simp only [Block.updWarp_warps, Fin.getElem_fin]
  exact Vector.getElem_set_ne _ _ (fun e => h (Fin.ext e.symm))

end Blocks

/-! ## Warp updates -/

section Warps
variable (x : Warp) (rs : List CopyRecord) (n : Nat)

@[simp] theorem Warp.advance_pc : x.advance.pc = x.pc + 1 := rfl
@[simp] theorem Warp.advance_st : x.advance.st = x.st := rfl
@[simp] theorem Warp.advance_iacc : x.advance.iacc = x.iacc := rfl
@[simp] theorem Warp.advance_facc : x.advance.facc = x.facc := rfl
@[simp] theorem Warp.advance_fa : x.advance.fa = x.fa := rfl
@[simp] theorem Warp.advance_fb : x.advance.fb = x.fb := rfl
@[simp] theorem Warp.advance_sa : x.advance.sa = x.sa := rfl
@[simp] theorem Warp.advance_sb : x.advance.sb = x.sb := rfl
@[simp] theorem Warp.advance_openGrp : x.advance.openGrp = x.openGrp := rfl
@[simp] theorem Warp.advance_groups : x.advance.groups = x.groups := rfl
@[simp] theorem Warp.advance_records : x.advance.records = x.records := rfl

@[simp] theorem Warp.issue_pc : (x.issue rs).pc = x.pc := rfl
@[simp] theorem Warp.issue_st : (x.issue rs).st = x.st := rfl
@[simp] theorem Warp.issue_openGrp : (x.issue rs).openGrp = x.openGrp ++ rs := rfl
@[simp] theorem Warp.issue_groups : (x.issue rs).groups = x.groups := rfl
@[simp] theorem Warp.issue_records : (x.issue rs).records = x.records ++ rs := by simp [Warp.records, Warp.issue]

@[simp] theorem Warp.commitGroup_pc : x.commitGroup.pc = x.pc := rfl
@[simp] theorem Warp.commitGroup_st : x.commitGroup.st = x.st := rfl
@[simp] theorem Warp.commitGroup_openGrp : x.commitGroup.openGrp = [] := rfl
@[simp] theorem Warp.commitGroup_groups : x.commitGroup.groups = x.groups ++ [x.openGrp] := rfl
@[simp] theorem Warp.commitGroup_records : x.commitGroup.records = x.records := by simp [Warp.records, Warp.commitGroup]

@[simp] theorem Warp.keepGroups_pc : (x.keepGroups n).pc = x.pc := rfl
@[simp] theorem Warp.keepGroups_st : (x.keepGroups n).st = x.st := rfl
@[simp] theorem Warp.keepGroups_openGrp : (x.keepGroups n).openGrp = x.openGrp := rfl

/-- The records of a warp are those a WAIT waits for and those it keeps. -/
theorem Warp.records_split : x.records = x.oldRecords n ++ (x.keepGroups n).records := by
  simp only [Warp.records, Warp.oldRecords, Warp.keepGroups, ← List.append_assoc, ← List.flatten_append,
    List.take_append_drop]

end Warps

/-! ## State updates -/

section States
variable (s : State) (b : Block) (c : Cause)

@[simp] theorem State.setBlock_params : (s.setBlock b).params = s.params := rfl
@[simp] theorem State.setBlock_derived : (s.setBlock b).derived = s.derived := rfl
@[simp] theorem State.setBlock_bufLen : (s.setBlock b).bufLen = s.bufLen := rfl
@[simp] theorem State.setBlock_rs : (s.setBlock b).rs = s.rs := rfl
@[simp] theorem State.setBlock_cs : (s.setBlock b).cs = s.cs := rfl
@[simp] theorem State.setBlock_mem : (s.setBlock b).mem = s.mem := rfl
@[simp] theorem State.setBlock_inv : (s.setBlock b).inv = s.inv := rfl
@[simp] theorem State.setBlock_ret : (s.setBlock b).ret = s.ret := rfl
@[simp] theorem State.setBlock_launchFault : (s.setBlock b).launchFault = s.launchFault := rfl
@[simp] theorem State.setBlock_blocks : (s.setBlock b).blocks = s.blocks.set s.cur.blk b := rfl
@[simp] theorem State.setBlock_cfg : (s.setBlock b).cfg = s.cfg := rfl
@[simp] theorem State.setBlock_sched : (s.setBlock b).sched = s.sched := rfl
@[simp] theorem State.setBlock_tick : (s.setBlock b).tick = s.tick := rfl
@[simp] theorem State.setBlock_draws : (s.setBlock b).draws = s.draws := rfl
@[simp] theorem State.setBlock_cur : (s.setBlock b).cur = s.cur := rfl
@[simp] theorem State.setBlock_launches : (s.setBlock b).launches = s.launches := rfl

@[simp] theorem State.raise_params : (s.raise b c).params = s.params := rfl
@[simp] theorem State.raise_derived : (s.raise b c).derived = s.derived := rfl
@[simp] theorem State.raise_bufLen : (s.raise b c).bufLen = s.bufLen := rfl
@[simp] theorem State.raise_rs : (s.raise b c).rs = s.rs := rfl
@[simp] theorem State.raise_cs : (s.raise b c).cs = s.cs := rfl
@[simp] theorem State.raise_mem : (s.raise b c).mem = s.mem := rfl
@[simp] theorem State.raise_inv : (s.raise b c).inv = .failed := rfl
@[simp] theorem State.raise_ret : (s.raise b c).ret = s.ret := rfl
@[simp] theorem State.raise_launchFault : (s.raise b c).launchFault = s.launchFault := rfl
@[simp] theorem State.raise_cfg : (s.raise b c).cfg = s.cfg := rfl
@[simp] theorem State.raise_sched : (s.raise b c).sched = s.sched := rfl
@[simp] theorem State.raise_tick : (s.raise b c).tick = s.tick := rfl
@[simp] theorem State.raise_draws : (s.raise b c).draws = s.draws := rfl
@[simp] theorem State.raise_cur : (s.raise b c).cur = s.cur := rfl
@[simp] theorem State.raise_launches : (s.raise b c).launches = s.launches := rfl

@[simp] theorem State.drawn_params : s.drawn.params = s.params := rfl
@[simp] theorem State.drawn_derived : s.drawn.derived = s.derived := rfl
@[simp] theorem State.drawn_mem : s.drawn.mem = s.mem := rfl
@[simp] theorem State.drawn_inv : s.drawn.inv = s.inv := rfl
@[simp] theorem State.drawn_blocks : s.drawn.blocks = s.blocks := rfl
@[simp] theorem State.drawn_cs : s.drawn.cs = s.cs := rfl
@[simp] theorem State.drawn_cfg : s.drawn.cfg = s.cfg := rfl
@[simp] theorem State.drawn_draws : s.drawn.draws = s.draws + 1 := rfl
@[simp] theorem State.drawn_cur : s.drawn.cur = s.cur := rfl
@[simp] theorem State.drawn_bufLen : s.drawn.bufLen = s.bufLen := rfl

@[simp] theorem State.choiceTaken_params : s.choiceTaken.params = s.params := rfl
@[simp] theorem State.choiceTaken_derived : s.choiceTaken.derived = s.derived := rfl
@[simp] theorem State.choiceTaken_bufLen : s.choiceTaken.bufLen = s.bufLen := rfl
@[simp] theorem State.choiceTaken_rs : s.choiceTaken.rs = s.rs := rfl
@[simp] theorem State.choiceTaken_cs : s.choiceTaken.cs = s.cs := rfl
@[simp] theorem State.choiceTaken_mem : s.choiceTaken.mem = s.mem := rfl
@[simp] theorem State.choiceTaken_inv : s.choiceTaken.inv = s.inv := rfl
@[simp] theorem State.choiceTaken_ret : s.choiceTaken.ret = s.ret := rfl
@[simp] theorem State.choiceTaken_launchFault : s.choiceTaken.launchFault = s.launchFault := rfl
@[simp] theorem State.choiceTaken_blocks : s.choiceTaken.blocks = s.blocks := rfl
@[simp] theorem State.choiceTaken_cfg : s.choiceTaken.cfg = s.cfg := rfl
@[simp] theorem State.choiceTaken_draws : s.choiceTaken.draws = s.draws := rfl
@[simp] theorem State.choiceTaken_cur : s.choiceTaken.cur = s.cur := rfl
@[simp] theorem State.choiceTaken_launches : s.choiceTaken.launches = s.launches := rfl

section AsWarp
variable (blk : Nat) (w : WarpId)

@[simp] theorem State.asWarp_params : (s.asWarp blk w).params = s.params := rfl
@[simp] theorem State.asWarp_derived : (s.asWarp blk w).derived = s.derived := rfl
@[simp] theorem State.asWarp_bufLen : (s.asWarp blk w).bufLen = s.bufLen := rfl
@[simp] theorem State.asWarp_rs : (s.asWarp blk w).rs = s.rs := rfl
@[simp] theorem State.asWarp_cs : (s.asWarp blk w).cs = s.cs := rfl
@[simp] theorem State.asWarp_mem : (s.asWarp blk w).mem = s.mem := rfl
@[simp] theorem State.asWarp_inv : (s.asWarp blk w).inv = s.inv := rfl
@[simp] theorem State.asWarp_ret : (s.asWarp blk w).ret = s.ret := rfl
@[simp] theorem State.asWarp_launchFault : (s.asWarp blk w).launchFault = s.launchFault := rfl
@[simp] theorem State.asWarp_blocks : (s.asWarp blk w).blocks = s.blocks := rfl
@[simp] theorem State.asWarp_cfg : (s.asWarp blk w).cfg = s.cfg := rfl
@[simp] theorem State.asWarp_sched : (s.asWarp blk w).sched = s.sched := rfl
@[simp] theorem State.asWarp_tick : (s.asWarp blk w).tick = s.tick := rfl
@[simp] theorem State.asWarp_draws : (s.asWarp blk w).draws = s.draws := rfl
@[simp] theorem State.asWarp_cur : (s.asWarp blk w).cur = ⟨blk, w⟩ := rfl
@[simp] theorem State.asWarp_launches : (s.asWarp blk w).launches = s.launches := rfl
@[simp] theorem State.asWarp_block : (s.asWarp blk w).block? = s.blocks[blk]? := rfl

end AsWarp

/-- A settled machine differs from the machine only in INV, which may have become COMPLETE. -/
theorem State.settle_eq : s.settle = s ∨ (s.inv = .running ∧ s.settle = { s with inv := .complete }) := by
  unfold State.settle
  split
  · next h => exact .inr ⟨h.1, rfl⟩
  · exact .inl rfl

@[simp] theorem State.settle_params : s.settle.params = s.params := by rcases s.settle_eq with h | ⟨-, h⟩ <;> rw [h]
@[simp] theorem State.settle_derived : s.settle.derived = s.derived := by rcases s.settle_eq with h | ⟨-, h⟩ <;> rw [h]
@[simp] theorem State.settle_bufLen : s.settle.bufLen = s.bufLen := by rcases s.settle_eq with h | ⟨-, h⟩ <;> rw [h]
@[simp] theorem State.settle_rs : s.settle.rs = s.rs := by rcases s.settle_eq with h | ⟨-, h⟩ <;> rw [h]
@[simp] theorem State.settle_cs : s.settle.cs = s.cs := by rcases s.settle_eq with h | ⟨-, h⟩ <;> rw [h]
@[simp] theorem State.settle_mem : s.settle.mem = s.mem := by rcases s.settle_eq with h | ⟨-, h⟩ <;> rw [h]
@[simp] theorem State.settle_ret : s.settle.ret = s.ret := by rcases s.settle_eq with h | ⟨-, h⟩ <;> rw [h]
@[simp] theorem State.settle_launchFault : s.settle.launchFault = s.launchFault := by
  rcases s.settle_eq with h | ⟨-, h⟩ <;> rw [h]
@[simp] theorem State.settle_blocks : s.settle.blocks = s.blocks := by rcases s.settle_eq with h | ⟨-, h⟩ <;> rw [h]
@[simp] theorem State.settle_cfg : s.settle.cfg = s.cfg := by rcases s.settle_eq with h | ⟨-, h⟩ <;> rw [h]
@[simp] theorem State.settle_sched : s.settle.sched = s.sched := by rcases s.settle_eq with h | ⟨-, h⟩ <;> rw [h]
@[simp] theorem State.settle_tick : s.settle.tick = s.tick := by rcases s.settle_eq with h | ⟨-, h⟩ <;> rw [h]
@[simp] theorem State.settle_draws : s.settle.draws = s.draws := by rcases s.settle_eq with h | ⟨-, h⟩ <;> rw [h]
@[simp] theorem State.settle_cur : s.settle.cur = s.cur := by rcases s.settle_eq with h | ⟨-, h⟩ <;> rw [h]
@[simp] theorem State.settle_launches : s.settle.launches = s.launches := by
  rcases s.settle_eq with h | ⟨-, h⟩ <;> rw [h]

end States

end Sys2Proof.Machine
end

