-- ==== Sys2Proof/Laws/Scratch.lean ====
section
/-! SUPPORT. The scratchpad: what each operation on tags leaves, and when an access passes its checks. -/

namespace Sys2Proof.Machine

/-! ## `updTags`, the one operation that changes tags -/

section UpdTags
variable (f : Nat → Tag → Tag) (offs : List Nat) (b : Block)

@[simp] theorem Block.updTags_bm : (b.updTags f offs).bm = b.bm := by
  induction offs generalizing b with
  | nil => rfl
  | cons a t ih => exact ih _

@[simp] theorem Block.updTags_bn : (b.updTags f offs).bn = b.bn := by
  induction offs generalizing b with
  | nil => rfl
  | cons a t ih => exact ih _

@[simp] theorem Block.updTags_warps : (b.updTags f offs).warps = b.warps := by
  induction offs generalizing b with
  | nil => rfl
  | cons a t ih => exact ih _

@[simp] theorem Block.updTags_gen : (b.updTags f offs).gen = b.gen := by
  induction offs generalizing b with
  | nil => rfl
  | cons a t ih => exact ih _

@[simp] theorem Block.updTags_arrived : (b.updTags f offs).arrived = b.arrived := by
  induction offs generalizing b with
  | nil => rfl
  | cons a t ih => exact ih _

@[simp] theorem Block.updTags_log : (b.updTags f offs).log = b.log := by
  induction offs generalizing b with
  | nil => rfl
  | cons a t ih => exact ih _

end UpdTags

/-- A canonical list is canonical for any larger bound. -/
theorem cellsWf_mono {α : Type} [DecidableEq α] {d : α} {l l' : Nat} {m : List (Nat × α)} (h : cellsWf d l m = true)
    (hl : l ≤ l') : cellsWf d l' m = true := by
  induction m with
  | nil => rfl
  | cons c t ih =>
    obtain ⟨h1, h2, h3, h4⟩ := cellsWf_cons.1 h
    exact cellsWf_cons.2 ⟨h1, h2, by omega, ih h4⟩

/-- The tag written, and every other tag as before. -/
theorem Block.tag_setTag {b : Block} {lim : Nat} (hb : cellsWf Tag.empty lim b.scr = true) (a : Nat) (t : Tag) (off : Nat) :
    (b.setTag a t).tag off = if off = a then t else b.tag off :=
  cellGet_cellSet hb off

/-- What `updTags` leaves when its change is idempotent: the tags at `offs` changed once, every other as before. -/
theorem Block.tag_updTags {f : Nat → Tag → Tag} (hf : ∀ a t, f a (f a t) = f a t) (offs : List Nat) {b : Block} {lim : Nat}
    (hb : cellsWf Tag.empty lim b.scr = true) (off : Nat) :
    (b.updTags f offs).tag off = if off ∈ offs then f off (b.tag off) else b.tag off := by
  induction offs generalizing b lim with
  | nil => rfl
  | cons a t ih =>
    have hb' : cellsWf Tag.empty (max lim (a + 1)) (b.setTag a (f a (b.tag a))).scr = true :=
      cellsWf_cellSet (cellsWf_mono hb (Nat.le_max_left _ _)) (by omega)
    rw [Block.updTags, ih hb', Block.tag_setTag hb]
    by_cases h1 : off = a
    · subst h1
      simp [hf]
    · simp [h1]

/-- `updTags` keeps the scratchpad's canonical form. -/
theorem Block.scrWf_updTags (f : Nat → Tag → Tag) {offs : List Nat} {b : Block} (hb : b.scrWf = true)
    (ho : ∀ a ∈ offs, a < 67584) : (b.updTags f offs).scrWf = true := by
  induction offs generalizing b with
  | nil => exact hb
  | cons a t ih =>
    exact ih (cellsWf_cellSet hb (ho a (by simp))) fun c hc => ho c (by simp [hc])

/-! ## The operations on tags -/

section Ops
variable {b : Block} {w : WarpId} (hb : b.scrWf = true)
include hb

theorem Block.tag_markReads (offs : List Nat) (off : Nat) :
    (b.markReads w offs).tag off = if off ∈ offs then (b.tag off).markRead b.gen w else b.tag off :=
  Block.tag_updTags (fun _ t => by simp [Tag.markRead]) offs hb off

theorem Block.tag_claim (offs : List Nat) (off : Nat) :
    (b.claim w offs).tag off = if off ∈ offs then (b.tag off).claimed w else b.tag off :=
  Block.tag_updTags (f := fun _ t => t.claimed w) (fun _ _ => rfl) offs hb off

theorem Block.tag_retire (offs : List Nat) (off : Nat) :
    (b.retire offs).tag off = if off ∈ offs then (b.tag off).retired b.gen else b.tag off :=
  Block.tag_updTags (f := fun _ t => t.retired b.gen) (fun _ _ => rfl) offs hb off

theorem Block.tag_writeBytes (a : Nat) (vs : List Byte) (off : Nat) :
    (b.writeBytes w a vs).tag off =
      if a ≤ off ∧ off < a + vs.length then (b.tag off).written b.gen w (vs.getD (off - a) 0) else b.tag off := by
  rw [Block.writeBytes,
    Block.tag_updTags (f := fun c t => t.written b.gen w (vs.getD (c - a) 0)) (fun _ _ => rfl) _ hb off]
  simp only [List.mem_range'_1]

theorem Block.tag_land (a : Nat) (vs : List Byte) (off : Nat) :
    (b.land a vs).tag off =
      if a ≤ off ∧ off < a + vs.length then (b.tag off).landed (vs.getD (off - a) 0) else b.tag off := by
  rw [Block.land, Block.tag_updTags (f := fun c t => t.landed (vs.getD (c - a) 0)) (fun _ _ => rfl) _ hb off]
  simp only [List.mem_range'_1]

end Ops

section Fields
variable (b : Block) (w : WarpId) (offs : List Nat) (a : Nat) (vs : List Byte)

@[simp] theorem Block.markReads_warps : (b.markReads w offs).warps = b.warps := Block.updTags_warps _ _ _
@[simp] theorem Block.markReads_gen : (b.markReads w offs).gen = b.gen := Block.updTags_gen _ _ _
@[simp] theorem Block.markReads_arrived : (b.markReads w offs).arrived = b.arrived := Block.updTags_arrived _ _ _
@[simp] theorem Block.markReads_log : (b.markReads w offs).log = b.log := Block.updTags_log _ _ _
@[simp] theorem Block.markReads_bm : (b.markReads w offs).bm = b.bm := Block.updTags_bm _ _ _
@[simp] theorem Block.markReads_bn : (b.markReads w offs).bn = b.bn := Block.updTags_bn _ _ _

@[simp] theorem Block.claim_warps : (b.claim w offs).warps = b.warps := Block.updTags_warps _ _ _
@[simp] theorem Block.claim_gen : (b.claim w offs).gen = b.gen := Block.updTags_gen _ _ _
@[simp] theorem Block.claim_arrived : (b.claim w offs).arrived = b.arrived := Block.updTags_arrived _ _ _
@[simp] theorem Block.claim_log : (b.claim w offs).log = b.log := Block.updTags_log _ _ _
@[simp] theorem Block.claim_bm : (b.claim w offs).bm = b.bm := Block.updTags_bm _ _ _
@[simp] theorem Block.claim_bn : (b.claim w offs).bn = b.bn := Block.updTags_bn _ _ _

@[simp] theorem Block.retire_warps : (b.retire offs).warps = b.warps := Block.updTags_warps _ _ _
@[simp] theorem Block.retire_gen : (b.retire offs).gen = b.gen := Block.updTags_gen _ _ _
@[simp] theorem Block.retire_arrived : (b.retire offs).arrived = b.arrived := Block.updTags_arrived _ _ _
@[simp] theorem Block.retire_log : (b.retire offs).log = b.log := Block.updTags_log _ _ _
@[simp] theorem Block.retire_bm : (b.retire offs).bm = b.bm := Block.updTags_bm _ _ _
@[simp] theorem Block.retire_bn : (b.retire offs).bn = b.bn := Block.updTags_bn _ _ _

@[simp] theorem Block.writeBytes_warps : (b.writeBytes w a vs).warps = b.warps := Block.updTags_warps _ _ _
@[simp] theorem Block.writeBytes_gen : (b.writeBytes w a vs).gen = b.gen := Block.updTags_gen _ _ _
@[simp] theorem Block.writeBytes_arrived : (b.writeBytes w a vs).arrived = b.arrived := Block.updTags_arrived _ _ _
@[simp] theorem Block.writeBytes_log : (b.writeBytes w a vs).log = b.log := Block.updTags_log _ _ _
@[simp] theorem Block.writeBytes_bm : (b.writeBytes w a vs).bm = b.bm := Block.updTags_bm _ _ _
@[simp] theorem Block.writeBytes_bn : (b.writeBytes w a vs).bn = b.bn := Block.updTags_bn _ _ _

@[simp] theorem Block.land_warps : (b.land a vs).warps = b.warps := Block.updTags_warps _ _ _
@[simp] theorem Block.land_gen : (b.land a vs).gen = b.gen := Block.updTags_gen _ _ _
@[simp] theorem Block.land_arrived : (b.land a vs).arrived = b.arrived := Block.updTags_arrived _ _ _
@[simp] theorem Block.land_log : (b.land a vs).log = b.log := Block.updTags_log _ _ _
@[simp] theorem Block.land_bm : (b.land a vs).bm = b.bm := Block.updTags_bm _ _ _
@[simp] theorem Block.land_bn : (b.land a vs).bn = b.bn := Block.updTags_bn _ _ _

end Fields

section WriteAll
variable (w : WarpId) (ws : List (Nat × List Byte)) (b : Block)

@[simp] theorem Block.writeAll_warps : (b.writeAll w ws).warps = b.warps := by
  induction ws generalizing b with
  | nil => rfl
  | cons p t ih => exact (ih _).trans (Block.writeBytes_warps _ _ _ _)

@[simp] theorem Block.writeAll_gen : (b.writeAll w ws).gen = b.gen := by
  induction ws generalizing b with
  | nil => rfl
  | cons p t ih => exact (ih _).trans (Block.writeBytes_gen _ _ _ _)

@[simp] theorem Block.writeAll_arrived : (b.writeAll w ws).arrived = b.arrived := by
  induction ws generalizing b with
  | nil => rfl
  | cons p t ih => exact (ih _).trans (Block.writeBytes_arrived _ _ _ _)

@[simp] theorem Block.writeAll_log : (b.writeAll w ws).log = b.log := by
  induction ws generalizing b with
  | nil => rfl
  | cons p t ih => exact (ih _).trans (Block.writeBytes_log _ _ _ _)

@[simp] theorem Block.writeAll_bm : (b.writeAll w ws).bm = b.bm := by
  induction ws generalizing b with
  | nil => rfl
  | cons p t ih => exact (ih _).trans (Block.writeBytes_bm _ _ _ _)

@[simp] theorem Block.writeAll_bn : (b.writeAll w ws).bn = b.bn := by
  induction ws generalizing b with
  | nil => rfl
  | cons p t ih => exact (ih _).trans (Block.writeBytes_bn _ _ _ _)

end WriteAll

/-! ## When an access passes its checks -/

/-- A scratch byte passes the checks of ScrRead exactly where it is `Readable`. -/
theorem readByteFault_eq_none {b : Block} {lim : Nat} {w : WarpId} {off : Nat} :
    b.readByteFault lim w off = none ↔ Readable lim b w off := by
  unfold Block.readByteFault Readable OrderedFor
  by_cases hl : lim ≤ off
  · simp [hl]
  · have hl' : off < lim := by omega
    cases hv : (b.tag off).vis with
    | unwritten => simp only [if_neg hl, hv]; simp
    | pending => simp only [if_neg hl, hv]; simp
    | done g0 =>
      simp only [if_neg hl, hv, Vis.done.injEq, exists_eq_left']
      by_cases hw : (b.tag off).writer = some w <;> by_cases hg : b.gen ≤ g0 <;> cases hx : (b.tag off).val <;>
        simp_all
      split_ifs <;> simp

/-- A scratch byte passes the checks of ScrWrite and ScrIssue exactly where it is `Writable`. -/
theorem writeByteFault_eq_none {b : Block} {lim : Nat} {w : WarpId} {off : Nat} :
    b.writeByteFault lim w off = none ↔ Writable lim b w off := by
  have hr : b.otherReader w off = none ↔ ∀ w2 : WarpId, w2 ≠ w → (b.tag off).rd[w2] ≠ some b.gen := by
    simp [Block.otherReader, List.find?_eq_none]
  unfold Block.writeByteFault Writable OrderedFor
  rw [← hr]
  by_cases hl : lim ≤ off
  · simp [hl]
  · have hl' : off < lim := by omega
    cases ho : b.otherReader w off with
    | some w2 => simp only [if_neg hl]; simp
    | none =>
      cases hv : (b.tag off).vis with
      | unwritten => simp only [if_neg hl, hv]; simp [hl']
      | pending => simp only [if_neg hl, hv]; simp
      | done g0 =>
        simp only [if_neg hl, hv, Vis.done.injEq, forall_eq']
        by_cases hw : (b.tag off).writer = some w <;> by_cases hg : b.gen ≤ g0 <;> simp_all

/-- A range of scratch bytes passes the checks of ScrRead exactly where every byte of it is `Readable`. -/
theorem readFault_eq_none {b : Block} {lim : Nat} {w : WarpId} {off n : Nat} :
    b.readFault lim w off n = none ↔ ∀ a ∈ List.range' off n, Readable lim b w a := by
  simp only [Block.readFault, List.findSome?_eq_none_iff, readByteFault_eq_none]

/-- A range of scratch bytes passes the checks of ScrWrite exactly where every byte of it is `Writable`. -/
theorem writeFault_eq_none {b : Block} {lim : Nat} {w : WarpId} {off n : Nat} :
    b.writeFault lim w off n = none ↔ ∀ a ∈ List.range' off n, Writable lim b w a := by
  simp only [Block.writeFault, List.findSome?_eq_none_iff, writeByteFault_eq_none]

/-- The checks of a device access answer no fault exactly where the access is aligned and admitted. -/
theorem accessFault_eq_none {p : Prop} [Decidable p] {q : Bool} {x y : Cause} :
    (if ¬p then some x else if q = true then none else some y) = none ↔ p ∧ q = true := by
  by_cases h : p <;> cases q <;> simp [h]

/-- A device read passes its checks exactly where it is `ReadOk`. -/
theorem memReadFault_eq_none {s : State} {a n : Nat} : s.memReadFault a n = none ↔ ReadOk s a n := by
  have hm : memSize = 2 ^ 64 := rfl
  rw [State.memReadFault, accessFault_eq_none, ReadOk]
  simp only [State.readAdmitted, State.inBuffer, hm, List.any_eq_true, Bool.and_eq_true, decide_eq_true_eq,
    List.mem_finRange, true_and]
  refine and_congr_right fun _ => ⟨?_, ?_⟩
  · rintro ⟨i, ⟨h1, h2⟩, h3⟩
    exact ⟨h3, i, h1, h2⟩
  · rintro ⟨h3, i, h1, h2⟩
    exact ⟨i, ⟨h1, h2⟩, h3⟩

/-- A device write passes its checks exactly where it is `WriteOk`. -/
theorem memWriteFault_eq_none {s : State} {a n : Nat} : s.memWriteFault a n = none ↔ WriteOk s a n := by
  have hm : memSize = 2 ^ 64 := rfl
  have hd : s.params.ptrs[(8 : Fin 9)] = s.params.pD := rfl
  rw [State.memWriteFault, accessFault_eq_none, WriteOk]
  simp only [State.writeAdmitted, State.inBuffer, hm, Bool.and_eq_true, decide_eq_true_eq, hd]
  refine and_congr_right fun _ => ⟨?_, ?_⟩
  · rintro ⟨⟨h1, h2⟩, h3⟩
    exact ⟨h3, h1, h2⟩
  · rintro ⟨h3, h1, h2⟩
    exact ⟨⟨h1, h2⟩, h3⟩

end Sys2Proof.Machine
end

