-- ==== Sys2Proof/Laws/Run.lean ====
section
/-! SUPPORT. What running a command and taking a step can do, said once. -/

namespace Sys2Proof.Machine

/-- A command that answers a next state ran in a block of the grid, and either raised its fault there or had its
effect. -/
theorem runCommand_next {s t : State} {f : Block → Except Cause State} (h : s.runCommand f = .next t) :
    ∃ b, s.block? = some b ∧ ((∃ c, f b = .error c ∧ t = s.raise b c) ∨ f b = .ok t) := by
  unfold State.runCommand at h
  cases hb : s.block? with
  | none => simp [hb] at h
  | some b =>
    refine ⟨b, rfl, ?_⟩
    simp only [hb, Host.Outcome.next.injEq] at h
    cases hf : f b with
    | error c => exact .inl ⟨c, rfl, by simpa [hf] using h.symm⟩
    | ok u => exact .inr (by simp only [hf] at h; rw [h])

/-- A command with an effect answers it. -/
theorem runCommand_ok {s t : State} {f : Block → Except Cause State} {b : Block} (hb : s.block? = some b)
    (hf : f b = .ok t) : s.runCommand f = .next t := by
  simp [State.runCommand, hb, hf]

/-- A command whose check fails raises that fault. -/
theorem runCommand_error {s : State} {c : Cause} {f : Block → Except Cause State} {b : Block} (hb : s.block? = some b)
    (hf : f b = .error c) : s.runCommand f = .next (s.raise b c) := by
  simp [State.runCommand, hb, hf]

/-- A command stops only where the current warp is in no block of the grid, and it refuses nothing. -/
theorem runCommand_stops {s : State} {f : Block → Except Cause State} :
    (∃ t, s.runCommand f = .next t) ∨ (s.block? = none ∧ s.runCommand f = .fault .noWarp) := by
  unfold State.runCommand
  cases s.block? with
  | none => exact .inr ⟨rfl, rfl⟩
  | some b => exact .inl ⟨_, rfl⟩

/-- Issuing copies that pass their checks. -/
theorem issueCopies_ok {s : State} {b : Block} {chunks : List Chunk} (h : ∀ c ∈ chunks, CopyOk s b s.cur.w c) :
    issueCopies s b chunks = .ok (s.setBlock (issued s b s.cur.w chunks)) := by
  have hn : chunks.findSome? (copyFault s b s.cur.w) = none := by
    rw [List.findSome?_eq_none_iff]
    intro c hc
    obtain ⟨h1, h2⟩ := h c hc
    rw [copyFault, writeFault_eq_none.2 h2, Option.or_none]
    cases hs : c.src with
    | none => rfl
    | some a => exact memReadFault_eq_none.2 (h1 a hs)
  simp [issueCopies, hn]

/-- Loading registers from scratch bytes that are readable. -/
theorem loadRegs_ok {s : State} {b : Block} {offs : List Nat} {f : Warp → Warp}
    (h : ∀ off ∈ offs, Readable s.derived.scrBytes b s.cur.w off) :
    loadRegs s b offs f = .ok (s.setBlock ((b.markReads s.cur.w offs).updWarp s.cur.w fun x => (f x).advance)) := by
  have hn : offs.findSome? (b.readByteFault s.derived.scrBytes s.cur.w) = none := by
    rw [List.findSome?_eq_none_iff]
    exact fun off ho => readByteFault_eq_none.2 (h off ho)
  simp [loadRegs, hn]

/-- An idle step is stuck or changes nothing. -/
theorem idleStep_next {s t : State} (h : s.idleStep = .next t) : t = s := by
  unfold State.idleStep at h
  split at h
  · cases h
  · cases h
    rfl

/-- What a warp step that answers a next state did: it was idle, overran the stream, met an illegal word or ran a
command. -/
theorem warpStep_next {s t : State} {blk : Nat} {w : WarpId} (h : s.warpStep blk w = .next t) :
    t = s ∨ ∃ b, s.blocks[blk]? = some b ∧ s.inv = .running ∧ b.warps[w].st = .run ∧
      ((s.fetch b w = none ∧ t = (s.asWarp blk w).raise b .pcOverrun) ∨
        ∃ word, s.fetch b w = some word ∧
          ((∃ e, decode word = .error e ∧ t = (s.asWarp blk w).raise b .illegalCmd) ∨
            ∃ i, decode word = .ok i ∧ exec i (s.asWarp blk w) = .next t)) := by
  unfold State.warpStep at h
  split at h
  · exact .inl (idleStep_next h)
  · next b hb =>
    split at h
    · next hc =>
      refine .inr ⟨b, hb, hc.1, hc.2, ?_⟩
      split at h
      · next hf =>
        cases h
        exact .inl ⟨hf, rfl⟩
      · next word hf =>
        refine .inr ⟨word, hf, ?_⟩
        split at h
        · next e hd =>
          cases h
          exact .inl ⟨e, hd, rfl⟩
        · next i hd => exact .inr ⟨i, hd, h⟩
    · exact .inl (idleStep_next h)

/-- What a step of the copy agent that answers a next state did: it was idle or a copy landed. -/
theorem copyStep_next {s t : State} {blk : Nat} {w : WarpId} {place : CopyPlace} (h : s.copyStep blk w place = .next t) :
    t = s ∨ ∃ b r, s.blocks[blk]? = some b ∧ s.inv = .running ∧ b.toPerform w place = some r ∧
      t = s.performCopy blk b w place r := by
  unfold State.copyStep at h
  split at h
  · exact .inl (idleStep_next h)
  · next b hb =>
    split at h
    · exact .inl (idleStep_next h)
    · next r hr =>
      split at h
      · next hc =>
        cases h
        exact .inr ⟨b, r, hb, hc, hr, rfl⟩
      · exact .inl (idleStep_next h)

/-- What a step of the barrier that answers a next state did: it was idle or released the block's warps. -/
theorem barrierStep_next {s t : State} {blk : Nat} (h : s.barrierStep blk = .next t) :
    t = s ∨ ∃ b, s.blocks[blk]? = some b ∧ s.inv = .running ∧ b.releaseEnabled = true ∧ t = s.release blk b := by
  unfold State.barrierStep at h
  split at h
  · exact .inl (idleStep_next h)
  · next b hb =>
    split at h
    · next hc =>
      cases h
      exact .inr ⟨b, hb, hc.1, hc.2, rfl⟩
    · exact .inl (idleStep_next h)

/-- What a step of the host that answers a next state did: it was idle or launched. -/
theorem hostStep_next {s t : State} (h : s.hostStep = .next t) :
    t = s ∨ ∃ r rest, s.launches = r :: rest ∧ s.inv ≠ .running ∧ t = ({ s with launches := rest } : State).launch r := by
  unfold State.hostStep at h
  split at h
  · exact .inl (idleStep_next h)
  · next r rest hl =>
    split at h
    · exact .inl (idleStep_next h)
    · next hc =>
      cases h
      exact .inr ⟨r, rest, hl, hc, rfl⟩

/-- Everything a step that answers a next state can be, in the state `c` whose choice of an agent is used up: that state
itself; a warp overran the stream, met an illegal word or ran a command; a copy landed; a barrier released; or the
host launched. -/
theorem step_next {s t : State} (h : step s = .next t) :
    t = s.choiceTaken ∨
    (∃ blk w b, s.nextAgent = .warp blk w ∧ s.blocks[blk]? = some b ∧ s.inv = .running ∧ b.warps[w].st = .run ∧
      ((s.fetch b w = none ∧ t = (s.choiceTaken.asWarp blk w).raise b .pcOverrun) ∨
        ∃ word, s.fetch b w = some word ∧
          ((∃ e, decode word = .error e ∧ t = (s.choiceTaken.asWarp blk w).raise b .illegalCmd) ∨
            ∃ i, decode word = .ok i ∧ exec i (s.choiceTaken.asWarp blk w) = .next t))) ∨
    (∃ blk w place b r, s.nextAgent = .copy blk w place ∧ s.blocks[blk]? = some b ∧ s.inv = .running ∧
      b.toPerform w place = some r ∧ t = s.choiceTaken.performCopy blk b w place r) ∨
    (∃ blk b, s.nextAgent = .barrier blk ∧ s.blocks[blk]? = some b ∧ s.inv = .running ∧ b.releaseEnabled = true ∧
      t = s.choiceTaken.release blk b) ∨
    (∃ r rest, s.nextAgent = .host ∧ s.launches = r :: rest ∧ s.inv ≠ .running ∧
      t = ({ s.choiceTaken with launches := rest } : State).launch r) := by
  unfold step at h
  cases ha : s.nextAgent with
  | warp blk w =>
    rw [ha] at h
    rcases warpStep_next h with h | ⟨b, hb, hi, hst, h⟩
    · exact .inl h
    · exact .inr (.inl ⟨blk, w, b, rfl, hb, hi, hst, h⟩)
  | copy blk w place =>
    rw [ha] at h
    rcases copyStep_next h with h | ⟨b, r, h⟩
    · exact .inl h
    · exact .inr (.inr (.inl ⟨blk, w, place, b, r, rfl, h⟩))
  | barrier blk =>
    rw [ha] at h
    rcases barrierStep_next h with h | ⟨b, h⟩
    · exact .inl h
    · exact .inr (.inr (.inr (.inl ⟨blk, b, rfl, h⟩)))
  | host =>
    rw [ha] at h
    rcases hostStep_next h with h | ⟨r, rest, h⟩
    · exact .inl h
    · exact .inr (.inr (.inr (.inr ⟨r, rest, rfl, h⟩)))

/-! ## Enabled agents and executions -/

theorem agentEnabled_warp {s : State} {blk : Nat} {w : WarpId} : s.agentEnabled (.warp blk w) = true ↔
    s.inv = .running ∧ ∃ b, s.blocks[blk]? = some b ∧ b.warpEnabled s w = true := by
  simp [State.agentEnabled, Option.any_eq_true]

theorem agentEnabled_copy {s : State} {blk : Nat} {w : WarpId} {place : CopyPlace} :
    s.agentEnabled (.copy blk w place) = true ↔
      s.inv = .running ∧ ∃ b r, s.blocks[blk]? = some b ∧ b.toPerform w place = some r := by
  simp [State.agentEnabled, Option.any_eq_true, Option.isSome_iff_exists]

theorem agentEnabled_barrier {s : State} {blk : Nat} : s.agentEnabled (.barrier blk) = true ↔
    s.inv = .running ∧ ∃ b, s.blocks[blk]? = some b ∧ b.releaseEnabled = true := by
  simp [State.agentEnabled, Option.any_eq_true]

theorem agentEnabled_host {s : State} : s.agentEnabled .host = true ↔ s.inv ≠ .running ∧ s.launches ≠ [] := by
  simp [State.agentEnabled]

/-- Where no invocation runs and none is to be launched no agent is enabled. -/
theorem agentEnabled_of_ended {s : State} (hi : s.inv ≠ .running) (hl : s.launches = []) (a : Agent) :
    s.agentEnabled a = false := by
  cases a <;> simp [State.agentEnabled, hi, hl]

/-- Where no invocation runs and none is to be launched every agent idles. -/
theorem agentStep_of_ended {s : State} (hi : s.inv ≠ .running) (hl : s.launches = []) (a : Agent) :
    s.agentStep a = .next s := by
  have hidle : s.idleStep = .next s := by simp [State.idleStep, State.stuck, hi]
  cases a <;> simp only [State.agentStep, State.warpStep, State.copyStep, State.barrierStep, State.hostStep, hi, hl, hidle,
    false_and, if_false] <;> split <;> first | rfl | (split <;> rfl)

end Sys2Proof.Machine
end

