-- ==== Sys2Proof/Laws/Exec.lean ====
section
/-! SUPPORT. What each command can do, said once: `exec` answers a next state exactly where the command raises a fault or
has the effect `BlockEffect` on its block. -/

namespace Sys2Proof.Machine

/-- The copies an LDG or LDGS issues pass their checks and are issued. -/
def IssueEffect (s : State) (b : Block) (ph : Phase) (kt : Nat) (chunks : List Chunk) (b' : Block) : Prop :=
  keeperKtBad ph kt = false ∧ (∀ c ∈ chunks, CopyOk s b s.cur.w c) ∧ b' = issued s b s.cur.w chunks

/-- The scratch bytes an LDM or LDSC reads pass their checks, are read, and change the warp by `f`. -/
def ReadEffect (s : State) (b : Block) (offs : List Nat) (f : Warp → Warp) (b' : Block) : Prop :=
  (∀ off ∈ offs, Readable s.derived.scrBytes b s.cur.w off) ∧
    b' = (b.markReads s.cur.w offs).updWarp s.cur.w fun x => (f x).advance

/-- An MMA's fragments hold values and its sub-tile is accumulated by the dot product `dot`. -/
def MmaEffect (s : State) (b : Block) (dot : Vector Byte 32 → Vector Byte 32 → Int) (mi : Fin 2) (ni : Fin 8)
    (b' : Block) : Prop :=
  ∃ fa fb, b.warps[s.cur.w].fa[mi] = some fa ∧ b.warps[s.cur.w].fb[ni] = some fb ∧
    b' = b.updWarp s.cur.w fun x =>
      { x with iacc := updSubtile x.iacc mi ni fun r c acc => accAdd acc (dot fa[r] fb[c]) }.advance

/-- The block `b'` that command `i` of the current warp of `b` leaves where its checks pass. -/
def BlockEffect (i : Instr) (s : State) (b b' : Block) : Prop :=
  match i with
  | .nop => b' = b.updWarp s.cur.w Warp.advance
  | .ldgA ph slot kt => IssueEffect s b ph kt (ldgAChunks s b s.cur.w ph slot kt) b'
  | .ldgB ph slot kt => IssueEffect s b ph kt (ldgBChunks s b s.cur.w ph slot kt) b'
  | .ldgs ph slot kt => IssueEffect s b ph kt (ldgsChunks s b s.cur.w ph slot kt) b'
  | .commit => b' = b.updWarp s.cur.w fun x => x.commitGroup.advance
  | .wait n => (b.warps[s.cur.w].waitHolds n = true ∧ b' = b) ∨
      (b.warps[s.cur.w].waitHolds n = false ∧ b' = waited b s.cur.w n)
  | .bar => b' = arrivedAt b s.cur.w
  | .ldmA slot ks mi => ReadEffect s b (ldmAOffs s s.cur.w slot ks mi)
      (fun x => { x with fa := x.fa.set mi (some (fragAOf s b s.cur.w slot ks mi)) }) b'
  | .ldmB slot ks ni => ReadEffect s b (ldmBOffs s s.cur.w slot ks ni)
      (fun x => { x with fb := x.fb.set ni (some (fragBOf s b s.cur.w slot ks ni)) }) b'
  | .ldsc ph slot => ReadEffect s b (ldscOffs s s.cur.w ph slot)
      (fun x => { x with sa := some (saOf s b s.cur.w ph slot), sb := some (sbOf b s.cur.w slot) }) b'
  | .mma4 mi ni => MmaEffect s b dot4 mi ni b'
  | .mma8 mi ni => MmaEffect s b dot8 mi ni b'
  | .deq => ∃ sa sb, b.warps[s.cur.w].sa = some sa ∧ b.warps[s.cur.w].sb = some sb ∧
      b' = b.updWarp s.cur.w fun x => (dequantized s sa sb x).advance
  | .cvts => (∀ p ∈ stageWrites s b.warps[s.cur.w] s.cur.w, ∀ off ∈ List.range' p.1 p.2.length,
        Writable s.derived.scrBytes b s.cur.w off) ∧
      b' = (b.writeAll s.cur.w (stageWrites s b.warps[s.cur.w] s.cur.w)).updWarp s.cur.w Warp.advance
  | .stg it => stgItBad s it = false ∧ (∀ p ∈ stgPieces s b s.cur.w it, PieceOk s b s.cur.w p) ∧
      b' = storedFrom b s.cur.w (stgPieces s b s.cur.w it)
  | .endWarp => b' = b.updWarp s.cur.w fun x => { x with st := .done }

/-- The machine command `i` leaves where it changed the block `b` of the current warp to `b'`. -/
def finish (i : Instr) (s : State) (b b' : Block) : State :=
  match i with
  | .deq => (s.setBlock b').drawn
  | .cvts => (s.setBlock b').drawn
  | .stg it => { s.setBlock b' with mem := storePieces b (stgPieces s b s.cur.w it) s.mem }
  | .endWarp => (s.setBlock b').settle
  | _ => s.setBlock b'

/-- Setting the block of the current warp to itself changes nothing. -/
theorem setBlock_self {s : State} {b : Block} (hb : s.block? = some b) : s.setBlock b = s := by
  have h : s.blocks.set s.cur.blk b = s.blocks := by
    apply List.ext_getElem?
    intro i
    rw [List.getElem?_set]
    split_ifs with h1 h2
    · rw [← h1]
      exact hb.symm
    · rw [← h1]
      exact (List.getElem?_eq_none (by omega)).symm
    · rfl
  rw [State.setBlock, h]

/-- Issuing copies has an effect exactly where their checks pass. -/
theorem issueCopies_eq_ok {s t : State} {b : Block} {chunks : List Chunk} :
    issueCopies s b chunks = .ok t ↔
      (∀ c ∈ chunks, CopyOk s b s.cur.w c) ∧ t = s.setBlock (issued s b s.cur.w chunks) := by
  constructor
  · intro h
    unfold issueCopies at h
    split at h
    · cases h
    · next hn =>
      cases h
      refine ⟨fun c hc => ?_, rfl⟩
      rw [List.findSome?_eq_none_iff] at hn
      have h1 := hn c hc
      rw [copyFault, Option.or_eq_none_iff, writeFault_eq_none] at h1
      refine ⟨fun a ha => ?_, h1.2⟩
      have h2 := h1.1
      rw [ha, Option.bind_some] at h2
      exact memReadFault_eq_none.1 h2
  · rintro ⟨h, rfl⟩
    exact issueCopies_ok h

/-- Loading registers has an effect exactly where the checks of the scratch reads pass. -/
theorem loadRegs_eq_ok {s t : State} {b : Block} {offs : List Nat} {f : Warp → Warp} :
    loadRegs s b offs f = .ok t ↔ (∀ off ∈ offs, Readable s.derived.scrBytes b s.cur.w off) ∧
      t = s.setBlock ((b.markReads s.cur.w offs).updWarp s.cur.w fun x => (f x).advance) := by
  constructor
  · intro h
    unfold loadRegs at h
    split at h
    · cases h
    · next hn =>
      cases h
      rw [List.findSome?_eq_none_iff] at hn
      exact ⟨fun off ho => readByteFault_eq_none.1 (hn off ho), rfl⟩
  · rintro ⟨h, rfl⟩
    exact loadRegs_ok h

/-- An MMA has an effect exactly where its fragments hold values. -/
theorem mmaWith_eq_ok {s t : State} {b : Block} {dot : Vector Byte 32 → Vector Byte 32 → Int} {mi : Fin 2} {ni : Fin 8} :
    mmaWith dot mi ni s b = .ok t ↔ ∃ b', MmaEffect s b dot mi ni b' ∧ t = s.setBlock b' := by
  unfold mmaWith MmaEffect
  dsimp only
  constructor
  · intro h
    split at h
    · cases h
    · next fa hfa =>
      split at h
      · cases h
      · next fb hfb =>
        cases h
        exact ⟨_, ⟨fa, fb, hfa, hfb, rfl⟩, rfl⟩
  · rintro ⟨b', ⟨fa, fb, hfa, hfb, rfl⟩, rfl⟩
    simp only [hfa, hfb]

/-- The pieces of an STG pass their checks exactly where no check of one answers a fault. -/
theorem storeFault_eq_none {s : State} {b : Block} {p : StorePiece} :
    storeFault s b p = none ↔ PieceOk s b s.cur.w p := by
  rw [storeFault, Option.or_eq_none_iff, readFault_eq_none, memWriteFault_eq_none, PieceOk]

/-- The meaning of a command in the block of the current warp: a fault, or the machine it leaves. -/
def meaning (i : Instr) (s : State) (b : Block) : Except Cause State :=
  match i with
  | .nop => .ok (s.setBlock (b.updWarp s.cur.w Warp.advance))
  | .ldgA ph slot kt =>
    if keeperKtBad ph kt then .error (.illegalOperand kt) else issueCopies s b (ldgAChunks s b s.cur.w ph slot kt)
  | .ldgB ph slot kt =>
    if keeperKtBad ph kt then .error (.illegalOperand kt) else issueCopies s b (ldgBChunks s b s.cur.w ph slot kt)
  | .ldgs ph slot kt =>
    if keeperKtBad ph kt then .error (.illegalOperand kt) else issueCopies s b (ldgsChunks s b s.cur.w ph slot kt)
  | .commit => .ok (s.setBlock (b.updWarp s.cur.w fun x => x.commitGroup.advance))
  | .wait n => if b.warps[s.cur.w].waitHolds n then .ok s else .ok (s.setBlock (waited b s.cur.w n))
  | .bar => .ok (s.setBlock (arrivedAt b s.cur.w))
  | .ldmA slot ks mi => loadRegs s b (ldmAOffs s s.cur.w slot ks mi) fun x =>
      { x with fa := x.fa.set mi (some (fragAOf s b s.cur.w slot ks mi)) }
  | .ldmB slot ks ni => loadRegs s b (ldmBOffs s s.cur.w slot ks ni) fun x =>
      { x with fb := x.fb.set ni (some (fragBOf s b s.cur.w slot ks ni)) }
  | .ldsc ph slot => loadRegs s b (ldscOffs s s.cur.w ph slot) fun x =>
      { x with sa := some (saOf s b s.cur.w ph slot), sb := some (sbOf b s.cur.w slot) }
  | .mma4 mi ni => mmaWith dot4 mi ni s b
  | .mma8 mi ni => mmaWith dot8 mi ni s b
  | .deq => match b.warps[s.cur.w].sa, b.warps[s.cur.w].sb with
    | some sa, some sb => .ok (s.setBlock (b.updWarp s.cur.w fun x => (dequantized s sa sb x).advance)).drawn
    | _, _ => .error (.regUninit .scales 0)
  | .cvts =>
    match (stageWrites s b.warps[s.cur.w] s.cur.w).findSome? fun p =>
      b.writeFault s.derived.scrBytes s.cur.w p.1 p.2.length with
    | some c => .error c
    | none => .ok (s.setBlock ((b.writeAll s.cur.w (stageWrites s b.warps[s.cur.w] s.cur.w)).updWarp s.cur.w
        Warp.advance)).drawn
  | .stg it =>
    if stgItBad s it then .error (.illegalOperand it)
    else match (stgPieces s b s.cur.w it).findSome? (storeFault s b) with
      | some c => .error c
      | none => .ok { s.setBlock (storedFrom b s.cur.w (stgPieces s b s.cur.w it)) with
          mem := storePieces b (stgPieces s b s.cur.w it) s.mem }
  | .endWarp => .ok (s.setBlock (b.updWarp s.cur.w fun x => { x with st := .done })).settle

/-- Every arm of `exec` runs its meaning for the current warp. -/
theorem exec_eq_runCommand (i : Instr) (s : State) : exec i s = s.runCommand (meaning i s) := by
  cases i <;> rfl

/-- The meaning of a command is an effect exactly where its checks pass. -/
theorem meaning_eq_ok {i : Instr} {s t : State} {b : Block} (hb : s.block? = some b) :
    meaning i s b = .ok t ↔ ∃ b', BlockEffect i s b b' ∧ t = finish i s b b' := by
  have issue : ∀ (ph : Phase) (kt : Nat) (chunks : List Chunk),
      (if keeperKtBad ph kt then .error (.illegalOperand kt) else issueCopies s b chunks) = .ok t ↔
        ∃ b', IssueEffect s b ph kt chunks b' ∧ t = s.setBlock b' := by
    intro ph kt chunks
    unfold IssueEffect
    cases hk : keeperKtBad ph kt
    · simp only [Bool.false_eq_true, if_false, issueCopies_eq_ok, true_and]
      exact ⟨fun h => ⟨_, ⟨h.1, rfl⟩, h.2⟩, by rintro ⟨_, ⟨h, rfl⟩, rfl⟩; exact ⟨h, rfl⟩⟩
    · simp
  have load : ∀ (offs : List Nat) (f : Warp → Warp),
      loadRegs s b offs f = .ok t ↔ ∃ b', ReadEffect s b offs f b' ∧ t = s.setBlock b' := by
    intro offs f
    rw [loadRegs_eq_ok]
    exact ⟨fun h => ⟨_, ⟨h.1, rfl⟩, h.2⟩, by rintro ⟨_, ⟨h, rfl⟩, rfl⟩; exact ⟨h, rfl⟩⟩
  cases i with
  | ldgA ph slot kt => exact issue _ _ _
  | ldgB ph slot kt => exact issue _ _ _
  | ldgs ph slot kt => exact issue _ _ _
  | ldmA slot ks mi => exact load _ _
  | ldmB slot ks ni => exact load _ _
  | ldsc ph slot => exact load _ _
  | mma4 mi ni => exact mmaWith_eq_ok
  | mma8 mi ni => exact mmaWith_eq_ok
  | nop => simp [meaning, BlockEffect, finish, eq_comm]
  | commit => simp [meaning, BlockEffect, finish, eq_comm]
  | bar => simp [meaning, BlockEffect, finish, eq_comm]
  | endWarp => simp [meaning, BlockEffect, finish, eq_comm]
  | wait n =>
    cases hw : b.warps[s.cur.w].waitHolds n
    · simp only [meaning, BlockEffect, finish]
      simp only [hw, Bool.false_eq_true, if_false, Except.ok.injEq, false_and, true_and, false_or, exists_eq_left]
      exact eq_comm
    · simp only [meaning, BlockEffect, finish]
      simp only [hw, if_true, Except.ok.injEq, Bool.true_eq_false, true_and, false_and, or_false, exists_eq_left,
        setBlock_self hb]
      exact eq_comm
  | deq =>
    simp only [meaning, BlockEffect, finish]
    cases hx : b.warps[s.cur.w].sa <;> cases hy : b.warps[s.cur.w].sb
    · simp
    · simp
    · simp
    · simp [eq_comm]
  | cvts =>
    simp only [meaning, BlockEffect, finish]
    split
    · next c hc =>
      simp only [reduceCtorEq, false_iff, not_exists, not_and]
      rintro b' ⟨h, -⟩
      have hn : (stageWrites s b.warps[s.cur.w] s.cur.w).findSome? (fun p =>
          b.writeFault s.derived.scrBytes s.cur.w p.1 p.2.length) = none :=
        List.findSome?_eq_none_iff.2 fun p hp => writeFault_eq_none.2 (h p hp)
      rw [hn] at hc
      cases hc
    · next hc =>
      rw [List.findSome?_eq_none_iff] at hc
      refine ⟨fun h => ⟨_, ⟨fun p hp => writeFault_eq_none.1 (hc p hp), rfl⟩, ?_⟩, ?_⟩
      · cases h
        rfl
      · rintro ⟨b', ⟨-, rfl⟩, rfl⟩
        rfl
  | stg it =>
    simp only [meaning, BlockEffect, finish]
    cases stgItBad s it
    · simp only [Bool.false_eq_true, if_false, true_and]
      split
      · next c hc =>
        simp only [reduceCtorEq, false_iff, not_exists, not_and]
        rintro b' ⟨h, -⟩
        have hn : (stgPieces s b s.cur.w it).findSome? (storeFault s b) = none :=
          List.findSome?_eq_none_iff.2 fun p hp => storeFault_eq_none.2 (h p hp)
        rw [hn] at hc
        cases hc
      · next hc =>
        rw [List.findSome?_eq_none_iff] at hc
        refine ⟨fun h => ⟨_, ⟨fun p hp => storeFault_eq_none.1 (hc p hp), rfl⟩, ?_⟩, ?_⟩
        · cases h
          rfl
        · rintro ⟨b', ⟨-, rfl⟩, rfl⟩
          rfl
    · simp

/-- A command that answers a next state ran in a block of the grid, and either raised a fault there or had its
effect. -/
theorem exec_next {i : Instr} {s t : State} (h : exec i s = .next t) :
    ∃ b, s.block? = some b ∧ ((∃ c, t = s.raise b c) ∨ ∃ b', BlockEffect i s b b' ∧ t = finish i s b b') := by
  rw [exec_eq_runCommand] at h
  obtain ⟨b, hb, ⟨c, -, rfl⟩ | h⟩ := runCommand_next h
  · exact ⟨b, hb, .inl ⟨c, rfl⟩⟩
  · exact ⟨b, hb, .inr ((meaning_eq_ok hb).1 h)⟩

/-- A command whose effect is `b'` answers it. -/
theorem exec_of_effect {i : Instr} {s : State} {b b' : Block} (hb : s.block? = some b) (h : BlockEffect i s b b') :
    exec i s = .next (finish i s b b') := by
  rw [exec_eq_runCommand]
  exact runCommand_ok hb ((meaning_eq_ok hb).2 ⟨b', h, rfl⟩)

/-- A command stops only where the current warp is in no block of the grid. -/
theorem exec_stops (i : Instr) (s : State) :
    (∃ t, exec i s = .next t) ∨ (s.block? = none ∧ exec i s = .fault .noWarp) := by
  rw [exec_eq_runCommand]
  exact runCommand_stops

end Sys2Proof.Machine
end

