-- ==== Sys2Proof/Laws/PerInstr.lean ====
section
/-! SUPPORT. The family RowSelected: the word of every well-formed instruction selects the row of the opcode map that
bears its mnemonic. -/

namespace Sys2Proof.Laws.RowSelected

/-- The mnemonic of an instruction in spec/opcode_table.json. -/
def mnemonicOf : Instr → String
  | .nop => "NOP"
  | .ldgA _ _ _ => "LDG.A"
  | .ldgB _ _ _ => "LDG.B"
  | .ldgs _ _ _ => "LDGS"
  | .commit => "COMMIT"
  | .wait _ => "WAIT"
  | .bar => "BAR"
  | .ldmA _ _ _ => "LDM.A"
  | .ldmB _ _ _ => "LDM.B"
  | .ldsc _ _ => "LDSC"
  | .mma4 _ _ => "MMA4"
  | .mma8 _ _ => "MMA8"
  | .deq => "DEQ"
  | .cvts => "CVTS"
  | .stg _ => "STG"
  | .endWarp => "END"

/-- The encoded word of a well-formed `i` matches the row of the opcode map that bears `i`'s mnemonic (30_encoding
R79). -/
def Statement (i : Instr) : Prop :=
  i.wf = true → ∃ r ∈ opcodeTable, r.mnemonic = mnemonicOf i ∧ rowMatches (encode i) r = true

/-- The statement holds where the `k`-th row bears the mnemonic and its match, on fields, holds. -/
theorem of_row {i : Instr} (k : Fin 16)
    (h : i.wf = true → opcodeTable[k].mnemonic = mnemonicOf i ∧
      (fieldsOfInstr i).mask (fieldsOfWord opcodeTable[k].mask) = fieldsOfWord opcodeTable[k].pattern) : Statement i := by
  intro hw
  obtain ⟨h1, h2⟩ := h hw
  refine ⟨opcodeTable[k], List.getElem_mem _, h1, ?_⟩
  rw [rowMatches_iff, fieldsOfWord_encode]
  exact h2

theorem nop : Statement .nop := of_row 0 fun _ => ⟨rfl, by decide⟩

theorem ldgA (ph : Phase) (slot : Fin 4) (kt : Nat) : Statement (.ldgA ph slot kt) :=
  of_row 1 fun _ => ⟨rfl, by
    cases ph <;> simp [fieldsOfInstr, Fields.mask, fieldsOfWord, opcodeTable, formatZ, bitOfPhase]⟩

theorem ldgB (ph : Phase) (slot : Fin 4) (kt : Nat) : Statement (.ldgB ph slot kt) :=
  of_row 2 fun _ => ⟨rfl, by
    cases ph <;> simp [fieldsOfInstr, Fields.mask, fieldsOfWord, opcodeTable, formatZ, bitOfPhase]⟩

theorem ldgs (ph : Phase) (slot : Fin 4) (kt : Nat) : Statement (.ldgs ph slot kt) :=
  of_row 3 fun _ => ⟨rfl, by
    cases ph <;> simp [fieldsOfInstr, Fields.mask, fieldsOfWord, opcodeTable, formatZ, bitOfPhase]⟩

theorem commit : Statement .commit := of_row 4 fun _ => ⟨rfl, by decide⟩

theorem wait (n : Nat) : Statement (.wait n) :=
  of_row 5 fun hw => ⟨rfl, by
    have hn : n < 16 := of_decide_eq_true hw
    have h : ∀ k : Fin 16, BitVec.ofNat 16 k.val &&& 0xFFF0#16 = 0 := by decide
    have h' := h ⟨n, hn⟩
    simp only [fieldsOfInstr, Fields.mask, fieldsOfWord, opcodeTable, formatZ]
    simp [show (0xFFFFFFF0#32).extractLsb' 0 16 = 0xFFF0#16 from by decide, h']⟩

theorem bar : Statement .bar := of_row 6 fun _ => ⟨rfl, by decide⟩

theorem ldmA (slot : Fin 4) (ks mi : Fin 2) : Statement (.ldmA slot ks mi) :=
  of_row 7 fun _ => ⟨rfl, by revert slot ks mi; decide⟩

theorem ldmB (slot : Fin 4) (ks : Fin 2) (ni : Fin 8) : Statement (.ldmB slot ks ni) :=
  of_row 8 fun _ => ⟨rfl, by revert slot ks ni; decide⟩

theorem ldsc (ph : Phase) (slot : Fin 4) : Statement (.ldsc ph slot) :=
  of_row 9 fun _ => ⟨rfl, by revert slot; cases ph <;> decide⟩

theorem mma4 (mi : Fin 2) (ni : Fin 8) : Statement (.mma4 mi ni) :=
  of_row 10 fun _ => ⟨rfl, by revert mi ni; decide⟩

theorem mma8 (mi : Fin 2) (ni : Fin 8) : Statement (.mma8 mi ni) :=
  of_row 11 fun _ => ⟨rfl, by revert mi ni; decide⟩

theorem deq : Statement .deq := of_row 12 fun _ => ⟨rfl, by decide⟩

theorem cvts : Statement .cvts := of_row 13 fun _ => ⟨rfl, by decide⟩

theorem stg (it : Nat) : Statement (.stg it) :=
  of_row 14 fun hw => ⟨rfl, by
    have hn : it < 256 := of_decide_eq_true hw
    have h' : BitVec.ofNat 16 it &&& 0xFF00#16 = 0 := by
      apply BitVec.eq_of_getLsbD_eq
      intro k hk
      have hb : 8 ≤ k → it.testBit k = false := fun h8 =>
        Nat.testBit_lt_two_pow (lt_of_lt_of_le (show it < 2 ^ 8 from hn) (Nat.pow_le_pow_right (by decide) h8))
      rcases Nat.lt_or_ge k 8 with h8 | h8
      · interval_cases k <;> simp
      · simp [BitVec.getLsbD_ofNat, hb h8]
    simp only [fieldsOfInstr, Fields.mask, fieldsOfWord, opcodeTable, formatZ]
    simp [show (0xFFFFFF00#32).extractLsb' 0 16 = 0xFF00#16 from by decide, h']⟩

theorem endWarp : Statement .endWarp := of_row 15 fun _ => ⟨rfl, by decide⟩

end Sys2Proof.Laws.RowSelected
end

