-- ==== Sys2Proof/Tests/Slice0.lean ====
section
/-! SUPPORT. Tests with the vectors of the spec (95_test_vectors, 30_encoding R85), and a witness for the hypotheses of each
statement. -/

namespace Sys2Proof.Tests
open Sys2Proof Sys2Proof.Machine Sys2Proof.Claims

/-! ## WellFormed (30_encoding R83): one ill-formed command for each check -/

theorem test_ktTooLarge_refused : (Instr.ldgA .main 0 65536).wf = false := by decide
theorem test_waitTooLarge_refused : (Instr.wait 16).wf = false := by decide
theorem test_itTooLarge_refused : (Instr.stg 256).wf = false := by decide

/-! ## Decoding, by words of 30_encoding R85 and 95_test_vectors 2.1 -/

theorem test_decode_nop : decode 0x00000000 = .ok .nop := by decide
theorem test_decode_ldgA : decode 0x0800FFFF = .ok (.ldgA .main 0 65535) := by decide
theorem test_decode_ldgB : decode 0x0F800001 = .ok (.ldgB .keeper 3 1) := by decide
theorem test_decode_ldgs : decode 0x15800001 = .ok (.ldgs .keeper 3 1) := by decide
theorem test_decode_commit : decode 0x18000000 = .ok .commit := by decide
theorem test_decode_wait : decode 0x2000000F = .ok (.wait 15) := by decide
theorem test_decode_bar : decode 0x28000000 = .ok .bar := by decide
theorem test_decode_ldmA : decode 0x30C80000 = .ok (.ldmA 1 1 1) := by decide
theorem test_decode_ldmB : decode 0x33380000 = .ok (.ldmB 2 0 7) := by decide
theorem test_decode_ldsc : decode 0x3C800000 = .ok (.ldsc .keeper 1) := by decide
theorem test_decode_mma4 : decode 0x403C0000 = .ok (.mma4 1 7) := by decide
theorem test_decode_mma8 : decode 0x48180000 = .ok (.mma8 0 3) := by decide
theorem test_decode_deq : decode 0x50000000 = .ok .deq := by decide
theorem test_decode_cvts : decode 0x58000000 = .ok .cvts := by decide
theorem test_decode_stg : decode 0x600000FF = .ok (.stg 255) := by decide
theorem test_decode_end : decode 0x68000000 = .ok .endWarp := by decide

/-- The illegal words of 95_test_vectors 2.1. -/
theorem test_illegal_words : ∀ w ∈ [0x08010000, 0x08400000, 0x12000000, 0x20000010, 0x30100000, 0x34000000, 0x3A000000,
    0x40400000, 0x4C000000, 0x60000100, 0x68000001, 0x70000000, 0xF8000000, 0xFFFFFFFF],
    decodeTableWord 32 w = none := by decide

/-! ## States -/

/-- The parameter registers of a launch with M = 130, N = 256, K = 384 and the output type `out`. -/
def params (out : BitVec 2) : Params :=
  { Params.unset with
    pA := 0x10000
    pB := 0x20000
    pAS := 0x30000
    pBS := 0x40000
    pAK := 0x50000
    pBK := 0x60000
    pAKS := 0x70000
    pBKS := 0x80000
    pD := 0x90000
    m := 130
    n := 256
    k := 384
    outType := out }

/-- A fragment row with one value in every byte. -/
def bytes32 (v : Byte) : Vector Byte 32 := Vector.replicate 32 v

/-- A warp at pc 7 whose fragments hold `x` and `y` in every byte and whose scales are `p` and `q`. -/
def loadedWarp (x y : Byte) (p q : F16) : Warp :=
  { Warp.reset with
    pc := 7
    fa := Vector.replicate 2 (some (Vector.replicate 16 (bytes32 x)))
    fb := Vector.replicate 8 (some (Vector.replicate 8 (bytes32 y)))
    sa := some (Vector.replicate 2 (Vector.replicate 16 p))
    sb := some (Vector.replicate 8 (Vector.replicate 8 q)) }

/-- A RUNNING machine with the one block `b`. -/
def oneBlock (b : Block) : State :=
  { State.reset with
    params := params 0
    derived := (params 0).derive
    bufLen := #v[0x10000, 0x10000, 0x10000, 0x10000, 0x10000, 0x10000, 0x10000, 0x10000, 0x30000]
    rs := 67584
    ret := true
    inv := .running
    blocks := [b] }

/-- A block whose eight warps are all `x`. -/
def blockOf (x : Warp) : Block := { Block.reset 0 0 with warps := Vector.replicate 8 x }

/-- The state a step answers, if it answers one. -/
def nextOf (o : Host.Outcome State Fault Refusal) : Option State :=
  match o with
  | .next t => some t
  | .fault _ => none
  | .refused _ => none

/-- Warp 0 of the first block of the state a step answers. -/
def warpOf (o : Host.Outcome State Fault Refusal) : Option Warp := do (← (← nextOf o).blocks.head?).warps[0]?

/-- The first fault record of the first block of the state a step answers. -/
def recordOf (o : Host.Outcome State Fault Refusal) : Option FaultRecord := do (← (← nextOf o).blocks.head?).log.head?

/-! ## Copies (95_test_vectors 2.2, 2.3) -/

/-- A machine with the given M, RB and MPAD, to form addresses in. -/
def sized (m : U32) (rb mpad : Nat) : State :=
  { oneBlock (Block.reset 0 0) with
    params := { params 0 with m := m }
    derived := { (params 0).derive with rb := rb, mpad := mpad } }

/-- V-LDG-1. -/
theorem test_ldgA_live : ldgAChunk (sized 130 256 256) (Block.reset 0 0) 0 .main 1 2 0 5 =
    ⟨8272, 16, some (0x10000 + 400)⟩ := by decide

/-- V-LDG-3: a row at or beyond M. -/
theorem test_ldgA_rowTail : ldgAChunk (sized 130 256 256) (Block.reset 1 0) 0 .main 0 0 0 8 = ⟨144, 16, none⟩ := by decide

/-- V-LDG-2. -/
theorem test_ldgB_keeper : ldgBChunk (sized 130 256 256) (Block.reset 0 1) 7 .keeper 3 1 1 31 =
    ⟨65472, 16, some (0x60000 + 32752)⟩ := by decide

/-- V-LDG-4: the K tail, on the B side as on the A side (V-LDG-7). -/
theorem test_ldgB_kTail : ldgBChunk (sized 130 80 256) (Block.reset 0 0) 0 .main 1 1 0 1 =
    ⟨32768 + 8208, 16, none⟩ := by decide

/-- V-LDGS-1. -/
theorem test_ldgs_bSide : (ldgsChunks (sized 130 256 256) (Block.reset 0 0) 2 .main 0 1).getD 3 ⟨0, 0, none⟩ =
    ⟨65804, 4, some (0x40000 + 524)⟩ := by decide

/-- V-LDGS-2, V-LDGS-3: one live row of the two, and none. -/
theorem test_ldgs_rowTail : (ldgsChunks (sized 129 256 256) (Block.reset 1 0) 0 .main 0 0).take 2 =
    [⟨65536, 4, some (0x30000 + 256)⟩, ⟨65540, 4, none⟩] := by decide

/-- V-LDG-6: LDG.A.K 0, 2 raises ILLEGAL_OPERAND. -/
theorem test_ldgA_keeperKt : (recordOf (exec (.ldgA .keeper 0 2) (oneBlock (blockOf Warp.reset)))).map
    (fun r => (r.cause, r.warp, r.pc)) = some (.illegalOperand 2, some 0, some 0) := by decide

/-- V-LDGS-4: LDGS in warp 4 only advances the pc. -/
theorem test_ldgs_idleWarp : ((nextOf (exec (.ldgs .main 0 0)
    { oneBlock (blockOf Warp.reset) with cur := ⟨0, 4⟩ })).bind fun t => t.blocks.head?).map
      (fun b => (b.warps[4].openGrp, b.warps[4].pc, b.scr)) = some ([], 1, []) := by decide

/-! ## Synchronisation (95_test_vectors 2.4) -/

/-- A record of one byte at `off`. -/
def byteAt (off : Nat) (performed : Bool) : CopyRecord := ⟨off, [0xAB], performed⟩

/-- A block whose warp 0 has the committed groups `gs` and the open group `o`. -/
def withGroups (gs : List (List CopyRecord)) (o : List CopyRecord) : Block :=
  blockOf { Warp.reset with groups := gs, openGrp := o }

/-- V-SYNC-2: an empty OPEN makes an empty group. -/
theorem test_commit_empty : (warpOf (exec .commit (oneBlock (withGroups [[byteAt 5 false]] [])))).map
    (fun x => (x.groups, x.openGrp, x.pc)) = some ([[byteAt 5 false], []], [], 1) := by decide

/-- V-SYNC-3: the oldest of three groups is retired. -/
theorem test_wait_retires : ((nextOf (exec (.wait 2)
    (oneBlock (withGroups [[byteAt 3 true], [byteAt 4 false], []] [])))).bind fun t => t.blocks.head?).map
      (fun b => ((b.tag 3).vis, (b.tag 4).vis, b.warps[0].groups, b.warps[0].pc)) =
    some (.done 0, .unwritten, [[byteAt 4 false], []], 1) := by decide

/-- V-SYNC-4: one record of the oldest group is not performed, so the WAIT holds. -/
theorem test_wait_holds : exec (.wait 2) (oneBlock (withGroups [[byteAt 3 true, byteAt 9 false], [], []] [])) =
    .next (oneBlock (withGroups [[byteAt 3 true, byteAt 9 false], [], []] [])) := rfl

/-- R107, arrival: the pc stays. -/
theorem test_bar_arrives : (warpOf (exec .bar (oneBlock (blockOf Warp.reset)))).map (fun x => (x.st, x.pc)) =
    some (.atBar, 0) := by decide

/-- V-SYNC-8: the release at pc 57 with GEN = 3. -/
theorem test_bar_releases : ((nextOf (step { oneBlock { blockOf { Warp.reset with pc := 57, st := .atBar } with
    gen := 3, arrived := Vector.replicate 8 (some 57) } with sched := [.barrier 0] })).bind fun t => t.blocks.head?).map
      (fun b => (b.gen, b.warps[5].pc, b.warps[5].st, b.arrived[5])) = some (4, 58, .run, none) := by decide

/-- R102: a copy lands; the tag's vis does not change. -/
theorem test_copy_lands : ((nextOf (step { oneBlock (withGroups [] [byteAt 9 false]) with
    sched := [.copy 0 2 (.inOpen 0)] })).bind fun t => t.blocks.head?).map
      (fun b => ((b.tag 9).val, (b.tag 9).vis, b.warps[2].openGrp)) =
    some (some 0xAB, .unwritten, [byteAt 9 true]) := by decide

/-! ## Fragments and scales (95_test_vectors 2.5) -/

/-- V-LDM-1. -/
theorem test_ldmA_offset : ldmAOff (oneBlock (blockOf Warp.reset)) 3 0 1 0 0 0 = 2080 := by decide

/-- V-LDM-2: chunk column 1 is byte 16. -/
theorem test_ldmB_offset : ldmBOff (oneBlock (blockOf Warp.reset)) 1 2 0 7 0 16 = 56848 := by decide

/-- V-LDM-3: a swizzled row. -/
theorem test_ldmA_swizzled : (List.range 32).map (ldmAOff (oneBlock (blockOf Warp.reset)) 0 0 0 0 2) =
    List.range' 144 16 ++ List.range' 128 16 := by decide

/-- V-LDM-4: the first byte warp 2 reads was never written. -/
theorem test_ldmA_uninit : (((nextOf (exec (.ldmA 0 0 0) { oneBlock (blockOf Warp.reset) with cur := ⟨0, 2⟩ })).bind
    fun t => t.blocks.head?).bind fun b => b.log.head?).map (fun r => r.cause) = some (.scratchUninit 2048) := by decide

/-- V-LDSC-1. -/
theorem test_ldsc_offset : scaOff (oneBlock (blockOf Warp.reset)) 5 .keeper 3 1 4 = 67240 := by decide

/-- V-LDM-5: a byte warp 1 wrote in this generation faults in warp 0, not in warp 1, and not after a barrier. -/
theorem test_read_needs_barrier :
    let b := (Block.reset 0 0).setTag 5 ⟨some 1, some 1, .done 0, Vector.replicate 8 none⟩
    b.readByteFault 67584 0 5 = some (.hazardRaw 5 (some 1)) ∧ b.readByteFault 67584 1 5 = none ∧
      { b with gen := 1 }.readByteFault 67584 0 5 = none := by decide

/-- V-CVTS-4: a byte warp 1 read in this generation must not be written by warp 0; V-LDG-10: nor a pending byte by any. -/
theorem test_write_hazards :
    (((Block.reset 0 0).setTag 0 ⟨some 1, some 0, .done 0, Vector.replicate 8 none⟩).markReads 1 [0]).writeByteFault
      67584 0 0 = some (.hazardWar 0 1) ∧
    ((Block.reset 0 0).claim 3 [0]).writeByteFault 67584 3 0 = some (.hazardWaw 0 (some 3)) := by decide

/-! ## Arithmetic (95_test_vectors 2.6 to 2.8) -/

/-- V-MMA-3, V-MMA-2: the least and the greatest sum of one MMA4. -/
theorem test_dot4 : dot4 (bytes32 0x88) (bytes32 0x77) = -3584 ∧ dot4 (bytes32 0x88) (bytes32 0x88) = 4096 := by
  decide +kernel

/-- V-MMA-4: the low nibble comes first. -/
theorem test_dot4_order : dot4 (bytes32 0x0F) (bytes32 0x01) = -32 := by decide +kernel

/-- V-MMA-6, V-MMA-5. -/
theorem test_dot8 : dot8 (bytes32 0x7F) (bytes32 0x80) = -520192 ∧ 5 + dot8 (bytes32 0x80) (bytes32 0x80) = 524293 := by
  decide +kernel

/-- V-MMA-7: the accumulator wraps. -/
theorem test_acc_wraps : (accAdd (BitVec.ofInt 32 2147483647) 32).toInt = -2147483617 := by decide

/-- V-MMA-1: one MMA4 of ones. -/
theorem test_mma4 : (warpOf (exec (.mma4 1 3) (oneBlock (blockOf (loadedWarp 0x11 0x11 0 0))))).map
    (fun x => (x.iacc[1][3][15][7], x.iacc[0][3][15][7], x.pc)) = some (64, 0, 8) := by decide +kernel

/-- V-MMA-8: 4-bit data read as 8-bit. -/
theorem test_mma8 : (warpOf (exec (.mma8 0 0) (oneBlock (blockOf (loadedWarp 0x11 0x11 0 0))))).map
    (fun x => (x.iacc[0][0][0][0], x.iacc[0][1][0][0])) = some (9248, 0) := by decide +kernel

/-- V-MMA-9: FA never loaded. -/
theorem test_mma_uninit : (recordOf (exec (.mma4 0 0) (oneBlock (blockOf Warp.reset)))).map (fun r => r.cause) =
    some (.regUninit .fa 0) := by decide

/-- V-DEQ-1 and V-DEQ-2. -/
theorem test_deq_fold : foldElem Config.standard 0 0 0 5 0x4000 0x3800 = 0x40A00000 ∧
    foldElem Config.standard 0 0 0x3F800000 (-3) 0x3800 0xBC00 = 0x40200000 := by decide

/-- V-DEQ-8: fused and separate. -/
theorem test_deq_fused : foldElem Config.standard 0 0 0x3F800000 16777213 0x3C01 0x3C00 = 0x4B801FFF ∧
    foldElem { Config.standard with deqFused := false } 0 0 0x3F800000 16777213 0x3C01 0x3C00 = 0x4B801FFE := by decide

/-- V-DEQ-5, V-DEQ-6, V-DEQ-7: an infinity, 0 × inf, and a zero sum. -/
theorem test_deq_special : foldElem Config.standard 0 0 0 1 0x5C00 0x5C00 = 0x7F800000 ∧
    foldElem Config.standard 0 0 0 0 0x5C00 0x5C00 = 0x7FFFFFFF ∧
    foldElem Config.standard 0 0 0x80000000 0 0x3C00 0x3C00 = 0 := by decide

/-- V-DEQ-3, V-DEQ-4 and the further values of 2.7. -/
theorem test_cvtS32F32 : [16777217, 16777219, 16777218, -16777217, 2147483647].map
    (fun p => cvtS32F32 (BitVec.ofInt 32 p)) = [0x4B800000, 0x4B800002, 0x4B800001, 0xCB800000, 0x4F000000] := by decide

/-- The table of cvt_f32_f16: 5, 0.1, 65504, 65519, 65520, −70000, 2049, 2051, 2^−24, 2^−25, 3·2^−26. -/
theorem test_cvtF32F16 : [0x40A00000, 0x3DCCCCCD, 0x477FE000, 0x477FEF00, 0x477FF000, 0xC788B800, 0x45001000, 0x45003000,
    0x33800000, 0x33000000, 0x33400000].map (cvtF32F16 false 0x7FFF) =
    [0x4500, 0x2E66, 0x7BFF, 0x7BFF, 0x7C00, 0xFC00, 0x6800, 0x6802, 0x0001, 0x0000, 0x0001] := by decide

/-- The E4M3 column of cvt_f32_f8: 1, 288, 464, 470, 480, −600, 2^−9, 2^−10, 3·2^−11. -/
theorem test_cvtF32E4m3 : [0x3F800000, 0x43900000, 0x43E80000, 0x43EB0000, 0x43F00000, 0xC4160000, 0x3B000000, 0x3A800000,
    0x3AC00000].map (cvtF32F8 .e4m3Sat false 0x7F) =
    [0x38, 0x79, 0x7E, 0x7E, 0x7E, 0xFE, 0x01, 0x00, 0x01] := by decide

/-- The E5M2 column of cvt_f32_f8: 1, 288, 480, −600, 57344, 61440, 2^−16. -/
theorem test_cvtF32E5m2 : [0x3F800000, 0x43900000, 0x43F00000, 0xC4160000, 0x47600000, 0x47700000, 0x37800000].map
    (cvtF32F8 .e5m2Sat false 0x7F) = [0x3C, 0x5C, 0x60, 0xE1, 0x7B, 0x7B, 0x01] := by decide

/-! ## Epilogue, NOP and END (95_test_vectors 2.8, 2.9) -/

/-- V-CVTS-1: where and what. -/
theorem test_cvts_f16 :
    let s := { oneBlock (blockOf Warp.reset) with params := params 1, derived := (params 1).derive }
    stageOff s 1 0 0 0 0 = 128 ∧ cvtOut s 0 0x40A00000 = [0x00, 0x45] := by decide

/-- V-CVTS-2: −0.0 is passed through. -/
theorem test_cvts_f32 : cvtOut (oneBlock (blockOf Warp.reset)) 0 0x80000000 = [0x00, 0x00, 0x00, 0x80] := by decide

/-- V-STG-1. -/
theorem test_stg_piece : stgPiece { oneBlock (blockOf Warp.reset) with params := { params 0 with m := 200 } }
    (Block.reset 1 0) 2 3 1 = some ⟨13328, 0x90000 + 157712⟩ := by decide

/-- V-STG-4: STG 16 of F32. -/
theorem test_stg_range : (recordOf (exec (.stg 16) (oneBlock (blockOf Warp.reset)))).map (fun r => r.cause) =
    some (.illegalOperand 16) := by decide

/-- V-END-1. -/
theorem test_end : (warpOf (exec .endWarp (oneBlock (blockOf { Warp.reset with pc := 201 })))).map
    (fun x => (x.st, x.pc)) = some (.done, 201) := by decide

/-- V-NOP-1. -/
theorem test_nop : exec .nop (oneBlock (blockOf { Warp.reset with pc := 7 })) =
    .next (oneBlock ((blockOf { Warp.reset with pc := 7 }).updWarp 0 fun x => { x with pc := 8 })) := rfl

/-- V-PC-1: the pc at the end of the stream. -/
theorem test_pc_overrun : (recordOf (step { oneBlock (blockOf { Warp.reset with pc := 1 }) with
    cs := [0], sched := [.warp 0 0] })).map (fun r => (r.cause, r.pc, r.word)) =
    some (.pcOverrun, some 1, none) := by decide

/-! ## Launch and stream (95_test_vectors 2.10, 2.11) -/

/-- A launch record that passes every check. -/
def goodLaunch : LaunchRecord where
  pA := 0x10000
  pB := 0x20000
  pAS := 0x30000
  pBS := 0x40000
  pAK := 0x50000
  pBK := 0x60000
  pAKS := 0x70000
  pBKS := 0x80000
  pD := 0x90000
  m := 130
  n := 256
  k := 384
  outType := 0
  bufLen := #v[0x10000, 0x10000, 0x10000, 0x10000, 0x10000, 0x10000, 0x10000, 0x10000, 0x30000]
  rs := 67584
  cs := some ⟨[0x68000000], by decide⟩
  bytes := [(0x10000, 0x11)]

/-- V-L-1, V-L-2, V-L-3, V-L-4, V-L-7: bad dimensions; V-L-12: reported alone. -/
theorem test_launch_dims : launchCheck Config.standard { goodLaunch with m := 0, pB := 64 } = some (.badDims 0 256 384) ∧
    launchCheck Config.standard { goodLaunch with n := 200 } = some (.badDims 130 200 384) ∧
    launchCheck Config.standard { goodLaunch with k := 127 } = some (.badDims 130 256 127) ∧
    launchCheck Config.standard { goodLaunch with k := 144 } = some (.badDims 130 256 144) ∧
    launchCheck Config.standard { goodLaunch with k := 128 + 128 * 65537 } = some (.badDims 130 256 8388864) := by decide

/-- V-L-5, V-L-6, and V-L-8 to V-L-11. -/
theorem test_launch_checks : launchCheck Config.standard { goodLaunch with k := 160 } = none ∧
    launchCheck Config.standard { goodLaunch with k := 128 } = none ∧
    launchCheck Config.standard { goodLaunch with pB := 0x20040 } = some (.misalignedPtr 1 0x20040) ∧
    launchCheck Config.standard { goodLaunch with bufLen := goodLaunch.bufLen.set 1 (0x70000 + 1) } =
      some (.overlapsD 1 8) ∧
    launchCheck Config.standard { goodLaunch with rs := 65536 } = some (.scratchSize 65536 67584 101376) ∧
    launchCheck { Config.standard with scratchCapacity := 65536 } goodLaunch =
      some (.scratchSize 67584 67584 65536) := by decide

/-- V-L-14: four blocks; V-L-13: an unsupported type starts none. -/
theorem test_launch_grid : (State.reset.launch goodLaunch).blocks.map (fun b => (b.bm, b.bn)) =
      [(0, 0), (0, 1), (1, 0), (1, 1)] ∧
    (State.reset.launch goodLaunch).derived.mpad = 256 ∧
    (({ State.reset with cfg := { Config.standard with supported := [.f32, .f16] } } : State).launch
      { goodLaunch with outType := 2 }).inv = .rejected := by decide

/-- A refused launch computes no derived register (70_reset_and_hazards R179; log 16). -/
theorem test_launch_refused : (State.reset.launch { goodLaunch with n := 200 }).derived = Derived.unset ∧
    (State.reset.launch { goodLaunch with m := 2 ^ 32 + 5 }).params.m = 5 := by decide

/-- SCR_BYTES is 67584 for every output type (00_scope R9). -/
theorem test_scrBytes : ∀ t : BitVec 2, scrBytesOf (szOf t) = 67584 := by decide

/-- The lengths of 2.11. -/
theorem test_stream_lengths : [(0, 4), (0, 2), (0, 1), (1, 4), (2, 4)].map (fun p => (canonical p.1 p.2).length) =
    [142, 134, 130, 202, 262] := by decide +kernel

/-- P4's first words. -/
theorem test_stream_words : (canonicalWords 0 2).take 14 = [0x0C000000, 0x0E000000, 0x14000000, 0x18000000, 0x0C800001,
    0x0E800001, 0x14800001, 0x18000000, 0x18000000, 0x20000002, 0x28000000, 0x18000000, 0x30000000, 0x30080000] := by
  decide +kernel

/-! ## A machine in which every command completes -/

/-- A byte of value 0 that warp 0 wrote in generation 0. -/
def doneTag : Tag := ⟨some 0, some 0, .done 0, Vector.replicate 8 none⟩

/-- `n` such bytes at `a` and up. -/
def filled : Nat → Nat → List (Nat × Tag)
  | _, 0 => []
  | a, n + 1 => (a, doneTag) :: filled (a + 1) n

theorem filled_mem {a n : Nat} {c : Nat × Tag} (h : c ∈ filled a n) : a ≤ c.1 ∧ c.1 < a + n := by
  induction n generalizing a with
  | zero => cases h
  | succ n ih =>
    rcases List.mem_cons.1 h with rfl | h
    · simp
    · have := ih h
      omega

theorem filled_wf {a n lim : Nat} (h : a + n ≤ lim) : cellsWf Tag.empty lim (filled a n) = true := by
  induction n generalizing a with
  | zero => rfl
  | succ n ih =>
    exact cellsWf_cons.2 ⟨fun c hc => (filled_mem hc).1, by decide, by omega, ih (by omega)⟩

theorem filled_get {a n off : Nat} :
    cellGet Tag.empty (filled a n) off = if a ≤ off ∧ off < a + n then doneTag else Tag.empty := by
  induction n generalizing a with
  | zero => simp [filled, cellGet]
  | succ n ih =>
    rw [filled, cellGet, ih]
    split_ifs <;> first | rfl | omega

/-- A block in generation 1 whose scratchpad was written in generation 0 and whose warps hold values everywhere. -/
def readyBlock : Block :=
  { blockOf (loadedWarp 0x11 0x11 0x3C00 0x3C00) with gen := 1, scr := filled 0 67584 }

/-- The machine with that block. -/
def ready : State := oneBlock readyBlock

theorem ready_block : ready.block? = some readyBlock := rfl

theorem ready_tag (off : Nat) : readyBlock.tag off = if off < 67584 then doneTag else Tag.empty := by
  show cellGet Tag.empty (filled 0 67584) off = _
  rw [filled_get]
  simp

theorem ready_readable {off : Nat} (h : off < 67584) (w : WarpId) : Readable 67584 readyBlock w off := by
  refine ⟨h, ?_, 0, ?_, .inr Nat.zero_lt_one⟩ <;> rw [ready_tag, if_pos h] <;> rfl

theorem doneTag_unread : ∀ w2 : WarpId, doneTag.rd[w2] ≠ some 1 := by decide

theorem ready_writable {off : Nat} (h : off < 67584) (w : WarpId) : Writable 67584 readyBlock w off := by
  refine ⟨h, fun w2 _ => ?_, ?_, fun g hg => .inr ?_⟩ <;> rw [ready_tag, if_pos h] at *
  · exact doneTag_unread w2
  · decide
  · cases hg
    exact Nat.zero_lt_one

theorem ready_records (w : WarpId) : readyBlock.warps[w].records = [] := by
  revert w
  decide

theorem ready_allRecords : readyBlock.records = [] := by decide

theorem ready_canonical : Canonical ready where
  mem := rfl
  size := by decide
  scr := by
    intro b hb
    rw [List.mem_singleton.1 hb]
    exact filled_wf (Nat.le_refl _)
  recs := by
    intro b hb w r hr
    rw [List.mem_singleton.1 hb, ready_records] at hr
    cases hr

theorem ready_tagsOk : TagsOk ready where
  tags := by
    intro b hb off
    rw [List.mem_singleton.1 hb, ready_tag]
    split
    · exact ⟨by rintro g ⟨⟩; decide, by rintro ⟨⟩, by rintro ⟨⟩, by decide +revert⟩
    · exact ⟨by rintro g ⟨⟩, by rintro ⟨⟩, fun _ => ⟨rfl, rfl⟩, by decide +revert⟩
  pending := by
    intro b hb w r hr
    rw [List.mem_singleton.1 hb, ready_records] at hr
    cases hr
  landed := by
    intro b hb r hr
    rw [List.mem_singleton.1 hb, ready_allRecords] at hr
    cases hr
  covered := by
    intro b hb off h
    rw [List.mem_singleton.1 hb, ready_tag] at h
    split at h <;> cases h
  disjoint := by
    intro b hb
    rw [List.mem_singleton.1 hb, ready_allRecords]
    exact List.Pairwise.nil

theorem ready_ends : ∀ i : Fin 8,
    ready.params.ptrs[i.castSucc].toNat + ready.bufLen[i.castSucc] ≤ ready.params.pD.toNat := by decide

theorem ready_launchOk : LaunchOk ready where
  derived := fun _ => by unfold DerivedOk; decide
  supported := fun _ => ⟨rfl, .f32, by decide, by decide⟩
  dims := fun _ => by decide
  aligned := fun _ => by decide
  apart := fun _ i a h1 h2 => by
    have h3 : ready.params.pD.toNat ≤ a := h2.1
    have h4 : a < ready.params.ptrs[i.castSucc].toNat + ready.bufLen[i.castSucc] := h1.2
    have := ready_ends i
    omega
  scratch := fun _ => by decide
  grid := by
    intro b hb
    rw [List.mem_singleton.1 hb]
    decide

/-- Copies that are aligned, admitted and inside the scratchpad pass their checks in the machine `ready`. -/
theorem ready_copies {cs : List Chunk} (h : cs.all (fun c => decide (c.dst + c.n ≤ 67584) &&
    (c.src.all fun a => (ready.memReadFault a c.n).isNone)) = true) : ∀ c ∈ cs, CopyOk ready readyBlock 0 c := by
  intro c hc
  have h1 := List.all_eq_true.1 h c hc
  rw [Bool.and_eq_true, decide_eq_true_eq] at h1
  refine ⟨fun a ha => ?_, fun off ho => ?_⟩
  · have h2 := h1.2
    rw [ha] at h2
    exact memReadFault_eq_none.1 (Option.isNone_iff_eq_none.1 h2)
  · have h3 := List.mem_range'_1.1 ho
    exact ready_writable (by omega) 0

/-! ## Witnesses for the hypotheses of the statements -/

theorem test_hyp_DecodeOfEncodeIsTheCommand :
    (Instr.ldgB .keeper 3 65535).wf = true ∧ (Instr.wait 15).wf = true ∧ (Instr.stg 255).wf = true := by decide

theorem test_hyp_AtMostOneRowMatches : rowMatches 0x0A800005 opcodeTable[2] = true := by decide

/-- A machine that steps warp 0 next, at pc 0 of the stream `cs`. -/
def atStream (cs : List Cmd) (b : Block) : State := { oneBlock b with cs := cs, sched := [.warp 0 0] }

/-- The four clauses: the end of the stream, an illegal word, a command, and a WAIT that holds. -/
theorem test_hyp_WarpStepRunsTheDecodedCommand :
    let s := atStream [0x00000000] (blockOf Warp.reset)
    let u := atStream [0x20000000] (withGroups [[byteAt 3 false]] [])
    (s.nextAgent = .warp 0 0 ∧ s.blocks[0]? = some (blockOf Warp.reset) ∧ s.inv = .running ∧
      (blockOf Warp.reset).warps[0].st = .run ∧ s.cs[0]? = some 0x00000000 ∧ decode 0x00000000 = .ok .nop) ∧
    (atStream [] (blockOf Warp.reset)).cs.length ≤ (blockOf Warp.reset).warps[0].pc.toNat ∧
    (decode 0x70000000 = .error (.reservedOpc 14)) ∧
    HoldsAtWait u (withGroups [[byteAt 3 false]] []) 0 := by
  refine ⟨by decide, by decide, by decide, 0x20000000, 0, rfl, by decide, [byteAt 3 false], by decide, byteAt 3 false,
    by decide, rfl⟩

/-- Keeper k-tiles 1 and 2, the last in range and the first out of it, and a main one. -/
theorem test_hyp_LdgAIssuesItsCopies : ready.block? = some readyBlock ∧ Canonical ready ∧
    (∀ c ∈ ldgLoops (ldgACopy ready readyBlock ready.cur.w .keeper 3 1), CopyOk ready readyBlock ready.cur.w c) ∧
    ∀ c ∈ ldgLoops (ldgACopy ready readyBlock ready.cur.w .main 0 1), CopyOk ready readyBlock ready.cur.w c :=
  ⟨rfl, ready_canonical, ready_copies (by decide +kernel), ready_copies (by decide +kernel)⟩

theorem test_hyp_LdgBIssuesItsCopies : ready.block? = some readyBlock ∧ Canonical ready ∧
    (∀ c ∈ ldgLoops (ldgBCopy ready readyBlock ready.cur.w .keeper 3 1), CopyOk ready readyBlock ready.cur.w c) ∧
    ∀ c ∈ ldgLoops (ldgBCopy ready readyBlock ready.cur.w .main 0 1), CopyOk ready readyBlock ready.cur.w c :=
  ⟨rfl, ready_canonical, ready_copies (by decide +kernel), ready_copies (by decide +kernel)⟩

theorem test_hyp_LdgsIssuesItsCopies : ready.block? = some readyBlock ∧ Canonical ready ∧
    (∀ c ∈ (List.range 32).filterMap (ldgsCopy ready readyBlock ready.cur.w .keeper 3 1),
      CopyOk ready readyBlock ready.cur.w c) ∧
    ∀ c ∈ (List.range 32).filterMap (ldgsCopy ready readyBlock ready.cur.w .main 0 1),
      CopyOk ready readyBlock ready.cur.w c :=
  ⟨rfl, ready_canonical, ready_copies (by decide +kernel), ready_copies (by decide +kernel)⟩

/-- A machine whose buffers have length 0: the first live chunk is refused. -/
def noBuffers : State := { ready with bufLen := Vector.replicate 9 0 }

theorem test_hyp_LdgAIssuesItsCopies_firstFault :
    let cs := ldgLoops (ldgACopy noBuffers readyBlock noBuffers.cur.w .main 0 0)
    noBuffers.block? = some readyBlock ∧ cs = [] ++ cs.headD ⟨0, 0, none⟩ :: cs.tail ∧
      ¬CopyOk noBuffers readyBlock noBuffers.cur.w (cs.headD ⟨0, 0, none⟩) := by
  refine ⟨rfl, by decide +kernel, fun h => ?_⟩
  have h1 := h.1 0x10000 (by decide +kernel)
  have h2 : (noBuffers.memReadFault 0x10000 16).isNone = false := by decide +kernel
  have h3 : noBuffers.memReadFault 0x10000 16 = none := memReadFault_eq_none.2 h1
  rw [h3] at h2
  cases h2

/-- A machine with two pending bytes, each claimed by a copy of another warp. -/
def pendingBlock : Block :=
  { Block.reset 0 0 with
    scr := [(3, ⟨none, some 0, .pending, Vector.replicate 8 none⟩), (9, ⟨none, some 2, .pending, Vector.replicate 8 none⟩)]
    warps := (Vector.replicate 8 Warp.reset).set 0 { Warp.reset with openGrp := [byteAt 3 false] } |>.set 2
      { Warp.reset with groups := [[byteAt 9 false]] } }

/-- That machine, about to step its copy agent. -/
def pendingState : State := { oneBlock pendingBlock with sched := [.copy 0 0 (.inOpen 0)] }

theorem pending_tag (off : Nat) : pendingBlock.tag off =
    if off = 3 then ⟨none, some 0, .pending, Vector.replicate 8 none⟩
    else if off = 9 then ⟨none, some 2, .pending, Vector.replicate 8 none⟩ else Tag.empty := by
  show cellGet Tag.empty pendingBlock.scr off = _
  simp only [pendingBlock, cellGet]
  split_ifs <;> first | rfl | omega

theorem pending_records : pendingBlock.records = [byteAt 3 false, byteAt 9 false] := by decide

theorem pending_canonical : Canonical pendingState where
  mem := rfl
  size := by decide
  scr := by
    intro b hb
    rw [List.mem_singleton.1 hb]
    decide
  recs := by
    intro b hb
    rw [List.mem_singleton.1 hb]
    decide

theorem pending_tagsOk : TagsOk pendingState where
  tags := by
    intro b hb off
    rw [List.mem_singleton.1 hb, pending_tag]
    split_ifs
    · exact ⟨by rintro g ⟨⟩, fun _ => rfl, by rintro ⟨⟩, by decide +revert⟩
    · exact ⟨by rintro g ⟨⟩, fun _ => rfl, by rintro ⟨⟩, by decide +revert⟩
    · exact ⟨by rintro g ⟨⟩, by rintro ⟨⟩, fun _ => ⟨rfl, rfl⟩, by decide +revert⟩
  pending := by
    intro b hb
    rw [List.mem_singleton.1 hb]
    decide
  landed := by
    intro b hb
    rw [List.mem_singleton.1 hb, pending_records]
    decide
  covered := by
    intro b hb off h
    rw [List.mem_singleton.1 hb] at h ⊢
    rw [pending_tag] at h
    rw [pending_records]
    split_ifs at h with h1 h2
    · exact ⟨byteAt 3 false, by decide, by rw [h1]; decide⟩
    · exact ⟨byteAt 9 false, by decide, by rw [h2]; decide⟩
    · cases h
  disjoint := by
    intro b hb
    rw [List.mem_singleton.1 hb, pending_records]
    decide

/-- Both clauses: a group with an unperformed record, and all groups performed. -/
theorem test_hyp_WaitHoldsOrRetires : pendingState.block? = some pendingBlock ∧ Canonical pendingState ∧
    (∃ g ∈ pendingBlock.warps[2].groups.take (pendingBlock.warps[2].groups.length - 0), ∃ r ∈ g, r.performed = false) ∧
    ∀ g ∈ readyBlock.warps[0].groups.take (readyBlock.warps[0].groups.length - 0), ∀ r ∈ g, r.performed = true :=
  ⟨rfl, pending_canonical, by decide, by decide⟩

/-- A block whose warps wait at a barrier, warp 0 at pc `p` and the others at pc 7. -/
def waiting (p : U32) : Block :=
  let x : Warp := { Warp.reset with pc := 7, st := .atBar }
  { blockOf x with
    warps := (Vector.replicate 8 x).set 0 { x with pc := p }
    arrived := (Vector.replicate 8 (some (7 : U32))).set 0 (some p) }

/-- Equal pcs, and (V-SYNC-10) different ones. -/
theorem test_hyp_BarrierArrivesAndReleases : (∀ w : WarpId, (waiting 7).warps[w].st = .atBar) ∧
    (∀ v w : WarpId, (waiting 7).arrived[v] = (waiting 7).arrived[w]) ∧
    (∀ w : WarpId, (waiting 8).warps[w].st = .atBar) ∧
    ¬∀ v w : WarpId, (waiting 8).arrived[v] = (waiting 8).arrived[w] := by decide

theorem test_hyp_CopyLandsItsBytes : pendingState.nextAgent = .copy 0 0 (.inOpen 0) ∧
    pendingState.blocks[0]? = some pendingBlock ∧ pendingState.inv = .running ∧ Canonical pendingState ∧
    pendingBlock.warps[0].recordAt (.inOpen 0) = some (byteAt 3 false) ∧ (byteAt 3 false).performed = false :=
  ⟨rfl, rfl, rfl, pending_canonical, by decide, rfl⟩

/-- Scratch bytes at offsets that exist are readable and writable in the machine `ready`. -/
theorem ready_bytes {offs : List Nat} (h : offs.all (fun off => decide (off < 67584)) = true) :
    (∀ off ∈ offs, Readable ready.derived.scrBytes readyBlock ready.cur.w off) ∧
      ∀ off ∈ offs, Writable ready.derived.scrBytes readyBlock ready.cur.w off := by
  have h' : ∀ off ∈ offs, off < 67584 := fun off ho => of_decide_eq_true (List.all_eq_true.1 h off ho)
  exact ⟨fun off ho => ready_readable (h' off ho) _, fun off ho => ready_writable (h' off ho) _⟩

theorem test_hyp_LdmALoadsTheFragment : ready.block? = some readyBlock ∧ Canonical ready ∧
    ∀ off ∈ ldmALoop ready ready.cur.w 3 1 1, Readable ready.derived.scrBytes readyBlock ready.cur.w off :=
  ⟨rfl, ready_canonical, (ready_bytes (by decide +kernel)).1⟩

theorem test_hyp_LdmBLoadsTheFragment : ready.block? = some readyBlock ∧ Canonical ready ∧
    ∀ off ∈ ldmBLoop ready ready.cur.w 3 1 7, Readable ready.derived.scrBytes readyBlock ready.cur.w off :=
  ⟨rfl, ready_canonical, (ready_bytes (by decide +kernel)).1⟩

/-- PERM_A is the identity here, so `pos` is too, in both phases. -/
theorem test_hyp_LdscLoadsTheScales : ready.block? = some readyBlock ∧ Canonical ready ∧ PositionOf ready .main id ∧
    PositionOf ready .keeper id ∧
    ∀ off ∈ ldscLoop ready.cur.w 3 id, Readable ready.derived.scrBytes readyBlock ready.cur.w off :=
  ⟨rfl, ready_canonical, by unfold PositionOf; decide +kernel, fun _ _ => rfl, (ready_bytes (by decide +kernel)).1⟩

/-- The first byte LDM.A reads was never written. -/
theorem test_hyp_LdmALoadsTheFragment_firstFault :
    let s := oneBlock (blockOf Warp.reset)
    let offs := (List.range 16).flatMap fun r2 => (List.range 32).map (ldmAByte s s.cur.w 0 0 0 r2)
    s.block? = some (blockOf Warp.reset) ∧ offs = [] ++ offs.headD 1 :: offs.tail ∧
      ReadFails s.derived.scrBytes (blockOf Warp.reset) s.cur.w (offs.headD 1) (.scratchUninit (offs.headD 1)) :=
  ⟨rfl, by decide +kernel, .inr (.inl ⟨by decide +kernel, by decide +kernel, rfl⟩)⟩

/-- A warp whose A fragments are loaded and whose B fragments are not. -/
def halfLoaded : Warp := { loadedWarp 1 1 0 0 with fb := Vector.replicate 8 none }

/-- FA empty; FA loaded and FB empty; both loaded. -/
theorem test_hyp_MmaAccumulates : (blockOf Warp.reset).warps[0].fa[0] = none ∧
    (∃ f, (blockOf halfLoaded).warps[0].fa[1] = some f) ∧ (blockOf halfLoaded).warps[0].fb[7] = none ∧
    (∃ f, readyBlock.warps[0].fa[1] = some f) ∧ ∃ f, readyBlock.warps[0].fb[7] = some f :=
  ⟨by decide, ⟨_, rfl⟩, by decide, ⟨_, rfl⟩, ⟨_, rfl⟩⟩

theorem test_hyp_DeqFoldsEveryElement : (blockOf Warp.reset).warps[0].sa = none ∧
    (∃ sa, readyBlock.warps[0].sa = some sa) ∧ ∃ sb, readyBlock.warps[0].sb = some sb :=
  ⟨by decide, ⟨_, rfl⟩, ⟨_, rfl⟩⟩

theorem test_hyp_CvtsStagesTheAccumulator : ready.block? = some readyBlock ∧ Canonical ready ∧ LaunchOk ready ∧
    ∀ off ∈ stagedLoop ready ready.cur.w, Writable ready.derived.scrBytes readyBlock ready.cur.w off :=
  ⟨rfl, ready_canonical, ready_launchOk, (ready_bytes (by decide +kernel)).2⟩

/-- A byte of the staging area that a copy has pending cannot be staged. -/
theorem test_hyp_CvtsStagesTheAccumulator_firstFault :
    ¬Writable pendingState.derived.scrBytes pendingBlock pendingState.cur.w 3 ∧
    Writable pendingState.derived.scrBytes pendingBlock pendingState.cur.w 0 :=
  ⟨fun h => h.2.2.1 (by decide), writeByteFault_eq_none.1 (by decide)⟩

/-- The last iteration in range, and the first out of it. -/
theorem test_hyp_StgStoresTheLiveRows : ready.block? = some readyBlock ∧ Canonical ready ∧ LaunchOk ready ∧
    ready.derived.iters ≤ 16 ∧ 15 < ready.derived.iters ∧
    ∀ p ∈ stgLoop ready readyBlock ready.cur.w 15, PieceOk ready readyBlock ready.cur.w p := by
  refine ⟨rfl, ready_canonical, ready_launchOk, by decide, by decide, fun p hp => ?_⟩
  have h := List.all_eq_true.1 (by decide +kernel : (stgLoop ready readyBlock ready.cur.w 15).all (fun p =>
    decide (p.off + 16 ≤ 67584) && (ready.memWriteFault p.dst 16).isNone) = true) p hp
  rw [Bool.and_eq_true, decide_eq_true_eq, Option.isNone_iff_eq_none] at h
  refine ⟨fun off ho => ready_readable ?_ _, memWriteFault_eq_none.1 h.2⟩
  have := List.mem_range'_1.1 ho
  omega

/-- Staged bytes that were never written cannot be stored. -/
theorem test_hyp_StgStoresTheLiveRows_firstFault :
    let s := oneBlock (blockOf Warp.reset)
    stgLoop s (blockOf Warp.reset) s.cur.w 0 = [] ++ ⟨0, 0x90000⟩ :: (stgLoop s (blockOf Warp.reset) s.cur.w 0).tail ∧
      PieceFails s (blockOf Warp.reset) s.cur.w ⟨0, 0x90000⟩ (.scratchUninit 0) :=
  ⟨by decide +kernel,
    .inl ⟨0, by decide, fun j hj => absurd hj (Nat.not_lt_zero j), .inr (.inl ⟨by decide, by decide, rfl⟩)⟩⟩

/-- A command that answers a next state in the machine `ready`. -/
theorem ready_nop : exec .nop ready = .next (ready.setBlock (readyBlock.updWarp 0 Warp.advance)) := rfl

theorem test_hyp_CommandsKeepWhatTheyDoNotWrite : ready.block? = some readyBlock ∧
    (∃ t, exec (.stg 15) ready = .next t) ∧ ∃ t, exec .cvts ready = .next t :=
  ⟨rfl, ⟨_, rfl⟩, ⟨_, rfl⟩⟩

theorem test_hyp_PartialRegisterWritesKeepTheRest :
    let t := ready.setBlock (readyBlock.updWarp 0 Warp.advance)
    ready.block? = some readyBlock ∧ ∃ b', t.block? = some b' := ⟨rfl, _, rfl⟩

theorem test_hyp_StgKeepsOtherDeviceBytes : ready.block? = some readyBlock ∧ Canonical ready ∧
    ∃ t, exec (.stg 0) ready = .next t := ⟨rfl, ready_canonical, _, rfl⟩

theorem test_hyp_BlocksLearnNothingOfEachOther :
    let s' := { ready with blocks := [readyBlock, readyBlock], mem := [(0x90000, 1)] }
    s'.block? = some readyBlock ∧ s'.cur = ready.cur ∧ s'.draws = ready.draws ∧ InvocationKept ready s' ∧
      s'.mem.read 0x10000 = ready.mem.read 0x10000 := ⟨rfl, rfl, rfl, ⟨rfl, rfl, rfl, rfl, rfl, rfl, rfl, rfl, rfl⟩, rfl⟩

/-- A RUNNING machine whose barrier releases next, and the state after it. -/
def releasing : State := { oneBlock (waiting 7) with sched := [.barrier 0] }

theorem releasing_step : step releasing = .next { releasing.choiceTaken with blocks := [(waiting 7).released] } := rfl

theorem test_hyp_OnlyABarrierChangesGen : releasing.inv = .running ∧ releasing.blocks[0]? = some (waiting 7) ∧
    (waiting 7).released.gen ≠ (waiting 7).gen := by decide

theorem releasing_tagsOk : TagsOk releasing := by
  have ht : ∀ off, (waiting 7).tag off = Tag.empty := fun _ => rfl
  have hr : (waiting 7).records = [] := by decide
  refine ⟨?_, ?_, ?_, ?_, ?_⟩ <;> intro b hb <;> rw [List.mem_singleton.1 hb]
  · intro off
    rw [ht]
    exact ⟨by rintro g ⟨⟩, by rintro ⟨⟩, fun _ => ⟨rfl, rfl⟩, by decide⟩
  · decide
  · rw [hr]
    simp
  · intro off h
    rw [ht] at h
    cases h
  · rw [hr]
    exact List.Pairwise.nil

theorem test_hyp_ReleaseOrdersEarlierAccesses : TagsOk releasing ∧ (∃ t, step releasing = .next t) ∧
    releasing.inv = .running := ⟨releasing_tagsOk, ⟨_, releasing_step⟩, rfl⟩

/-- The last byte before D, and the last of an input. -/
theorem test_hyp_OnlyDIsWrittenDuringARun : Canonical ready ∧ LaunchOk ready ∧ ready.inv = .running ∧
    (∃ t, step { ready with sched := [.warp 0 0] } = .next t) ∧ ¬ready.inAllocation 8 0x8FFFF ∧
    ready.inAllocation (7 : Fin 8).castSucc 0x8FFFF :=
  ⟨ready_canonical, ready_launchOk, rfl, ⟨_, rfl⟩, by unfold State.inAllocation; decide,
    by unfold State.inAllocation; decide⟩

/-- A FAILED invocation, and a RUNNING one with a step. -/
theorem test_hyp_FaultsAreStickyAndFinal :
    let s : State := { ready with inv := .failed }
    s.inv = .failed ∧ s.launches = [] ∧ (∃ t, step releasing = .next t) := ⟨rfl, rfl, _, releasing_step⟩

/-- The last END completes the invocation. -/
theorem test_hyp_CompleteMeansEveryBlockEnded :
    let b := { blockOf { Warp.reset with st := .done } with warps :=
      (Vector.replicate 8 { Warp.reset with st := .done }).set 0 Warp.reset }
    (nextOf (step (atStream [0x68000000] b))).map (fun t => t.inv) = some .complete := by decide

theorem test_hyp_StepKeepsCanonicalForm : Canonical pendingState ∧ TagsOk pendingState ∧
    ∃ t, step pendingState = .next t := ⟨pending_canonical, pending_tagsOk, _, rfl⟩

theorem test_hyp_StepKeepsOneFaultRecord : OneFault ready ∧ ∃ t, step { ready with sched := [.warp 0 0] } = .next t :=
  ⟨by unfold OneFault; decide, _, rfl⟩

/-- A machine in its second generation: its warps have passed the BAR of the stream [BAR, NOP, END]. -/
def inStep : State :=
  { oneBlock { blockOf { Warp.reset with pc := 1 } with gen := 1 } with
    cs := [0x28000000, 0x00000000, 0x68000000], sched := [.warp 0 3] }

theorem inStep_ok : InStep inStep where
  stream := by unfold streamFits; decide
  bars := by decide
  ends := by decide
  atBar := by decide
  atEnd := by decide
  faulted := by decide
  logs := by decide
  arrived := by unfold BarrierOk; decide
  notEnded := by decide

theorem test_hyp_StepKeepsWarpsInStep : InStep inStep ∧ ∃ t, step inStep = .next t := ⟨inStep_ok, _, rfl⟩

theorem test_hyp_StepKeepsLaunchChecks : LaunchOk ready ∧ ∃ t, step { ready with sched := [.warp 0 0] } = .next t :=
  ⟨ready_launchOk, _, rfl⟩

theorem test_hyp_CopiesLandInAnyOrder : Canonical pendingState ∧ TagsOk pendingState ∧ pendingState.inv = .running ∧
    pendingState.blocks[0]? = some pendingBlock ∧
    pendingBlock.warps[0].recordAt (.inOpen 0) = some (byteAt 3 false) ∧
    pendingBlock.warps[2].recordAt (.inGroup 0 0) = some (byteAt 9 false) ∧
    ((0, (0 : WarpId), CopyPlace.inOpen 0) : Nat × WarpId × CopyPlace) ≠ (0, 2, .inGroup 0 0) :=
  ⟨pending_canonical, pending_tagsOk, rfl, rfl, by decide, by decide, by decide⟩

theorem goodLaunch_ends : ∀ i : Fin 8,
    goodLaunch.ptrs[i.castSucc].toNat + goodLaunch.bufLen[i.castSucc] ≤ goodLaunch.pD.toNat := by decide

/-- Each clause of the launch checks: RET, dimensions, pointers (the second), aliasing, scratch, and all of them. -/
theorem test_hyp_LaunchChecksInOrder : OutTypeSupported Config.standard 2 ∧ ¬OutTypeSupported Config.standard 3 ∧
    DimsPass goodLaunch ∧ ¬DimsPass { goodLaunch with m := 0 } ∧ (∀ i, PointerPasses goodLaunch i) ∧
    ¬PointerPasses { goodLaunch with pB := 0x20040 } 1 ∧ (∀ j < 1, PointerPasses { goodLaunch with pB := 0x20040 } j) ∧
    SharesByteWithD { goodLaunch with bufLen := goodLaunch.bufLen.set 1 (0x70000 + 1) } 1 ∧
    (∀ i, ¬SharesByteWithD goodLaunch i) ∧ ScratchPasses Config.standard goodLaunch ∧
    ¬ScratchPasses Config.standard { goodLaunch with rs := 67583 } := by
  refine ⟨?_, ?_, ?_, ?_, ?_, ?_, ?_, ⟨0x90000, by decide⟩, ?_, ?_, ?_⟩
  · unfold OutTypeSupported; decide
  · unfold OutTypeSupported; decide
  · unfold DimsPass; decide
  · unfold DimsPass; decide
  · unfold PointerPasses; decide
  · unfold PointerPasses; decide
  · unfold PointerPasses; decide
  · rintro i ⟨a, ⟨-, h1⟩, h2, -⟩
    have := goodLaunch_ends i
    omega
  · unfold ScratchPasses; decide
  · unfold ScratchPasses; decide

theorem test_hyp_LaunchStartsTheGrid : (State.reset.launch goodLaunch).inv = .running := by decide

theorem test_hyp_LaunchForgetsEarlierInvocations :
    let s : State := { State.reset with launches := [goodLaunch], sched := [.host] }
    s.nextAgent = .host ∧ s.launches = goodLaunch :: [] ∧ s.inv ≠ .running ∧ s.cfg = ready.cfg :=
  ⟨rfl, rfl, by decide, rfl⟩

/-- The kinds of f16, and the bound of the exact integers. -/
theorem test_hyp_WideningConversionsAreExact : IsFinite (readF16 0x0001) ∧ readF16 0xFC00 = .inf true ∧
    readF16 0x7E00 = .nan ∧ (BitVec.ofInt 32 (-16777216) : S32).toInt.natAbs ≤ 2 ^ 24 := by
  refine ⟨?_, by decide, by decide, by decide⟩
  rw [show readF16 0x0001 = .fin false 1 (-24) by decide]
  trivial

/-- The bounds at which the narrowing conversions overflow. -/
theorem test_hyp_NarrowingConversionsOverflow : (0x477FF000#32).toNat % 2 ^ 31 ≤ 0x7F800000 ∧
    (0xC77FEFFF#32).toNat % 2 ^ 31 < 0x477FF000 ∧ (0xFF800000#32).toNat % 2 ^ 31 = 0x7F800000 ∧
    (0xFF7FFFFF#32).toNat % 2 ^ 31 < 0x7F800000 ∧ 0x7F800000 < (0xFF800001#32).toNat % 2 ^ 31 := by decide

theorem test_hyp_NoCommandIsOutOfScratchOrMisaligned : LaunchOk ready ∧ ready.block? = some readyBlock ∧
    ∃ t, exec (.ldgA .main 0 0) ready = .next t := ⟨ready_launchOk, rfl, _, rfl⟩

theorem test_hyp_StoredPiecesAreDisjoint : LaunchOk ready ∧ readyBlock ∈ ready.blocks ∧ 15 < ready.derived.iters ∧
    stgPiece ready readyBlock 0 0 0 = some ⟨0, 0x90000⟩ ∧ (stgPiece ready readyBlock 7 15 31).isSome :=
  ⟨ready_launchOk, by simp [ready, oneBlock], by decide, by decide +kernel, by decide +kernel⟩

/-- That machine with warp 0 arrived at the first BAR of the stream. -/
def atBarState : State :=
  { oneBlock { blockOf Warp.reset with
      warps := (Vector.replicate 8 Warp.reset).set 0 { Warp.reset with st := .atBar }
      arrived := (Vector.replicate 8 none).set 0 (some 0) } with cs := [0x28000000, 0x68000000] }

theorem atBarState_ok : InStep atBarState where
  stream := by unfold streamFits; decide
  bars := by decide
  ends := by decide
  atBar := by decide
  atEnd := by decide
  faulted := by decide
  logs := by decide
  arrived := by unfold BarrierOk; decide
  notEnded := by decide

theorem test_hyp_DecodedWordIsTheEncoding : decode 0x0A800005 = .ok (.ldgB .main 1 5) := by decide

/-- The block a raised fault, a COMMIT, an END and a NOP need. -/
theorem test_hyp_RaisingAFaultIsPrecise : ready.block? = some readyBlock := rfl

theorem test_hyp_CommitClosesTheOpenGroup : pendingState.block? = some pendingBlock := rfl

theorem test_hyp_EndMakesTheWarpDone : inStep.block? = inStep.blocks[0]? ∧ inStep.block?.isSome := ⟨rfl, rfl⟩

theorem test_hyp_NopOnlyAdvancesThePc : ready.block? = some readyBlock := rfl

/-- The first live chunk is refused: B's operand, and the scales. -/
theorem test_hyp_LdgBIssuesItsCopies_firstFault : ¬ReadOk noBuffers 0x20000 16 ∧ ¬ReadOk noBuffers 0x30000 4 := by
  have h : ∀ a n, (noBuffers.memReadFault a n).isNone = false → ¬ReadOk noBuffers a n := fun a n h1 h2 => by
    rw [memReadFault_eq_none.2 h2] at h1
    cases h1
  exact ⟨h _ _ (by decide +kernel), h _ _ (by decide +kernel)⟩

/-- The first bytes that LDM.B and LDSC read in slot 0 were never written. -/
theorem test_hyp_LdmBLoadsTheFragment_firstFault :
    (ldmBLoop ready 0 0 0 0).head? = some 32768 ∧ (ldscLoop 0 0 id).head? = some 65536 ∧
      ReadFails 67584 (blockOf Warp.reset) 0 32768 (.scratchUninit 32768) ∧
      ReadFails 67584 (blockOf Warp.reset) 0 65536 (.scratchUninit 65536) :=
  ⟨by decide +kernel, by decide +kernel, .inr (.inl ⟨by decide, by decide, rfl⟩), .inr (.inl ⟨by decide, by decide, rfl⟩)⟩

/-- The last offset of the scratchpad is one a check passes, the first beyond it is out of bounds. -/
theorem test_hyp_readFails_bounds : Readable 67584 readyBlock 0 67583 ∧
    ReadFails 67584 readyBlock 0 67584 (.scratchOob 67584) := ⟨ready_readable (by decide) 0, .inl ⟨by decide, rfl⟩⟩

theorem test_hyp_ScratchAccessesKeepOtherBytes : ready.block? = some readyBlock ∧ Canonical ready ∧
    (∃ t, exec (.ldmA 0 0 0) ready = .next t) ∧ ScratchRead (.ldmA 0 0 0) ready readyBlock 0 ∧
    ¬ScratchWritten (.ldmA 0 0 0) ready readyBlock 67583 ∧ ¬ScratchRead (.ldmA 0 0 0) ready readyBlock 67583 :=
  ⟨rfl, ready_canonical, ⟨_, rfl⟩, by unfold ScratchRead; decide +kernel, id, by unfold ScratchRead; decide +kernel⟩

theorem test_hyp_PcStaysOrAdvancesByOne : releasing.inv = .running ∧ (∃ t, step releasing = .next t) ∧
    (∃ t, step { ready with sched := [.warp 0 0] } = .next t) ∧ InStep inStep ∧ ∃ t, step inStep = .next t :=
  ⟨rfl, ⟨_, releasing_step⟩, ⟨_, rfl⟩, inStep_ok, _, rfl⟩

/-- A step of each kind of agent. -/
theorem test_hyp_StepsStayInTheirBlockAndWarp :
    ({ ready with sched := [.warp 0 0] } : State).nextAgent = .warp 0 0 ∧
    (∃ t, step { ready with sched := [.warp 0 0] } = .next t) ∧
    pendingState.nextAgent = .copy 0 0 (.inOpen 0) ∧ (∃ t, step pendingState = .next t) ∧
    releasing.nextAgent = .barrier 0 ∧ (∃ t, step releasing = .next t) ∧
    ∃ t, step { ready with sched := [.host] } = .next t := ⟨rfl, ⟨_, rfl⟩, rfl, ⟨_, rfl⟩, rfl, ⟨_, rfl⟩, _, rfl⟩

theorem test_hyp_ReadOnlyStateStaysDuringARun : releasing.inv = .running ∧ ∃ t, step releasing = .next t :=
  ⟨rfl, _, releasing_step⟩

/-- Both sides: a warp at a BAR while the others are DONE is stuck (41_pipeline_sync R109). -/
theorem test_hyp_StepStopsExactlyWhenStuck :
    step { oneBlock { blockOf { Warp.reset with st := .done } with
      warps := (Vector.replicate 8 { Warp.reset with st := .done }).set 0 { Warp.reset with st := .atBar } } with
        sched := [.warp 0 0] } = .fault .stuck ∧ ∃ t, step releasing = .next t := ⟨rfl, _, releasing_step⟩

theorem test_hyp_StepKeepsTagsMeaningful : Canonical pendingState ∧ TagsOk pendingState ∧
    ∃ t, step pendingState = .next t := ⟨pending_canonical, pending_tagsOk, _, rfl⟩

/-- A RUNNING machine with warp 0 at a BAR. -/
theorem test_hyp_WarpsInStepAreNeverStuck : InStep inStep ∧ InStep atBarState ∧ atBarState.inv = .running ∧
    atBarState.blocks.all (fun b => decide (b.warps[0].st = .atBar)) = true := ⟨inStep_ok, atBarState_ok, rfl, by decide⟩

/-- Both bounds, and a word of the stream. -/
theorem test_hyp_CanonicalStreamLengthAndWords : 65536 ≤ 65536 ∧ 4 ≤ 4 ∧
    (canonical 0 1)[0]? = some (.ldgA .keeper 0 0) := by decide

/-- A tie of binary16: 2049 lies halfway between 2048 and 2050. -/
theorem test_hyp_RoundingIsToNearestEven : (5, 10) ∈ roundedFormats ∧ roundMag 5 10 2049 0 = 0x6800 ∧
    |magValue 5 10 0x6801 - 2049| = |magValue 5 10 0x6800 - 2049| := by
  refine ⟨by decide, by decide, ?_⟩
  norm_num [magValue]

theorem test_hyp_LoaderChunksTileTheOperandRegion :
    24639 ∈ (ldgAChunk ready readyBlock 0 .main 3 0 0 3).offs ∧
      65535 ∈ (ldgBChunk ready readyBlock 7 .main 3 0 1 28).offs := by decide +kernel

/-- The sixteen codes of 60_exceptions R157, in its order. -/
theorem test_fault_codes :
    [Cause.illegalCmd, .illegalOperand 2, .oobGlobal 0 16, .misaligned 1 16, .scratchOob 67584, .scratchUninit 0,
      .hazardRaw 0 none, .hazardWar 0 1, .hazardWaw 0 none, .regUninit .fa 0, .barMismatch [], .pcOverrun].map Cause.code =
      [0x01, 0x02, 0x03, 0x04, 0x05, 0x06, 0x07, 0x08, 0x09, 0x0A, 0x0B, 0x0C] ∧
    [LaunchFault.badDims 0 0 0, .misalignedPtr 0 1, .scratchSize 0 67584 0, .overlapsD 0 8].map LaunchFault.code =
      [0x10, 0x11, 0x12, 0x13] := by decide

/-- The boundary cases: with no main stage the third prologue iteration loads nothing and no slot is refilled, with two
the first iteration refills slot 3 with the last stage. -/
theorem test_hyp_CanonicalStreamPlacesItsCommands : (0 + 2 ≤ 2 ∧ ¬0 + 3 < 0 + 2) ∧ (0 + 3 < 2 + 2 ∧ ¬1 + 3 < 2 + 2) ∧
    iterationAt 0 0 = 9 ∧ (canonical 0 4)[9]? = some (.wait 2) ∧ epilogueAt 0 + 21 = 142 := by decide

/-- A machine whose last warp ends next. -/
def ending : State :=
  { oneBlock { blockOf { Warp.reset with st := .done } with
      warps := (Vector.replicate 8 { Warp.reset with st := .done }).set 0 Warp.reset } with
    cs := [0x68000000], sched := [.warp 0 0] }

theorem ending_inStep : InStep ending where
  stream := by unfold streamFits; decide
  bars := by decide
  ends := by decide
  atBar := by decide
  atEnd := by decide
  faulted := by decide
  logs := by decide
  arrived := by unfold BarrierOk; decide
  notEnded := by decide

/-- That machine after `n + 1` steps: COMPLETE, and idle. -/
def ended (n : Nat) : State :=
  { ending with blocks := [blockOf { Warp.reset with st := .done }], inv := .complete, sched := [], tick := n + 1 }

/-- Its execution. -/
def endingRun : Nat → State
  | 0 => ending
  | n + 1 => ended n

theorem endingRun_fair : FairRun endingRun where
  steps
    | 0 => by rfl
    | n + 1 => agentStep_of_ended (s := (ended n).choiceTaken) (show Inv.complete ≠ .running by decide) rfl _
  copies
    | 0, _, _, _, _ => ⟨1, by decide, fun h => absurd h.1 (by decide)⟩
    | n + 1, _, _, _, h => absurd h.1 (show Inv.complete ≠ .running by decide)
  progress
    | 0, _ => ⟨0, le_rfl, by decide⟩
    | n + 1, ⟨a, h⟩ => by
      rw [agentEnabled_of_ended (s := endingRun (n + 1)) (show Inv.complete ≠ .running by decide) rfl a] at h
      cases h

theorem test_hyp_FairRunsEnd : FairRun endingRun ∧ InStep (endingRun 0) ∧ (endingRun 0).inv = .running :=
  ⟨endingRun_fair, ending_inStep, rfl⟩

/-- Beside RUN warps: an AT_BAR warp, a barrier not all have reached, a copy choice without a record; the host during a
run; and an agent that is enabled. -/
theorem test_hyp_AgentsWithoutAStepChangeNothing :
    let s : State := { atBarState with sched := [.warp 0 0] }
    (s.inv = .running ∧ s.blocks[0]?.any (fun b => decide (b.warps[0].st ≠ .run) && b.enabled s) = true ∧
      s.blocks[0]?.any (fun b => b.warps[0].recordAt (.inOpen 0) = none) = true) ∧
    s.agentEnabled .host = false ∧ s.agentEnabled (.barrier 0) = false ∧ s.agentEnabled (.warp 0 0) = false ∧
    s.agentEnabled (.warp 0 1) = true ∧ step s = .next s.choiceTaken :=
  ⟨by decide, by decide, by decide, by decide, by decide, rfl⟩

/-- The host finds nothing during a run, D at COMPLETE, and after a fault a free byte in D and memory outside it. -/
theorem test_hostByte (s : State) (h : s = { ready with mem := [(0x8FFFF, 7), (0x90000, 9)] }) :
    s.hostByte 0x90000 = none ∧ ({ s with inv := .complete } : State).hostByte 0x90000 = some 9 ∧
      ({ s with inv := .failed } : State).hostByte 0x8FFFF = some 7 ∧
      ({ s with inv := .failed } : State).hostByte 0x90000 = some (Config.lostByte s.tick 0x90000) := by
  subst h
  exact ⟨rfl, rfl, rfl, rfl⟩

end Sys2Proof.Tests
end

section
/-! What a launch checked stays true of the grid (10_state R19, R20, 60_exceptions R164 to R169): no step but a launch
moves a block or writes a register of the invocation, and a launch starts blocks only where its checks pass. -/

namespace Sys2Proof.Machine
open Sys2Proof.Claims

/-! ## What every step but a launch keeps -/

/-- Where a block stands in the grid: BM and BN (10_state R19). -/
def Block.place (b : Block) : U32 × U32 := (b.bm, b.bn)

/-- The registers of the invocation are kept, and every block stands where it stood. -/
structure GridKept (s t : State) : Prop where
  invocation : InvocationKept s t
  places : t.blocks.map Block.place = s.blocks.map Block.place

theorem GridKept.trans {s t u : State} (h : GridKept s t) (h' : GridKept t u) : GridKept s u where
  invocation :=
    { params := h'.invocation.params.trans h.invocation.params
      derived := h'.invocation.derived.trans h.invocation.derived
      bufLen := h'.invocation.bufLen.trans h.invocation.bufLen
      rs := h'.invocation.rs.trans h.invocation.rs
      cs := h'.invocation.cs.trans h.invocation.cs
      ret := h'.invocation.ret.trans h.invocation.ret
      launchFault := h'.invocation.launchFault.trans h.invocation.launchFault
      cfg := h'.invocation.cfg.trans h.invocation.cfg
      launches := h'.invocation.launches.trans h.invocation.launches }
  places := h'.places.trans h.places

theorem GridKept.choiceTaken (s : State) : GridKept s s.choiceTaken :=
  ⟨⟨rfl, rfl, rfl, rfl, rfl, rfl, rfl, rfl, rfl⟩, rfl⟩

theorem GridKept.asWarp (s : State) (blk : Nat) (w : WarpId) : GridKept s (s.asWarp blk w) :=
  ⟨⟨rfl, rfl, rfl, rfl, rfl, rfl, rfl, rfl, rfl⟩, rfl⟩

/-- A block put in the place of one that stands at the same point of the grid moves no block. -/
theorem map_place_set {bs : List Block} {i : Nat} {b b' : Block} (hb : bs[i]? = some b) (h : b'.place = b.place) :
    (bs.set i b').map Block.place = bs.map Block.place := by
  obtain ⟨hi, rfl⟩ := List.getElem?_eq_some_iff.1 hb
  rw [List.map_set, h, ← List.map_set, List.set_getElem_self]

section Effects
variable {s : State} {b b' : Block}

theorem IssueEffect.place {ph : Phase} {kt : Nat} {chunks : List Chunk} (h : IssueEffect s b ph kt chunks b') :
    b'.place = b.place := by
  obtain ⟨-, -, rfl⟩ := h
  simp [Block.place, issued]

theorem ReadEffect.place {offs : List Nat} {f : Warp → Warp} (h : ReadEffect s b offs f b') : b'.place = b.place := by
  obtain ⟨-, rfl⟩ := h
  simp [Block.place]

theorem MmaEffect.place {dot : Vector Byte 32 → Vector Byte 32 → Int} {mi : Fin 2} {ni : Fin 8}
    (h : MmaEffect s b dot mi ni b') : b'.place = b.place := by
  obtain ⟨fa, fb, -, -, rfl⟩ := h
  simp [Block.place]

/-- An effect of a command leaves its block where it stands. -/
theorem BlockEffect.place {i : Instr} (h : BlockEffect i s b b') : b'.place = b.place := by
  cases i with
  | nop => cases h; simp [Block.place]
  | commit => cases h; simp [Block.place]
  | bar => cases h; simp [Block.place, arrivedAt]
  | endWarp => cases h; simp [Block.place]
  | ldgA ph slot kt => exact IssueEffect.place h
  | ldgB ph slot kt => exact IssueEffect.place h
  | ldgs ph slot kt => exact IssueEffect.place h
  | wait n =>
    rcases h with ⟨-, rfl⟩ | ⟨-, rfl⟩
    · rfl
    · simp [Block.place, waited]
  | ldmA slot ks mi => exact ReadEffect.place h
  | ldmB slot ks ni => exact ReadEffect.place h
  | ldsc ph slot => exact ReadEffect.place h
  | mma4 mi ni => exact MmaEffect.place h
  | mma8 mi ni => exact MmaEffect.place h
  | deq => obtain ⟨sa, sb, -, -, rfl⟩ := h; simp [Block.place]
  | cvts => obtain ⟨-, rfl⟩ := h; simp [Block.place]
  | stg it => obtain ⟨-, -, rfl⟩ := h; simp [Block.place, storedFrom]

end Effects

/-- A command that completes sets the block of its warp. -/
@[simp] theorem finish_blocks (i : Instr) (s : State) (b b' : Block) :
    (finish i s b b').blocks = s.blocks.set s.cur.blk b' := by
  cases i with
  | endWarp => exact State.settle_blocks _
  | _ => rfl

theorem settle_invocationKept {s t : State} (h : InvocationKept s t) : InvocationKept s t.settle := by
  rcases t.settle_eq with e | ⟨-, e⟩ <;> rw [e]
  · exact h
  · exact { h with }

/-- A command that completes writes no register of the invocation. -/
theorem finish_invocationKept (i : Instr) (s : State) (b b' : Block) : InvocationKept s (finish i s b b') := by
  cases i with
  | endWarp => exact settle_invocationKept ⟨rfl, rfl, rfl, rfl, rfl, rfl, rfl, rfl, rfl⟩
  | _ => exact ⟨rfl, rfl, rfl, rfl, rfl, rfl, rfl, rfl, rfl⟩

theorem GridKept.raise {s : State} {b : Block} (hb : s.block? = some b) (c : Cause) : GridKept s (s.raise b c) :=
  ⟨⟨rfl, rfl, rfl, rfl, rfl, rfl, rfl, rfl, rfl⟩, map_place_set hb (by simp [Block.place])⟩

/-- A command keeps the registers of the invocation and the place of every block, also where it faults. -/
theorem GridKept.exec {i : Instr} {s t : State} (h : exec i s = .next t) : GridKept s t := by
  obtain ⟨b, hb, ⟨c, rfl⟩ | ⟨b', he, rfl⟩⟩ := exec_next h
  · exact .raise hb c
  · exact ⟨finish_invocationKept i s b b', by rw [finish_blocks]; exact map_place_set hb he.place⟩

theorem GridKept.performCopy {s : State} {blk : Nat} {b : Block} (hb : s.blocks[blk]? = some b) (w : WarpId)
    (place : CopyPlace) (r : CopyRecord) : GridKept s (s.performCopy blk b w place r) where
  invocation := settle_invocationKept ⟨rfl, rfl, rfl, rfl, rfl, rfl, rfl, rfl, rfl⟩
  places := by
    rw [State.performCopy, State.settle_blocks]
    exact map_place_set hb (by simp [Block.place, Block.performed])

theorem GridKept.release {s : State} {blk : Nat} {b : Block} (hb : s.blocks[blk]? = some b) :
    GridKept s (s.release blk b) := by
  unfold State.release
  split
  · exact ⟨⟨rfl, rfl, rfl, rfl, rfl, rfl, rfl, rfl, rfl⟩, map_place_set hb (by simp [Block.place, Block.released])⟩
  · exact ⟨⟨rfl, rfl, rfl, rfl, rfl, rfl, rfl, rfl, rfl⟩, map_place_set hb (by simp [Block.place, Block.mismatched])⟩

/-- A step launches, or it keeps the registers of the invocation and the place of every block. -/
theorem step_gridKept_or_launch {s t : State} (h : step s = .next t) :
    GridKept s t ∨ ∃ (u : State) (r : LaunchRecord), t = u.launch r := by
  rcases step_next h with rfl | ⟨blk, w, b, -, hb, -, -, hw⟩ | ⟨blk, w, place, b, r, -, hb, -, -, rfl⟩ |
    ⟨blk, b, -, hb, -, -, rfl⟩ | ⟨r, rest, -, -, -, rfl⟩
  · exact .inl (.choiceTaken s)
  · have hs : GridKept s (s.choiceTaken.asWarp blk w) := (GridKept.choiceTaken s).trans (.asWarp _ blk w)
    rcases hw with ⟨-, rfl⟩ | ⟨word, -, ⟨e, -, rfl⟩ | ⟨i, -, he⟩⟩
    · exact .inl (hs.trans (.raise (s := s.choiceTaken.asWarp blk w) hb _))
    · exact .inl (hs.trans (.raise (s := s.choiceTaken.asWarp blk w) hb _))
    · exact .inl (hs.trans (.exec he))
  · exact .inl ((GridKept.choiceTaken s).trans (.performCopy (s := s.choiceTaken) hb w place r))
  · exact .inl ((GridKept.choiceTaken s).trans (.release (s := s.choiceTaken) hb))
  · exact .inr ⟨_, r, rfl⟩

/-- What a launch checked is said of the registers of the invocation and the places of its blocks alone. -/
theorem GridKept.launchOk {s t : State} (hk : GridKept s t) (h : LaunchOk s) : LaunchOk t := by
  obtain ⟨⟨hparams, hderived, hbufLen, hrs, -, hret, -, hcfg, -⟩, hplaces⟩ := hk
  have hne : t.blocks ≠ [] → s.blocks ≠ [] := by
    intro ht hs
    rw [hs, List.map_nil, List.map_eq_nil_iff] at hplaces
    exact ht hplaces
  have halloc : ∀ i a, t.inAllocation i a ↔ s.inAllocation i a := by
    intro i a
    rw [State.inAllocation, State.inAllocation, hparams, hbufLen]
  constructor
  case derived =>
    intro ht
    rw [DerivedOk, hderived, hparams]
    exact h.derived (hne ht)
  case supported => rw [hret, hcfg, hparams]; exact fun ht => h.supported (hne ht)
  case dims => rw [hparams, hderived]; exact fun ht => h.dims (hne ht)
  case aligned => rw [hparams]; exact fun ht => h.aligned (hne ht)
  case apart => simp only [halloc]; exact fun ht => h.apart (hne ht)
  case scratch => rw [hderived, hrs, hcfg]; exact fun ht => h.scratch (hne ht)
  case grid =>
    intro b hb
    have hp : b.place ∈ s.blocks.map Block.place := hplaces ▸ List.mem_map_of_mem hb
    obtain ⟨a, ha, hab⟩ := List.mem_map.1 hp
    obtain ⟨hbm, hbn⟩ := Prod.mk.inj hab
    rw [hderived, ← hbm, ← hbn]
    exact h.grid a ha

/-! ## The checks of a launch -/

theorem retFlag_eq_true {cfg : Config} {bits : BitVec 2} :
    retFlag cfg bits = true ↔ ∃ o ∈ cfg.supported, outTypeOfBits bits = some o := by
  unfold retFlag
  cases outTypeOfBits bits <;> simp

theorem dimsOk_eq_true {r : LaunchRecord} : dimsOk r.m r.n r.k = true ↔ DimsPass r := by
  simp only [dimsOk, DimsPass, Bool.and_eq_true, decide_eq_true_eq, and_assoc]

theorem misalignedPtr?_eq_none {r : LaunchRecord} : misalignedPtr? r = none ↔ ∀ i, PointerPasses r i := by
  simp [misalignedPtr?, PointerPasses, List.findSome?_eq_none_iff]

/-- Two ranges meet exactly where an address lies in both. -/
theorem rangesMeet_eq_true {a la d ld : Nat} :
    rangesMeet a la d ld = true ↔ ∃ x, (a ≤ x ∧ x < a + la) ∧ d ≤ x ∧ x < d + ld := by
  rw [rangesMeet, decide_eq_true_eq]
  constructor
  · intro h
    exact ⟨max a d, by omega⟩
  · rintro ⟨x, hx⟩
    omega

theorem overlapsD?_eq_none {r : LaunchRecord} : overlapsD? r = none ↔ ∀ i, ¬SharesByteWithD r i := by
  simp only [overlapsD?, List.findSome?_eq_none_iff, List.mem_finRange, true_implies, ite_eq_right_iff, reduceCtorEq,
    imp_false, rangesMeet_eq_true, SharesByteWithD]

theorem scratchFault?_eq_none {cfg : Config} {r : LaunchRecord} : scratchFault? cfg r = none ↔
    r.params.derive.scrBytes ≤ r.rs ∧ r.params.derive.scrBytes ≤ cfg.scratchCapacity := by
  simp only [scratchFault?, ite_eq_left_iff, reduceCtorEq, imp_false, not_not]
  rfl

/-- A launch finds no fault exactly where each of its four checks passes (60_exceptions R165). -/
theorem launchCheck_eq_none {cfg : Config} {r : LaunchRecord} : launchCheck cfg r = none ↔
    DimsPass r ∧ (∀ i, PointerPasses r i) ∧ (∀ i, ¬SharesByteWithD r i) ∧
      r.params.derive.scrBytes ≤ r.rs ∧ r.params.derive.scrBytes ≤ cfg.scratchCapacity := by
  rw [← dimsOk_eq_true, launchCheck]
  split
  · next h =>
    simp only [h, true_and, Option.or_eq_none_iff, misalignedPtr?_eq_none, overlapsD?_eq_none, scratchFault?_eq_none]
  · next h => simp [h]

/-! ## The grid a launch starts -/

/-- A block of the grid stands in it (46_sequencer R153). -/
theorem lt_of_mem_gridOf {gm gn : Nat} {b : Block} (h : b ∈ gridOf gm gn) : b.bm.toNat < gm ∧ b.bn.toNat < gn := by
  simp only [gridOf, List.mem_flatMap, List.mem_map, List.mem_range] at h
  obtain ⟨bm, hm, bn, hn, rfl⟩ := h
  exact ⟨(Nat.mod_le bm _).trans_lt hm, (Nat.mod_le bn _).trans_lt hn⟩

/-- The machine a launch leaves where RET is true and every check passes. -/
def State.started (s : State) (r : LaunchRecord) : State :=
  { s.withArguments r with
    ret := true
    derived := r.params.derive
    cs := r.stream r.params.derive
    inv := .running
    blocks := gridOf r.params.derive.gm r.params.derive.gn }

@[simp] theorem started_params (s : State) (r : LaunchRecord) : (s.started r).params = r.params := rfl
@[simp] theorem started_derived (s : State) (r : LaunchRecord) : (s.started r).derived = r.params.derive := rfl

/-- T of the parameter registers (00_scope R9). -/
theorem Params.derive_t (p : Params) : p.derive.t = (p.k.toNat - 128 + 127) / 128 := rfl

/-- A launch starts no block, or RET is true and it found no fault. -/
theorem launch_cases (s : State) (r : LaunchRecord) : (s.launch r).blocks = [] ∨
    (retFlag s.cfg r.outType = true ∧ launchCheck s.cfg r = none ∧ s.launch r = s.started r) := by
  unfold State.launch
  dsimp only
  split
  · next hret =>
    split
    · exact .inl rfl
    · next hc => exact .inr ⟨hret, hc, rfl⟩
  · exact .inl rfl

/-- M, N and K that pass the dimension check are held by the parameter registers as they are (10_state R17). -/
theorem toNat_params_of_dimsPass {r : LaunchRecord} (h : DimsPass r) :
    r.params.m.toNat = r.m ∧ r.params.n.toNat = r.n ∧ r.params.k.toNat = r.k := by
  obtain ⟨-, -, -, -, -, -, hm, hn, hk⟩ := h
  exact ⟨Nat.mod_eq_of_lt hm, Nat.mod_eq_of_lt hn, Nat.mod_eq_of_lt hk⟩

/-- What a launch that starts checked is true of the grid it starts. -/
theorem started_launchOk {s : State} {r : LaunchRecord} (hret : retFlag s.cfg r.outType = true)
    (hc : launchCheck s.cfg r = none) : LaunchOk (s.started r) := by
  obtain ⟨hdims, hptr, hapart, hscr⟩ := launchCheck_eq_none.1 hc
  constructor
  case derived => exact fun _ => rfl
  case supported => exact fun _ => ⟨rfl, retFlag_eq_true.1 hret⟩
  case dims =>
    intro _
    obtain ⟨hm, hn, hk⟩ := toNat_params_of_dimsPass hdims
    obtain ⟨h1, h2, h3, h4, h5, h6, -⟩ := hdims
    rw [started_params, started_derived, Params.derive_t, hm, hn, hk]
    exact ⟨h1, h2, h3, h4, h5, h6⟩
  case aligned => exact fun _ => hptr
  case apart => exact fun _ i a hi hd => hapart i ⟨a, hi, hd⟩
  case scratch => exact fun _ => hscr
  case grid => exact fun b hb => lt_of_mem_gridOf hb

/-- A grid without blocks says nothing of its launch. -/
theorem launchOk_of_no_blocks {s : State} (h : s.blocks = []) : LaunchOk s := by
  constructor
  case grid => simp [h]
  all_goals exact fun hne => absurd h hne

theorem launch_launchOk (s : State) (r : LaunchRecord) : LaunchOk (s.launch r) := by
  rcases launch_cases s r with h | ⟨hret, hc, h⟩
  · exact launchOk_of_no_blocks h
  · rw [h]
    exact started_launchOk hret hc

/-- Settles O43: a launch makes what it checked true of its grid, and every other step keeps all that it speaks of. -/
theorem stepKeepsLaunchChecks : Obligations.StepKeepsLaunchChecks := by
  intro s t hs hstep
  rcases step_gridKept_or_launch hstep with hk | ⟨u, r, rfl⟩
  · exact hk.launchOk hs
  · exact launch_launchOk u r

end Sys2Proof.Machine
end

section
/-! What a command leaves unchanged where it raises no fault (10_state R21, R30, 46_sequencer R145): every effect but an
arrival at a barrier changes one warp of its block, and scratch tags. -/

namespace Sys2Proof.Machine
open Sys2Proof.Claims

/-! ## One warp of a block changes -/

theorem sharedKept_refl (b : Block) : SharedKept b b := ⟨rfl, rfl, rfl, rfl, rfl⟩

theorem warpKept_refl (i : Instr) (x : Warp) : WarpKept i x x :=
  ⟨fun _ => rfl, fun _ => rfl, fun _ => rfl, fun _ => rfl, fun _ => ⟨rfl, rfl⟩, fun _ => rfl, fun _ => rfl, fun _ => rfl⟩

/-- Where only tags differ between `b` and `c`, an update of warp `w` of `c` changes nothing of `b` but that warp, and
tags. -/
theorem warpBecomes_updWarp {b c : Block} (hc : SharedKept b c) (hw : c.warps = b.warps) (w : WarpId) (f : Warp → Warp) :
    WarpBecomes b (c.updWarp w f) w (f b.warps[w]) where
  shared := ⟨hc.bm, hc.bn, hc.gen, hc.arrived, hc.log⟩
  others v hv := by rw [Block.updWarp_other _ _ _ hv, hw]
  warp := by rw [Block.updWarp_same, hw]

/-- A WAIT holds where a record of the groups it waits for is not performed (41_pipeline_sync R106). -/
theorem waitHolds_iff {n : Nat} {x : Warp} : x.waitHolds n = true ↔
    ∃ g ∈ x.groups.take (x.groups.length - n), ∃ r ∈ g, r.performed = false := by
  simp [Warp.waitHolds, Warp.oldRecords]

/-- A WAIT leaves the pc exactly where it holds (46_sequencer R145). -/
theorem leavesPc_wait {n : Nat} {x : Warp} : LeavesPc (.wait n) x ↔ x.waitHolds n = true := by
  simp [LeavesPc, waitHolds_iff]

/-- What command `i` of warp `w` leaves of the block `b`, tags apart. -/
structure BlockKept (i : Instr) (w : WarpId) (b b' : Block) : Prop where
  identity : b'.bm = b.bm ∧ b'.bn = b.bn ∧ b'.gen = b.gen ∧ b'.log = b.log
  arrived : i ≠ .bar → b'.arrived = b.arrived
  otherWarps : OtherWarpsKept b b' w
  warp : WarpKept i b.warps[w] b'.warps[w]
  pc : (LeavesPc i b.warps[w] → b'.warps[w].pc = b.warps[w].pc) ∧
    (¬LeavesPc i b.warps[w] → b'.warps[w].pc = b.warps[w].pc + 1)

/-- An effect that changes the warp by `f` and advances its pc keeps the rest of the block. -/
theorem BlockKept.of_advance {i : Instr} {w : WarpId} {b c : Block} (f : Warp → Warp) (hc : SharedKept b c)
    (hw : c.warps = b.warps) (hi : ¬LeavesPc i b.warps[w]) (hpc : (f b.warps[w]).pc = b.warps[w].pc)
    (hf : WarpKept i b.warps[w] (f b.warps[w])) : BlockKept i w b (c.updWarp w fun x => (f x).advance) := by
  obtain ⟨hshared, hothers, hwarp⟩ := warpBecomes_updWarp hc hw w fun x => (f x).advance
  refine ⟨⟨hshared.bm, hshared.bn, hshared.gen, hshared.log⟩, fun _ => hshared.arrived, hothers, ?_, ?_⟩
  · rw [hwarp]
    exact { hf with }
  · rw [hwarp, Warp.advance_pc, hpc]
    exact ⟨fun h => absurd h hi, fun _ => rfl⟩

/-- A command that only changes ST, and maybe the block's arrivals, keeps the rest. -/
theorem BlockKept.of_st {i : Instr} {w : WarpId} {b : Block} (st : WarpStatus) (a : Vector (Option U32) 8)
    (hi : LeavesPc i b.warps[w]) (hst : writesSt i = true) (ha : i ≠ .bar → a = b.arrived) :
    BlockKept i w b { b.updWarp w fun x => { x with st := st } with arrived := a } where
  identity := ⟨rfl, rfl, rfl, rfl⟩
  arrived := ha
  otherWarps _ hv := Block.updWarp_other b w (fun x => { x with st := st }) hv
  warp := by
    rw [Block.updWarp_same]
    exact { warpKept_refl i b.warps[w] with st := by simp [hst] }
  pc := by
    rw [Block.updWarp_same]
    exact ⟨fun _ => rfl, fun h => absurd hi h⟩

section Effects
variable {s : State} {b b' : Block} {i : Instr}

/-- The issue of copies changes OPEN[w] alone of the warp. -/
theorem IssueEffect.blockKept {ph : Phase} {kt : Nat} {chunks : List Chunk}
    (h : IssueEffect s b ph kt chunks b') (hi : ¬LeavesPc i b.warps[s.cur.w]) (ho : writesOpen i = true) :
    BlockKept i s.cur.w b b' := by
  obtain ⟨-, -, rfl⟩ := h
  exact .of_advance (Warp.issue _) ⟨by simp, by simp, by simp, by simp, by simp⟩ (by simp) hi rfl
    { warpKept_refl i b.warps[s.cur.w] with openGrp := by simp [ho] }

/-- A load of registers from scratch bytes keeps what its change of the warp keeps. -/
theorem ReadEffect.blockKept {offs : List Nat} {f : Warp → Warp} (h : ReadEffect s b offs f b')
    (hi : ¬LeavesPc i b.warps[s.cur.w]) (hpc : ∀ x, (f x).pc = x.pc) (hf : ∀ x, WarpKept i x (f x)) :
    BlockKept i s.cur.w b b' := by
  obtain ⟨-, rfl⟩ := h
  exact .of_advance f ⟨by simp, by simp, by simp, by simp, by simp⟩ (by simp) hi (hpc _) (hf _)

/-- An MMA changes IACC alone of the warp. -/
theorem MmaEffect.blockKept {dot : Vector Byte 32 → Vector Byte 32 → Int} {mi : Fin 2} {ni : Fin 8}
    (h : MmaEffect s b dot mi ni b') (hi : ¬LeavesPc i b.warps[s.cur.w]) (ha : writesIacc i = true) :
    BlockKept i s.cur.w b b' := by
  obtain ⟨fa, fb, -, -, rfl⟩ := h
  exact .of_advance
    (fun x => { x with iacc := updSubtile x.iacc mi ni fun r c acc => accAdd acc (dot fa[r] fb[c]) })
    (sharedKept_refl b) rfl hi rfl { warpKept_refl i b.warps[s.cur.w] with iacc := by simp [ha] }

/-- Every effect of a command keeps what the command does not write of its block, tags apart. -/
theorem BlockEffect.blockKept (h : BlockEffect i s b b') : BlockKept i s.cur.w b b' := by
  cases i with
  | nop => cases h; exact .of_advance id (sharedKept_refl b) rfl (by simp [LeavesPc]) rfl (warpKept_refl _ _)
  | ldgA ph slot kt => exact IssueEffect.blockKept h (by simp [LeavesPc]) rfl
  | ldgB ph slot kt => exact IssueEffect.blockKept h (by simp [LeavesPc]) rfl
  | ldgs ph slot kt => exact IssueEffect.blockKept h (by simp [LeavesPc]) rfl
  | commit =>
    cases h
    exact .of_advance Warp.commitGroup (sharedKept_refl b) rfl (by simp [LeavesPc]) rfl
      { warpKept_refl .commit b.warps[s.cur.w] with openGrp := by simp [writesOpen], groups := by simp [writesGroups] }
  | wait n =>
    rcases h with ⟨hw, rfl⟩ | ⟨hw, rfl⟩
    · exact ⟨⟨rfl, rfl, rfl, rfl⟩, fun _ => rfl, fun _ _ => rfl, warpKept_refl _ _, fun _ => rfl,
        fun h => absurd (leavesPc_wait.2 hw) h⟩
    · exact .of_advance (Warp.keepGroups n) ⟨by simp, by simp, by simp, by simp, by simp⟩ (by simp)
        (by rw [leavesPc_wait, hw]; exact Bool.false_ne_true) rfl
        { warpKept_refl (.wait n) b.warps[s.cur.w] with groups := by simp [writesGroups] }
  | bar =>
    cases h
    exact .of_st .atBar _ (by simp [LeavesPc]) rfl (absurd rfl)
  | ldmA slot ks mi =>
    exact ReadEffect.blockKept h (by simp [LeavesPc]) (fun _ => rfl) fun x =>
      { warpKept_refl (.ldmA slot ks mi) x with fa := by simp [writesFa] }
  | ldmB slot ks ni =>
    exact ReadEffect.blockKept h (by simp [LeavesPc]) (fun _ => rfl) fun x =>
      { warpKept_refl (.ldmB slot ks ni) x with fb := by simp [writesFb] }
  | ldsc ph slot =>
    exact ReadEffect.blockKept h (by simp [LeavesPc]) (fun _ => rfl) fun x =>
      { warpKept_refl (.ldsc ph slot) x with scales := by simp [writesScales] }
  | mma4 mi ni => exact MmaEffect.blockKept h (by simp [LeavesPc]) rfl
  | mma8 mi ni => exact MmaEffect.blockKept h (by simp [LeavesPc]) rfl
  | deq =>
    obtain ⟨sa, sb, -, -, rfl⟩ := h
    exact .of_advance (dequantized s sa sb) (sharedKept_refl b) rfl (by simp [LeavesPc]) rfl
      { warpKept_refl .deq b.warps[s.cur.w] with iacc := by simp [writesIacc], facc := by simp [writesFacc] }
  | cvts =>
    obtain ⟨-, rfl⟩ := h
    exact .of_advance id ⟨by simp, by simp, by simp, by simp, by simp⟩ (by simp) (by simp [LeavesPc]) rfl
      (warpKept_refl _ _)
  | stg it =>
    obtain ⟨-, -, rfl⟩ := h
    exact .of_advance id ⟨by simp, by simp, by simp, by simp, by simp⟩ (by simp) (by simp [LeavesPc]) rfl
      (warpKept_refl _ _)
  | endWarp =>
    cases h
    exact .of_st .done b.arrived (by simp [LeavesPc]) rfl fun _ => rfl

/-- A command that writes no tag leaves the scratchpad as it is. -/
theorem BlockEffect.scratchKept (h : BlockEffect i s b b') (hi : writesTags i = false) : ScratchKept b b' := by
  cases i with
  | nop => cases h; exact fun _ => rfl
  | commit => cases h; exact fun _ => rfl
  | bar => cases h; exact fun _ => rfl
  | endWarp => cases h; exact fun _ => rfl
  | mma4 mi ni => obtain ⟨fa, fb, -, -, rfl⟩ := h; exact fun _ => rfl
  | mma8 mi ni => obtain ⟨fa, fb, -, -, rfl⟩ := h; exact fun _ => rfl
  | deq => obtain ⟨sa, sb, -, -, rfl⟩ := h; exact fun _ => rfl
  | _ => cases hi

end Effects

/-! ## The machine around the block -/

/-- A grid in which the block at `blk` was put in place has the other blocks as before. -/
theorem otherBlocksKept_of_set {s t : State} {blk : Nat} {b : Block} (h : t.blocks = s.blocks.set blk b) :
    OtherBlocksKept s t blk := by
  rw [OtherBlocksKept, h, List.length_set]
  exact ⟨rfl, fun i hi => List.getElem?_set_ne (Ne.symm hi)⟩

section Finish
variable (i : Instr) (s : State) (b b' : Block)

/-- A command chooses no agent. -/
theorem finish_chooser : (finish i s b b').sched = s.sched ∧ (finish i s b b').tick = s.tick ∧
    (finish i s b b').cur = s.cur := by
  cases i with
  | endWarp => simp [finish]
  | _ => exact ⟨rfl, rfl, rfl⟩

/-- No command but END changes INV. -/
theorem finish_inv {i : Instr} (hi : i ≠ .endWarp) : (finish i s b b').inv = s.inv := by
  cases i with
  | endWarp => exact absurd rfl hi
  | _ => rfl

theorem finish_draws {i : Instr} (hi : drawsFree i = false) : (finish i s b b').draws = s.draws := by
  cases i with
  | endWarp => exact State.settle_draws _
  | deq => cases hi
  | cvts => cases hi
  | _ => rfl

theorem finish_mem {i : Instr} (hi : writesDevice i = false) : (finish i s b b').mem = s.mem := by
  cases i with
  | endWarp => exact State.settle_mem _
  | stg it => cases hi
  | _ => rfl

end Finish

/-- A command that completes leaves every piece of state it does not write unchanged. -/
theorem BlockEffect.commandKept {i : Instr} {s : State} {b b' : Block} (h : BlockEffect i s b b') :
    CommandKept i s (finish i s b b') b b' where
  invocation := finish_invocationKept i s b b'
  chooser := finish_chooser i s b b'
  otherBlocks := otherBlocksKept_of_set (finish_blocks i s b b')
  identity := h.blockKept.identity
  arrived := h.blockKept.arrived
  otherWarps := h.blockKept.otherWarps
  warp := h.blockKept.warp
  pc := h.blockKept.pc
  inv := finish_inv s b b'
  draws := finish_draws s b b'
  device hi a := by rw [finish_mem s b b' hi]
  scratch := h.scratchKept

/-- The block of the current warp after a command that completes. -/
theorem finish_block {i : Instr} {s : State} {b b' : Block} (hb : s.block? = some b) :
    (finish i s b b').block? = some b' := by
  obtain ⟨hlt, -⟩ := List.getElem?_eq_some_iff.1 hb
  obtain ⟨-, -, hcur⟩ := finish_chooser i s b b'
  rw [State.block?, hcur, finish_blocks, List.getElem?_set_self hlt]

/-- Settles O25: a command raised a fault, or had its effect, which keeps what the command does not write. -/
theorem commandsKeepWhatTheyDoNotWrite : Obligations.CommandsKeepWhatTheyDoNotWrite := by
  intro i s t b hb h
  obtain ⟨b₁, hb₁, ⟨c, rfl⟩ | ⟨b', he, rfl⟩⟩ := exec_next h <;> obtain rfl := Option.some.inj (hb.symm.trans hb₁)
  · exact .inl ⟨c, rfl⟩
  · exact .inr ⟨b', finish_block hb, he.commandKept⟩

end Sys2Proof.Machine
end

section
/-! What one step of a RUNNING invocation does (10_state R16, R21, R30): it idles, or one agent changes the one block it
belongs to. -/

namespace Sys2Proof.Machine
open Sys2Proof.Claims

/-! ## The step of an agent, seen from its block -/

/-- The block `b` after warp `w` raised a fault with the record `r` (60_exceptions R158). -/
def Block.faultedWith (b : Block) (w : WarpId) (r : FaultRecord) : Block :=
  { b.updWarp w fun x => { x with st := .faulted } with log := b.log ++ [r] }

/-- The steps that change the block `b` at `blk` to `b'` and lead from `s` to `t`. -/
inductive BlockStep (s t : State) (blk : Nat) (b b' : Block) : Prop where
  /-- A warp raised a fault. -/
  | fault (w : WarpId) (r : FaultRecord) (agent : s.nextAgent = .warp blk w) (run : b.warps[w].st = .run)
    (failed : t.inv = .failed) (block : b' = b.faultedWith w r)
  /-- A warp executed the command at its pc. -/
  | command (w : WarpId) (i : Instr) (word : Cmd) (agent : s.nextAgent = .warp blk w) (run : b.warps[w].st = .run)
    (fetched : s.fetch b w = some word) (decoded : decode word = .ok i)
    (effect : BlockEffect i (s.choiceTaken.asWarp blk w) b b') (result : t = finish i (s.choiceTaken.asWarp blk w) b b')
  /-- A copy landed. -/
  | copy (w : WarpId) (place : CopyPlace) (r : CopyRecord) (agent : s.nextAgent = .copy blk w place)
    (waits : b.toPerform w place = some r) (block : b' = b.performed w place r)
    (result : t = s.choiceTaken.performCopy blk b w place r)
  /-- A barrier completed. -/
  | released (agent : s.nextAgent = .barrier blk) (enabled : b.releaseEnabled = true) (block : b' = b.released)
  /-- A barrier found different pcs. -/
  | mismatched (agent : s.nextAgent = .barrier blk) (enabled : b.releaseEnabled = true) (failed : t.inv = .failed)
    (block : b' = b.mismatched)

/-- Block `b` at `blk` becomes `b'`, by a step of one of its agents. -/
structure OneBlockStep (s t : State) (blk : Nat) (b b' : Block) : Prop where
  before : s.blocks[blk]? = some b
  after : t.blocks = s.blocks.set blk b'
  step : BlockStep s t blk b b'

/-- A command that answers a next state took its step in its block. -/
theorem oneBlockStep_of_exec {s t : State} {blk : Nat} {w : WarpId} {b : Block} {word : Cmd} {i : Instr}
    (ha : s.nextAgent = .warp blk w) (hb : s.blocks[blk]? = some b) (hrun : b.warps[w].st = .run)
    (hf : s.fetch b w = some word) (hd : decode word = .ok i) (h : exec i (s.choiceTaken.asWarp blk w) = .next t) :
    ∃ b', OneBlockStep s t blk b b' := by
  obtain ⟨b₁, hb₁, ⟨c, rfl⟩ | ⟨b', he, rfl⟩⟩ := exec_next h <;> obtain rfl := Option.some.inj (hb.symm.trans hb₁)
  · exact ⟨_, hb, rfl, .fault w _ ha hrun rfl rfl⟩
  · exact ⟨b', hb, finish_blocks i _ b b', .command w i word ha hrun hf hd he rfl⟩

/-- A release took its step in its block. -/
theorem oneBlockStep_of_release {s : State} {blk : Nat} {b : Block} (ha : s.nextAgent = .barrier blk)
    (hb : s.blocks[blk]? = some b) (he : b.releaseEnabled = true) :
    ∃ b', OneBlockStep s (s.choiceTaken.release blk b) blk b b' := by
  unfold State.release
  split
  · exact ⟨b.released, hb, rfl, .released ha he rfl⟩
  · exact ⟨b.mismatched, hb, rfl, .mismatched ha he rfl rfl⟩

/-- A step idles, is a step of one block of a RUNNING invocation, or is a launch while none runs. -/
theorem step_cases {s t : State} (h : step s = .next t) :
    t = s.choiceTaken ∨
    (s.inv = .running ∧ GridKept s t ∧ ∃ blk b b', OneBlockStep s t blk b b') ∨
    (s.inv ≠ .running ∧ ∃ (u : State) (r : LaunchRecord), t = u.launch r) := by
  rcases step_next h with rfl | ⟨blk, w, b, ha, hb, hi, hrun, hw⟩ | ⟨blk, w, place, b, r, ha, hb, hi, hr, rfl⟩ |
    ⟨blk, b, ha, hb, hi, he, rfl⟩ | ⟨r, rest, -, -, hi, rfl⟩
  · exact .inl rfl
  · have hs : GridKept s (s.choiceTaken.asWarp blk w) := (GridKept.choiceTaken s).trans (.asWarp _ blk w)
    refine .inr (.inl ⟨hi, ?_⟩)
    rcases hw with ⟨-, rfl⟩ | ⟨word, hf, ⟨e, -, rfl⟩ | ⟨i, hd, h⟩⟩
    · exact ⟨hs.trans (.raise (s := s.choiceTaken.asWarp blk w) hb _), blk, b, _, hb, rfl, .fault w _ ha hrun rfl rfl⟩
    · exact ⟨hs.trans (.raise (s := s.choiceTaken.asWarp blk w) hb _), blk, b, _, hb, rfl, .fault w _ ha hrun rfl rfl⟩
    · exact ⟨hs.trans (.exec h), blk, b, oneBlockStep_of_exec ha hb hrun hf hd h⟩
  · exact .inr (.inl ⟨hi, (GridKept.choiceTaken s).trans (.performCopy (s := s.choiceTaken) hb w place r),
      blk, b, _, hb, by rw [State.performCopy, State.settle_blocks]; rfl, .copy w place r ha hr rfl rfl⟩)
  · exact .inr (.inl ⟨hi, (GridKept.choiceTaken s).trans (.release (s := s.choiceTaken) hb), blk, b,
      oneBlockStep_of_release ha hb he⟩)
  · exact .inr (.inr ⟨hi, _, r, rfl⟩)

end Sys2Proof.Machine
end

section
/-! What the steps of the agents leave of the warps of a block (10_state R21, R30, 20_memory R69, 46_sequencer R145). -/

namespace Sys2Proof.Machine
open Sys2Proof.Claims

/-! ## The warps of a block after a step of one of its agents -/

section Warps
variable (b : Block) (w v : WarpId) (r : FaultRecord) (place : CopyPlace) (cr : CopyRecord) (x : Warp)

theorem Block.faultedWith_same : (b.faultedWith w r).warps[w] = { b.warps[w] with st := .faulted } :=
  Block.updWarp_same b w fun x => { x with st := .faulted }

theorem Block.faultedWith_other {w v : WarpId} (h : v ≠ w) : (b.faultedWith w r).warps[v] = b.warps[v] :=
  Block.updWarp_other b w (fun x => { x with st := .faulted }) h

theorem Block.released_warp : b.released.warps[w] = { b.warps[w].advance with st := .run } :=
  getElem_tab _ w.val w.isLt

theorem Block.mismatched_warp : b.mismatched.warps[w] = { b.warps[w] with st := .faulted } :=
  getElem_tab _ w.val w.isLt

theorem Block.performed_same : (b.performed w place cr).warps[w] = b.warps[w].performAt place := by
  rw [Block.performed, Block.updWarp_same, Block.land_warps]

theorem Block.performed_other {w v : WarpId} (h : v ≠ w) : (b.performed w place cr).warps[v] = b.warps[v] := by
  rw [Block.performed, Block.updWarp_other _ _ _ h, Block.land_warps]

@[simp] theorem Warp.performAt_pc : (x.performAt place).pc = x.pc := by cases place <;> rfl
@[simp] theorem Warp.performAt_st : (x.performAt place).st = x.st := by cases place <;> rfl

theorem Block.performed_pc : (b.performed w place cr).warps[v].pc = b.warps[v].pc := by
  by_cases hv : v = w
  · rw [hv, Block.performed_same, Warp.performAt_pc]
  · rw [Block.performed_other b place cr hv]

theorem Block.performed_st : (b.performed w place cr).warps[v].st = b.warps[v].st := by
  by_cases hv : v = w
  · rw [hv, Block.performed_same, Warp.performAt_st]
  · rw [Block.performed_other b place cr hv]

theorem Block.performed_gen : (b.performed w place cr).gen = b.gen := by simp [Block.performed]
theorem Block.performed_arrived : (b.performed w place cr).arrived = b.arrived := by simp [Block.performed]
theorem Block.performed_log : (b.performed w place cr).log = b.log := by simp [Block.performed]

theorem registerFilesKept_performAt : RegisterFilesKept x (x.performAt place) := by
  cases place <;> exact ⟨rfl, rfl, rfl, rfl, rfl, rfl⟩

theorem Block.releaseEnabled_iff {b : Block} : b.releaseEnabled = true ↔ ∀ w : WarpId, b.warps[w].st = .atBar := by
  simp [Block.releaseEnabled]

end Warps

/-! ## The grid around the block -/

/-- A block of the grid is as it was before a step of one block, or is the one that changed. -/
theorem OneBlockStep.block_cases {s t : State} {blk : Nat} {b b' : Block} (h : OneBlockStep s t blk b b') {k : Nat}
    {c c' : Block} (hc : s.blocks[k]? = some c) (hc' : t.blocks[k]? = some c') :
    c' = c ∨ (k = blk ∧ c = b ∧ c' = b') := by
  rw [h.after, List.getElem?_set] at hc'
  split at hc'
  · next hk =>
    subst hk
    split at hc'
    · exact .inr ⟨rfl, Option.some.inj (hc.symm.trans h.before), (Option.some.inj hc').symm⟩
    · cases hc'
  · exact .inl (Option.some.inj (hc'.symm.trans hc))

/-- A step of a RUNNING invocation idles or is a step of one block. -/
theorem step_of_running {s t : State} (h : step s = .next t) (hi : s.inv = .running) :
    t = s.choiceTaken ∨ ∃ blk b b', OneBlockStep s t blk b b' := by
  rcases step_cases h with rfl | ⟨-, -, hk⟩ | ⟨hn, -⟩
  · exact .inl rfl
  · exact .inr hk
  · exact absurd hi hn

/-! ## The program counters -/

/-- A pc that a step of its block changes advances by one, past a command the warp executed or the BAR it waited at. -/
theorem BlockStep.pc {s t : State} {blk : Nat} {b b' : Block} (h : BlockStep s t blk b b') (v : WarpId) :
    b'.warps[v].pc = b.warps[v].pc ∨ (b'.warps[v].pc = b.warps[v].pc + 1 ∧
      ((∃ word, s.fetch b v = some word) ∨ b.warps[v].st = .atBar)) := by
  cases h with
  | fault w r _ _ _ block =>
    subst block
    by_cases hv : v = w
    · rw [hv, Block.faultedWith_same]
      exact .inl rfl
    · rw [Block.faultedWith_other b r hv]
      exact .inl rfl
  | command w i word _ _ fetched _ effect _ =>
    by_cases hv : v = w
    · subst hv
      obtain ⟨hstays, hadvances⟩ := effect.blockKept.pc
      by_cases hi : LeavesPc i b.warps[v]
      · exact .inl (hstays hi)
      · exact .inr ⟨hadvances hi, .inl ⟨word, fetched⟩⟩
    · exact .inl (congrArg Warp.pc (effect.blockKept.otherWarps v hv))
  | copy w place r _ _ block _ =>
    subst block
    exact .inl (Block.performed_pc b w v place r)
  | released _ enabled block =>
    subst block
    rw [Block.released_warp]
    exact .inr ⟨rfl, .inr (Block.releaseEnabled_iff.1 enabled v)⟩
  | mismatched _ _ _ block =>
    subst block
    rw [Block.mismatched_warp]
    exact .inl rfl

/-- A pc that indexes a stream whose indices fit it does not wrap. -/
theorem toNat_add_one_of_index {cs : List Cmd} {pc : U32} {word : Cmd} (hfits : streamFits cs)
    (h : cs[pc.toNat]? = some word) : (pc + 1).toNat = pc.toNat + 1 := by
  obtain ⟨hlt, -⟩ := List.getElem?_eq_some_iff.1 h
  unfold streamFits at hfits
  rw [BitVec.toNat_add]
  exact Nat.mod_eq_of_lt (a := pc.toNat + 1) (by omega)

/-- Settles O31: a step of one block advances pcs past commands of the stream, whose indices fit the pc; others stay. -/
theorem pcStaysOrAdvancesByOne : Obligations.PcStaysOrAdvancesByOne := by
  intro s t h hi
  rcases step_of_running h hi with rfl | ⟨blk, b, b', hone⟩
  · refine ⟨rfl, fun k c c' w hc hc' => ?_⟩
    obtain rfl := Option.some.inj (hc.symm.trans hc')
    exact ⟨.inl rfl, fun _ => .inl rfl⟩
  · refine ⟨by rw [hone.after, List.length_set], fun k c c' w hc hc' => ?_⟩
    rcases hone.block_cases hc hc' with rfl | ⟨rfl, rfl, rfl⟩
    · exact ⟨.inl rfl, fun _ => .inl rfl⟩
    · rcases hone.step.pc w with hpc | ⟨hpc, hat⟩
      · rw [hpc]
        exact ⟨.inl rfl, fun _ => .inl rfl⟩
      · rw [hpc]
        refine ⟨.inr rfl, fun hs => .inr ?_⟩
        rcases hat with ⟨word, hf⟩ | hst
        · exact toNat_add_one_of_index hs.stream hf
        · exact toNat_add_one_of_index hs.stream (hs.atBar c (List.mem_of_getElem? hc) w hst)

/-! ## Blocks and warps are apart -/

section Agents
variable {s t : State} {blk k : Nat} {b b' : Block} {w : WarpId}

/-- A warp's step is of its block and changes no other warp. -/
theorem BlockStep.of_warp (h : BlockStep s t blk b b') (ha : s.nextAgent = .warp k w) :
    k = blk ∧ OtherWarpsKept b b' w := by
  cases h with
  | fault v r agent _ _ block =>
    subst block
    cases agent.symm.trans ha
    exact ⟨rfl, fun _ hv => Block.faultedWith_other b r hv⟩
  | command v i word agent _ _ _ effect _ =>
    cases agent.symm.trans ha
    exact ⟨rfl, effect.blockKept.otherWarps⟩
  | copy _ _ _ agent | released agent | mismatched agent => cases agent.symm.trans ha

/-- A copy agent's step is of its block and changes of one warp only its copy records. -/
theorem BlockStep.of_copy {place : CopyPlace} (h : BlockStep s t blk b b') (ha : s.nextAgent = .copy k w place) :
    k = blk ∧ OtherWarpsKept b b' w ∧ b'.warps[w] = b.warps[w].performAt place := by
  cases h with
  | copy v p r agent _ block _ =>
    subst block
    cases agent.symm.trans ha
    exact ⟨rfl, fun _ hv => Block.performed_other b place r hv, Block.performed_same b w place r⟩
  | fault _ _ agent | command _ _ _ agent | released agent | mismatched agent => cases agent.symm.trans ha

/-- A barrier's step is of its block and changes no register file and no copy record. -/
theorem BlockStep.of_barrier (h : BlockStep s t blk b b') (ha : s.nextAgent = .barrier k) :
    k = blk ∧ ∀ v : WarpId, RegisterFilesKept b.warps[v] b'.warps[v] ∧ b'.warps[v].openGrp = b.warps[v].openGrp ∧
      b'.warps[v].groups = b.warps[v].groups := by
  cases h with
  | released agent _ block =>
    subst block
    cases agent.symm.trans ha
    refine ⟨rfl, fun v => ?_⟩
    rw [Block.released_warp]
    exact ⟨⟨rfl, rfl, rfl, rfl, rfl, rfl⟩, rfl, rfl⟩
  | mismatched agent _ _ block =>
    subst block
    cases agent.symm.trans ha
    refine ⟨rfl, fun v => ?_⟩
    rw [Block.mismatched_warp]
    exact ⟨⟨rfl, rfl, rfl, rfl, rfl, rfl⟩, rfl, rfl⟩
  | fault _ _ agent | command _ _ _ agent | copy _ _ _ agent => cases agent.symm.trans ha

/-- The host takes no step in a block. -/
theorem BlockStep.not_host (h : BlockStep s t blk b b') : s.nextAgent ≠ .host := by
  intro ha
  cases h with
  | fault _ _ agent | command _ _ _ agent | copy _ _ _ agent | released agent | mismatched agent =>
    cases agent.symm.trans ha

end Agents

/-- A step of one block changes a block as a step of that block does. -/
theorem OneBlockStep.changes {s t : State} {blk : Nat} {b b' : Block} (h : OneBlockStep s t blk b b') {c c' : Block}
    (hc : s.blocks[blk]? = some c) (hc' : t.blocks[blk]? = some c') : c = b ∧ c' = b' := by
  obtain ⟨hlt, -⟩ := List.getElem?_eq_some_iff.1 hc
  rw [h.after, List.getElem?_set_self hlt] at hc'
  exact ⟨Option.some.inj (hc.symm.trans h.before), (Option.some.inj hc').symm⟩

/-- Settles O32: an idle step changes no block, and each agent's step is of one block. -/
theorem stepsStayInTheirBlockAndWarp : Obligations.StepsStayInTheirBlockAndWarp := by
  intro s t h hi
  rcases step_of_running h hi with rfl | ⟨blk, b, b', hone⟩
  · have same : ∀ {k : Nat} {c c' : Block}, s.blocks[k]? = some c → s.choiceTaken.blocks[k]? = some c' → c = c' :=
      fun hc hc' => Option.some.inj (hc.symm.trans hc')
    refine ⟨fun k w _ => ⟨⟨rfl, fun _ _ => rfl⟩, fun c c' hc hc' => ?_⟩,
      fun k w p _ => ⟨⟨rfl, fun _ _ => rfl⟩, fun c c' hc hc' => ?_⟩,
      fun k _ => ⟨⟨rfl, fun _ _ => rfl⟩, fun c c' w hc hc' => ?_⟩, fun _ => rfl⟩ <;> obtain rfl := same hc hc'
    · exact fun _ _ => rfl
    · exact ⟨fun _ _ => rfl, ⟨rfl, rfl, rfl, rfl, rfl, rfl⟩, rfl, rfl⟩
    · exact ⟨⟨rfl, rfl, rfl, rfl, rfl, rfl⟩, rfl, rfl⟩
  · refine ⟨fun k w ha => ?_, fun k w p ha => ?_, fun k ha => ?_, fun ha => absurd ha hone.step.not_host⟩
    · obtain ⟨rfl, hothers⟩ := hone.step.of_warp ha
      refine ⟨otherBlocksKept_of_set hone.after, fun c c' hc hc' => ?_⟩
      obtain ⟨rfl, rfl⟩ := hone.changes hc hc'
      exact hothers
    · obtain ⟨rfl, hothers, hw⟩ := hone.step.of_copy ha
      refine ⟨otherBlocksKept_of_set hone.after, fun c c' hc hc' => ?_⟩
      obtain ⟨rfl, rfl⟩ := hone.changes hc hc'
      rw [hw]
      exact ⟨hothers, registerFilesKept_performAt _ _, Warp.performAt_pc _ _, Warp.performAt_st _ _⟩
    · obtain ⟨rfl, hkept⟩ := hone.step.of_barrier ha
      refine ⟨otherBlocksKept_of_set hone.after, fun c c' w hc hc' => ?_⟩
      obtain ⟨rfl, rfl⟩ := hone.changes hc hc'
      exact hkept w

/-! ## What no step of a run writes -/

/-- A step of a RUNNING invocation keeps its registers and moves no block. -/
theorem gridKept_of_running {s t : State} (h : step s = .next t) (hi : s.inv = .running) : GridKept s t := by
  rcases step_cases h with rfl | ⟨-, hk, -⟩ | ⟨hn, -⟩
  · exact .choiceTaken s
  · exact hk
  · exact absurd hi hn

/-- Settles O34: no step of a RUNNING invocation is a launch, and every other step keeps the registers and the places. -/
theorem readOnlyStateStaysDuringARun : Obligations.ReadOnlyStateStaysDuringARun := by
  intro s t h hi
  obtain ⟨hkept, hplaces⟩ := gridKept_of_running h hi
  refine ⟨hkept, fun blk b b' hb hb' => ?_⟩
  have hat := congrArg (·[blk]?) hplaces
  simp only [List.getElem?_map, hb, hb', Option.map_some, Option.some.injEq] at hat
  exact Prod.mk.inj hat

end Sys2Proof.Machine
end

section
/-! The warps of a block in step at the barriers (41_pipeline_sync R107, R109, 46_sequencer R144, R145, R147): what the
invariant says of one warp, and how it follows the warp through a command, an arrival and a release. -/

namespace Sys2Proof.Machine
open Sys2Proof.Claims

/-! ## The words of BAR and END -/

theorem decode_barWord : decode barWord = .ok .bar := by decide
theorem decode_endWord : decode endWord = .ok .endWarp := by decide

/-- A decoded word selects a row of the opcode map that builds its command. -/
theorem exists_row_of_decode {w : Cmd} {i : Instr} (h : decode w = .ok i) :
    ∃ r ∈ opcodeTable, w &&& r.mask = r.pattern ∧ r.command (fieldsOfWord w) = i := by
  unfold decode at h
  split at h
  · next r hr =>
    cases h
    exact ⟨r, List.mem_of_find?_eq_some hr, of_decide_eq_true (List.find?_some (p := rowMatches w) hr), rfl⟩
  · cases h

/-- A command that only rows build which match one word alone is decoded from that word alone. -/
theorem eq_of_decode {w p : Cmd} {i : Instr} (h : decode w = .ok i)
    (hrows : ∀ r ∈ opcodeTable, ∀ f, r.command f = i → r.mask = BitVec.allOnes 32 ∧ r.pattern = p) : w = p := by
  obtain ⟨r, hr, hm, hc⟩ := exists_row_of_decode h
  obtain ⟨hmask, hpattern⟩ := hrows r hr _ hc
  rw [← hpattern, ← hm, hmask, BitVec.and_allOnes]

theorem decode_eq_bar {w : Cmd} : decode w = .ok .bar ↔ w = barWord :=
  ⟨fun h => eq_of_decode h (by simp [opcodeTable, barWord]), fun h => h ▸ decode_barWord⟩

theorem decode_eq_endWarp {w : Cmd} : decode w = .ok .endWarp ↔ w = endWord :=
  ⟨fun h => eq_of_decode h (by simp [opcodeTable, endWord]), fun h => h ▸ decode_endWord⟩

/-! ## One warp in step -/

/-- What `InStep` says of a warp with pc `pc` and status `st` whose place in ARRIVED holds `a`, where its block has
completed `gen` barriers of the stream `cs`. -/
structure WarpInStep (cs : List Cmd) (gen : Nat) (pc : U32) (st : WarpStatus) (a : Option U32) : Prop where
  bars : (cs.take pc.toNat).count barWord = gen
  ends : endWord ∉ cs.take pc.toNat
  atBar : st = .atBar → cs[pc.toNat]? = some barWord
  atEnd : st = .done → cs[pc.toNat]? = some endWord
  arrived : a = if st = .atBar then some pc else none

/-- The commands before the next pc are those before the pc, and the one at it. -/
theorem take_toNat_add_one {cs : List Cmd} {pc : U32} {word : Cmd} (hfits : streamFits cs)
    (h : cs[pc.toNat]? = some word) : cs.take (pc + 1).toNat = cs.take pc.toNat ++ [word] := by
  rw [toNat_add_one_of_index hfits h, List.take_add_one, h]
  rfl

section WarpInStep
variable {cs : List Cmd} {gen : Nat} {pc : U32} {st : WarpStatus} {a : Option U32}

/-- A warp at the start of the stream is in step. -/
theorem warpInStep_reset : WarpInStep cs 0 0 .run none := by
  constructor <;> simp

/-- A warp that executes a command other than BAR and END stays in step. -/
theorem WarpInStep.advance (h : WarpInStep cs gen pc .run a) (hfits : streamFits cs) {word : Cmd}
    (hw : cs[pc.toNat]? = some word) (hbar : word ≠ barWord) (hend : word ≠ endWord) :
    WarpInStep cs gen (pc + 1) .run a where
  bars := by rw [take_toNat_add_one hfits hw, List.count_append, h.bars, List.count_singleton]; simp [hbar]
  ends := by
    rw [take_toNat_add_one hfits hw, List.mem_append, List.mem_singleton]
    exact not_or.2 ⟨h.ends, hend.symm⟩
  atBar := by simp
  atEnd := by simp
  arrived := h.arrived

/-- A warp that arrives at a BAR is in step. -/
theorem WarpInStep.arrive (h : WarpInStep cs gen pc .run a) (hw : cs[pc.toNat]? = some barWord) :
    WarpInStep cs gen pc .atBar (some pc) :=
  ⟨h.bars, h.ends, fun _ => hw, by simp, rfl⟩

/-- A warp that executes an END is in step. -/
theorem WarpInStep.finish (h : WarpInStep cs gen pc .run a) (hw : cs[pc.toNat]? = some endWord) :
    WarpInStep cs gen pc .done a :=
  ⟨h.bars, h.ends, by simp, fun _ => hw, h.arrived⟩

/-- A warp that becomes FAULTED, and waits at no barrier, is in step. -/
theorem WarpInStep.fault (h : WarpInStep cs gen pc st a) : WarpInStep cs gen pc .faulted none :=
  ⟨h.bars, h.ends, by simp, by simp, rfl⟩

/-- A warp that a release sends past its BAR is in step in the next generation. -/
theorem WarpInStep.release (h : WarpInStep cs gen pc .atBar a) (hfits : streamFits cs) :
    WarpInStep cs (gen + 1) (pc + 1) .run none where
  bars := by
    rw [take_toNat_add_one hfits (h.atBar rfl), List.count_append, h.bars, List.count_singleton_self]
  ends := by
    rw [take_toNat_add_one hfits (h.atBar rfl), List.mem_append, List.mem_singleton]
    exact not_or.2 ⟨h.ends, by decide⟩
  atBar := by simp
  atEnd := by simp
  arrived := rfl

end WarpInStep

/-! ## One block in step -/

/-- What `InStep` says of the warps of one block. -/
def BlockInStep (cs : List Cmd) (b : Block) : Prop :=
  ∀ w : WarpId, WarpInStep cs b.gen b.warps[w].pc b.warps[w].st b.arrived[w]

/-- ST after command `i` of a warp. -/
def stAfter (i : Instr) (st : WarpStatus) : WarpStatus :=
  match i with
  | .bar => .atBar
  | .endWarp => .done
  | _ => st

theorem stAfter_of_ne {i : Instr} {st : WarpStatus} (hbar : i ≠ .bar) (hend : i ≠ .endWarp) : stAfter i st = st := by
  cases i with
  | bar => exact absurd rfl hbar
  | endWarp => exact absurd rfl hend
  | _ => rfl

theorem stAfter_run_ne_faulted (i : Instr) : stAfter i .run ≠ .faulted := by
  cases i <;> simp [stAfter]

theorem stAfter_run_ne_done {i : Instr} (hend : i ≠ .endWarp) : stAfter i .run ≠ .done := by
  cases i <;> simp [stAfter] at hend ⊢

theorem BlockEffect.st {i : Instr} {s : State} {b b' : Block} (h : BlockEffect i s b b') :
    b'.warps[s.cur.w].st = stAfter i b.warps[s.cur.w].st := by
  cases i with
  | bar => cases h; exact congrArg Warp.st (Block.updWarp_same b _ fun x => { x with st := .atBar })
  | endWarp => cases h; exact congrArg Warp.st (Block.updWarp_same b _ fun x => { x with st := .done })
  | _ => exact h.blockKept.warp.st rfl

/-- An arrival records the pc of its warp (41_pipeline_sync R107). -/
theorem BlockEffect.arrived_of_bar {s : State} {b b' : Block} (h : BlockEffect .bar s b b') :
    b'.arrived[s.cur.w] = some b.warps[s.cur.w].pc := by
  cases h
  exact Vector.getElem_set_self _

/-- No command changes what another warp recorded. -/
theorem BlockEffect.arrived_other {i : Instr} {s : State} {b b' : Block} (h : BlockEffect i s b b') {v : WarpId}
    (hv : v ≠ s.cur.w) : b'.arrived[v] = b.arrived[v] := by
  by_cases hbar : i = .bar
  · subst hbar
    cases h
    exact Vector.getElem_set_ne s.cur.w.isLt v.isLt fun e => hv (Fin.ext e.symm)
  · rw [h.blockKept.arrived hbar]

/-- The warp that executes the command at its pc is in step after it. -/
theorem BlockEffect.warpInStep {i : Instr} {s : State} {b b' : Block} {cs : List Cmd} {word : Cmd}
    (h : BlockEffect i s b b') (hfits : streamFits cs) (hb : BlockInStep cs b) (hrun : b.warps[s.cur.w].st = .run)
    (hw : cs[b.warps[s.cur.w].pc.toNat]? = some word) (hd : decode word = .ok i) :
    WarpInStep cs b.gen b'.warps[s.cur.w].pc b'.warps[s.cur.w].st b'.arrived[s.cur.w] := by
  have hx := hb s.cur.w
  obtain ⟨hstays, hadvances⟩ := h.blockKept.pc
  rw [h.st, hrun]
  rw [hrun] at hx
  by_cases hbar : i = .bar
  · subst hbar
    rw [hstays (.inl rfl), h.arrived_of_bar]
    exact hx.arrive (decode_eq_bar.1 hd ▸ hw)
  · rw [h.blockKept.arrived hbar]
    by_cases hend : i = .endWarp
    · subst hend
      rw [hstays (.inr (.inl rfl))]
      exact hx.finish (decode_eq_endWarp.1 hd ▸ hw)
    · have hst : stAfter i .run = .run := by cases i <;> first | rfl | contradiction
      rw [hst]
      by_cases hi : LeavesPc i b.warps[s.cur.w]
      · rw [hstays hi]
        exact hx
      · rw [hadvances hi]
        refine hx.advance hfits hw ?_ ?_ <;> rintro rfl
        · exact hbar (Except.ok.inj (hd.symm.trans decode_barWord))
        · exact hend (Except.ok.inj (hd.symm.trans decode_endWord))

theorem Block.released_arrived (b : Block) (w : WarpId) : b.released.arrived[w] = none := by simp [Block.released]

theorem Block.mismatched_arrived (b : Block) (w : WarpId) : b.mismatched.arrived[w] = none := by
  simp [Block.mismatched]

/-- Every step of a block's agents keeps its warps in step. -/
theorem BlockStep.blockInStep {s t : State} {blk : Nat} {b b' : Block} (h : BlockStep s t blk b b')
    (hfits : streamFits s.cs) (hb : BlockInStep s.cs b) : BlockInStep s.cs b' := by
  intro v
  cases h with
  | fault w r _ run _ block =>
    subst block
    by_cases hv : v = w
    · subst hv
      have ha := (hb v).arrived
      rw [Block.faultedWith_same]
      rw [run] at ha
      exact ha ▸ (hb v).fault
    · rw [Block.faultedWith_other b r hv]
      exact hb v
  | command w i word _ run fetched decoded effect _ =>
    obtain ⟨-, -, hgen, -⟩ := effect.blockKept.identity
    rw [hgen]
    by_cases hv : v = w
    · subst hv
      exact effect.warpInStep hfits hb run fetched decoded
    · rw [effect.blockKept.otherWarps v hv, effect.arrived_other hv]
      exact hb v
  | copy w place r _ _ block _ =>
    subst block
    rw [Block.performed_gen, Block.performed_pc, Block.performed_st, Block.performed_arrived]
    exact hb v
  | released _ enabled block =>
    subst block
    have hx := hb v
    rw [Block.releaseEnabled_iff.1 enabled v] at hx
    rw [Block.released_warp, Block.released_arrived]
    exact hx.release hfits
  | mismatched _ _ _ block =>
    subst block
    rw [Block.mismatched_warp, Block.mismatched_arrived]
    exact (hb v).fault

/-! ## No fault, and no end, while the invocation runs -/

/-- A block without a fault record or a FAULTED warp. -/
def Block.faultFree (b : Block) : Prop := b.log = [] ∧ ∀ w : WarpId, b.warps[w].st ≠ .faulted

/-- A step that leaves the invocation not FAILED leaves its block without a fault. -/
theorem BlockStep.faultFree {s t : State} {blk : Nat} {b b' : Block} (h : BlockStep s t blk b b') (ht : t.inv ≠ .failed)
    (hb : b.faultFree) : b'.faultFree := by
  obtain ⟨hlog, hst⟩ := hb
  cases h with
  | fault _ _ _ _ failed => exact absurd failed ht
  | mismatched _ _ failed => exact absurd failed ht
  | command w i word _ run _ _ effect _ =>
    obtain ⟨-, -, -, hkept⟩ := effect.blockKept.identity
    refine ⟨hkept.trans hlog, fun v => ?_⟩
    by_cases hv : v = w
    · subst hv
      have he : b'.warps[v].st = stAfter i .run := effect.st.trans (congrArg (stAfter i) run)
      rw [he]
      exact stAfter_run_ne_faulted i
    · rw [effect.blockKept.otherWarps v hv]
      exact hst v
  | copy w place r _ _ block _ =>
    subst block
    refine ⟨(Block.performed_log b w place r).trans hlog, fun v => ?_⟩
    rw [Block.performed_st]
    exact hst v
  | released _ _ block =>
    subst block
    refine ⟨hlog, fun v => ?_⟩
    rw [Block.released_warp]
    simp

/-- A block with a warp that is not DONE has not ended. -/
theorem ended_eq_false_of_st {b : Block} {w : WarpId} (h : b.warps[w].st ≠ .done) : b.ended = false := by
  rw [Block.ended, List.all_eq_false]
  exact ⟨w, List.mem_finRange w, by rw [decide_eq_false h]; simp⟩

/-- A settled machine that still runs has a block that has not ended or has a fault record (46_sequencer R154). -/
theorem not_all_ended_of_settle {u : State} (h : u.settle.inv = .running) :
    ∃ b ∈ u.blocks, b.ended = false ∨ b.log ≠ [] := by
  unfold State.settle at h
  split at h
  · cases h
  · next hn =>
    obtain ⟨b, hb, hne⟩ := List.all_eq_false.1 (Bool.eq_false_iff.2 fun hc => hn ⟨h, hc⟩)
    rw [Bool.and_eq_true, List.isEmpty_iff, not_and_or, Bool.not_eq_true] at hne
    exact ⟨b, hb, hne⟩

/-- A step of one block that leaves the invocation RUNNING leaves a block that has not ended, or has a fault record. -/
theorem OneBlockStep.not_all_ended {s t : State} {blk : Nat} {b b' : Block} (h : OneBlockStep s t blk b b')
    (ht : t.inv = .running) : ∃ c ∈ t.blocks, c.ended = false ∨ c.log ≠ [] := by
  have hmem : b' ∈ t.blocks := by
    rw [h.after]
    exact List.mem_set (List.getElem?_eq_some_iff.1 h.before).1 _
  cases h.step with
  | fault _ _ _ _ failed => cases failed.symm.trans ht
  | mismatched _ _ failed => cases failed.symm.trans ht
  | released _ _ block =>
    refine ⟨b', hmem, .inl (ended_eq_false_of_st (w := 0) ?_)⟩
    rw [block, Block.released_warp]
    simp
  | copy w place r _ _ _ result =>
    subst result
    obtain ⟨c, hc, hce⟩ := not_all_ended_of_settle ht
    exact ⟨c, by rwa [State.performCopy, State.settle_blocks], hce⟩
  | command w i word _ run _ _ effect result =>
    by_cases hend : i = .endWarp
    · subst hend result
      obtain ⟨c, hc, hce⟩ := not_all_ended_of_settle ht
      exact ⟨c, by rwa [finish, State.settle_blocks], hce⟩
    · refine ⟨b', hmem, .inl (ended_eq_false_of_st (w := w) ?_)⟩
      have he : b'.warps[w].st = stAfter i .run := effect.st.trans (congrArg (stAfter i) run)
      rw [he]
      exact stAfter_run_ne_done hend

/-! ## The invariant -/

theorem InStep.blockInStep {s : State} (h : InStep s) {b : Block} (hb : b ∈ s.blocks) : BlockInStep s.cs b :=
  fun w => ⟨h.bars b hb w, h.ends b hb w, h.atBar b hb w, h.atEnd b hb w, h.arrived b hb w⟩

theorem InStep.faultFree {s : State} (h : InStep s) (hi : s.inv ≠ .failed) {b : Block} (hb : b ∈ s.blocks) :
    b.faultFree :=
  ⟨h.logs hi b hb, fun w hw => hi (h.faulted b hb w hw)⟩

/-- The invariant, block by block. -/
theorem InStep.of_blocks {s : State} (hfits : streamFits s.cs) (hb : ∀ b ∈ s.blocks, BlockInStep s.cs b)
    (hf : s.inv ≠ .failed → ∀ b ∈ s.blocks, b.faultFree)
    (he : s.inv = .running → ∃ b ∈ s.blocks, b.ended = false ∨ b.log ≠ []) : InStep s where
  stream := hfits
  bars b hm w := (hb b hm w).bars
  ends b hm w := (hb b hm w).ends
  atBar b hm w := (hb b hm w).atBar
  atEnd b hm w := (hb b hm w).atEnd
  faulted b hm w hw := by
    by_contra hi
    exact (hf hi b hm).2 w hw
  logs hi b hm := (hf hi b hm).1
  arrived b hm w := (hb b hm w).arrived
  notEnded hi := by
    obtain ⟨b, hm, hend⟩ := he hi
    exact ⟨b, hm, hend.resolve_right (not_not.2 (hf (by simp [hi]) b hm).1)⟩

/-- A step of one block of a RUNNING invocation keeps the warps in step. -/
theorem OneBlockStep.inStep {s t : State} {blk : Nat} {b b' : Block} (h : OneBlockStep s t blk b b') (hs : InStep s)
    (hi : s.inv = .running) (hcs : t.cs = s.cs) : InStep t := by
  have hb : b ∈ s.blocks := List.mem_of_getElem? h.before
  have hblocks : ∀ c ∈ t.blocks, c ∈ s.blocks ∨ c = b' := fun c hc => List.mem_or_eq_of_mem_set (h.after ▸ hc)
  refine .of_blocks (hcs ▸ hs.stream) (fun c hc => ?_) (fun hf c hc => ?_) h.not_all_ended
  · rw [hcs]
    rcases hblocks c hc with hc | rfl
    · exact hs.blockInStep hc
    · exact h.step.blockInStep hs.stream (hs.blockInStep hb)
  · have hr : s.inv ≠ .failed := by simp [hi]
    rcases hblocks c hc with hc | rfl
    · exact hs.faultFree hr hc
    · exact h.step.faultFree hf (hs.faultFree hr hb)

end Sys2Proof.Machine
end

section
/-! A launch starts every block at its reset, with its warps in step, or refuses and leaves no block (10_state R39, R40,
60_exceptions R163 to R165, 46_sequencer R149, R150, R153). -/

namespace Sys2Proof.Machine
open Sys2Proof.Claims

/-! ## The length of the canonical stream -/

/-- A stream built from `n` parts of at most `k` commands each. -/
theorem length_flatMap_range_le {α : Type} {f : Nat → List α} {k : Nat} (n : Nat) (h : ∀ j, (f j).length ≤ k) :
    ((List.range n).flatMap f).length ≤ n * k := by
  induction n with
  | zero => simp
  | succ n ih =>
    have := h n
    rw [List.range_succ, List.flatMap_append, List.length_append, Nat.succ_mul]
    simp only [List.flatMap_singleton]
    omega

theorem length_loadStage (t j : Nat) : (loadStage t j).length = 3 := rfl

theorem length_prologueIter_le (t j : Nat) : (prologueIter t j).length ≤ 4 := by
  unfold prologueIter
  split <;> simp [length_loadStage]

theorem length_pseudoCompute (ph : Phase) (slot : Fin 4) : (pseudoCompute ph slot).length = 52 := by
  simp [pseudoCompute, pseudoKstep, List.length_flatMap]

theorem length_foldStage_le (t j : Nat) : (foldStage t j).length ≤ 2 := by
  unfold foldStage
  split <;> simp [pseudoFold]

theorem length_mainIter_le (t j : Nat) : (mainIter t j).length ≤ 60 := by
  have := length_foldStage_le t j
  unfold mainIter
  split <;> simp only [List.length_append, length_loadStage, length_pseudoCompute, List.length_cons, List.length_nil] <;>
    omega

theorem length_canonical_le (t sz : Nat) : (canonical t sz).length ≤ 3 * 4 + (t + 2) * 60 + (4 * sz + 5) := by
  have hp := length_flatMap_range_le 3 (length_prologueIter_le t)
  have hm := length_flatMap_range_le (t + 2) (length_mainIter_le t)
  have he : (pseudoEpilogue sz).length = 4 * sz + 5 := by simp [pseudoEpilogue]
  rw [canonical, List.length_append, List.length_append, he]
  omega

theorem szOf_le (b : BitVec 2) : szOf b ≤ 4 := by
  unfold szOf
  split <;> decide

/-- The stream of a launch that passes the dimension check fits the program counter (46_sequencer R145, R150). -/
theorem streamFits_stream {r : LaunchRecord} (h : DimsPass r) : streamFits (r.stream r.params.derive) := by
  unfold LaunchRecord.stream
  split
  · next cs _ => exact cs.property
  · have ht : r.params.derive.t ≤ 65536 := by
      obtain ⟨-, -, hk⟩ := toNat_params_of_dimsPass h
      obtain ⟨-, -, -, -, -, ht, -⟩ := h
      rwa [Params.derive_t, hk]
    have hsz : r.params.derive.sz ≤ 4 := szOf_le _
    have hl := length_canonical_le r.params.derive.t r.params.derive.sz
    rw [streamFits, canonicalWords, List.length_map]
    omega

/-! ## The blocks of a launch -/

theorem mem_gridOf {gm gn : Nat} {b : Block} : b ∈ gridOf gm gn ↔
    ∃ bm < gm, ∃ bn < gn, Block.reset (BitVec.ofNat 32 bm) (BitVec.ofNat 32 bn) = b := by
  simp [gridOf]

theorem Block.reset_warp (bm bn : U32) (w : WarpId) : (Block.reset bm bn).warps[w] = Warp.reset :=
  Vector.getElem_replicate w.isLt

theorem Block.reset_arrived (bm bn : U32) (w : WarpId) : (Block.reset bm bn).arrived[w] = none :=
  Vector.getElem_replicate w.isLt

theorem getElem_accFill (v : BitVec 32) (mi : Fin 2) (ni : Fin 8) (r : Fin 16) (c : Fin 8) :
    (accFill v)[mi][ni][r][c] = v := by
  simp [accFill]

theorem warpAtReset_reset : WarpAtReset Warp.reset where
  pc := rfl
  st := rfl
  iacc := getElem_accFill 0
  facc := getElem_accFill 0
  fa mi := Vector.getElem_replicate mi.isLt
  fb ni := Vector.getElem_replicate ni.isLt
  scales := ⟨rfl, rfl⟩
  copies := ⟨rfl, rfl⟩

theorem blockAtReset_reset (bm bn : U32) : BlockAtReset (Block.reset bm bn) where
  warps w := Block.reset_warp bm bn w ▸ warpAtReset_reset
  gen := rfl
  arrived := Block.reset_arrived bm bn
  tags _ := ⟨rfl, rfl, rfl, fun w => Vector.getElem_replicate w.isLt⟩
  log := rfl

/-- A launch is refused, with no block and no stream, or it starts the grid of arguments that pass the dimension check. -/
theorem launch_refused_or_started (s : State) (r : LaunchRecord) :
    ((s.launch r).blocks = [] ∧ (s.launch r).cs = [] ∧ (s.launch r).inv = .rejected) ∨
    (DimsPass r ∧ s.launch r = s.started r) := by
  unfold State.launch
  dsimp only
  split
  · split
    · exact .inl ⟨rfl, rfl, rfl⟩
    · next hc => exact .inr ⟨(launchCheck_eq_none.1 hc).1, rfl⟩
  · exact .inl ⟨rfl, rfl, rfl⟩

/-- Every block after a launch is at its reset (10_state R39). -/
theorem exists_reset_of_mem_launch {s : State} {r : LaunchRecord} {b : Block} (hb : b ∈ (s.launch r).blocks) :
    ∃ bm bn, b = Block.reset bm bn := by
  rcases launch_refused_or_started s r with ⟨h, -, -⟩ | ⟨-, h⟩
  · rw [h] at hb
    cases hb
  · rw [h] at hb
    obtain ⟨bm, -, bn, -, rfl⟩ := mem_gridOf.1 hb
    exact ⟨_, _, rfl⟩

/-! ## The launch and the lock step -/

theorem blockInStep_reset (cs : List Cmd) (bm bn : U32) : BlockInStep cs (Block.reset bm bn) := by
  intro w
  rw [Block.reset_warp, Block.reset_arrived]
  exact warpInStep_reset

theorem faultFree_reset (bm bn : U32) : (Block.reset bm bn).faultFree := by
  refine ⟨rfl, fun w => ?_⟩
  rw [Block.reset_warp]
  simp [Warp.reset]

theorem ended_reset (bm bn : U32) : (Block.reset bm bn).ended = false := by
  refine ended_eq_false_of_st (w := 0) ?_
  rw [Block.reset_warp]
  simp [Warp.reset]

/-- The grid of arguments that pass the dimension check has a block. -/
theorem exists_reset_mem_started {s : State} {r : LaunchRecord} (h : DimsPass r) :
    ∃ bm bn, Block.reset bm bn ∈ (s.started r).blocks := by
  obtain ⟨hm, hn, -⟩ := toNat_params_of_dimsPass h
  obtain ⟨hm1, hn1, -⟩ := h
  have hgm : 0 < r.params.derive.gm := by
    have : r.params.derive.gm = (r.params.m.toNat + 127) / 128 := rfl
    omega
  have hgn : 0 < r.params.derive.gn := by
    have : r.params.derive.gn = r.params.n.toNat / 128 := rfl
    omega
  exact ⟨_, _, mem_gridOf.2 ⟨0, hgm, 0, hgn, rfl⟩⟩

/-- Every launch leaves the warps of its blocks in step, at the start of the stream. -/
theorem launch_inStep (s : State) (r : LaunchRecord) : InStep (s.launch r) := by
  refine .of_blocks ?_ (fun b hb => ?_) (fun _ b hb => ?_) (fun hi => ?_)
  · rcases launch_refused_or_started s r with ⟨-, h, -⟩ | ⟨hd, h⟩
    · rw [h, streamFits]
      decide
    · rw [h]
      exact streamFits_stream hd
  · obtain ⟨bm, bn, rfl⟩ := exists_reset_of_mem_launch hb
    exact blockInStep_reset _ bm bn
  · obtain ⟨bm, bn, rfl⟩ := exists_reset_of_mem_launch hb
    exact faultFree_reset bm bn
  · rcases launch_refused_or_started s r with ⟨-, -, h⟩ | ⟨hd, h⟩
    · cases h.symm.trans hi
    · obtain ⟨bm, bn, hb⟩ := exists_reset_mem_started (s := s) hd
      exact ⟨_, h ▸ hb, .inl (ended_reset bm bn)⟩

/-- An idle step keeps the warps in step. -/
theorem InStep.choiceTaken {s : State} (h : InStep s) : InStep s.choiceTaken := { h with }

/-- Settles O42: an idle step changes no warp, a step of one block keeps each of its warps in step, and a launch starts
all of them at the start of the stream. -/
theorem stepKeepsWarpsInStep : Obligations.StepKeepsWarpsInStep := by
  intro s t hs h
  rcases step_cases h with rfl | ⟨hi, hk, blk, b, b', hone⟩ | ⟨-, u, r, rfl⟩
  · exact hs.choiceTaken
  · exact hone.inStep hs hi hk.invocation.cs
  · exact launch_inStep u r

/-! ## Reset -/

/-- Settles O44: a machine without a block, whose memory is empty, meets every invariant. -/
theorem resetMeetsTheInvariants : Obligations.ResetMeetsTheInvariants := by
  have hnone : ∀ b, b ∉ State.reset.blocks := fun _ => List.not_mem_nil
  refine ⟨?_, ?_, rfl, ?_, launchOk_of_no_blocks rfl, rfl, rfl⟩
  · exact ⟨rfl, rfl, fun b hb => absurd hb (hnone b), fun b hb => absurd hb (hnone b)⟩
  · constructor <;> exact fun b hb => absurd hb (hnone b)
  · exact .of_blocks (by rw [streamFits]; decide) (fun b hb => absurd hb (hnone b))
      (fun _ b hb => absurd hb (hnone b)) nofun

/-! ## What a launch forgets -/

/-- A launch writes every field but the configuration and the model's own, from its record and the configuration. -/
theorem launch_eq_of_cfg {s s' : State} (r : LaunchRecord) (h : s.cfg = s'.cfg) : s.launch r =
    { s'.launch r with sched := s.sched, tick := s.tick, draws := s.draws, cur := s.cur, launches := s.launches } := by
  unfold State.launch
  rw [h]
  dsimp only
  split
  · split <;> simp only [State.withArguments, h]
  · simp only [State.withArguments, h]

/-- The step of a host that has a record to launch, while no invocation runs, launches it. -/
theorem step_of_host {s : State} {r : LaunchRecord} {rest : List LaunchRecord} (ha : s.nextAgent = .host)
    (hl : s.launches = r :: rest) (hi : s.inv ≠ .running) :
    step s = .next (({ s.choiceTaken with launches := rest } : State).launch r) := by
  simp [step, ha, State.agentStep, State.hostStep, hl, hi]

/-- Settles O49: what a launch writes, it writes from its record and the configuration. -/
theorem launchForgetsEarlierInvocations : Obligations.LaunchForgetsEarlierInvocations := by
  refine ⟨fun s r rest ha hl hi => step_of_host ha hl hi, fun s s' r h => ?_⟩
  dsimp only
  rw [launch_eq_of_cfg r h]
  refine ⟨rfl, rfl, rfl, rfl, rfl, rfl, rfl, rfl, rfl, rfl, fun b hb => ?_⟩
  obtain ⟨bm, bn, rfl⟩ := exists_reset_of_mem_launch (s := s') hb
  exact blockAtReset_reset bm bn

end Sys2Proof.Machine
end

section
/-! Which choices of an agent only use up the choice, and that every enabled step changes a block or launches (10_state R31,
41_pipeline_sync R102, R107, R109, 45_epilogue R141, 46_sequencer R144; log 2). -/

namespace Sys2Proof.Machine
open Sys2Proof.Claims

/-! ## When no agent of a block is enabled -/

/-- A warp holds at a WAIT of a group with an unperformed record (46_sequencer R144, 41_pipeline_sync R106). -/
theorem warpHolds_iff {s : State} {b : Block} {w : WarpId} : b.warpHolds s w = true ↔ HoldsAtWait s b w := by
  unfold Block.warpHolds HoldsAtWait
  simp only [← waitHolds_iff]
  rw [State.fetch]
  cases s.cs[b.warps[w].pc.toNat]? with
  | none => simp
  | some word =>
    simp only [Option.some.injEq, exists_and_left, exists_eq_left']
    split
    · next n hd => simp [hd]
    · next hd =>
      simp only [Bool.false_eq_true, false_iff, not_exists, not_and]
      exact fun n h => absurd h (hd n)

theorem warpEnabled_iff {s : State} {b : Block} {w : WarpId} :
    b.warpEnabled s w = true ↔ b.warps[w].st = .run ∧ ¬HoldsAtWait s b w := by
  rw [Block.warpEnabled, Bool.and_eq_true, decide_eq_true_eq, Bool.not_eq_true', ← Bool.not_eq_true, warpHolds_iff]

theorem copyEnabled_iff {b : Block} : b.copyEnabled = true ↔ CopyWaits b := by
  simp [Block.copyEnabled, CopyWaits]

/-- No agent of a block is enabled exactly where `NoneEnabled` says so. -/
theorem enabled_eq_false {s : State} {b : Block} : b.enabled s = false ↔ NoneEnabled s b := by
  rw [Block.enabled, Bool.or_eq_false_iff, Bool.or_eq_false_iff, List.any_eq_false, ← Bool.not_eq_true b.copyEnabled,
    copyEnabled_iff, ← Bool.not_eq_true b.releaseEnabled, Block.releaseEnabled_iff, NoneEnabled, and_assoc, not_forall]
  simp only [List.mem_finRange, true_implies, warpEnabled_iff, not_and, not_not]

/-- The machine is stuck exactly where the invocation runs and no agent of any block is enabled (41_pipeline_sync R109). -/
theorem stuck_iff {s : State} : s.stuck = true ↔ s.inv = .running ∧ ∀ b ∈ s.blocks, NoneEnabled s b := by
  simp only [State.stuck, Bool.and_eq_true, decide_eq_true_eq, List.all_eq_true, Bool.not_eq_true', enabled_eq_false]

theorem idleStep_of_not_stuck {s : State} (h : ¬(s.inv = .running ∧ ∀ b ∈ s.blocks, NoneEnabled s b)) :
    s.idleStep = .next s := by
  rw [State.idleStep, if_neg (stuck_iff.not.2 h)]

/-- A choice that idles in a machine that is not stuck only uses up the choice. -/
theorem step_of_idle {s : State} (h : s.choiceTaken.agentStep s.nextAgent = s.choiceTaken.idleStep)
    (hs : ¬(s.inv = .running ∧ ∀ b ∈ s.blocks, NoneEnabled s b)) : step s = .next s.choiceTaken := by
  rw [step, h]
  exact idleStep_of_not_stuck hs

/-! ## Agents without an enabled step -/

section Idle
variable {s : State} {blk : Nat} {w : WarpId}

theorem warpStep_idle (h : ∀ b, s.blocks[blk]? = some b → ¬(s.inv = .running ∧ b.warps[w].st = .run)) :
    s.warpStep blk w = s.idleStep := by
  unfold State.warpStep
  split
  · rfl
  · next b hb => rw [if_neg (h b hb)]

theorem copyStep_idle {place : CopyPlace} (h : s.agentEnabled (.copy blk w place) = false) :
    s.copyStep blk w place = s.idleStep := by
  rw [← Bool.not_eq_true, agentEnabled_copy] at h
  unfold State.copyStep
  split
  · rfl
  · next b hb =>
    split
    · rfl
    · next r hr => rw [if_neg fun hi => h ⟨hi, b, r, hb, hr⟩]

theorem barrierStep_idle (h : s.agentEnabled (.barrier blk) = false) : s.barrierStep blk = s.idleStep := by
  rw [← Bool.not_eq_true, agentEnabled_barrier] at h
  unfold State.barrierStep
  split
  · rfl
  · next b hb => rw [if_neg fun hi => h ⟨hi.1, b, hb, hi.2⟩]

theorem hostStep_idle (h : s.agentEnabled .host = false) : s.hostStep = s.idleStep := by
  rw [← Bool.not_eq_true, agentEnabled_host] at h
  unfold State.hostStep
  split
  · rfl
  · next r rest hl =>
    split
    · rfl
    · next hi => exact absurd ⟨hi, by simp [hl]⟩ h

/-- A WAIT that holds changes nothing but the name of the current warp. -/
theorem warpStep_of_holds {b : Block} (hb : s.blocks[blk]? = some b) (hi : s.inv = .running)
    (hrun : b.warps[w].st = .run) (h : HoldsAtWait s b w) : s.warpStep blk w = .next (s.asWarp blk w) := by
  obtain ⟨word, n, hf, hd, hg⟩ := h
  have hw : b.warps[w].waitHolds n = true := waitHolds_iff.2 hg
  have hb' : (s.asWarp blk w).block? = some b := hb
  have heff : BlockEffect (.wait n) (s.asWarp blk w) b b := Or.inl ⟨hw, rfl⟩
  have he : exec (.wait n) (s.asWarp blk w) = .next (s.asWarp blk w) :=
    (exec_of_effect hb' heff).trans (congrArg _ (setBlock_self hb'))
  simp only [State.warpStep, hb, hi, hrun, and_self, if_true, State.fetch, hf, hd, he]

/-- An agent without an enabled step idles, or is a warp that holds at a WAIT. -/
theorem agentStep_of_not_enabled {a : Agent} (h : s.agentEnabled a = false) :
    s.agentStep a = s.idleStep ∨ ∃ c, s.agentStep a = .next { s with cur := c } := by
  cases a with
  | warp blk w =>
    rw [← Bool.not_eq_true, agentEnabled_warp] at h
    by_cases hrun : ∃ b, s.blocks[blk]? = some b ∧ s.inv = .running ∧ b.warps[w].st = .run
    · obtain ⟨b, hb, hi, hst⟩ := hrun
      have hholds : HoldsAtWait s b w := by
        by_contra hn
        exact h ⟨hi, b, hb, warpEnabled_iff.2 ⟨hst, hn⟩⟩
      exact .inr ⟨⟨blk, w⟩, warpStep_of_holds hb hi hst hholds⟩
    · exact .inl (warpStep_idle fun b hb hc => hrun ⟨b, hb, hc⟩)
  | copy blk w place => exact .inl (copyStep_idle h)
  | barrier blk => exact .inl (barrierStep_idle h)
  | host => exact .inl (hostStep_idle h)

end Idle

/-- Where no invocation runs only the host can step. -/
theorem agentStep_of_not_running {s : State} {a : Agent} (hi : s.inv ≠ .running) (ha : a ≠ .host) :
    s.agentStep a = s.idleStep := by
  cases a with
  | warp blk w => exact warpStep_idle fun _ _ hc => hi hc.1
  | copy blk w place => exact copyStep_idle (by simp [State.agentEnabled, hi])
  | barrier blk => exact barrierStep_idle (by simp [State.agentEnabled, hi])
  | host => exact absurd rfl ha

/-! ## Enabled steps change a block or launch -/

/-- A block put in the place of a different one changes the grid. -/
theorem set_ne_self {bs : List Block} {i : Nat} {b b' : Block} (hb : bs[i]? = some b) (h : b' ≠ b) : bs.set i b' ≠ bs := by
  intro he
  obtain ⟨hlt, -⟩ := List.getElem?_eq_some_iff.1 hb
  have hat := congrArg (·[i]?) he
  simp only [List.getElem?_set_self hlt, hb, Option.some.injEq] at hat
  exact h hat

/-- A command that is no WAIT that holds changes its block: its warp's pc, or its ST. -/
theorem BlockEffect.ne {i : Instr} {s : State} {b b' : Block} (h : BlockEffect i s b b')
    (hrun : b.warps[s.cur.w].st = .run) (hw : ∀ n, i = .wait n → b.warps[s.cur.w].waitHolds n ≠ true) : b' ≠ b := by
  rintro rfl
  by_cases hi : LeavesPc i b'.warps[s.cur.w]
  · have hst := h.st
    rw [hrun] at hst
    rcases hi with rfl | rfl | ⟨n, rfl, hg⟩
    · cases hst
    · cases hst
    · exact hw n rfl (waitHolds_iff.2 hg)
  · have hpc := h.blockKept.pc.2 hi
    simp at hpc

theorem Block.faultedWith_ne (b : Block) (w : WarpId) (r : FaultRecord) : b.faultedWith w r ≠ b := by
  intro h
  have hlog : b.log ++ [r] = b.log := congrArg Block.log h
  simp at hlog

/-- A fault changes the block of the current warp. -/
theorem raise_blocks_ne {s : State} {b : Block} (hb : s.block? = some b) (c : Cause) : (s.raise b c).blocks ≠ s.blocks :=
  set_ne_self hb (b.faultedWith_ne s.cur.w _)

theorem Block.released_ne (b : Block) : b.released ≠ b := by
  intro h
  have hgen : b.gen + 1 = b.gen := congrArg Block.gen h
  simp at hgen

theorem Block.mismatched_ne (b : Block) : b.mismatched ≠ b := by
  intro h
  have hlog := congrArg Block.log h
  simp [Block.mismatched] at hlog

theorem recordAt_performAt {x : Warp} {place : CopyPlace} {r : CopyRecord} (h : x.recordAt place = some r) :
    (x.performAt place).recordAt place = some r.perform := by
  cases place with
  | inOpen k =>
    have hk : x.openGrp[k]? = some r := h
    simp [Warp.recordAt, Warp.performAt, hk]
  | inGroup g k =>
    obtain ⟨grp, hg, hk⟩ := Option.bind_eq_some_iff.1 (show x.groups[g]?.bind (fun grp => grp[k]?) = some r from h)
    simp [Warp.recordAt, Warp.performAt, hg, hk]

theorem toPerform_eq_some {b : Block} {w : WarpId} {place : CopyPlace} {r : CopyRecord} :
    b.toPerform w place = some r ↔ b.warps[w].recordAt place = some r ∧ r.performed = false := by
  simp [Block.toPerform, Option.filter_eq_some_iff]

/-- A copy that lands sets the performed flag of its record. -/
theorem Block.performed_ne {b : Block} {w : WarpId} {place : CopyPlace} {r : CopyRecord}
    (h : b.toPerform w place = some r) : b.performed w place r ≠ b := by
  intro he
  obtain ⟨hr, hnot⟩ := toPerform_eq_some.1 h
  have hp := recordAt_performAt hr
  rw [← Block.performed_same b w place r, he, hr, Option.some.injEq] at hp
  rw [hp] at hnot
  cases hnot

section Enabled
variable {s : State} {blk : Nat} {w : WarpId}

/-- A warp step that is enabled changes its block: it raises a fault, or completes a command. -/
theorem warpStep_changes (h : s.agentEnabled (.warp blk w) = true) :
    ∃ t, s.warpStep blk w = .next t ∧ t.blocks ≠ s.blocks := by
  obtain ⟨hi, b, hb, he⟩ := agentEnabled_warp.1 h
  obtain ⟨hrun, hn⟩ := warpEnabled_iff.1 he
  simp only [State.warpStep, hb, hi, hrun, and_self, if_true]
  cases hf : s.fetch b w with
  | none => exact ⟨_, rfl, raise_blocks_ne (s := s.asWarp blk w) hb .pcOverrun⟩
  | some word =>
    cases hd : decode word with
    | error e => exact ⟨_, by simp only [hd], raise_blocks_ne (s := s.asWarp blk w) hb .illegalCmd⟩
    | ok i =>
      rcases exec_stops i (s.asWarp blk w) with ⟨t, ht⟩ | ⟨hnone, -⟩
      · refine ⟨t, by simp only [hd]; exact ht, ?_⟩
        obtain ⟨b₁, hb₁, ⟨c, rfl⟩ | ⟨b', heff, rfl⟩⟩ := exec_next ht <;>
          obtain rfl := Option.some.inj (hb.symm.trans hb₁)
        · exact raise_blocks_ne (s := s.asWarp blk w) hb c
        · rw [finish_blocks]
          refine set_ne_self hb (heff.ne hrun fun n hin hw => hn ?_)
          subst hin
          exact ⟨word, n, hf, hd, waitHolds_iff.1 hw⟩
      · cases hb.symm.trans hnone

theorem copyStep_changes {place : CopyPlace} (h : s.agentEnabled (.copy blk w place) = true) :
    ∃ t, s.copyStep blk w place = .next t ∧ t.blocks ≠ s.blocks := by
  obtain ⟨hi, b, r, hb, hr⟩ := agentEnabled_copy.1 h
  refine ⟨s.performCopy blk b w place r, by simp only [State.copyStep, hb, hr, hi, if_true], ?_⟩
  rw [State.performCopy, State.settle_blocks]
  exact set_ne_self hb (Block.performed_ne hr)

theorem barrierStep_changes (h : s.agentEnabled (.barrier blk) = true) :
    ∃ t, s.barrierStep blk = .next t ∧ t.blocks ≠ s.blocks := by
  obtain ⟨hi, b, hb, he⟩ := agentEnabled_barrier.1 h
  refine ⟨s.release blk b, by simp only [State.barrierStep, hb, hi, he, and_self, if_true], ?_⟩
  unfold State.release
  split
  · exact set_ne_self hb b.released_ne
  · exact set_ne_self hb b.mismatched_ne

/-- A launch leaves the host's queue as it is. -/
theorem launch_launches (s : State) (r : LaunchRecord) : (s.launch r).launches = s.launches := by
  unfold State.launch
  dsimp only
  split
  · split <;> rfl
  · rfl

theorem hostStep_changes (h : s.agentEnabled .host = true) : ∃ t, s.hostStep = .next t ∧ t.launches ≠ s.launches := by
  obtain ⟨hi, hne⟩ := agentEnabled_host.1 h
  obtain ⟨r, rest, hl⟩ := List.exists_cons_of_ne_nil hne
  refine ⟨({ s with launches := rest } : State).launch r, by simp only [State.hostStep, hl, hi, if_false], ?_⟩
  rw [launch_launches, hl]
  exact (List.cons_ne_self r rest).symm

/-- An enabled agent's step changes a block or takes a record from the host's queue. -/
theorem agentStep_changes {a : Agent} (h : s.agentEnabled a = true) :
    ∃ t, s.agentStep a = .next t ∧ (t.blocks ≠ s.blocks ∨ t.launches ≠ s.launches) := by
  cases a with
  | warp blk w => obtain ⟨t, ht, hne⟩ := warpStep_changes h; exact ⟨t, ht, .inl hne⟩
  | copy blk w place => obtain ⟨t, ht, hne⟩ := copyStep_changes h; exact ⟨t, ht, .inl hne⟩
  | barrier blk => obtain ⟨t, ht, hne⟩ := barrierStep_changes h; exact ⟨t, ht, .inl hne⟩
  | host => obtain ⟨t, ht, hne⟩ := hostStep_changes h; exact ⟨t, ht, .inr hne⟩

end Enabled

/-! ## The statement -/

theorem agentEnabled_choiceTaken (s : State) (a : Agent) : s.choiceTaken.agentEnabled a = s.agentEnabled a := by
  cases a <;> rfl

/-- Settles O60: an agent without an enabled step idles or holds at a WAIT, and an enabled one changes a block
or launches. -/
theorem agentsWithoutAStepChangeNothing : Obligations.AgentsWithoutAStepChangeNothing := by
  intro s
  refine ⟨fun _ ⟨b₀, hb₀, hsome⟩ blk b hb => ?_, fun hi ha => ?_, fun hne hstuck => ?_, fun he => ?_⟩
  · have hstuck : ¬(s.inv = .running ∧ ∀ b ∈ s.blocks, NoneEnabled s b) := fun h => hsome (h.2 b₀ hb₀)
    refine ⟨fun w ha hst => step_of_idle ?_ hstuck, fun ha hw => step_of_idle ?_ hstuck,
      fun w place ha hr => step_of_idle ?_ hstuck⟩ <;> rw [ha]
    · refine warpStep_idle fun c hc hrun => hst ?_
      obtain rfl := Option.some.inj (hb.symm.trans hc)
      exact hrun.2
    · refine barrierStep_idle ?_
      rw [← Bool.not_eq_true, agentEnabled_barrier]
      rintro ⟨-, c, hc, hen⟩
      obtain rfl := Option.some.inj (hb.symm.trans hc)
      obtain ⟨w, hw⟩ := hw
      exact hw (Block.releaseEnabled_iff.1 hen w)
    · refine copyStep_idle ?_
      rw [← Bool.not_eq_true, agentEnabled_copy]
      rintro ⟨-, c, r, hc, hp⟩
      obtain rfl := Option.some.inj (hb.symm.trans hc)
      obtain ⟨hat, hnot⟩ := toPerform_eq_some.1 hp
      cases (hr r hat).symm.trans hnot
  · exact step_of_idle (agentStep_of_not_running hi ha) fun h => hi h.1
  · rw [← agentEnabled_choiceTaken] at hne
    rcases agentStep_of_not_enabled hne with h | ⟨c, h⟩
    · exact ⟨s.cur, step_of_idle h hstuck⟩
    · exact ⟨c, h⟩
  · exact agentStep_changes ((agentEnabled_choiceTaken s _).trans he)

end Sys2Proof.Machine
end

section
/-! Where the copies of one command lie: inside the scratchpad and apart from each other (20_memory R57, R58, 40_loader R87 to
R89, R96 to R98). -/

namespace Sys2Proof.Machine

/-! ## The swizzled operand regions -/

theorem swizzle_lt (s : State) (r : Nat) {cc : Nat} (h : cc < 4) : swizzle s r cc < 4 := by
  unfold swizzle
  split
  · next f _ => exact Nat.xor_lt_two_pow (n := 2) h f.isLt
  · exact Nat.xor_lt_two_pow (n := 2) h (by decide)

theorem swizzle_inj {s : State} {r cc cc' : Nat} (h : swizzle s r cc = swizzle s r cc') : cc = cc' :=
  Nat.xor_left_inj.1 h

/-- A chunk of the 128 tile rows lies in the 8192 bytes of its operand region. -/
theorem opOff_bounds (s : State) (base : Nat) {r cc : Nat} (hr : r < 128) (hcc : cc < 4) :
    base ≤ opOff s base r cc ∧ opOff s base r cc + 16 ≤ base + 8192 := by
  have := swizzle_lt s r hcc
  unfold opOff
  omega

/-- Two chunks of one operand region do not overlap. -/
theorem opOff_apart (s : State) (base : Nat) {c d : Nat} (h : c ≠ d) :
    opOff s base (c / 4) (c % 4) + 16 ≤ opOff s base (d / 4) (d % 4) ∨
      opOff s base (d / 4) (d % 4) + 16 ≤ opOff s base (c / 4) (c % 4) := by
  have hc := swizzle_lt s (c / 4) (Nat.mod_lt c four_pos)
  have hd := swizzle_lt s (d / 4) (Nat.mod_lt d four_pos)
  have hne : c / 4 = d / 4 → swizzle s (c / 4) (c % 4) ≠ swizzle s (d / 4) (d % 4) := by
    intro hr he
    rw [hr] at he
    have := swizzle_inj he
    omega
  unfold opOff
  omega

/-! ## The copies of one command -/

/-- The scratch ranges of two copies do not overlap. -/
def Chunk.Apart (c d : Chunk) : Prop := c.dst + c.n ≤ d.dst ∨ d.dst + d.n ≤ c.dst

/-- The copies `chunks` lie in the scratchpad, no two at a common byte. -/
structure WellPlaced (chunks : List Chunk) : Prop where
  inside : ∀ c ∈ chunks, c.dst + c.n ≤ 67584
  apart : chunks.Pairwise Chunk.Apart

theorem Chunk.mem_offs {c : Chunk} {off : Nat} : off ∈ c.offs ↔ c.dst ≤ off ∧ off < c.dst + c.n := List.mem_range'_1

theorem CopyRecord.mem_offs {r : CopyRecord} {off : Nat} : off ∈ r.offs ↔ r.dst ≤ off ∧ off < r.dst + r.data.length :=
  List.mem_range'_1

theorem ldgLanes_eq_product : ldgLanes = List.range 2 ×ˢ List.range 32 := rfl

theorem mem_ldgLanes {p : Nat × Nat} : p ∈ ldgLanes ↔ p.1 < 2 ∧ p.2 < 32 := by
  rw [ldgLanes_eq_product, List.mem_product, List.mem_range, List.mem_range]

theorem nodup_ldgLanes : ldgLanes.Nodup := by
  rw [ldgLanes_eq_product]
  exact List.nodup_range.product List.nodup_range

theorem chunkIdx_lt (w : WarpId) {p : Nat × Nat} (h : p ∈ ldgLanes) : chunkIdx w p.1 p.2 < 512 := by
  have := mem_ldgLanes.1 h
  unfold chunkIdx threadIdx
  omega

theorem chunkIdx_inj {w : WarpId} {p q : Nat × Nat} (hp : p ∈ ldgLanes) (hq : q ∈ ldgLanes)
    (h : chunkIdx w p.1 p.2 = chunkIdx w q.1 q.2) : p = q := by
  have := mem_ldgLanes.1 hp
  have := mem_ldgLanes.1 hq
  unfold chunkIdx threadIdx at h
  exact Prod.ext (by omega) (by omega)

/-- The copies of an LDG, each of 16 bytes at the swizzled place of its chunk, are well placed. -/
theorem wellPlaced_of_ldg (s : State) (w : WarpId) {base : Nat} (hbase : base + 8192 ≤ 67584) {f : Nat → Nat → Chunk}
    (hdst : ∀ i l, (f i l).dst = opOff s base (chunkIdx w i l / 4) (chunkIdx w i l % 4)) (hn : ∀ i l, (f i l).n = 16) :
    WellPlaced (ldgLanes.map fun p => f p.1 p.2) where
  inside c hc := by
    obtain ⟨p, hp, rfl⟩ := List.mem_map.1 hc
    have hidx := chunkIdx_lt w hp
    have hle := (opOff_bounds s base (r := chunkIdx w p.1 p.2 / 4) (by omega) (Nat.mod_lt (chunkIdx w p.1 p.2) four_pos)).2
    rw [hdst, hn]
    omega
  apart := by
    rw [List.pairwise_map]
    refine nodup_ldgLanes.imp_of_mem fun {p q} hp hq hne => ?_
    rw [Chunk.Apart, hdst, hdst, hn, hn]
    exact opOff_apart s base fun h => hne (chunkIdx_inj hp hq h)

section Commands
variable (s : State) (b : Block) (w : WarpId) (ph : Phase) (slot : Fin 4) (kt : Nat)

theorem wellPlaced_ldgA : WellPlaced (ldgAChunks s b w ph slot kt) :=
  wellPlaced_of_ldg s w (base := opaBase slot) (by unfold opaBase; omega) (fun _ _ => rfl) fun _ _ => rfl

theorem wellPlaced_ldgB : WellPlaced (ldgBChunks s b w ph slot kt) :=
  wellPlaced_of_ldg s w (base := opbBase slot) (by unfold opbBase; omega) (fun _ _ => rfl) fun _ _ => rfl

/-- The copies of the threads below 128 of an LDGS stand one after another in the scale tiles of the slot. -/
theorem ldgsChunk_place {t : Nat} {c : Chunk} (h : ldgsChunk s b ph slot kt t = some c) :
    t < 128 ∧ c.dst = scaBase slot + 4 * t ∧ c.n = 4 := by
  unfold ldgsChunk at h
  split at h
  · cases h
    exact ⟨by omega, rfl, rfl⟩
  · split at h
    · cases h
      refine ⟨by omega, ?_, rfl⟩
      show scbBase slot + 4 * (t - 64) = scaBase slot + 4 * t
      unfold scbBase scaBase
      omega
    · cases h

theorem wellPlaced_ldgs : WellPlaced (ldgsChunks s b w ph slot kt) where
  inside c hc := by
    obtain ⟨l, -, hl⟩ := List.mem_filterMap.1 hc
    obtain ⟨ht, hdst, hn⟩ := ldgsChunk_place s b ph slot kt hl
    unfold scaBase at hdst
    omega
  apart := by
    refine List.pairwise_filterMap.2 (List.nodup_range.imp ?_)
    intro l m hne c hc d hd
    obtain ⟨-, hdst, hn⟩ := ldgsChunk_place s b ph slot kt hc
    obtain ⟨-, hdst', hn'⟩ := ldgsChunk_place s b ph slot kt hd
    unfold threadIdx at hdst hdst'
    unfold Chunk.Apart
    omega

end Commands

end Sys2Proof.Machine
end

section
/-! What a command does to the scratchpad of its block and to the copy records of its warp, said once (20_memory R59 to R63,
41_pipeline_sync R101, R105, R106). -/

namespace Sys2Proof.Machine
open Sys2Proof.Claims

/-! ## Tags -/

/-- A tag is said by the list of the tags alone. -/
theorem Block.tag_congr {b c : Block} (h : b.scr = c.scr) (off : Nat) : b.tag off = c.tag off := by
  rw [Block.tag, Block.tag, h]

theorem Block.scrWf_congr {b c : Block} (h : b.scr = c.scr) : b.scrWf = c.scrWf := by
  rw [Block.scrWf, Block.scrWf, h]

/-- Writes inside the scratchpad keep its canonical form. -/
theorem Block.scrWf_writeAll {w : WarpId} {ws : List (Nat × List Byte)} {b : Block} (hb : b.scrWf = true)
    (hws : ∀ p ∈ ws, ∀ off ∈ List.range' p.1 p.2.length, off < 67584) : (b.writeAll w ws).scrWf = true := by
  induction ws generalizing b with
  | nil => exact hb
  | cons p t ih =>
    exact ih (Block.scrWf_updTags _ hb (hws p List.mem_cons_self)) fun q hq => hws q (List.mem_cons_of_mem p hq)

/-- A byte that a sequence of writes covers is a written byte, any other is as before. -/
theorem Block.tag_writeAll {w : WarpId} {ws : List (Nat × List Byte)} {b : Block} (hb : b.scrWf = true)
    (hws : ∀ p ∈ ws, ∀ off ∈ List.range' p.1 p.2.length, off < 67584) (off : Nat) :
    ((∃ p ∈ ws, off ∈ List.range' p.1 p.2.length) ∧ ∃ v, (b.writeAll w ws).tag off = (b.tag off).written b.gen w v) ∨
      ((¬∃ p ∈ ws, off ∈ List.range' p.1 p.2.length) ∧ (b.writeAll w ws).tag off = b.tag off) := by
  induction ws generalizing b with
  | nil => exact .inr ⟨by simp, rfl⟩
  | cons p t ih =>
    have hb' : (b.writeBytes w p.1 p.2).scrWf = true := Block.scrWf_updTags _ hb (hws p List.mem_cons_self)
    have hp := Block.tag_writeBytes (w := w) hb p.1 p.2 off
    simp only [← List.mem_range'_1] at hp
    have ht := ih hb' fun q hq => hws q (List.mem_cons_of_mem p hq)
    rw [Block.writeBytes_gen] at ht
    rw [show b.writeAll w (p :: t) = (b.writeBytes w p.1 p.2).writeAll w t from rfl]
    simp only [List.exists_mem_cons_iff]
    split at hp <;> rw [hp] at ht
    · next hc =>
      rcases ht with ⟨-, v, ht⟩ | ⟨-, ht⟩
      · exact .inl ⟨.inl hc, v, ht⟩
      · exact .inl ⟨.inl hc, _, ht⟩
    · next hc =>
      rcases ht with ⟨hq, v, ht⟩ | ⟨hq, ht⟩
      · exact .inl ⟨.inr hq, v, ht⟩
      · exact .inr ⟨by simp only [hc, hq, or_self, not_false_eq_true], ht⟩

/-! ## The effect of a command -/

/-- What a command that completes does to the scratchpad of its block `b` and to the records of its warp. -/
inductive ScratchEffect (i : Instr) (s : State) (b b' : Block) : Prop where
  /-- Neither changes. -/
  | kept (scr : b'.scr = b.scr) (records : b'.warps[s.cur.w].records = b.warps[s.cur.w].records)
  /-- Copies are issued. -/
  | claimed (chunks : List Chunk) (placed : WellPlaced chunks)
    (writable : ∀ c ∈ chunks, ∀ off ∈ c.offs, Writable s.derived.scrBytes b s.cur.w off)
    (writes : ∀ off, ScratchWritten i s b off ↔ ∃ c ∈ chunks, off ∈ c.offs)
    (scr : b'.scr = (b.claim s.cur.w (chunks.flatMap Chunk.offs)).scr)
    (records : b'.warps[s.cur.w].records = b.warps[s.cur.w].records ++ chunks.map (copyRecord s))
  /-- The oldest records, `old`, all performed, are retired; the records `new` stay. -/
  | retired (old new : List CopyRecord) (split : b.warps[s.cur.w].records = old ++ new)
    (performed : ∀ r ∈ old, r.performed = true)
    (writes : ∀ off, ScratchWritten i s b off ↔ ∃ r ∈ old, off ∈ r.offs)
    (scr : b'.scr = (b.retire (old.flatMap CopyRecord.offs)).scr) (records : b'.warps[s.cur.w].records = new)
  /-- Bytes are read. -/
  | read (offs : List Nat) (readable : ∀ off ∈ offs, Readable s.derived.scrBytes b s.cur.w off)
    (reads : ∀ off, ScratchRead i s b off ↔ off ∈ offs) (scr : b'.scr = (b.markReads s.cur.w offs).scr)
    (records : b'.warps[s.cur.w].records = b.warps[s.cur.w].records)
  /-- Bytes are written. -/
  | written (ws : List (Nat × List Byte))
    (writable : ∀ p ∈ ws, ∀ off ∈ List.range' p.1 p.2.length, Writable s.derived.scrBytes b s.cur.w off)
    (writes : ∀ off, ScratchWritten i s b off ↔ ∃ p ∈ ws, off ∈ List.range' p.1 p.2.length)
    (scr : b'.scr = (b.writeAll s.cur.w ws).scr)
    (records : b'.warps[s.cur.w].records = b.warps[s.cur.w].records)

section Effects
variable {i : Instr} {s : State} {b b' : Block}

theorem IssueEffect.scratchEffect {ph : Phase} {kt : Nat} {chunks : List Chunk} (h : IssueEffect s b ph kt chunks b')
    (placed : WellPlaced chunks) (writes : ∀ off, ScratchWritten i s b off ↔ ∃ c ∈ chunks, off ∈ c.offs) :
    ScratchEffect i s b b' := by
  obtain ⟨-, hok, rfl⟩ := h
  refine .claimed chunks placed (fun c hc => (hok c hc).2) writes rfl ?_
  rw [issued, Block.updWarp_same, Warp.advance_records, Warp.issue_records, Block.claim_warps]

theorem ReadEffect.scratchEffect {offs : List Nat} {f : Warp → Warp} (h : ReadEffect s b offs f b')
    (hf : ∀ x, (f x).records = x.records) (reads : ∀ off, ScratchRead i s b off ↔ off ∈ offs) :
    ScratchEffect i s b b' := by
  obtain ⟨hok, rfl⟩ := h
  refine .read offs hok reads rfl ?_
  rw [Block.updWarp_same, Warp.advance_records, hf, Block.markReads_warps]

theorem MmaEffect.scratchEffect {dot : Vector Byte 32 → Vector Byte 32 → Int} {mi : Fin 2} {ni : Fin 8}
    (h : MmaEffect s b dot mi ni b') : ScratchEffect i s b b' := by
  obtain ⟨fa, fb, -, -, rfl⟩ := h
  exact .kept rfl (by rw [Block.updWarp_same]; rfl)

/-- Every effect of a command is one of the five on the scratchpad. -/
theorem BlockEffect.scratchEffect (h : BlockEffect i s b b') : ScratchEffect i s b b' := by
  cases i with
  | nop => cases h; exact .kept rfl (by rw [Block.updWarp_same]; rfl)
  | commit => cases h; exact .kept rfl (by rw [Block.updWarp_same, Warp.advance_records, Warp.commitGroup_records])
  | bar =>
    cases h
    have hw : (arrivedAt b s.cur.w).warps[s.cur.w] = { b.warps[s.cur.w] with st := .atBar } :=
      Block.updWarp_same b s.cur.w fun x => { x with st := .atBar }
    exact .kept rfl (by rw [hw]; rfl)
  | endWarp => cases h; exact .kept rfl (by rw [Block.updWarp_same]; rfl)
  | deq => obtain ⟨sa, sb, -, -, rfl⟩ := h; exact .kept rfl (by rw [Block.updWarp_same]; rfl)
  | mma4 mi ni => exact MmaEffect.scratchEffect h
  | mma8 mi ni => exact MmaEffect.scratchEffect h
  | ldgA ph slot kt => exact IssueEffect.scratchEffect h (wellPlaced_ldgA ..) fun _ => Iff.rfl
  | ldgB ph slot kt => exact IssueEffect.scratchEffect h (wellPlaced_ldgB ..) fun _ => Iff.rfl
  | ldgs ph slot kt => exact IssueEffect.scratchEffect h (wellPlaced_ldgs ..) fun _ => Iff.rfl
  | ldmA slot ks mi => exact ReadEffect.scratchEffect h (fun _ => rfl) fun _ => Iff.rfl
  | ldmB slot ks ni => exact ReadEffect.scratchEffect h (fun _ => rfl) fun _ => Iff.rfl
  | ldsc ph slot => exact ReadEffect.scratchEffect h (fun _ => rfl) fun _ => Iff.rfl
  | wait n =>
    rcases h with ⟨-, rfl⟩ | ⟨hw, rfl⟩
    · exact .kept rfl rfl
    · refine .retired _ _ (Warp.records_split b.warps[s.cur.w] n) ?_ (fun _ => Iff.rfl) rfl ?_
      · simpa [Warp.waitHolds] using hw
      · rw [waited, Block.updWarp_same, Warp.advance_records, Block.retire_warps]
  | cvts =>
    obtain ⟨hok, rfl⟩ := h
    refine .written _ hok (fun _ => Iff.rfl) (Block.updWarp_scr ..) ?_
    rw [Block.updWarp_same, Warp.advance_records, Block.writeAll_warps]
  | stg it =>
    obtain ⟨-, hok, rfl⟩ := h
    refine .read ((stgPieces s b s.cur.w it).flatMap fun p => List.range' p.off 16) ?_ ?_ rfl ?_
    · intro off ho
      obtain ⟨p, hp, ho⟩ := List.mem_flatMap.1 ho
      exact (hok p hp).1 off ho
    · exact fun off => List.mem_flatMap.symm
    · rw [storedFrom, Block.updWarp_same, Warp.advance_records, Block.markReads_warps]

end Effects

/-! ## Bytes no command touches -/

/-- No command writes a scratch byte it reads. -/
theorem not_scratchWritten_of_read {i : Instr} {s : State} {b : Block} {off : Nat} (h : ScratchRead i s b off) :
    ¬ScratchWritten i s b off := by
  cases i with
  | ldmA | ldmB | ldsc | stg => exact id
  | _ => exact h.elim

/-- A command that completes keeps the tag of a byte, or writes the byte, or reads it and changes its reader field. -/
theorem BlockEffect.tag_cases {i : Instr} {s : State} {b b' : Block} (h : BlockEffect i s b b') (hb : b.scrWf = true)
    (hsize : s.derived.scrBytes = 67584) (off : Nat) : b'.tag off = b.tag off ∨ ScratchWritten i s b off ∨
      (ScratchRead i s b off ∧ b'.tag off = (b.tag off).markRead b.gen s.cur.w) := by
  cases h.scratchEffect with
  | kept scr => exact .inl (Block.tag_congr scr off)
  | claimed chunks _ _ writes scr =>
    rw [Block.tag_congr scr, Block.tag_claim hb]
    split
    · next hw => exact .inr (.inl ((writes off).2 (List.mem_flatMap.1 hw)))
    · exact .inl rfl
  | retired old new _ _ writes scr =>
    rw [Block.tag_congr scr, Block.tag_retire hb]
    split
    · next hw => exact .inr (.inl ((writes off).2 (List.mem_flatMap.1 hw)))
    · exact .inl rfl
  | read offs _ reads scr =>
    rw [Block.tag_congr scr, Block.tag_markReads hb]
    split
    · next hr => exact .inr (.inr ⟨(reads off).2 hr, rfl⟩)
    · exact .inl rfl
  | written ws writable writes scr =>
    rw [Block.tag_congr scr]
    rcases Block.tag_writeAll (w := s.cur.w) hb (fun p hp a ha => hsize ▸ (writable p hp a ha).1) off with
      ⟨hw, -⟩ | ⟨-, ht⟩
    · exact .inr (.inl ((writes off).2 hw))
    · exact .inl ht

/-- The block of the current warp after a fault. -/
theorem raise_block {s : State} {b : Block} (hb : s.block? = some b) (c : Cause) : (s.raise b c).block? =
    some (b.faultedWith s.cur.w ⟨c, b.bm, b.bn, some s.cur.w, some b.warps[s.cur.w].pc, s.fetch b s.cur.w⟩) := by
  obtain ⟨hlt, -⟩ := List.getElem?_eq_some_iff.1 hb
  exact List.getElem?_set_self hlt

/-- Settles O27: a fault changes no tag, and an effect keeps, writes or reads each byte; no command does both. -/
theorem scratchAccessesKeepOtherBytes : Obligations.ScratchAccessesKeepOtherBytes := by
  intro i s t b b' hb hs h hb'
  have htag : ∀ off, b'.tag off = b.tag off ∨ ScratchWritten i s b off ∨
      (ScratchRead i s b off ∧ b'.tag off = (b.tag off).markRead b.gen s.cur.w) := by
    obtain ⟨b₁, hb₁, ⟨c, rfl⟩ | ⟨b₂, he, rfl⟩⟩ := exec_next h <;> obtain rfl := Option.some.inj (hb.symm.trans hb₁)
    · obtain rfl := Option.some.inj ((raise_block hb c).symm.trans hb')
      exact fun off => .inl rfl
    · obtain rfl := Option.some.inj ((finish_block hb).symm.trans hb')
      exact he.tag_cases (hs.scr b (List.mem_of_getElem? hb)) hs.size
  refine ⟨fun off hw hr => ?_, fun off hr => ?_⟩
  · rcases htag off with he | hc | ⟨hc, -⟩
    · exact he
    · exact absurd hc hw
    · exact absurd hc hr
  · rcases htag off with he | hc | ⟨-, he⟩
    · exact .inl he
    · exact absurd hc (not_scratchWritten_of_read hr)
    · exact .inr he

end Sys2Proof.Machine
end

section
/-! Device memory under a step (20_memory R42, R52, R56): only an STG writes it, and only inside D's allocation. -/

namespace Sys2Proof.Machine
open Sys2Proof.Claims

/-- `m` is the device memory of `s`, or that after pieces were stored inside D's allocation from a block of `s`. -/
def Stored (s : State) (m : Memory) : Prop :=
  m = s.mem ∨ ∃ b ∈ s.blocks, ∃ ps : List StorePiece, (∀ p ∈ ps, WriteOk s p.dst 16) ∧ m = storePieces b ps s.mem

/-- A command changes device memory only as an STG does. -/
theorem exec_stored {i : Instr} {s t : State} (h : exec i s = .next t) : Stored s t.mem := by
  obtain ⟨b, hb, ⟨c, rfl⟩ | ⟨b', he, rfl⟩⟩ := exec_next h
  · exact .inl rfl
  · cases i with
    | stg it =>
      obtain ⟨-, hok, -⟩ := he
      exact .inr ⟨b, List.mem_of_getElem? hb, _, fun p hp => (hok p hp).2, rfl⟩
    | _ => exact .inl (finish_mem s b b' rfl)

/-- A step launches while no invocation runs, or changes device memory only as an STG does. -/
theorem step_stored {s t : State} (h : step s = .next t) :
    Stored s t.mem ∨ (s.inv ≠ .running ∧ ∃ (u : State) (r : LaunchRecord), t = u.launch r) := by
  rcases step_next h with rfl | ⟨blk, w, b, -, -, -, -, hw⟩ | ⟨blk, w, place, b, r, -, -, -, -, rfl⟩ |
    ⟨blk, b, -, -, -, -, rfl⟩ | ⟨r, rest, -, -, hi, rfl⟩
  · exact .inl (.inl rfl)
  · rcases hw with ⟨-, rfl⟩ | ⟨word, -, ⟨e, -, rfl⟩ | ⟨i, -, h⟩⟩
    · exact .inl (.inl rfl)
    · exact .inl (.inl rfl)
    · exact .inl (exec_stored (s := s.choiceTaken.asWarp blk w) h)
  · exact .inl (.inl (State.settle_mem _))
  · refine .inl (.inl ?_)
    unfold State.release
    split <;> rfl
  · exact .inr ⟨hi, _, r, rfl⟩

/-- A stored piece inside device memory changes no byte outside it. -/
theorem read_storePieces {b : Block} {ps : List StorePiece} {m : Memory} {a : Nat} (hm : m.wf = true)
    (hps : ∀ p ∈ ps, p.dst + 16 ≤ 2 ^ 64 ∧ ¬(p.dst ≤ a ∧ a < p.dst + 16)) : (storePieces b ps m).read a = m.read a := by
  induction ps generalizing m with
  | nil => rfl
  | cons p t ih =>
    obtain ⟨hfits, hout⟩ := hps p List.mem_cons_self
    have hlen : (pieceBytes b p).length = 16 := by simp [pieceBytes]
    refine (ih (Memory.wf_writeBytes hm p.dst _) fun q hq => hps q (List.mem_cons_of_mem p hq)).trans ?_
    rw [Memory.read_writeBytes hm _ (by rw [hlen]; exact hfits), hlen, if_neg hout]

/-- What is stored lies in D's allocation. -/
theorem Stored.read {s : State} {m : Memory} (h : Stored s m) (hm : s.mem.wf = true) {a : Nat} (ha : ¬s.inAllocation 8 a) :
    m.read a = s.mem.read a := by
  rcases h with rfl | ⟨b, -, ps, hps, rfl⟩
  · rfl
  · refine read_storePieces hm fun p hp => ?_
    obtain ⟨-, hfits, hlow, hhigh⟩ := hps p hp
    change ¬(s.params.pD.toNat ≤ a ∧ a < s.params.pD.toNat + s.bufLen[8]) at ha
    exact ⟨hfits, by omega⟩

/-- Settles O35: only an STG writes device memory during a run, and only in D, which no input shares a byte with. -/
theorem onlyDIsWrittenDuringARun : Obligations.OnlyDIsWrittenDuringARun := by
  intro s t a h hi hs
  rcases step_stored h with hm | ⟨hn, -⟩
  · refine ⟨hm.read hs.mem, fun hl i ha => ?_⟩
    by_cases hne : s.blocks = []
    · rcases hm with hm | ⟨b, hb, -⟩
      · rw [hm]
      · rw [hne] at hb
        cases hb
    · exact hm.read hs.mem (hl.apart hne i a ha)
  · exact absurd hi hn

end Sys2Proof.Machine
end

section
/-! The canonical form of memory, scratchpads and copy records under a step (20_memory R58, 10_state R35, R38). -/

namespace Sys2Proof.Machine
open Sys2Proof.Claims

/-- What `Canonical` says of one block. -/
structure BlockCanonical (b : Block) : Prop where
  scr : b.scrWf = true
  recs : ∀ w : WarpId, ∀ r ∈ b.warps[w].records, r.dst + r.data.length ≤ 67584

theorem Canonical.block {s : State} (h : Canonical s) {b : Block} (hb : b ∈ s.blocks) : BlockCanonical b :=
  ⟨h.scr b hb, h.recs b hb⟩

theorem canonical_of_blocks {s : State} (hmem : s.mem.wf = true) (hsize : s.derived.scrBytes = 67584)
    (hb : ∀ b ∈ s.blocks, BlockCanonical b) : Canonical s :=
  ⟨hmem, hsize, fun b hm => (hb b hm).scr, fun b hm => (hb b hm).recs⟩

theorem mem_records_offs_lt {b : Block} (hb : BlockCanonical b) {w : WarpId} {r : CopyRecord} (hr : r ∈ b.warps[w].records)
    {off : Nat} (ho : off ∈ r.offs) : off < 67584 :=
  (CopyRecord.mem_offs.1 ho).2.trans_le (hb.recs w r hr)

@[simp] theorem length_copyRecord_data (s : State) (c : Chunk) : (copyRecord s c).data.length = c.n := by
  unfold copyRecord
  cases c.src <;> simp [Memory.readBytes]

/-- The record of a copy has the bytes of the copy. -/
@[simp] theorem offs_copyRecord (s : State) (c : Chunk) : (copyRecord s c).offs = c.offs := by
  rw [CopyRecord.offs, length_copyRecord_data]
  rfl

/-! ## The records of a warp -/

section Records
variable {b : Block} {w : WarpId}

theorem Block.faultedWith_records (v : WarpId) (r : FaultRecord) :
    (b.faultedWith w r).warps[v].records = b.warps[v].records := by
  by_cases hv : v = w
  · rw [hv, Block.faultedWith_same]
    rfl
  · rw [Block.faultedWith_other b r hv]

theorem Block.released_records : b.released.warps[w].records = b.warps[w].records := by
  rw [Block.released_warp]
  rfl

theorem Block.mismatched_records : b.mismatched.warps[w].records = b.warps[w].records := by
  rw [Block.mismatched_warp]
  rfl

/-- A list split at the place of the element a change replaces. -/
theorem exists_split_modify {α : Type} {l : List α} {k : Nat} {a : α} (f : α → α) (h : l[k]? = some a) :
    ∃ l₁ l₂, l = l₁ ++ a :: l₂ ∧ l.modify k f = l₁ ++ f a :: l₂ := by
  obtain ⟨hk, rfl⟩ := List.getElem?_eq_some_iff.1 h
  exact ⟨l.take k, l.drop (k + 1), by rw [List.getElem_cons_drop, List.take_append_drop],
    List.modify_eq_take_cons_drop hk⟩

/-- A landing replaces its record by the performed one, and keeps the records before and after it. -/
theorem records_performAt {x : Warp} {place : CopyPlace} {r : CopyRecord} (h : x.recordAt place = some r) :
    ∃ l₁ l₂, x.records = l₁ ++ r :: l₂ ∧ (x.performAt place).records = l₁ ++ r.perform :: l₂ := by
  cases place with
  | inOpen k =>
    obtain ⟨l₁, l₂, hl, hl'⟩ := exists_split_modify CopyRecord.perform (show x.openGrp[k]? = some r from h)
    refine ⟨x.groups.flatten ++ l₁, l₂, ?_, ?_⟩
    · rw [Warp.records, hl, List.append_assoc]
    · rw [List.append_assoc, ← hl']
      rfl
  | inGroup g k =>
    obtain ⟨grp, hg, hr⟩ := Option.bind_eq_some_iff.1 (show x.groups[g]?.bind (fun grp => grp[k]?) = some r from h)
    obtain ⟨l₁, l₂, hl, hl'⟩ := exists_split_modify CopyRecord.perform hr
    obtain ⟨g₁, g₂, hgs, hgs'⟩ := exists_split_modify (fun grp => grp.modify k CopyRecord.perform) hg
    refine ⟨g₁.flatten ++ l₁, l₂ ++ (g₂.flatten ++ x.openGrp), ?_, ?_⟩
    · rw [Warp.records, hgs, hl]
      simp
    · rw [Warp.records, Warp.performAt, hgs', hl']
      simp

end Records

/-! ## One block -/

/-- A command keeps the canonical form of its block. -/
theorem BlockEffect.blockCanonical {i : Instr} {s : State} {b b' : Block} (h : BlockEffect i s b b') (hb : BlockCanonical b)
    (hsize : s.derived.scrBytes = 67584) : BlockCanonical b' := by
  have other : (∀ r ∈ b'.warps[s.cur.w].records, r.dst + r.data.length ≤ 67584) →
      ∀ v : WarpId, ∀ r ∈ b'.warps[v].records, r.dst + r.data.length ≤ 67584 := by
    intro hw v
    by_cases hv : v = s.cur.w
    · rw [hv]
      exact hw
    · rw [h.blockKept.otherWarps v hv]
      exact hb.recs v
  have old := hb.recs s.cur.w
  cases h.scratchEffect with
  | kept scr records => exact ⟨(Block.scrWf_congr scr).trans hb.scr, other (records ▸ old)⟩
  | claimed chunks placed _ _ scr records =>
    refine ⟨(Block.scrWf_congr scr).trans (Block.scrWf_updTags _ hb.scr fun off ho => ?_), other ?_⟩
    · obtain ⟨c, hc, ho⟩ := List.mem_flatMap.1 ho
      exact (Chunk.mem_offs.1 ho).2.trans_le (placed.inside c hc)
    · rw [records]
      intro r hr
      rcases List.mem_append.1 hr with hr | hr
      · exact old r hr
      · obtain ⟨c, hc, rfl⟩ := List.mem_map.1 hr
        rw [length_copyRecord_data]
        exact placed.inside c hc
  | retired gone new split _ _ scr records =>
    rw [split] at old
    refine ⟨(Block.scrWf_congr scr).trans (Block.scrWf_updTags _ hb.scr fun off ho => ?_), other ?_⟩
    · obtain ⟨r, hr, ho⟩ := List.mem_flatMap.1 ho
      exact (CopyRecord.mem_offs.1 ho).2.trans_le (old r (List.mem_append_left _ hr))
    · rw [records]
      exact fun r hr => old r (List.mem_append_right _ hr)
  | read offs readable _ scr records =>
    exact ⟨(Block.scrWf_congr scr).trans (Block.scrWf_updTags _ hb.scr fun off ho => hsize ▸ (readable off ho).1),
      other (records ▸ old)⟩
  | written ws writable _ scr records =>
    exact ⟨(Block.scrWf_congr scr).trans (Block.scrWf_writeAll hb.scr fun p hp off ho => hsize ▸ (writable p hp off ho).1),
      other (records ▸ old)⟩

/-- A landing keeps the canonical form of its block. -/
theorem blockCanonical_performed {b : Block} (hb : BlockCanonical b) {w : WarpId} {place : CopyPlace} {r : CopyRecord}
    (h : b.toPerform w place = some r) : BlockCanonical (b.performed w place r) := by
  obtain ⟨l₁, l₂, hl, hl'⟩ := records_performAt (toPerform_eq_some.1 h).1
  have old := hb.recs w
  rw [hl] at old
  refine ⟨Block.scrWf_updTags _ hb.scr fun off ho => ?_, fun v => ?_⟩
  · exact (List.mem_range'_1.1 ho).2.trans_le (old r (by simp))
  · by_cases hv : v = w
    · rw [hv, Block.performed_same, hl']
      simpa only [List.forall_mem_append, List.forall_mem_cons, CopyRecord.perform] using old
    · rw [Block.performed_other b place r hv]
      exact hb.recs v

/-- Every step of a block's agents keeps the canonical form of the block. -/
theorem BlockStep.blockCanonical {s t : State} {blk : Nat} {b b' : Block} (h : BlockStep s t blk b b')
    (hb : BlockCanonical b) (hsize : s.derived.scrBytes = 67584) : BlockCanonical b' := by
  cases h with
  | fault w r _ _ _ block =>
    subst block
    exact ⟨hb.scr, fun v => by rw [Block.faultedWith_records]; exact hb.recs v⟩
  | command w i _ _ _ _ _ effect _ => exact effect.blockCanonical hb hsize
  | copy w place r _ waits block _ =>
    subst block
    exact blockCanonical_performed hb waits
  | released _ _ block =>
    subst block
    exact ⟨hb.scr, fun v => by rw [Block.released_records]; exact hb.recs v⟩
  | mismatched _ _ _ block =>
    subst block
    exact ⟨hb.scr, fun v => by rw [Block.mismatched_records]; exact hb.recs v⟩

theorem blockCanonical_reset (bm bn : U32) : BlockCanonical (Block.reset bm bn) := by
  refine ⟨rfl, fun w => ?_⟩
  rw [Block.reset_warp]
  exact fun r hr => nomatch hr

/-! ## The invariant -/

/-- A block of the grid after a step of one block is the block that changed, or stood there before. -/
theorem OneBlockStep.mem_cases {s t : State} {blk : Nat} {b b' c : Block} (h : OneBlockStep s t blk b b')
    (hc : c ∈ t.blocks) : c ∈ s.blocks ∨ c = b' := by
  rw [h.after] at hc
  exact List.mem_or_eq_of_mem_set hc

/-- The scratchpad of every launch is that of 20_memory R58. -/
theorem Params.derive_scrBytes (p : Params) : p.derive.scrBytes = 67584 := by
  have hsz := szOf_le p.outType
  show max (4 * (2 * 128 * 64) + 4 * (2 * 128 * 2)) (128 * 128 * szOf p.outType) = 67584
  omega

/-- A launch loads the host's bytes, and computes the derived registers where it is not refused. -/
theorem launch_mem_derived (s : State) (r : LaunchRecord) : (s.launch r).mem = memOfCells r.bytes ∧
    ((s.launch r).derived = Derived.unset ∨ (s.launch r).derived = r.params.derive) := by
  unfold State.launch
  dsimp only
  split
  · split
    · exact ⟨rfl, .inl rfl⟩
    · exact ⟨rfl, .inr rfl⟩
  · exact ⟨rfl, .inl rfl⟩

/-- A launch leaves everything in canonical form. -/
theorem launch_canonical (s : State) (r : LaunchRecord) : Canonical (s.launch r) := by
  obtain ⟨hmem, hderived⟩ := launch_mem_derived s r
  refine canonical_of_blocks (hmem ▸ wf_memOfCells r.bytes) ?_ fun b hb => ?_
  · rcases hderived with h | h <;> rw [h]
    · rfl
    · exact Params.derive_scrBytes r.params
  · obtain ⟨bm, bn, rfl⟩ := exists_reset_of_mem_launch hb
    exact blockCanonical_reset bm bn

theorem Stored.wf {s : State} {m : Memory} (h : Stored s m) (hm : s.mem.wf = true) : m.wf = true := by
  rcases h with rfl | ⟨b, -, ps, -, rfl⟩
  · exact hm
  · exact wf_foldl_writeBytes _ _ ps hm

/-- Settles O39: an STG keeps memory's form, each step of a block the block's form, and a launch starts in the form. -/
theorem stepKeepsCanonicalForm : Obligations.StepKeepsCanonicalForm := by
  intro s t hs h
  rcases step_cases h with rfl | ⟨hi, hk, blk, b, b', hone⟩ | ⟨-, u, r, rfl⟩
  · exact { hs with }
  · have hmem : Stored s t.mem := (step_stored h).resolve_right fun hn => hn.1 hi
    refine canonical_of_blocks (hmem.wf hs.mem) (hk.invocation.derived ▸ hs.size) fun c hc => ?_
    rcases hone.mem_cases hc with hc | rfl
    · exact hs.block hc
    · exact hone.step.blockCanonical (hs.block (List.mem_of_getElem? hone.before)) hs.size
  · exact launch_canonical u r

end Sys2Proof.Machine
end

section
/-! The meaning of the scratch tags under a step (20_memory R59 to R63, 41_pipeline_sync R102, R106). -/

namespace Sys2Proof.Machine
open Sys2Proof.Claims

/-! ## One tag -/

section Tags
variable {gen : Nat} {t : Tag}

theorem tagOk_empty : TagOk gen Tag.empty where
  done _ h := nomatch h
  pending h := nomatch h
  unwritten _ := ⟨rfl, rfl⟩
  reads w g h := by simp [Tag.empty] at h

/-- `t'` is a meaningful tag of a byte whose tag was `t`, which is PENDING where `t` is and then has its writer and value. -/
structure TagFollows (gen : Nat) (t t' : Tag) : Prop where
  ok : TagOk gen t'
  vis : t'.vis = .pending ↔ t.vis = .pending
  kept : t.vis = .pending → t'.writer = t.writer ∧ t'.val = t.val

theorem TagOk.mono {gen' : Nat} (h : TagOk gen t) (hle : gen ≤ gen') : TagFollows gen' t t where
  ok :=
    { done := fun g hg => ⟨(h.done g hg).1.trans hle, (h.done g hg).2⟩
      pending := h.pending
      unwritten := h.unwritten
      reads := fun w g hg => (h.reads w g hg).trans hle }
  vis := Iff.rfl
  kept _ := ⟨rfl, rfl⟩

theorem TagOk.markRead (h : TagOk gen t) (w : WarpId) : TagFollows gen t (t.markRead gen w) where
  ok :=
    { done := h.done
      pending := h.pending
      unwritten := h.unwritten
      reads := fun v g hg => by
        simp only [Tag.markRead, Fin.getElem_fin, Vector.getElem_set] at hg
        split at hg
        · exact (Option.some.inj hg).ge
        · exact h.reads v g hg }
  vis := Iff.rfl
  kept _ := ⟨rfl, rfl⟩

theorem TagOk.written (h : TagOk gen t) (hp : t.vis ≠ .pending) (w : WarpId) (v : Byte) :
    TagFollows gen t (t.written gen w v) where
  ok :=
    { done := fun _ hg => ⟨(Vis.done.inj hg).ge, rfl, rfl⟩
      pending := nofun
      unwritten := nofun
      reads := h.reads }
  vis := ⟨nofun, fun hv => absurd hv hp⟩
  kept hv := absurd hv hp

theorem TagOk.claimed (h : TagOk gen t) (w : WarpId) : TagOk gen (t.claimed w) where
  done _ hg := nomatch hg
  pending _ := rfl
  unwritten hv := nomatch hv
  reads := h.reads

/-- A pending byte that has its value is meaningful once it is retired. -/
theorem TagOk.retired (h : TagOk gen t) (hp : t.vis = .pending) (hv : t.val.isSome) : TagOk gen (t.retired gen) where
  done _ hg := ⟨(Vis.done.inj hg).ge, hv, h.pending hp⟩
  pending hv := nomatch hv
  unwritten hv := nomatch hv
  reads := h.reads

/-- A pending byte stays meaningful when its value lands. -/
theorem TagOk.landed (h : TagOk gen t) (hp : t.vis = .pending) (v : Byte) : TagOk gen (t.landed v) where
  done _ hg := nomatch hp.symm.trans hg
  pending := h.pending
  unwritten hv := nomatch hp.symm.trans hv
  reads := h.reads

end Tags

/-! ## The tags of one block -/

/-- What `TagsOk` says of one block. That records of different warps share no byte follows from `pending`: a byte has one
writer. -/
structure BlockTagsOk (b : Block) : Prop where
  tags : ∀ off, TagOk b.gen (b.tag off)
  pending : ∀ w : WarpId, ∀ r ∈ b.warps[w].records, ∀ off ∈ r.offs,
    (b.tag off).vis = .pending ∧ (b.tag off).writer = some w
  landed : ∀ w : WarpId, ∀ r ∈ b.warps[w].records, r.performed = true → ∀ off ∈ r.offs, (b.tag off).val.isSome
  covered : ∀ off, (b.tag off).vis = .pending → ∃ w : WarpId, ∃ r ∈ b.warps[w].records, off ∈ r.offs
  disjoint : ∀ w : WarpId, b.warps[w].records.Pairwise fun p q => ∀ off ∈ p.offs, off ∉ q.offs

theorem Block.mem_records {b : Block} {r : CopyRecord} : r ∈ b.records ↔ ∃ w : WarpId, r ∈ b.warps[w].records := by
  simp [Block.records]

/-- A byte lies in records of one warp alone. -/
theorem BlockTagsOk.same_warp {b : Block} (h : BlockTagsOk b) {v w : WarpId} {p q : CopyRecord}
    (hp : p ∈ b.warps[v].records) (hq : q ∈ b.warps[w].records) {off : Nat} (hop : off ∈ p.offs) (hoq : off ∈ q.offs) :
    v = w :=
  Option.some.inj ((h.pending v p hp off hop).2.symm.trans (h.pending w q hq off hoq).2)

/-- The invariant, block by block. -/
theorem tagsOk_iff {s : State} : TagsOk s ↔ ∀ b ∈ s.blocks, BlockTagsOk b := by
  constructor
  · intro h b hb
    have hdis := List.pairwise_flatMap.1 (h.disjoint b hb)
    refine ⟨h.tags b hb, h.pending b hb, fun w r hr => h.landed b hb r (Block.mem_records.2 ⟨w, hr⟩),
      fun off ho => ?_, fun w => hdis.1 w (List.mem_finRange w)⟩
    obtain ⟨r, hr, hoff⟩ := h.covered b hb off ho
    obtain ⟨w, hr⟩ := Block.mem_records.1 hr
    exact ⟨w, r, hr, hoff⟩
  · intro h
    refine ⟨fun b hb => (h b hb).tags, fun b hb => (h b hb).pending, fun b hb r hr => ?_, fun b hb off ho => ?_,
      fun b hb => List.pairwise_flatMap.2 ⟨fun w _ => (h b hb).disjoint w, ?_⟩⟩
    · obtain ⟨w, hr⟩ := Block.mem_records.1 hr
      exact (h b hb).landed w r hr
    · obtain ⟨w, r, hr, hoff⟩ := (h b hb).covered off ho
      exact ⟨r, Block.mem_records.2 ⟨w, hr⟩, hoff⟩
    · exact (List.nodup_finRange 8).imp fun hne p hp q hq off hop hoq => hne ((h b hb).same_warp hp hq hop hoq)

section Steps
variable {b b' : Block} {w : WarpId}

/-- The tags stay meaningful where no record changes. -/
theorem BlockTagsOk.of_same_records (h : BlockTagsOk b) (hrec : ∀ v : WarpId, b'.warps[v].records = b.warps[v].records)
    (htags : ∀ off, TagFollows b'.gen (b.tag off) (b'.tag off)) : BlockTagsOk b' where
  tags off := (htags off).ok
  pending v r hr off ho := by
    rw [hrec] at hr
    obtain ⟨hp, hw⟩ := h.pending v r hr off ho
    exact ⟨(htags off).vis.2 hp, ((htags off).kept hp).1.trans hw⟩
  landed v r hr hperf off ho := by
    rw [hrec] at hr
    rw [((htags off).kept (h.pending v r hr off ho).1).2]
    exact h.landed v r hr hperf off ho
  covered off ho := by
    simp only [hrec]
    exact h.covered off ((htags off).vis.1 ho)
  disjoint v := by
    rw [hrec]
    exact h.disjoint v

/-- The tags stay meaningful where neither a tag nor a record changes and GEN does not fall. -/
theorem BlockTagsOk.of_scr_eq (h : BlockTagsOk b) (hscr : b'.scr = b.scr) (hgen : b.gen ≤ b'.gen)
    (hrec : ∀ v : WarpId, b'.warps[v].records = b.warps[v].records) : BlockTagsOk b' :=
  h.of_same_records hrec fun off => by
    rw [Block.tag_congr hscr]
    exact (h.tags off).mono hgen

theorem BlockTagsOk.read (h : BlockTagsOk b) (hb : b.scrWf = true) (hgen : b'.gen = b.gen)
    (hrec : ∀ v : WarpId, b'.warps[v].records = b.warps[v].records) {offs : List Nat}
    (hscr : b'.scr = (b.markReads w offs).scr) : BlockTagsOk b' :=
  h.of_same_records hrec fun off => by
    rw [hgen, Block.tag_congr hscr, Block.tag_markReads hb]
    split
    · exact (h.tags off).markRead w
    · exact (h.tags off).mono le_rfl

/-- A write is never of a PENDING byte (20_memory R61). -/
theorem BlockTagsOk.written (h : BlockTagsOk b) (hb : b.scrWf = true) (hgen : b'.gen = b.gen)
    (hrec : ∀ v : WarpId, b'.warps[v].records = b.warps[v].records) {ws : List (Nat × List Byte)}
    (hws : ∀ p ∈ ws, ∀ off ∈ List.range' p.1 p.2.length, Writable 67584 b w off)
    (hscr : b'.scr = (b.writeAll w ws).scr) : BlockTagsOk b' :=
  h.of_same_records hrec fun off => by
    rw [hgen, Block.tag_congr hscr]
    rcases Block.tag_writeAll (w := w) hb (fun p hp a ha => (hws p hp a ha).1) off with ⟨⟨p, hp, ho⟩, v, ht⟩ | ⟨-, ht⟩
    · obtain ⟨-, -, hnp, -⟩ := hws p hp off ho
      rw [ht]
      exact (h.tags off).written hnp w v
    · rw [ht]
      exact (h.tags off).mono le_rfl

theorem Chunk.Apart.not_mem_offs {s : State} {c d : Chunk} (h : c.Apart d) :
    ∀ off ∈ (copyRecord s c).offs, off ∉ (copyRecord s d).offs := by
  simp only [offs_copyRecord, Chunk.mem_offs]
  unfold Chunk.Apart at h
  omega

/-- The records of each warp where one warp got new ones. -/
theorem mem_records_of_append (hother : OtherWarpsKept b b' w) {new : List CopyRecord}
    (hrec : b'.warps[w].records = b.warps[w].records ++ new) {v : WarpId} {r : CopyRecord} :
    r ∈ b'.warps[v].records ↔ r ∈ b.warps[v].records ∨ (v = w ∧ r ∈ new) := by
  by_cases hv : v = w
  · subst hv
    rw [hrec, List.mem_append, eq_self, true_and]
  · rw [hother v hv]
    simp only [hv, false_and, or_false]

/-- A claimed byte was not PENDING, so it lies in no earlier record; the new records lie apart (20_memory R62). -/
theorem BlockTagsOk.claimed (h : BlockTagsOk b) (hb : b.scrWf = true) (hgen : b'.gen = b.gen)
    (hother : OtherWarpsKept b b' w) {s : State} {chunks : List Chunk} (placed : WellPlaced chunks)
    (hfree : ∀ c ∈ chunks, ∀ off ∈ c.offs, (b.tag off).vis ≠ .pending)
    (hscr : b'.scr = (b.claim w (chunks.flatMap Chunk.offs)).scr)
    (hrec : b'.warps[w].records = b.warps[w].records ++ chunks.map (copyRecord s)) : BlockTagsOk b' := by
  have hin : ∀ c ∈ chunks, ∀ off ∈ c.offs, b'.tag off = (b.tag off).claimed w := fun c hc off ho => by
    rw [Block.tag_congr hscr, Block.tag_claim hb, if_pos (List.mem_flatMap.2 ⟨c, hc, ho⟩)]
  have hout : ∀ off, (b.tag off).vis = .pending → b'.tag off = b.tag off := fun off hp => by
    rw [Block.tag_congr hscr, Block.tag_claim hb, if_neg]
    rw [List.mem_flatMap]
    exact fun ⟨c, hc, ho⟩ => hfree c hc off ho hp
  have htag : ∀ off, (∃ c ∈ chunks, off ∈ c.offs) ∨ b'.tag off = b.tag off := fun off => by
    rw [Block.tag_congr hscr, Block.tag_claim hb]
    split
    · next ho => exact .inl (List.mem_flatMap.1 ho)
    · exact .inr rfl
  have hmem {v : WarpId} {r : CopyRecord} := mem_records_of_append hother hrec (v := v) (r := r)
  constructor
  case tags =>
    intro off
    rw [hgen]
    rcases htag off with ⟨c, hc, ho⟩ | ht
    · rw [hin c hc off ho]
      exact (h.tags off).claimed w
    · rw [ht]
      exact h.tags off
  case pending =>
    intro v r hr off ho
    rcases hmem.1 hr with hr | ⟨rfl, hr⟩
    · rw [hout off (h.pending v r hr off ho).1]
      exact h.pending v r hr off ho
    · obtain ⟨c, hc, rfl⟩ := List.mem_map.1 hr
      rw [offs_copyRecord] at ho
      rw [hin c hc off ho]
      exact ⟨rfl, rfl⟩
  case landed =>
    intro v r hr hperf off ho
    rcases hmem.1 hr with hr | ⟨-, hr⟩
    · rw [hout off (h.pending v r hr off ho).1]
      exact h.landed v r hr hperf off ho
    · obtain ⟨c, -, rfl⟩ := List.mem_map.1 hr
      cases hperf
  case covered =>
    intro off hp
    rcases htag off with ⟨c, hc, ho⟩ | ht
    · exact ⟨w, _, hmem.2 (.inr ⟨rfl, List.mem_map_of_mem hc⟩), by rwa [offs_copyRecord]⟩
    · obtain ⟨v, r, hr, ho⟩ := h.covered off (ht ▸ hp)
      exact ⟨v, r, hmem.2 (.inl hr), ho⟩
  case disjoint =>
    intro v
    by_cases hv : v = w
    · subst hv
      rw [hrec, List.pairwise_append]
      refine ⟨h.disjoint v, List.pairwise_map.2 (placed.apart.imp Chunk.Apart.not_mem_offs), fun r hr q hq off ho hoq => ?_⟩
      obtain ⟨c, hc, rfl⟩ := List.mem_map.1 hq
      rw [offs_copyRecord] at hoq
      exact hfree c hc off hoq (h.pending v r hr off ho).1
    · rw [hother v hv]
      exact h.disjoint v

/-- A retired byte has landed; the records that stay share no byte with those retired (41_pipeline_sync R106). -/
theorem BlockTagsOk.retired (h : BlockTagsOk b) (hb : b.scrWf = true) (hgen : b'.gen = b.gen)
    (hother : OtherWarpsKept b b' w) {old new : List CopyRecord} (hsplit : b.warps[w].records = old ++ new)
    (hperf : ∀ r ∈ old, r.performed = true) (hscr : b'.scr = (b.retire (old.flatMap CopyRecord.offs)).scr)
    (hrec : b'.warps[w].records = new) : BlockTagsOk b' := by
  have hold : ∀ r ∈ old, r ∈ b.warps[w].records := fun r hr => hsplit ▸ List.mem_append_left _ hr
  have hdis := h.disjoint w
  rw [hsplit, List.pairwise_append] at hdis
  obtain ⟨-, hdis, hcross⟩ := hdis
  have htag : ∀ off, (∃ r ∈ old, off ∈ r.offs ∧ b'.tag off = (b.tag off).retired b.gen) ∨
      ((∀ r ∈ old, off ∉ r.offs) ∧ b'.tag off = b.tag off) := by
    intro off
    rw [Block.tag_congr hscr, Block.tag_retire hb]
    split
    · next ho =>
      obtain ⟨r, hr, ho⟩ := List.mem_flatMap.1 ho
      exact .inl ⟨r, hr, ho, rfl⟩
    · next ho => exact .inr ⟨fun r hr hor => ho (List.mem_flatMap.2 ⟨r, hr, hor⟩), rfl⟩
  have hkept : ∀ v : WarpId, ∀ r ∈ b'.warps[v].records, r ∈ b.warps[v].records ∧ ∀ q ∈ old, ∀ off ∈ q.offs, off ∉ r.offs := by
    intro v r hr
    by_cases hv : v = w
    · subst hv
      rw [hrec] at hr
      exact ⟨hsplit ▸ List.mem_append_right _ hr, fun q hq => hcross q hq r hr⟩
    · rw [hother v hv] at hr
      exact ⟨hr, fun q hq off hoq hor => hv (h.same_warp hr (hold q hq) hor hoq)⟩
  have hout : ∀ v : WarpId, ∀ r ∈ b'.warps[v].records, ∀ off ∈ r.offs, b'.tag off = b.tag off := by
    intro v r hr off ho
    rcases htag off with ⟨q, hq, hoq, -⟩ | ⟨-, ht⟩
    · exact absurd ho ((hkept v r hr).2 q hq off hoq)
    · exact ht
  constructor
  case tags =>
    intro off
    rw [hgen]
    rcases htag off with ⟨r, hr, ho, ht⟩ | ⟨-, ht⟩ <;> rw [ht]
    · exact (h.tags off).retired (h.pending w r (hold r hr) off ho).1 (h.landed w r (hold r hr) (hperf r hr) off ho)
    · exact h.tags off
  case pending =>
    intro v r hr off ho
    rw [hout v r hr off ho]
    exact h.pending v r (hkept v r hr).1 off ho
  case landed =>
    intro v r hr hp off ho
    rw [hout v r hr off ho]
    exact h.landed v r (hkept v r hr).1 hp off ho
  case covered =>
    intro off hp
    rcases htag off with ⟨r, hr, ho, ht⟩ | ⟨hnot, ht⟩ <;> rw [ht] at hp
    · cases hp
    · obtain ⟨v, r, hr, ho⟩ := h.covered off hp
      by_cases hv : v = w
      · subst hv
        rw [hsplit, List.mem_append] at hr
        exact ⟨v, r, hrec ▸ hr.resolve_left fun hr => hnot r hr ho, ho⟩
      · exact ⟨v, r, hother v hv ▸ hr, ho⟩
  case disjoint =>
    intro v
    by_cases hv : v = w
    · subst hv
      rwa [hrec]
    · rw [hother v hv]
      exact h.disjoint v

/-- A copy that lands gives its PENDING bytes their values (41_pipeline_sync R102). -/
theorem BlockTagsOk.performed (h : BlockTagsOk b) (hb : b.scrWf = true) {place : CopyPlace} {r : CopyRecord}
    (hr : b.toPerform w place = some r) : BlockTagsOk (b.performed w place r) := by
  obtain ⟨l₁, l₂, hl, hl'⟩ := records_performAt (toPerform_eq_some.1 hr).1
  have hmem : r ∈ b.warps[w].records := hl ▸ List.mem_append_right _ List.mem_cons_self
  have htag : ∀ off, (off ∈ r.offs ∧ ∃ v, (b.performed w place r).tag off = (b.tag off).landed v) ∨
      (off ∉ r.offs ∧ (b.performed w place r).tag off = b.tag off) := by
    intro off
    rw [Block.performed, Block.updWarp_tag, Block.tag_land hb, CopyRecord.mem_offs]
    split
    · next ho => exact .inl ⟨ho, _, rfl⟩
    · next ho => exact .inr ⟨ho, rfl⟩
  have hsame : ∀ off, ((b.performed w place r).tag off).vis = (b.tag off).vis ∧
      ((b.performed w place r).tag off).writer = (b.tag off).writer := by
    intro off
    rcases htag off with ⟨-, v, ht⟩ | ⟨-, ht⟩ <;> rw [ht]
    · exact ⟨rfl, rfl⟩
    · exact ⟨rfl, rfl⟩
  have hoffs : ∀ v : WarpId, (b.performed w place r).warps[v].records.map CopyRecord.offs =
      b.warps[v].records.map CopyRecord.offs := by
    intro v
    by_cases hv : v = w
    · rw [hv, Block.performed_same, hl', hl, List.map_append, List.map_append]
      rfl
    · rw [Block.performed_other b place r hv]
  have hrecs : ∀ v : WarpId, ∀ q ∈ (b.performed w place r).warps[v].records, q ∈ b.warps[v].records ∨ q = r.perform := by
    intro v q hq
    by_cases hv : v = w
    · subst hv
      rw [Block.performed_same, hl', List.mem_append, List.mem_cons] at hq
      rw [hl, List.mem_append, List.mem_cons]
      tauto
    · rw [Block.performed_other b place r hv] at hq
      exact .inl hq
  constructor
  case tags =>
    intro off
    rw [Block.performed_gen]
    rcases htag off with ⟨ho, v, ht⟩ | ⟨-, ht⟩ <;> rw [ht]
    · exact (h.tags off).landed (h.pending w r hmem off ho).1 v
    · exact h.tags off
  case pending =>
    intro v q hq off ho
    obtain ⟨p, hp, he⟩ := List.mem_map.1 (hoffs v ▸ List.mem_map_of_mem (f := CopyRecord.offs) hq)
    rw [(hsame off).1, (hsame off).2]
    exact h.pending v p hp off (he ▸ ho)
  case landed =>
    intro v q hq hperf off ho
    rcases htag off with ⟨-, x, ht⟩ | ⟨hnot, ht⟩ <;> rw [ht]
    · rfl
    · rcases hrecs v q hq with hq | rfl
      · exact h.landed v q hq hperf off ho
      · exact absurd ho hnot
  case covered =>
    intro off hp
    obtain ⟨v, p, hp, ho⟩ := h.covered off ((hsame off).1 ▸ hp)
    obtain ⟨q, hq, he⟩ := List.mem_map.1 ((hoffs v).symm ▸ List.mem_map_of_mem (f := CopyRecord.offs) hp)
    exact ⟨v, q, hq, he ▸ ho⟩
  case disjoint =>
    intro v
    rw [← List.pairwise_map (f := CopyRecord.offs) (R := fun p q => ∀ off ∈ p, off ∉ q), hoffs, List.pairwise_map]
    exact h.disjoint v

end Steps

/-- A command keeps the tags of its block meaningful. -/
theorem BlockEffect.blockTagsOk {i : Instr} {s : State} {b b' : Block} (he : BlockEffect i s b b') (h : BlockTagsOk b)
    (hb : b.scrWf = true) (hsize : s.derived.scrBytes = 67584) : BlockTagsOk b' := by
  obtain ⟨-, -, hgen, -⟩ := he.blockKept.identity
  have hother := he.blockKept.otherWarps
  have hall : b'.warps[s.cur.w].records = b.warps[s.cur.w].records →
      ∀ v : WarpId, b'.warps[v].records = b.warps[v].records := by
    intro hw v
    by_cases hv : v = s.cur.w
    · rw [hv, hw]
    · rw [hother v hv]
  cases he.scratchEffect with
  | kept scr records => exact h.of_scr_eq scr hgen.ge (hall records)
  | claimed chunks placed writable _ scr records =>
    exact h.claimed hb hgen hother placed (fun c hc off ho => (writable c hc off ho).2.2.1) scr records
  | retired old new split performed _ scr records => exact h.retired hb hgen hother split performed scr records
  | read offs _ _ scr records => exact h.read hb hgen (hall records) scr
  | written ws writable _ scr records => exact h.written hb hgen (hall records) (hsize ▸ writable) scr

/-- Every step of a block's agents keeps the tags of the block meaningful. -/
theorem BlockStep.blockTagsOk {s t : State} {blk : Nat} {b b' : Block} (hstep : BlockStep s t blk b b')
    (h : BlockTagsOk b) (hb : b.scrWf = true) (hsize : s.derived.scrBytes = 67584) : BlockTagsOk b' := by
  cases hstep with
  | fault w r _ _ _ block =>
    subst block
    exact h.of_scr_eq rfl le_rfl fun v => Block.faultedWith_records v r
  | command w i _ _ _ _ _ effect _ => exact effect.blockTagsOk h hb hsize
  | copy w place r _ waits block _ =>
    subst block
    exact h.performed hb waits
  | released _ _ block =>
    subst block
    exact h.of_scr_eq rfl (Nat.le_succ b.gen) fun v => Block.released_records
  | mismatched _ _ _ block =>
    subst block
    exact h.of_scr_eq rfl le_rfl fun v => Block.mismatched_records

theorem blockTagsOk_reset (bm bn : U32) : BlockTagsOk (Block.reset bm bn) := by
  have hno : ∀ (w : WarpId) (r : CopyRecord), r ∉ (Block.reset bm bn).warps[w].records := by
    intro w r
    rw [Block.reset_warp]
    exact List.not_mem_nil
  exact ⟨fun off => tagOk_empty, fun w r hr => absurd hr (hno w r), fun w r hr => absurd hr (hno w r), nofun,
    fun w => by rw [Block.reset_warp]; exact .nil⟩

/-- Settles O40: each step of a block keeps the meaning of its tags, and a launch starts blocks without a tag. -/
theorem stepKeepsTagsMeaningful : Obligations.StepKeepsTagsMeaningful := by
  intro s t hc hs h
  rw [tagsOk_iff] at hs ⊢
  rcases step_cases h with rfl | ⟨-, -, blk, b, b', hone⟩ | ⟨-, u, r, rfl⟩
  · exact hs
  · intro c hm
    rcases hone.mem_cases hm with hm | rfl
    · exact hs c hm
    · have hb := List.mem_of_getElem? hone.before
      exact hone.step.blockTagsOk (hs b hb) (hc.scr b hb) hc.size
  · intro c hm
    obtain ⟨bm, bn, rfl⟩ := exists_reset_of_mem_launch hm
    exact blockTagsOk_reset bm bn

end Sys2Proof.Machine
end

section
/-! Which fault a command raises, said once: the first failing check in the order of its pseudocode (60_exceptions R162). -/

namespace Sys2Proof.Machine
open Sys2Proof.Claims

/-- The first failing check of an LDG or LDGS that issues `chunks`. -/
def issueFault (s : State) (b : Block) (ph : Phase) (kt : Nat) (chunks : List Chunk) : Option Cause :=
  if keeperKtBad ph kt then some (.illegalOperand kt) else chunks.findSome? (copyFault s b s.cur.w)

/-- The first failing check of an LDM or LDSC that reads `offs`. -/
def loadFault (s : State) (b : Block) (offs : List Nat) : Option Cause :=
  offs.findSome? (b.readByteFault s.derived.scrBytes s.cur.w)

/-- The first failing check of an MMA of warp `x`. -/
def mmaFault (x : Warp) (mi : Fin 2) (ni : Fin 8) : Option Cause :=
  match x.fa[mi], x.fb[ni] with
  | none, _ => some (.regUninit .fa mi.val)
  | some _, none => some (.regUninit .fb ni.val)
  | some _, some _ => none

/-- The fault of a DEQ of warp `x`. -/
def deqFault (x : Warp) : Option Cause :=
  match x.sa, x.sb with
  | some _, some _ => none
  | _, _ => some (.regUninit .scales 0)

/-- The first failing check of command `i` of the current warp of block `b`. -/
def commandFault (i : Instr) (s : State) (b : Block) : Option Cause :=
  match i with
  | .ldgA ph slot kt => issueFault s b ph kt (ldgAChunks s b s.cur.w ph slot kt)
  | .ldgB ph slot kt => issueFault s b ph kt (ldgBChunks s b s.cur.w ph slot kt)
  | .ldgs ph slot kt => issueFault s b ph kt (ldgsChunks s b s.cur.w ph slot kt)
  | .ldmA slot ks mi => loadFault s b (ldmAOffs s s.cur.w slot ks mi)
  | .ldmB slot ks ni => loadFault s b (ldmBOffs s s.cur.w slot ks ni)
  | .ldsc ph slot => loadFault s b (ldscOffs s s.cur.w ph slot)
  | .mma4 mi ni => mmaFault b.warps[s.cur.w] mi ni
  | .mma8 mi ni => mmaFault b.warps[s.cur.w] mi ni
  | .deq => deqFault b.warps[s.cur.w]
  | .cvts => (stageWrites s b.warps[s.cur.w] s.cur.w).findSome? fun p =>
      b.writeFault s.derived.scrBytes s.cur.w p.1 p.2.length
  | .stg it => if stgItBad s it then some (.illegalOperand it) else (stgPieces s b s.cur.w it).findSome? (storeFault s b)
  | .nop | .commit | .wait _ | .bar | .endWarp => none

section Faults
variable {s : State} {b : Block} {c : Cause}

theorem issue_eq_error {ph : Phase} {kt : Nat} {chunks : List Chunk} :
    (if keeperKtBad ph kt then .error (.illegalOperand kt) else issueCopies s b chunks) = .error c ↔
      issueFault s b ph kt chunks = some c := by
  unfold issueFault issueCopies
  split
  · simp
  · cases chunks.findSome? (copyFault s b s.cur.w) <;> simp

theorem loadRegs_eq_error {offs : List Nat} {f : Warp → Warp} :
    loadRegs s b offs f = .error c ↔ loadFault s b offs = some c := by
  unfold loadFault loadRegs
  cases offs.findSome? (b.readByteFault s.derived.scrBytes s.cur.w) <;> simp

theorem mmaWith_eq_error {dot : Vector Byte 32 → Vector Byte 32 → Int} {mi : Fin 2} {ni : Fin 8} :
    mmaWith dot mi ni s b = .error c ↔ mmaFault b.warps[s.cur.w] mi ni = some c := by
  unfold mmaFault mmaWith
  dsimp only
  cases b.warps[s.cur.w].fa[mi] <;> cases b.warps[s.cur.w].fb[ni] <;> simp

/-- The meaning of a command is a fault exactly where a check fails, and then that of the first that does. -/
theorem meaning_eq_error {i : Instr} : meaning i s b = .error c ↔ commandFault i s b = some c := by
  cases i with
  | ldgA | ldgB | ldgs => exact issue_eq_error
  | ldmA | ldmB | ldsc => exact loadRegs_eq_error
  | mma4 | mma8 => exact mmaWith_eq_error
  | nop | commit | bar | endWarp => simp [meaning, commandFault]
  | wait n =>
    simp only [meaning, commandFault]
    split <;> simp
  | deq =>
    simp only [meaning, commandFault, deqFault]
    cases b.warps[s.cur.w].sa <;> cases b.warps[s.cur.w].sb <;> simp
  | cvts =>
    simp only [meaning, commandFault]
    generalize List.findSome? _ (stageWrites s b.warps[s.cur.w] s.cur.w) = fault
    cases fault <;> simp
  | stg it =>
    simp only [meaning, commandFault]
    split
    · simp
    · cases (stgPieces s b s.cur.w it).findSome? (storeFault s b) <;> simp

/-- A command that answers a next state raised the fault of its first failing check, or had its effect. -/
theorem exec_next_cases {i : Instr} {t : State} (hb : s.block? = some b) (h : exec i s = .next t) :
    (∃ c, commandFault i s b = some c ∧ t = s.raise b c) ∨ ∃ b', BlockEffect i s b b' ∧ t = finish i s b b' := by
  rw [exec_eq_runCommand] at h
  obtain ⟨b₁, hb₁, h⟩ := runCommand_next h
  obtain rfl := Option.some.inj (hb.symm.trans hb₁)
  exact h.imp (fun ⟨c, hc, ht⟩ => ⟨c, meaning_eq_error.1 hc, ht⟩) (meaning_eq_ok hb).1

/-- A command whose check fails raises that fault. -/
theorem exec_of_fault {i : Instr} (hb : s.block? = some b) (h : commandFault i s b = some c) :
    exec i s = .next (s.raise b c) := by
  rw [exec_eq_runCommand]
  exact runCommand_error hb (meaning_eq_error.2 h)

end Faults

end Sys2Proof.Machine
end

section
/-! What a command does to its block depends on its block, the registers, the stream, the inputs and the count of draws alone
(20_memory R42, R52, R69). -/

namespace Sys2Proof.Machine
open Sys2Proof.Claims

/-- The machine `s` with the device memory, INV, the grid and the chooser of `u`: what a command may not learn from. -/
def State.amid (s u : State) : State :=
  { s with mem := u.mem, inv := u.inv, blocks := u.blocks, sched := u.sched, tick := u.tick }

theorem eq_amid_of_kept {s s' : State} (h : InvocationKept s s') (hcur : s'.cur = s.cur) (hdraws : s'.draws = s.draws) :
    s' = s.amid s' := by
  obtain ⟨h1, h2, h3, h4, h5, h6, h7, h8, h9⟩ := h
  cases s
  cases s'
  simp only at h1 h2 h3 h4 h5 h6 h7 h8 h9 hcur hdraws
  subst h1 h2 h3 h4 h5 h6 h7 h8 h9 hcur hdraws
  rfl

/-- The bytes of the eight inputs read alike. -/
def InputsAgree (s u : State) : Prop :=
  ∀ (k : Fin 8) (a : Nat), s.params.ptrs[k.castSucc].toNat ≤ a →
    a < s.params.ptrs[k.castSucc].toNat + s.bufLen[k.castSucc] → u.mem.read a = s.mem.read a

section Amid
variable {s u : State} {b b' : Block} {i : Instr}

/-- The checks of a command read no device byte and no other block. -/
theorem commandFault_amid : commandFault i (s.amid u) b = commandFault i s b := by
  cases i <;> rfl

/-- A copy that passes its checks carries bytes of one input. -/
theorem copyRecord_amid (hin : InputsAgree s u) {w : WarpId} {c : Chunk} (h : CopyOk s b w c) :
    copyRecord (s.amid u) c = copyRecord s c := by
  unfold copyRecord
  cases hsrc : c.src with
  | none => rfl
  | some a =>
    obtain ⟨-, -, k, hlow, hhigh⟩ := h.1 a hsrc
    have hbytes : u.mem.readBytes a c.n = s.mem.readBytes a c.n :=
      List.map_congr_left fun x hx => hin k x (by have := List.mem_range'_1.1 hx; omega)
        (by have := List.mem_range'_1.1 hx; omega)
    exact congrArg (CopyRecord.mk c.dst · false) hbytes

theorem IssueEffect.amid (hin : InputsAgree s u) {ph : Phase} {kt : Nat} {chunks : List Chunk}
    (h : IssueEffect s b ph kt chunks b') : IssueEffect (s.amid u) b ph kt chunks b' := by
  obtain ⟨hkt, hok, rfl⟩ := h
  refine ⟨hkt, hok, ?_⟩
  unfold issued
  rw [List.map_congr_left fun c hc => copyRecord_amid hin (hok c hc)]
  rfl

/-- A command has the same effect on its block. -/
theorem BlockEffect.amid (hin : InputsAgree s u) (h : BlockEffect i s b b') : BlockEffect i (s.amid u) b b' := by
  cases i with
  | ldgA | ldgB | ldgs => exact IssueEffect.amid hin h
  | _ => exact h

end Amid

/-- Settles O33: the checks are the same, and so is every effect, since a copy reads inputs alone. -/
theorem blocksLearnNothingOfEachOther : Obligations.BlocksLearnNothingOfEachOther := by
  intro i s s' t b hb hb' hcur hdraws hkept hin h
  obtain ⟨u, rfl⟩ : ∃ u, s' = s.amid u := ⟨s', eq_amid_of_kept hkept hcur hdraws⟩
  rcases exec_next_cases hb h with ⟨c, hc, rfl⟩ | ⟨b', he, rfl⟩
  · exact ⟨_, exec_of_fault hb' (commandFault_amid.trans hc), by rw [raise_block hb, raise_block hb']; rfl⟩
  · exact ⟨_, exec_of_effect hb' (he.amid hin), by rw [finish_block hb, finish_block hb']⟩

end Sys2Proof.Machine
end

section
/-! Where a launch passed its checks every scratch offset lies in the scratchpad and every device address is aligned (20_memory
R54, R57, R58). -/

namespace Sys2Proof.Machine
open Sys2Proof.Claims

/-! ## Checks that cannot fail for the place of an access -/

/-- A cause that says where an access lies: outside the scratchpad, or off its alignment. -/
def Cause.ofPlace : Cause → Bool
  | .scratchOob _ => true
  | .misaligned _ _ => true
  | _ => false

/-- The outcome `f` of checks is no fault for the place of an access. -/
def NoPlaceFault (f : Option Cause) : Prop := ∀ c, f = some c → c.ofPlace = false

namespace NoPlaceFault

theorem none : NoPlaceFault none := nofun

theorem some {c : Cause} (h : c.ofPlace = false) : NoPlaceFault (some c) := by
  rintro _ ⟨⟩
  exact h

theorem or {f g : Option Cause} (hf : NoPlaceFault f) (hg : NoPlaceFault g) : NoPlaceFault (f.or g) := by
  intro c h
  rcases Option.or_eq_some_iff.1 h with h | ⟨-, h⟩
  · exact hf c h
  · exact hg c h

theorem findSome? {α : Type} {l : List α} {f : α → Option Cause} (h : ∀ x ∈ l, NoPlaceFault (f x)) :
    NoPlaceFault (l.findSome? f) := by
  intro c hc
  obtain ⟨x, hx, hfx⟩ := List.exists_of_findSome?_eq_some hc
  exact h x hx c hfx

variable {s : State} {b : Block} {lim : Nat} {w : WarpId}

theorem readByteFault {off : Nat} (h : off < lim) : NoPlaceFault (b.readByteFault lim w off) := by
  unfold Block.readByteFault
  rw [if_neg (Nat.not_le.2 h)]
  split
  · exact some rfl
  · exact some rfl
  · split_ifs
    · exact some rfl
    · exact some rfl
    · exact none

theorem writeByteFault {off : Nat} (h : off < lim) : NoPlaceFault (b.writeByteFault lim w off) := by
  unfold Block.writeByteFault
  rw [if_neg (Nat.not_le.2 h)]
  split
  · exact some rfl
  · split
    · exact none
    · exact some rfl
    · split_ifs
      · exact some rfl
      · exact none

theorem readFault {off n : Nat} (h : off + n ≤ lim) : NoPlaceFault (b.readFault lim w off n) :=
  findSome? fun _ ha => readByteFault ((List.mem_range'_1.1 ha).2.trans_le h)

theorem writeFault {off n : Nat} (h : off + n ≤ lim) : NoPlaceFault (b.writeFault lim w off n) :=
  findSome? fun _ ha => writeByteFault ((List.mem_range'_1.1 ha).2.trans_le h)

theorem memReadFault {a n : Nat} (h : n ∣ a) : NoPlaceFault (s.memReadFault a n) := by
  unfold State.memReadFault
  rw [if_neg (not_not.2 (Nat.mod_eq_zero_of_dvd h))]
  split
  · exact none
  · exact some rfl

theorem memWriteFault {a n : Nat} (h : n ∣ a) : NoPlaceFault (s.memWriteFault a n) := by
  unfold State.memWriteFault
  rw [if_neg (not_not.2 (Nat.mod_eq_zero_of_dvd h))]
  split
  · exact none
  · exact some rfl

end NoPlaceFault

/-! ## What the launch checks give the address rules -/

/-- The sizes and alignments that the launch checks establish (00_scope R9, 60_exceptions R166, R167). -/
structure AddressFacts (s : State) : Prop where
  scr : s.derived.scrBytes = 67584
  sz : s.derived.sz = szOf s.params.outType
  iters : s.derived.iters = 4 * szOf s.params.outType
  rb : 16 ∣ s.derived.rb
  mpad : 128 ∣ s.derived.mpad
  cols : 128 ∣ s.params.n.toNat
  ptr : ∀ i : Fin 9, 128 ∣ s.params.ptrs[i].toNat

theorem LaunchOk.addressFacts {s : State} (h : LaunchOk s) (hne : s.blocks ≠ []) : AddressFacts s := by
  obtain ⟨-, -, hn, -, hk, -⟩ := h.dims hne
  have hd : s.derived = s.params.derive := h.derived hne
  refine ⟨?_, ?_, ?_, ?_, ?_, Nat.dvd_of_mod_eq_zero hn, fun i => Nat.dvd_of_mod_eq_zero (h.aligned hne i)⟩ <;> rw [hd]
  · exact Params.derive_scrBytes s.params
  · rfl
  · rfl
  · show 16 ∣ (s.params.k.toNat - 128) / 2
    omega
  · exact Nat.dvd_mul_right 128 _

/-! ## The places of the accesses -/

/-- The source of a copy is aligned to the copy's size. -/
def Chunk.SourceAligned (c : Chunk) : Prop := ∀ a, c.src = some a → c.n ∣ a

theorem sourceAligned_ite {d n x : Nat} {p : Prop} [Decidable p] (h : n ∣ x) :
    Chunk.SourceAligned ⟨d, n, if p then some x else none⟩ := by
  intro a ha
  obtain ⟨-, ha⟩ := Option.ite_none_right_eq_some.1 ha
  exact Option.some.inj ha ▸ h

section Places
variable {s : State} (h : AddressFacts s) (b : Block) (w : WarpId) (ph : Phase) (slot : Fin 4)
include h

theorem sourceAligned_ldgA (kt i l : Nat) : (ldgAChunk s b w ph slot kt i l).SourceAligned := by
  have hp : 128 ∣ s.params.pA.toNat := h.ptr 0
  have hk : 128 ∣ s.params.pAK.toNat := h.ptr 4
  have hrow := h.rb.mul_left (128 * b.bm.toNat + chunkIdx w i l / 4)
  refine sourceAligned_ite ?_
  cases ph <;> dsimp only <;> omega

theorem sourceAligned_ldgB (kt i l : Nat) : (ldgBChunk s b w ph slot kt i l).SourceAligned := by
  have hp : 128 ∣ s.params.pB.toNat := h.ptr 1
  have hk : 128 ∣ s.params.pBK.toNat := h.ptr 5
  have hcol := h.rb.mul_left (128 * b.bn.toNat + chunkIdx w i l / 4)
  refine sourceAligned_ite ?_
  cases ph <;> dsimp only <;> omega

theorem sourceAligned_ldgs {kt t : Nat} {c : Chunk} (hc : ldgsChunk s b ph slot kt t = some c) : c.SourceAligned := by
  unfold ldgsChunk at hc
  split at hc
  · obtain rfl := Option.some.inj hc
    have hp : 128 ∣ s.params.pAS.toNat := h.ptr 2
    have hk : 128 ∣ s.params.pAKS.toNat := h.ptr 6
    have hm := h.mpad.mul_left kt
    refine sourceAligned_ite ?_
    cases ph <;> dsimp only <;> omega
  · split at hc
    · obtain rfl := Option.some.inj hc
      have hp : 128 ∣ s.params.pBS.toNat := h.ptr 3
      have hk : 128 ∣ s.params.pBKS.toNat := h.ptr 7
      have hn := h.cols.mul_left kt
      intro a ha
      obtain rfl := Option.some.inj ha
      cases ph <;> dsimp only <;> omega
    · cases hc

/-- Copies that are well placed, of aligned sources, raise no fault for their place. -/
theorem noPlaceFault_issueFault {kt : Nat} {chunks : List Chunk} (placed : WellPlaced chunks)
    (aligned : ∀ c ∈ chunks, c.SourceAligned) : NoPlaceFault (issueFault s b ph kt chunks) := by
  unfold issueFault
  split
  · exact .some rfl
  · refine .findSome? fun c hc => .or ?_ (.writeFault (h.scr ▸ placed.inside c hc))
    cases hsrc : c.src with
    | none => exact .none
    | some a => exact .memReadFault (aligned c hc a hsrc)

/-! ## The reads of LDM and LDSC -/

theorem noPlaceFault_loadFault {offs : List Nat} (hoffs : ∀ off ∈ offs, off < 67584) :
    NoPlaceFault (loadFault s b offs) :=
  .findSome? fun off ho => .readByteFault (h.scr ▸ hoffs off ho)

end Places

section Offsets
variable (s : State) (w : WarpId)

theorem rowOf_lt {mi : Fin 2} {i : Nat} (hi : i < 16) : rowOf w mi i < 128 := by
  unfold rowOf wm
  omega

theorem colOf_lt {ni : Fin 8} {j : Nat} (hj : j < 8) : colOf w ni j < 128 := by
  unfold colOf wn
  omega

theorem permAInv_lt {r : Nat} (hr : r < 128) : permAInv s r < 128 := by
  unfold permAInv
  split
  · next p _ => exact p.isLt
  · exact hr

theorem ldmAOffs_lt {slot : Fin 4} {ks mi : Fin 2} {off : Nat} (ho : off ∈ ldmAOffs s w slot ks mi) : off < 67584 := by
  simp only [ldmAOffs, List.mem_flatMap, List.mem_map, List.mem_range] at ho
  obtain ⟨r2, hr, k, hk, rfl⟩ := ho
  have := (opOff_bounds s (opaBase slot) (rowOf_lt w (mi := mi) hr) (cc := 2 * ks.val + k / 16) (by omega)).2
  unfold ldmAOff
  unfold opaBase at this ⊢
  omega

theorem ldmBOffs_lt {slot : Fin 4} {ks : Fin 2} {ni : Fin 8} {off : Nat} (ho : off ∈ ldmBOffs s w slot ks ni) :
    off < 67584 := by
  simp only [ldmBOffs, List.mem_flatMap, List.mem_map, List.mem_range] at ho
  obtain ⟨c2, hc, k, hk, rfl⟩ := ho
  have := (opOff_bounds s (opbBase slot) (colOf_lt w (ni := ni) hc) (cc := 2 * ks.val + k / 16) (by omega)).2
  unfold ldmBOff
  unfold opbBase at this ⊢
  omega

theorem scaOff_lt (ph : Phase) (slot : Fin 4) {mi : Fin 2} {i : Nat} (hi : i < 16) :
    scaOff s w ph slot mi i + 2 ≤ scaBase slot + 256 := by
  have hr := rowOf_lt w (mi := mi) hi
  have hp := permAInv_lt s hr
  cases ph
  · show scaBase slot + 2 * permAInv s (rowOf w mi i) + 2 ≤ _
    omega
  · show scaBase slot + 2 * rowOf w mi i + 2 ≤ _
    omega

theorem scbOff_lt (slot : Fin 4) {ni : Fin 8} {j : Nat} (hj : j < 8) : scbOff w slot ni j + 2 ≤ scbBase slot + 256 := by
  have := colOf_lt w (ni := ni) hj
  unfold scbOff
  omega

theorem ldscOffs_lt {ph : Phase} {slot : Fin 4} {off : Nat} (ho : off ∈ ldscOffs s w ph slot) : off < 67584 := by
  simp only [ldscOffs, List.mem_append, List.mem_flatMap, List.mem_range, List.mem_range'_1] at ho
  rcases ho with ⟨mi, -, i, hi, -, hlt⟩ | ⟨ni, -, j, hj, -, hlt⟩
  · have := scaOff_lt s w ph slot (mi := mi) hi
    unfold scaBase at this
    omega
  · have := scbOff_lt w slot (ni := ni) hj
    unfold scbBase at this
    omega

end Offsets

/-! ## The writes of CVTS and the pieces of STG -/

theorem length_cvtOut (s : State) (p : Nat) (x : F32) : (cvtOut s p x).length = szOf s.params.outType := by
  unfold cvtOut szOf
  cases outTypeOfBits s.params.outType with
  | none => rfl
  | some o => cases o <;> simp [leBytes]

section Epilogue
variable {s : State} (h : AddressFacts s) (b : Block) (w : WarpId)
include h

/-- A staged element lies in the staging area of 128 · 128 elements (45_epilogue R138). -/
theorem stageWrites_le {x : Warp} {p : Nat × List Byte} (hp : p ∈ stageWrites s x w) : p.1 + p.2.length ≤ 67584 := by
  obtain ⟨⟨mi, ni, r, c⟩, -, rfl⟩ := List.mem_map.1 hp
  have hrow := rowOf_lt w (mi := mi) r.isLt
  have hcol := colOf_lt w (ni := ni) c.isLt
  have hsz := szOf_le s.params.outType
  have hend := Nat.mul_le_mul (show 128 * rowOf w mi r.val + colOf w ni c.val + 1 ≤ 16384 by omega) hsz
  simp only [stageOff, epiOff, epiBase, length_cvtOut, h.sz]
  rw [Nat.add_mul] at hend
  omega

/-- A piece of an iteration in range lies in the staging area, and its device address is a multiple of 16 (45_epilogue R140). -/
theorem stgPieces_place {it : Nat} (hit : stgItBad s it = false) {p : StorePiece} (hp : p ∈ stgPieces s b w it) :
    p.off + 16 ≤ 67584 ∧ 16 ∣ p.dst := by
  obtain ⟨l, hl, hpiece⟩ := List.mem_filterMap.1 hp
  simp only [stgPiece, Option.ite_none_right_eq_some, Option.some.injEq] at hpiece
  obtain ⟨-, rfl⟩ := hpiece
  have hlane := List.mem_range.1 hl
  have hc : 256 * it + threadIdx w l < 4096 := by
    have hsz := szOf_le s.params.outType
    have hiters := of_decide_eq_false hit
    rw [h.iters] at hiters
    unfold threadIdx
    omega
  generalize 256 * it + threadIdx w l = c at hc ⊢
  have hdiv := Nat.div_add_mod c (8 * s.derived.sz)
  have hrow : 128 * s.derived.sz * (c / (8 * s.derived.sz)) = 16 * (8 * s.derived.sz * (c / (8 * s.derived.sz))) := by ring
  have hD : 128 ∣ s.params.pD.toNat := h.ptr 8
  have hcols := h.cols.mul_left (128 * b.bm.toNat + c / (8 * s.derived.sz))
  have helem := (hcols.add (Nat.dvd_mul_right 128 b.bn.toNat)).mul_right s.derived.sz
  dsimp only [epiBase]
  omega

end Epilogue

/-! ## The statement -/

/-- Where a launch passed its checks no command raises a fault for the place of an access. -/
theorem noPlaceFault_commandFault {s : State} (h : AddressFacts s) (i : Instr) (b : Block) :
    NoPlaceFault (commandFault i s b) := by
  cases i with
  | ldgA ph slot kt =>
    refine noPlaceFault_issueFault h b ph (wellPlaced_ldgA s b s.cur.w ph slot kt) fun c hc => ?_
    obtain ⟨p, -, rfl⟩ := List.mem_map.1 hc
    exact sourceAligned_ldgA h b s.cur.w ph slot kt p.1 p.2
  | ldgB ph slot kt =>
    refine noPlaceFault_issueFault h b ph (wellPlaced_ldgB s b s.cur.w ph slot kt) fun c hc => ?_
    obtain ⟨p, -, rfl⟩ := List.mem_map.1 hc
    exact sourceAligned_ldgB h b s.cur.w ph slot kt p.1 p.2
  | ldgs ph slot kt =>
    refine noPlaceFault_issueFault h b ph (wellPlaced_ldgs s b s.cur.w ph slot kt) fun c hc => ?_
    obtain ⟨l, -, hl⟩ := List.mem_filterMap.1 hc
    exact sourceAligned_ldgs h b ph slot hl
  | ldmA slot ks mi => exact noPlaceFault_loadFault h b fun off => ldmAOffs_lt s s.cur.w
  | ldmB slot ks ni => exact noPlaceFault_loadFault h b fun off => ldmBOffs_lt s s.cur.w
  | ldsc ph slot => exact noPlaceFault_loadFault h b fun off => ldscOffs_lt s s.cur.w
  | mma4 mi ni | mma8 mi ni =>
    simp only [commandFault, mmaFault]
    split
    · exact .some rfl
    · exact .some rfl
    · exact .none
  | deq =>
    simp only [commandFault, deqFault]
    split
    · exact .none
    · exact .some rfl
  | cvts => exact .findSome? fun p hp => .writeFault (h.scr ▸ stageWrites_le h s.cur.w hp)
  | stg it =>
    simp only [commandFault]
    split
    · exact .some rfl
    · next hit =>
      refine .findSome? fun p hp => ?_
      obtain ⟨hoff, hdst⟩ := stgPieces_place h b s.cur.w (Bool.eq_false_iff.2 hit) hp
      exact .or (.readFault (h.scr ▸ hoff)) (.memWriteFault hdst)
  | nop | commit | wait | bar | endWarp => exact .none

/-- A raise is of one cause, and no effect of a command. -/
theorem commandFault_of_raise {i : Instr} {s : State} {b : Block} {c : Cause} (hb : s.block? = some b)
    (h : exec i s = .next (s.raise b c)) : commandFault i s b = some c := by
  rcases exec_next_cases hb h with ⟨d, hd, ht⟩ | ⟨b', he, ht⟩
  · have hblock := (raise_block hb c).symm.trans ((congrArg State.block? ht).trans (raise_block hb d))
    have hlog := congrArg Block.log (Option.some.inj hblock)
    simp only [Block.faultedWith, List.append_cancel_left_eq, List.cons.injEq, FaultRecord.mk.injEq] at hlog
    rw [hd, hlog.1.1]
  · have hblock := (raise_block hb c).symm.trans ((congrArg State.block? ht).trans (finish_block hb))
    obtain ⟨-, -, -, hlog⟩ := he.blockKept.identity
    rw [← Option.some.inj hblock] at hlog
    simp [Block.faultedWith] at hlog

/-- Settles O55: no check that fails is one for the place of an access, and a raise names the check that failed. -/
theorem noCommandIsOutOfScratchOrMisaligned : Obligations.NoCommandIsOutOfScratchOrMisaligned := by
  intro i s t b hl hb h
  have hplace : ∀ c : Cause, t = s.raise b c → c.ofPlace = false := by
    rintro c rfl
    refine noPlaceFault_commandFault (hl.addressFacts ?_) i b c (commandFault_of_raise hb h)
    exact List.ne_nil_of_mem (List.mem_of_getElem? hb)
  exact ⟨fun off ht => Bool.noConfusion (hplace _ ht), fun a n ht => Bool.noConfusion (hplace _ ht)⟩

end Sys2Proof.Machine
end

section
/-! The decoder and the encoder (30_encoding R76 to R83, R85): the rows of the opcode map exclude each other, each row's
match is a shape of the word's fields, and in that shape the row's command holds every field that is not fixed. -/

namespace Sys2Proof
open Sys2Proof.Machine Sys2Proof.Laws

/-! ## At most one row matches -/

/-- Two rows one word matches agree on the bits of both masks. -/
theorem pattern_and_mask_of_rowMatches {w : Cmd} {r q : OpcodeRow} (hr : rowMatches w r = true)
    (hq : rowMatches w q = true) : r.pattern &&& q.mask = q.pattern &&& r.mask := by
  rw [← of_decide_eq_true hr, ← of_decide_eq_true hq, BitVec.and_assoc, BitVec.and_assoc, BitVec.and_comm r.mask]

/-- Settles O4: the patterns of two rows differ in a bit of both masks. -/
theorem atMostOneRowMatches : Obligations.AtMostOneRowMatches := by
  intro w j k hj hk
  have rows_differ : ∀ j k : Fin 16,
      opcodeTable[j].pattern &&& opcodeTable[k].mask = opcodeTable[k].pattern &&& opcodeTable[j].mask → j = k := by
    decide
  exact rows_differ j k (pattern_and_mask_of_rowMatches hj hk)

/-- The decoder answers with the command of a row the word matches, since no other row matches it. -/
theorem decode_of_rowMatches {w : Cmd} {r : OpcodeRow} (hr : r ∈ opcodeTable) (hm : rowMatches w r = true) :
    decode w = .ok (r.command (fieldsOfWord w)) := by
  obtain ⟨q, hq⟩ := Option.isSome_iff_exists.1 (List.find?_isSome.2 ⟨r, hr, hm⟩)
  obtain ⟨j, hj, rfl⟩ := List.getElem_of_mem hr
  obtain ⟨k, hk, rfl⟩ := List.getElem_of_mem (List.mem_of_find?_eq_some hq)
  cases atMostOneRowMatches w ⟨j, hj⟩ ⟨k, hk⟩ hm (List.find?_some hq)
  rw [decode, hq]

/-! ## From a command to its word and back -/

@[simp] theorem phaseOfBit_bitOfPhase (ph : Phase) : phaseOfBit (bitOfPhase ph) = ph := by
  cases ph <;> rfl

@[simp] theorem bitOfPhase_phaseOfBit (b : BitVec 1) : bitOfPhase (phaseOfBit b) = b := by
  revert b
  decide

/-- The word of a well-formed command selects the row of its mnemonic (30_encoding R79). -/
theorem rowSelected (i : Instr) : RowSelected.Statement i := by
  cases i with
  | nop => exact RowSelected.nop
  | ldgA ph slot kt => exact RowSelected.ldgA ph slot kt
  | ldgB ph slot kt => exact RowSelected.ldgB ph slot kt
  | ldgs ph slot kt => exact RowSelected.ldgs ph slot kt
  | commit => exact RowSelected.commit
  | wait n => exact RowSelected.wait n
  | bar => exact RowSelected.bar
  | ldmA slot ks mi => exact RowSelected.ldmA slot ks mi
  | ldmB slot ks ni => exact RowSelected.ldmB slot ks ni
  | ldsc ph slot => exact RowSelected.ldsc ph slot
  | mma4 mi ni => exact RowSelected.mma4 mi ni
  | mma8 mi ni => exact RowSelected.mma8 mi ni
  | deq => exact RowSelected.deq
  | cvts => exact RowSelected.cvts
  | stg it => exact RowSelected.stg it
  | endWarp => exact RowSelected.endWarp

/-- The row of a command's mnemonic reads the command back from its fields: a number that fits its field is not cut. -/
theorem command_fieldsOfInstr {i : Instr} (hw : i.wf = true) :
    ∀ r ∈ opcodeTable, r.mnemonic = RowSelected.mnemonicOf i → r.command (fieldsOfInstr i) = i := by
  simp only [opcodeTable, List.forall_mem_cons]
  cases i with
  | ldgA | ldgB | ldgs | wait | stg =>
    have hfits := of_decide_eq_true hw
    simp [RowSelected.mnemonicOf, fieldsOfInstr, formatZ, hfits]
  | ldmA slot ks mi =>
    have hmi : ∀ mi : Fin 2, ((BitVec.ofNat 3 mi.val).extractLsb' 0 1).toFin = mi := by decide
    simp [RowSelected.mnemonicOf, fieldsOfInstr, formatZ, hmi, -BitVec.toFin_ofNat, -BitVec.toFin_extractLsb']
  | _ => simp [RowSelected.mnemonicOf, fieldsOfInstr, formatZ]

/-- Settles O1: the word of a command selects the command's row, which reads the command back. -/
theorem decodeOfEncodeIsTheCommand : Obligations.DecodeOfEncodeIsTheCommand := by
  intro i hw
  obtain ⟨r, hr, hmnemonic, hmatch⟩ := rowSelected i hw
  rw [decode_of_rowMatches hr hmatch, fieldsOfWord_encode, command_fieldsOfInstr hw r hr hmnemonic]

/-! ## The shape of a row's words -/

/-- The shape of the fields of a word that matches row `k` of the opcode map (30_encoding R78, R79): the fields its
format does not use are zero, and a number in a part of its field fits that part. -/
def Fields.FitsRow (f : Fields) : Fin 16 → Prop
  | 0 => f = formatZ 0
  | 1 => f = { formatZ 1 with ph := f.ph, slot := f.slot, imm := f.imm }
  | 2 => f = { formatZ 1 with ph := f.ph, op := 1, slot := f.slot, imm := f.imm }
  | 3 => f = { formatZ 2 with ph := f.ph, slot := f.slot, imm := f.imm }
  | 4 => f = formatZ 3
  | 5 => f = { formatZ 4 with imm := f.imm } ∧ f.imm.toNat < 16
  | 6 => f = formatZ 5
  | 7 => f = { formatZ 6 with slot := f.slot, ks := f.ks, idx := f.idx } ∧ f.idx.toNat < 2
  | 8 => f = { formatZ 6 with op := 1, slot := f.slot, ks := f.ks, idx := f.idx }
  | 9 => f = { formatZ 7 with ph := f.ph, slot := f.slot }
  | 10 => f = { formatZ 8 with idx := f.idx, mi := f.mi }
  | 11 => f = { formatZ 9 with idx := f.idx, mi := f.mi }
  | 12 => f = formatZ 10
  | 13 => f = formatZ 11
  | 14 => f = { formatZ 12 with imm := f.imm } ∧ f.imm.toNat < 256
  | _ => f = formatZ 13

/-- A mask of ones keeps every bit; stated for any spelling of the mask, so that `simp` applies it to a numeral. -/
theorem and_eq_self_of_eq_allOnes {n : Nat} {x m : BitVec n} (h : m = BitVec.allOnes n) : x &&& m = x := by
  rw [h, BitVec.and_allOnes]

/-- The bits from `k` up are zero exactly in the numbers below `2 ^ k`. -/
theorem and_allOnes_shiftLeft_eq_zero_iff {n : Nat} (x : BitVec n) (k : Nat) :
    x &&& BitVec.allOnes n <<< k = 0#n ↔ x.toNat < 2 ^ k := by
  rw [← BitVec.shiftLeft_ushiftRight, ← BitVec.toNat_inj, BitVec.toNat_shiftLeft, BitVec.toNat_ushiftRight,
    Nat.shiftRight_eq_div_pow, Nat.shiftLeft_eq, Nat.mod_eq_of_lt ((Nat.div_mul_le_self _ _).trans_lt x.isLt)]
  simp

/-- A word matches a row exactly where its fields have the row's shape. -/
theorem rowMatches_getElem_iff (w : Cmd) (k : Fin 16) :
    rowMatches w opcodeTable[k] = true ↔ (fieldsOfWord w).FitsRow k := by
  rw [rowMatches_iff]
  obtain ⟨opc, ph, op, slot, ks, idx, mi, rsv, imm⟩ := fieldsOfWord w
  have himm4 : imm &&& 0xFFF0#16 = 0#16 ↔ imm.toNat < 16 := and_allOnes_shiftLeft_eq_zero_iff imm 4
  have himm8 : imm &&& 0xFF00#16 = 0#16 ↔ imm.toNat < 256 := and_allOnes_shiftLeft_eq_zero_iff imm 8
  have hidx : idx &&& 6#3 = 0#3 ↔ idx.toNat < 2 := and_allOnes_shiftLeft_eq_zero_iff idx 1
  fin_cases k <;>
    simp [Fields.mask, Fields.FitsRow, opcodeTable, formatZ, fieldsOfWord, and_eq_self_of_eq_allOnes, himm4, himm8,
      hidx, and_assoc, and_comm (a := idx.toNat ≤ 1)]

/-- A row's command, built from fields of the row's shape, is well formed and has those fields. -/
theorem command_of_fitsRow {f : Fields} {k : Fin 16} (h : f.FitsRow k) :
    (opcodeTable[k].command f).wf = true ∧ fieldsOfInstr (opcodeTable[k].command f) = f := by
  obtain ⟨opc, ph, op, slot, ks, idx, mi, rsv, imm⟩ := f
  have himm : imm.toNat < 65536 := imm.isLt
  fin_cases k <;>
    simp only [Fin.zero_eta, Fin.mk_one, Fin.reduceFinMk, Fields.FitsRow, formatZ, Fields.mk.injEq] at h <;>
    simp [opcodeTable, formatZ, fieldsOfInstr, Instr.wf, ktFits, waitFits, itFits, Nat.mod_eq_of_lt, himm, h]

theorem exists_fitsRow_of_decode {w : Cmd} {i : Instr} (h : decode w = .ok i) :
    ∃ k : Fin 16, (fieldsOfWord w).FitsRow k ∧ opcodeTable[k].command (fieldsOfWord w) = i := by
  obtain ⟨r, hr, hmatch, hi⟩ := exists_row_of_decode h
  obtain ⟨k, hk, rfl⟩ := List.getElem_of_mem hr
  exact ⟨⟨k, hk⟩, (rowMatches_getElem_iff w ⟨k, hk⟩).1 (decide_eq_true hmatch), hi⟩

/-- Settles O2: the command a word decodes to has the fields of the word, which determine it. -/
theorem decodedWordIsTheEncoding : Obligations.DecodedWordIsTheEncoding := by
  intro w i h
  obtain ⟨k, hshape, rfl⟩ := exists_fitsRow_of_decode h
  obtain ⟨hwf, hfields⟩ := command_of_fitsRow hshape
  exact ⟨hwf, by rw [encode, hfields, wordOfFields_fieldsOfWord]⟩

/-! ## The illegal words -/

theorem decode_error_iff (w : Cmd) : (∃ e, decode w = .error e) ↔ ∀ k, ¬(fieldsOfWord w).FitsRow k := by
  constructor
  · rintro ⟨e, he⟩ k hshape
    have hok := decode_of_rowMatches (List.getElem_mem _) ((rowMatches_getElem_iff w k).2 hshape)
    rw [he] at hok
    cases hok
  · intro h
    cases hd : decode w with
    | error e => exact ⟨e, rfl⟩
    | ok i =>
      obtain ⟨k, hshape, -⟩ := exists_fitsRow_of_decode hd
      exact absurd hshape (h k)

/-! ### Runs of zero bits, as fields that are zero (30_encoding R77) -/

/-- A field is zero where its bits of the word's number are. -/
theorem extractLsb'_eq_zero_iff {n : Nat} (w : BitVec n) (start len : Nat) :
    w.extractLsb' start len = 0 ↔ w.toNat / 2 ^ start % 2 ^ len = 0 := by
  rw [← BitVec.toNat_inj, BitVec.extractLsb'_toNat, Nat.shiftRight_eq_div_pow]
  rfl

section
variable (w : Cmd)

theorem div_27_eq_opc : w.toNat / 2 ^ 27 = (fieldsOfWord w).opc.toNat := by
  have hw := w.isLt
  simp only [fieldsOfWord, BitVec.extractLsb'_toNat, Nat.shiftRight_eq_div_pow]
  omega

theorem bit_26_eq_ph : w.toNat / 2 ^ 26 % 2 = (fieldsOfWord w).ph.toNat := by
  simp [fieldsOfWord, Nat.shiftRight_eq_div_pow]

theorem bit_25_eq_op : w.toNat / 2 ^ 25 % 2 = (fieldsOfWord w).op.toNat := by
  simp [fieldsOfWord, Nat.shiftRight_eq_div_pow]

theorem bits_19_eq_idx : w.toNat / 2 ^ 19 % 2 ^ 3 = (fieldsOfWord w).idx.toNat := by
  simp [fieldsOfWord, Nat.shiftRight_eq_div_pow]

theorem low_18_eq_zero_iff : w.toNat % 2 ^ 18 = 0 ↔ (fieldsOfWord w).rsv = 0 ∧ (fieldsOfWord w).imm = 0 := by
  simp only [fieldsOfWord, extractLsb'_eq_zero_iff]
  omega

theorem low_19_eq_zero_iff : w.toNat % 2 ^ 19 = 0 ↔ (fieldsOfWord w).mi = 0 ∧ w.toNat % 2 ^ 18 = 0 := by
  simp only [fieldsOfWord, extractLsb'_eq_zero_iff]
  omega

theorem bits_16_to_22_eq_zero_iff : w.toNat / 2 ^ 16 % 2 ^ 7 = 0 ↔
    (fieldsOfWord w).ks = 0 ∧ (fieldsOfWord w).idx = 0 ∧ (fieldsOfWord w).mi = 0 ∧ (fieldsOfWord w).rsv = 0 := by
  simp only [fieldsOfWord, extractLsb'_eq_zero_iff]
  omega

theorem low_23_eq_zero_iff : w.toNat % 2 ^ 23 = 0 ↔ w.toNat / 2 ^ 16 % 2 ^ 7 = 0 ∧ (fieldsOfWord w).imm = 0 := by
  simp only [fieldsOfWord, extractLsb'_eq_zero_iff]
  omega

theorem bits_22_to_26_eq_zero_iff : w.toNat % 2 ^ 27 / 2 ^ 22 = 0 ↔
    (fieldsOfWord w).ph = 0 ∧ (fieldsOfWord w).op = 0 ∧ (fieldsOfWord w).slot = 0 ∧ (fieldsOfWord w).ks = 0 := by
  simp only [fieldsOfWord, extractLsb'_eq_zero_iff]
  omega

theorem low_27_eq_zero_iff : w.toNat % 2 ^ 27 = 0 ↔ w.toNat % 2 ^ 27 / 2 ^ 22 = 0 ∧ w.toNat % 2 ^ 23 = 0 := by
  omega

/-- Above the low `k` bits of IMM. -/
theorem low_27_div_eq_zero_iff {k : Nat} (hk : 2 ^ k ≤ 2 ^ 16) : w.toNat % 2 ^ 27 / 2 ^ k = 0 ↔
    w.toNat % 2 ^ 27 / 2 ^ 22 = 0 ∧ w.toNat / 2 ^ 16 % 2 ^ 7 = 0 ∧ (fieldsOfWord w).imm.toNat < 2 ^ k := by
  rw [Nat.div_eq_zero_iff_lt (Nat.two_pow_pos k)]
  simp only [fieldsOfWord, BitVec.extractLsb'_toNat, Nat.shiftRight_eq_div_pow]
  omega

end

/-- Settles O3: opcode by opcode, a word of no row's shape has a field the opcode's format leaves no room for. -/
theorem illegalWordsAreTheReservedOnes : Obligations.IllegalWordsAreTheReservedOnes := by
  intro w
  simp only [decode_error_iff, ne_eq, div_27_eq_opc, bit_26_eq_ph, bit_25_eq_op, bits_19_eq_idx,
    low_27_div_eq_zero_iff w (k := 4) (by decide), low_27_div_eq_zero_iff w (k := 8) (by decide), low_27_eq_zero_iff,
    low_23_eq_zero_iff, low_19_eq_zero_iff, low_18_eq_zero_iff, bits_22_to_26_eq_zero_iff, bits_16_to_22_eq_zero_iff]
  obtain ⟨opc, ph, op, slot, ks, idx, mi, rsv, imm⟩ := fieldsOfWord w
  have hph : ph.toNat < 2 := ph.isLt
  have hop : op.toNat < 2 := op.isLt
  simp only [Fin.forall_fin_succ, Fin.isValue, Fin.succ_zero_eq_one, Fin.succ_one_eq_two, Fin.reduceSucc,
    IsEmpty.forall_iff, Fields.FitsRow, formatZ, Fields.mk.injEq, true_and, and_true, ← BitVec.toNat_inj,
    BitVec.ofNat_eq_ofNat, BitVec.toNat_ofNat, Nat.reducePow, Nat.reduceMod, List.mem_cons, List.not_mem_nil, or_false]
  generalize opc.toNat = n
  by_cases hn : 14 ≤ n
  · simp only [hn, true_or, iff_true]
    omega
  · have hlt : n < 14 := Nat.lt_of_not_le hn
    interval_cases n <;> simp <;> omega

/-! ## The examples -/

/-- Settles O5: the decoder runs on each word. -/
theorem encodingExamplesDecode : Obligations.EncodingExamplesDecode := by
  unfold Obligations.EncodingExamplesDecode
  exact ⟨by decide, by decide⟩

end Sys2Proof
end

section
/-! What a copy command does (40_loader R94, R95, R98): the fault of the first copy that fails a check, its device read before
its claim (60_exceptions R162), else the issue of all its copies. -/

namespace Sys2Proof.Machine
open Sys2Proof.Claims

/-! ## The fault of one copy -/

section Faults
variable {s : State} {b : Block} {w : WarpId} {f : Cause}

/-- A device read that fails a check raises MISALIGNED before OOB_GLOBAL (20_memory R55). -/
theorem memReadFault_of_not_readOk {a n : Nat} (h : ¬ReadOk s a n) : s.memReadFault a n = some (accessFault a n) := by
  rw [← memReadFault_eq_none, State.memReadFault] at h
  rw [State.memReadFault, accessFault]
  split_ifs at h ⊢ with halign hadmit
  · rfl
  · exact absurd rfl h
  · rfl

theorem otherReader_eq_none {off : Nat} : b.otherReader w off = none ↔ ¬ReadByOther b w off := by
  simp [Block.otherReader, ReadByOther, List.find?_eq_none]

/-- The fault of a scratch byte is that of its first failing check (20_memory R61, R62). -/
theorem writeFails_of_writeByteFault {lim off : Nat} (h : b.writeByteFault lim w off = some f) :
    WriteFails lim b w off f := by
  unfold Block.writeByteFault at h
  dsimp only at h
  split at h
  · next hlim =>
    cases h
    exact .inl ⟨hlim, rfl⟩
  · next hlim =>
    have hlt : off < lim := Nat.lt_of_not_le hlim
    split at h
    · next w2 hr =>
      cases h
      have hw2 := List.find?_some hr
      rw [Bool.and_eq_true, decide_eq_true_eq, decide_eq_true_eq] at hw2
      exact .inr (.inl ⟨hlt, w2, hw2.1, hw2.2, rfl⟩)
    · next hr =>
      have hnone := otherReader_eq_none.1 hr
      split at h
      · cases h
      · next hv =>
        cases h
        exact .inr (.inr (.inl ⟨hlt, hnone, hv, rfl⟩))
      · next g0 hv =>
        split at h
        · next hg =>
          cases h
          exact .inr (.inr (.inr ⟨hlt, hnone, g0, hv, hg.1, hg.2, rfl⟩))
        · cases h

/-- The fault of a range of scratch bytes is that of the first byte that fails a check (20_memory R61, R62). -/
theorem writeFails_of_writeFault {lim off n : Nat} (h : b.writeFault lim w off n = some f) :
    ∃ k < n, (∀ j < k, Writable lim b w (off + j)) ∧ WriteFails lim b w (off + k) f := by
  obtain ⟨pre, a, post, hsplit, ha, hpre⟩ := List.findSome?_eq_some_iff.1 h
  obtain ⟨k, -, rfl, hpost⟩ := List.range'_eq_append_iff.1 hsplit
  obtain ⟨rfl, hlt, -⟩ := List.range'_eq_cons_iff.1 hpost.symm
  rw [Nat.mul_one] at ha
  refine ⟨k, by omega, fun j hj => ?_, writeFails_of_writeByteFault ha⟩
  exact writeByteFault_eq_none.1 (hpre _ (List.mem_range'_1.2 ⟨by omega, by omega⟩))

variable {c : Chunk}

/-- No check of a copy fails exactly where the copy passes its checks. -/
theorem copyFault_eq_none : copyFault s b w c = none ↔ CopyOk s b w c := by
  rw [copyFault, Option.or_eq_none_iff, writeFault_eq_none, Option.bind_eq_none_iff]
  simp only [memReadFault_eq_none, CopyOk, Chunk.offs]

/-- The fault of a copy is that of its device read, else that of its claim (60_exceptions R162). -/
theorem copyFails_of_copyFault (h : copyFault s b w c = some f) : CopyFails s b w c f := by
  rcases Option.or_eq_some_iff.1 h with hread | ⟨hread, hclaim⟩
  · obtain ⟨a, ha, hf⟩ := Option.bind_eq_some_iff.1 hread
    have hbad : ¬ReadOk s a c.n := fun hok => by cases (memReadFault_eq_none.2 hok).symm.trans hf
    exact .inl ⟨a, ha, hbad, Option.some.inj (hf.symm.trans (memReadFault_of_not_readOk hbad))⟩
  · rw [Option.bind_eq_none_iff] at hread
    exact .inr ⟨fun a ha => memReadFault_eq_none.1 (hread a ha), writeFails_of_writeFault hclaim⟩

end Faults

/-! ## The issue of copies -/

section Issue
variable {s : State} {b : Block} {cs : List Chunk}

theorem copyRecord_eq (s : State) (c : Chunk) : copyRecord s c = ⟨c.dst, carried s c, false⟩ := by
  obtain ⟨dst, n, src⟩ := c
  cases src with
  | none => rfl
  | some a =>
    dsimp only [copyRecord, carried]
    rw [Memory.readBytes, List.range'_eq_map_range, List.map_map]
    rfl

theorem mem_flatMap_chunk_offs {off : Nat} : off ∈ cs.flatMap Chunk.offs ↔ ClaimedBy cs off := by
  simp only [List.mem_flatMap, Chunk.mem_offs, ClaimedBy]

/-- The model's issue claims the bytes of the copies and appends their records (20_memory R62, 41_pipeline_sync R101). -/
theorem issues_issued (w : WarpId) (hb : b.scrWf = true) : Issues s b (issued s b w cs) w cs := by
  have hshared : SharedKept b (b.claim w (cs.flatMap Chunk.offs)) := ⟨by simp, by simp, by simp, by simp, by simp⟩
  refine ⟨?_, fun off ho => ?_, fun off ho => ?_⟩
  · simp only [← copyRecord_eq]
    exact warpBecomes_updWarp hshared (Block.claim_warps ..) w fun x => (x.issue (cs.map (copyRecord s))).advance
  · rw [issued, Block.updWarp_tag, Block.tag_claim hb, if_pos (mem_flatMap_chunk_offs.2 ho)]
    rfl
  · rw [issued, Block.updWarp_tag, Block.tag_claim hb, if_neg (mem_flatMap_chunk_offs.not.2 ho)]

theorem keeperKtBad_eq_false {ph : Phase} {kt : Nat} : keeperKtBad ph kt = false ↔ (ph = .keeper → kt < 2) := by
  simp [keeperKtBad]

/-- A command that issues the copies `cs`, all or none, does as the rules of the copy commands say. -/
theorem copyCommandResult_of_meaning {i : Instr} {ph : Phase} {kt : Nat} (hb : s.block? = some b)
    (hs : Canonical s) (hm : meaning i s b =
      if keeperKtBad ph kt then .error (.illegalOperand kt) else issueCopies s b cs) :
    CopyCommandResult i s b ph kt cs := by
  rw [CopyCommandResult, exec_eq_runCommand]
  refine ⟨fun hph hkt => ?_, fun hkt => ?_⟩
  · have hbad : keeperKtBad ph kt = true := by simp [keeperKtBad, hph, hkt]
    exact runCommand_error hb (by rw [hm, if_pos hbad])
  · rw [← keeperKtBad_eq_false] at hkt
    rw [hkt, if_neg Bool.false_ne_true] at hm
    refine ⟨fun hok => ⟨_, runCommand_ok hb (hm.trans (issueCopies_ok hok)), ?_⟩, ?_⟩
    · exact issues_issued s.cur.w (hs.scr b (List.mem_of_getElem? hb))
    · rintro pre c post rfl hpre hc
      obtain ⟨f, hf⟩ := Option.ne_none_iff_exists'.1 (copyFault_eq_none.not.2 hc)
      have hfirst : (pre ++ c :: post).findSome? (copyFault s b s.cur.w) = some f :=
        List.findSome?_eq_some_iff.2 ⟨pre, c, post, rfl, hf, fun p hp => copyFault_eq_none.2 (hpre p hp)⟩
      exact ⟨f, copyFails_of_copyFault hf, runCommand_error hb (by rw [hm, issueCopies, hfirst])⟩

end Issue

/-! ## The copies are those of the loops -/

section Loops
variable (s : State) (b : Block) (w : WarpId) (ph : Phase) (slot : Fin 4) (kt : Nat)

theorem map_ldgLanes (f : Nat → Nat → Chunk) : (ldgLanes.map fun p => f p.1 p.2) = ldgLoops f := by
  simp only [ldgLanes, ldgLoops, List.map_flatMap, List.map_map, Function.comp_def]

/-- The model's swizzle is `cc ^ SWZ(r)` (40_loader R87). -/
theorem swizzle_eq_xor_swzAt (r cc : Nat) : swizzle s r cc = cc ^^^ swzAt s r := by
  rw [swizzle, swzAt, List.getD_eq_getElem?_getD, Vector.getElem?_toList]
  cases s.cfg.swz[r]? <;> rfl

/-- The model's PERM_A is the permutation at the positions of a tile (20_memory R47). -/
theorem permA_eq_permAt {p : Nat} (hp : p < 128) : permA s p = permAt s p := by
  simp [permA, permAt, hp]

/-- The tile row of a lane's chunk, as the pseudocode has it (40_loader R94, R95). -/
theorem chunkIdx_div_four (i l : Nat) : chunkIdx w i l / 4 = (256 * i + 32 * w.val + l) >>> 2 := by
  rw [Nat.shiftRight_eq_div_pow, chunkIdx, threadIdx, Nat.add_assoc]

/-- The chunk of its tile row that a lane copies, as the pseudocode has it (40_loader R94, R95). -/
theorem chunkIdx_mod_four (i l : Nat) : chunkIdx w i l % 4 = (256 * i + 32 * w.val + l) &&& 3 := by
  rw [Nat.and_two_pow_sub_one_eq_mod _ 2, chunkIdx, threadIdx, Nat.add_assoc]

theorem ldgAChunk_eq_ldgACopy : ldgAChunk s b w ph slot kt = ldgACopy s b w ph slot kt := by
  funext i l
  unfold ldgAChunk ldgACopy
  dsimp only
  rw [chunkIdx_div_four, chunkIdx_mod_four, opOff, swizzle_eq_xor_swzAt]
  cases ph <;> simp only [rowLive, kLive, Bool.and_eq_true, decide_eq_true_eq, and_true] <;> rfl

theorem ldgBChunk_eq_ldgBCopy : ldgBChunk s b w ph slot kt = ldgBCopy s b w ph slot kt := by
  funext i l
  unfold ldgBChunk ldgBCopy
  dsimp only
  rw [chunkIdx_div_four, chunkIdx_mod_four, opOff, swizzle_eq_xor_swzAt]
  cases ph <;> simp only [kLive, decide_eq_true_eq, if_true] <;> rfl

theorem ldgsChunk_eq_ldgsCopy (l : Nat) : ldgsChunk s b ph slot kt (threadIdx w l) = ldgsCopy s b w ph slot kt l := by
  unfold ldgsChunk ldgsCopy threadIdx
  dsimp only
  split
  · next ht =>
    have h0 := permA_eq_permAt s (p := 2 * (32 * w.val + l)) (by omega)
    have h1 := permA_eq_permAt s (p := 2 * (32 * w.val + l) + 1) (by omega)
    cases ph <;> simp [scaBase, scaleLive, rowLive, h0, h1]
  · split
    · cases ph <;> rfl
    · rfl

end Loops

/-- Settles O8: the copies the model issues are those of the loops. -/
theorem ldgAIssuesItsCopies : Obligations.LdgAIssuesItsCopies := by
  intro s b ph slot kt hb hs
  rw [← ldgAChunk_eq_ldgACopy, ← map_ldgLanes]
  exact copyCommandResult_of_meaning hb hs rfl

/-- Settles O9: the copies the model issues are those of the loops. -/
theorem ldgBIssuesItsCopies : Obligations.LdgBIssuesItsCopies := by
  intro s b ph slot kt hb hs
  rw [← ldgBChunk_eq_ldgBCopy, ← map_ldgLanes]
  exact copyCommandResult_of_meaning hb hs rfl

/-- Settles O10: the copies the model issues are those of the loop, and the threads of warps 4 to 7 are 128 and up. -/
theorem ldgsIssuesItsCopies : Obligations.LdgsIssuesItsCopies := by
  intro s b ph slot kt hb hs
  refine ⟨?_, fun hw => List.filterMap_eq_nil_iff.2 fun l _ => ?_⟩
  · rw [← funext (ldgsChunk_eq_ldgsCopy s b s.cur.w ph slot kt)]
    exact copyCommandResult_of_meaning hb hs rfl
  · unfold ldgsCopy
    rw [if_neg (by omega), if_neg (by omega)]

end Sys2Proof.Machine
end

section
/-! The chunks of an LDG of all eight warps tile the operand region of its slot (40_loader R87 to R89). -/

namespace Sys2Proof.Machine

/-- The lanes of the iterations of an LDG of all warps copy the 512 chunks of the tile, one each (40_loader R89). -/
theorem exists_lane_of_chunk {c : Nat} (hc : c < 512) : ∃ q : WarpId × Fin 2 × Fin 32, chunkIdx q.1 q.2.1 q.2.2 = c := by
  refine ⟨⟨⟨c % 256 / 32, by omega⟩, ⟨c / 256, by omega⟩, ⟨c % 32, by omega⟩⟩, ?_⟩
  unfold chunkIdx threadIdx
  dsimp only
  omega

theorem lane_eq_of_chunkIdx_eq {p q : WarpId × Fin 2 × Fin 32}
    (h : chunkIdx p.1 p.2.1 p.2.2 = chunkIdx q.1 q.2.1 q.2.2) : p = q := by
  unfold chunkIdx threadIdx at h
  exact Prod.ext (Fin.ext (by omega)) (Prod.ext (Fin.ext (by omega)) (Fin.ext (by omega)))

/-- The swizzle of a row undoes itself. -/
theorem swizzle_swizzle (s : State) (r cc : Nat) : swizzle s r (swizzle s r cc) = cc := by
  simp only [swizzle_eq_xor_swzAt, Nat.xor_assoc, Nat.xor_self, Nat.xor_zero]

/-- Every byte of an operand region lies in a chunk of a tile row (40_loader R88). -/
theorem exists_chunk_of_region (s : State) {base off : Nat} (hlo : base ≤ off) (hhi : off < base + 8192) :
    ∃ c < 512, opOff s base (c / 4) (c % 4) ≤ off ∧ off < opOff s base (c / 4) (c % 4) + 16 := by
  obtain ⟨x, rfl⟩ := Nat.exists_eq_add_of_le hlo
  have hcc := swizzle_lt s (x / 64) (cc := x % 64 / 16) (by omega)
  have hplace := swizzle_swizzle s (x / 64) (x % 64 / 16)
  generalize swizzle s (x / 64) (x % 64 / 16) = cc at hcc hplace
  refine ⟨4 * (x / 64) + cc, by omega, ?_⟩
  rw [show (4 * (x / 64) + cc) / 4 = x / 64 by omega, show (4 * (x / 64) + cc) % 4 = cc by omega, opOff, hplace]
  omega

/-- `f w i l`, the copy of lane `l` in iteration `i` of warp `w`, is of 16 bytes to the swizzled place of the lane's chunk in
the operand region at `base` (40_loader R88, R89). -/
def LaneChunks (s : State) (base : Nat) (f : WarpId → Nat → Nat → Chunk) : Prop :=
  ∀ w i l, (f w i l).dst = opOff s base (chunkIdx w i l / 4) (chunkIdx w i l % 4) ∧ (f w i l).n = 16

section Tile
variable {s : State} {base off : Nat} {f : WarpId → Nat → Nat → Chunk}

theorem LaneChunks.mem_offs (h : LaneChunks s base f) {w : WarpId} {i l : Nat} : off ∈ (f w i l).offs ↔
    opOff s base (chunkIdx w i l / 4) (chunkIdx w i l % 4) ≤ off ∧
      off < opOff s base (chunkIdx w i l / 4) (chunkIdx w i l % 4) + 16 := by
  rw [Chunk.mem_offs, (h w i l).1, (h w i l).2]

/-- The chunks of all lanes cover the operand region and nothing else. -/
theorem LaneChunks.mem_region_iff (h : LaneChunks s base f) (off : Nat) : base ≤ off ∧ off < base + 8192 ↔
    ∃ q : WarpId × Fin 2 × Fin 32, off ∈ (f q.1 q.2.1 q.2.2).offs := by
  simp only [h.mem_offs]
  constructor
  · rintro ⟨hlo, hhi⟩
    obtain ⟨c, hc, hoff⟩ := exists_chunk_of_region s hlo hhi
    obtain ⟨q, rfl⟩ := exists_lane_of_chunk hc
    exact ⟨q, hoff⟩
  · rintro ⟨⟨w, i, l⟩, hlo, hhi⟩
    have hc : chunkIdx w i l < 512 := chunkIdx_lt w (p := (i, l)) (mem_ldgLanes.2 ⟨i.isLt, l.isLt⟩)
    have hin := opOff_bounds s base (r := chunkIdx w i l / 4) (by omega) (Nat.mod_lt (chunkIdx w i l) four_pos)
    exact ⟨hin.1.trans hlo, hhi.trans_le hin.2⟩

/-- The chunks of two lanes share no byte. -/
theorem LaneChunks.lane_eq (h : LaneChunks s base f) {p q : WarpId × Fin 2 × Fin 32}
    (hp : off ∈ (f p.1 p.2.1 p.2.2).offs) (hq : off ∈ (f q.1 q.2.1 q.2.2).offs) : p = q := by
  rw [h.mem_offs] at hp hq
  refine lane_eq_of_chunkIdx_eq (Decidable.byContradiction fun hne => ?_)
  have := opOff_apart s base hne
  omega

end Tile

section Operands
variable (s : State) (b : Block) (ph : Phase) (slot : Fin 4) (kt : Nat)

theorem laneChunks_ldgA : LaneChunks s (opaBase slot) fun w => ldgAChunk s b w ph slot kt := fun _ _ _ => ⟨rfl, rfl⟩

theorem laneChunks_ldgB : LaneChunks s (opbBase slot) fun w => ldgBChunk s b w ph slot kt := fun _ _ _ => ⟨rfl, rfl⟩

end Operands

/-- Settles O54: the 512 chunks of a tile are copied by one lane each, and the swizzle permutes the chunks of a row. -/
theorem loaderChunksTileTheOperandRegion : Obligations.LoaderChunksTileTheOperandRegion := by
  intro s b ph slot kt
  have hA := laneChunks_ldgA s b ph slot kt
  have hB := laneChunks_ldgB s b ph slot kt
  exact ⟨hA.mem_region_iff, hB.mem_region_iff, fun _ _ _ => ⟨hA.lane_eq, hB.lane_eq⟩⟩

end Sys2Proof.Machine
end

section
/-! COMMIT, WAIT and BAR, the copy agent's step and the barrier's release (20_memory R63, 41_pipeline_sync R102, R105 to
R107, 46_sequencer R152, R154). -/

namespace Sys2Proof.Machine
open Sys2Proof.Claims

/-! ## COMMIT and WAIT -/

/-- Settles O11: the effect of COMMIT changes the current warp alone. -/
theorem commitClosesTheOpenGroup : Obligations.CommitClosesTheOpenGroup := by
  intro s b hb
  exact ⟨_, exec_of_effect (i := .commit) hb rfl, fun _ => rfl,
    warpBecomes_updWarp (sharedKept_refl b) rfl s.cur.w fun x => x.commitGroup.advance⟩

/-- A WAIT that holds changes nothing (log 2). -/
theorem exec_wait_of_holds {s : State} {b : Block} {n : Nat} (hb : s.block? = some b)
    (h : b.warps[s.cur.w].waitHolds n = true) : exec (.wait n) s = .next s :=
  (exec_of_effect (i := .wait n) hb (.inl ⟨h, rfl⟩)).trans (congrArg _ (setBlock_self hb))

theorem waited_warpBecomes (b : Block) (w : WarpId) (n : Nat) :
    WarpBecomes b (waited b w n) w (b.warps[w].keepGroups n).advance :=
  warpBecomes_updWarp ⟨by simp, by simp, by simp, by simp, by simp⟩ (by simp) w fun x => (x.keepGroups n).advance

/-- The bytes of the records a WAIT waits for. -/
theorem mem_oldRecords_offs {x : Warp} {n off : Nat} : off ∈ (x.oldRecords n).flatMap CopyRecord.offs ↔
    ∃ g ∈ x.groups.take (x.groups.length - n), ∃ r ∈ g, r.dst ≤ off ∧ off < r.dst + r.data.length := by
  simp only [Warp.oldRecords, List.mem_flatMap, List.mem_flatten, CopyRecord.mem_offs]
  constructor
  · rintro ⟨r, ⟨g, hg, hr⟩, ho⟩
    exact ⟨g, hg, r, hr, ho⟩
  · rintro ⟨g, hg, r, hr, ho⟩
    exact ⟨r, ⟨g, hg, hr⟩, ho⟩

/-- A WAIT that completes retires the bytes it waited for, and no other (41_pipeline_sync R106). -/
theorem waited_tagsChange {b : Block} (hb : b.scrWf = true) (w : WarpId) (n : Nat) :
    TagsChange b (waited b w n)
      (fun off => ∃ g ∈ b.warps[w].groups.take (b.warps[w].groups.length - n), ∃ r ∈ g,
        r.dst ≤ off ∧ off < r.dst + r.data.length)
      fun _ t => { t with vis := .done b.gen } := by
  have htag := Block.tag_retire hb ((b.warps[w].oldRecords n).flatMap CopyRecord.offs)
  refine ⟨fun off ho => ?_, fun off ho => ?_⟩ <;> rw [waited, Block.updWarp_tag, htag]
  · exact if_pos (mem_oldRecords_offs.2 ho)
  · exact if_neg (mem_oldRecords_offs.not.2 ho)

/-- Settles O12: a WAIT holds exactly where an older record is not performed, and else has the effect `waited`. -/
theorem waitHoldsOrRetires : Obligations.WaitHoldsOrRetires := by
  intro s b n hb hs x old
  refine ⟨fun h => exec_wait_of_holds hb (waitHolds_iff.2 h), fun h => ?_⟩
  have hnot : x.waitHolds n = false := by
    rw [← Bool.not_eq_true, waitHolds_iff]
    rintro ⟨g, hg, r, hr, hp⟩
    cases (h g hg r hr).symm.trans hp
  exact ⟨waited b s.cur.w n, exec_of_effect (i := .wait n) hb (.inr ⟨hnot, rfl⟩), waited_warpBecomes b s.cur.w n,
    waited_tagsChange (hs.scr b (List.mem_of_getElem? hb)) s.cur.w n⟩

/-! ## BAR -/

theorem arrivedAt_arrived (b : Block) (w v : WarpId) :
    (arrivedAt b w).arrived[v] = if v = w then some b.warps[w].pc else b.arrived[v] := by
  simp [arrivedAt, Vector.getElem_set, Fin.ext_iff, eq_comm]

/-- An enabled release takes its step. -/
theorem step_of_release {s : State} {blk : Nat} {b : Block} (ha : s.nextAgent = .barrier blk)
    (hb : s.blocks[blk]? = some b) (hi : s.inv = .running) (he : ∀ w : WarpId, b.warps[w].st = .atBar) :
    step s = .next (s.choiceTaken.release blk b) := by
  simp only [step, ha, State.agentStep, State.barrierStep, State.choiceTaken_blocks, State.choiceTaken_inv, hb, hi,
    Block.releaseEnabled_iff.2 he, and_self, if_true]

theorem samePcs_iff {b : Block} : b.samePcs = true ↔ ∀ v w : WarpId, b.arrived[v] = b.arrived[w] := by
  simp only [Block.samePcs, List.all_eq_true, List.mem_finRange, decide_eq_true_eq, true_implies]
  exact ⟨fun h v w => (h v).trans (h w).symm, fun h w => h w 0⟩

/-- Settles O13: BAR has the effect `arrivedAt`, and a release leaves the block `released` or `mismatched`. -/
theorem barrierArrivesAndReleases : Obligations.BarrierArrivesAndReleases := by
  refine ⟨fun s b hb => ?_, fun s blk b ha hb hi he => ⟨fun hsame => ?_, fun hdiff => ?_⟩⟩
  · exact ⟨arrivedAt b s.cur.w, exec_of_effect (i := .bar) hb rfl, fun _ => rfl,
      fun v hv => Block.updWarp_other b s.cur.w (fun x => { x with st := .atBar }) hv,
      Block.updWarp_same b s.cur.w fun x => { x with st := .atBar }, arrivedAt_arrived b s.cur.w, rfl, rfl, rfl, rfl⟩
  · refine ⟨b.released, (step_of_release ha hb hi he).trans ?_, fun _ => rfl, rfl, b.released_arrived,
      b.released_warp, rfl, rfl, rfl⟩
    rw [State.release, if_pos (samePcs_iff.2 hsame)]
    rfl
  · refine ⟨b.mismatched, (step_of_release ha hb hi he).trans ?_, fun _ => rfl, rfl, b.mismatched_warp, rfl, rfl,
      _, rfl, rfl, rfl, rfl⟩
    rw [State.release, if_neg (samePcs_iff.not.2 hdiff)]
    rfl

/-! ## The landing of a copy -/

theorem ended_iff {b : Block} : b.ended = true ↔ Ended b := by
  simp only [Block.ended, Ended, CopyWaits, List.all_eq_true, List.mem_finRange, true_implies, Bool.and_eq_true,
    decide_eq_true_eq, not_exists, not_and, Bool.not_eq_false, forall_and]

/-- A settled machine differs from the machine in INV alone, which is as 46_sequencer R154 says. -/
theorem settle_endsInto (s : State) (bs : List Block) : EndsInto s (State.settle { s with blocks := bs }) bs := by
  have hcond : bs.all (fun b => b.ended && b.log.isEmpty) = true ↔ ∀ b ∈ bs, Ended b ∧ b.log = [] := by
    simp only [List.all_eq_true, Bool.and_eq_true, List.isEmpty_iff, ended_iff]
  unfold State.settle
  split
  · next h => exact ⟨⟨fun _ => rfl, fun hn => absurd ⟨h.1, hcond.1 h.2⟩ hn⟩, rfl⟩
  · next h => exact ⟨⟨fun hc => absurd ⟨hc.1, hcond.2 hc.2⟩ h, fun _ => rfl⟩, rfl⟩

/-- A chosen copy of an unperformed record takes its step. -/
theorem step_of_copy {s : State} {blk : Nat} {b : Block} {w : WarpId} {place : CopyPlace} {r : CopyRecord}
    (ha : s.nextAgent = .copy blk w place) (hb : s.blocks[blk]? = some b) (hi : s.inv = .running)
    (hr : b.toPerform w place = some r) : step s = .next (s.choiceTaken.performCopy blk b w place r) := by
  simp only [step, ha, State.agentStep, State.copyStep, State.choiceTaken_blocks, State.choiceTaken_inv, hb, hr, hi,
    if_true]

/-- A landing leaves the record at every other place. -/
theorem recordAt_performAt_ne (x : Warp) {place q : CopyPlace} (h : q ≠ place) :
    (x.performAt place).recordAt q = x.recordAt q := by
  cases place with
  | inOpen k =>
    cases q with
    | inOpen j =>
      have hne : k ≠ j := fun e => h (e ▸ rfl)
      simp only [Warp.recordAt, Warp.performAt, List.getElem?_modify, if_neg hne, id_map']
    | inGroup g j => rfl
  | inGroup g k =>
    cases q with
    | inOpen j => rfl
    | inGroup g' j =>
      simp only [Warp.recordAt, Warp.performAt, List.getElem?_modify]
      by_cases hg : g = g'
      · have hne : k ≠ j := fun e => h (by rw [hg, e])
        cases x.groups[g']? with
        | none => rfl
        | some grp =>
          simp only [if_pos hg, Option.map_eq_map, Option.map_some, Option.bind_some, List.getElem?_modify, if_neg hne,
            Option.map_id']
      · simp only [if_neg hg, id_map']

theorem length_groups_performAt (x : Warp) (place : CopyPlace) :
    (x.performAt place).groups.length = x.groups.length := by
  cases place with
  | inOpen k => rfl
  | inGroup g k => exact List.length_modify _ _ _

/-- A landing sets the values of its record's bytes and changes no other tag. -/
theorem performed_tagsChange {b : Block} (hb : b.scrWf = true) (w : WarpId) (place : CopyPlace) (r : CopyRecord) :
    TagsChange b (b.performed w place r) (fun off => r.dst ≤ off ∧ off < r.dst + r.data.length)
      fun off t => { t with val := r.data[off - r.dst]? } := by
  refine ⟨fun off ho => ?_, fun off ho => ?_⟩ <;> rw [Block.performed, Block.updWarp_tag, Block.tag_land hb]
  · have hval : r.data[off - r.dst]? = some (r.data.getD (off - r.dst) 0) := by
      rw [List.getD_eq_getElem?_getD, List.getElem?_eq_getElem (by omega), Option.getD_some]
    rw [if_pos ho, Tag.landed, ← hval]
  · exact if_neg ho

/-- Settles O14: the step of the copy agent leaves the block `performed`, in a settled machine. -/
theorem copyLandsItsBytes : Obligations.CopyLandsItsBytes := by
  intro s blk b w place r ha hb hi hs hr hnot
  refine ⟨b.performed w place r, _, step_of_copy ha hb hi (toPerform_eq_some.2 ⟨hr, hnot⟩),
    settle_endsInto s.choiceTaken _, ⟨by simp [Block.performed], by simp [Block.performed], b.performed_gen w place r,
      b.performed_arrived w place r, b.performed_log w place r⟩,
    fun _ hv => b.performed_other place r hv, ?_, b.performed_pc w w place r, b.performed_st w w place r, ?_,
    fun q hq => ?_, ?_, performed_tagsChange (hs.scr b (List.mem_of_getElem? hb)) w place r⟩ <;> rw [b.performed_same]
  · exact registerFilesKept_performAt _ _
  · exact recordAt_performAt hr
  · exact recordAt_performAt_ne _ hq
  · exact length_groups_performAt _ _

end Sys2Proof.Machine
end

section
/-! What a release orders, and that only a release changes GEN (20_memory R60, R61, R64, 41_pipeline_sync R107, R108). -/

namespace Sys2Proof.Machine
open Sys2Proof.Claims

/-- A step of a block keeps its GEN, or is the release of its barrier. -/
theorem BlockStep.gen_cases {s t : State} {blk : Nat} {b b' : Block} (h : BlockStep s t blk b b') :
    b'.gen = b.gen ∨ (s.nextAgent = .barrier blk ∧ b.releaseEnabled = true ∧ b' = b.released) := by
  cases h with
  | fault _ _ _ _ _ block => exact .inl (block ▸ rfl)
  | command _ _ _ _ _ _ _ effect _ =>
    obtain ⟨-, -, hgen, -⟩ := effect.blockKept.identity
    exact .inl hgen
  | copy w place r _ _ block _ => exact .inl (block ▸ b.performed_gen w place r)
  | released agent enabled block => exact .inr ⟨agent, enabled, block⟩
  | mismatched _ _ _ block => exact .inl (block ▸ rfl)

/-- The step of a RUNNING invocation that changes a block's GEN is the release of its barrier. -/
theorem released_of_gen_ne {s t : State} {blk : Nat} {b b' : Block} (h : step s = .next t) (hi : s.inv = .running)
    (hb : s.blocks[blk]? = some b) (hb' : t.blocks[blk]? = some b') (hne : b'.gen ≠ b.gen) :
    s.nextAgent = .barrier blk ∧ b.releaseEnabled = true ∧ b' = b.released := by
  rcases step_of_running h hi with rfl | ⟨k, c, c', hone⟩
  · exact absurd (congrArg Block.gen (Option.some.inj (hb'.symm.trans hb))) hne
  · rcases hone.block_cases hb hb' with rfl | ⟨rfl, rfl, rfl⟩
    · exact absurd rfl hne
    · exact hone.step.gen_cases.resolve_left hne

/-- Settles O29: only `released` changes GEN. -/
theorem onlyABarrierChangesGen : Obligations.OnlyABarrierChangesGen := by
  intro s t blk b b' h hi hb hb' hne
  obtain ⟨ha, he, rfl⟩ := released_of_gen_ne h hi hb hb' hne
  exact ⟨ha, Block.releaseEnabled_iff.1 he, rfl⟩

section Released
variable {b : Block} {off lim : Nat}

/-- A byte whose last write completed is readable by every warp after a release: its write is of an earlier generation. -/
theorem TagOk.readable_released (h : TagOk b.gen (b.tag off)) (hlt : off < lim) {g : Nat}
    (hv : (b.tag off).vis = .done g) (w : WarpId) : Readable lim b.released w off := by
  obtain ⟨hle, hval, -⟩ := h.done g hv
  exact ⟨hlt, hval, g, hv, .inr (Nat.lt_succ_of_le hle)⟩

/-- A byte that is not PENDING is writable by every warp after a release: no warp has read it in the new generation. -/
theorem TagOk.writable_released (h : TagOk b.gen (b.tag off)) (hlt : off < lim) (hv : (b.tag off).vis ≠ .pending)
    (w : WarpId) : Writable lim b.released w off :=
  ⟨hlt, fun v _ hr => Nat.not_succ_le_self _ (h.reads v _ hr), hv,
    fun g hg => .inr (Nat.lt_succ_of_le (h.done g hg).1)⟩

end Released

/-- Settles O30: a release raises GEN past every access that the tags tell of, and changes no tag. -/
theorem releaseOrdersEarlierAccesses : Obligations.ReleaseOrdersEarlierAccesses := by
  intro s t blk b b' hs h hi hb hb' hne off hlt w
  obtain ⟨-, -, rfl⟩ := released_of_gen_ne h hi hb hb' hne
  have htag := hs.tags b (List.mem_of_getElem? hb) off
  exact ⟨rfl, fun ⟨_, hv⟩ => htag.readable_released hlt hv w, fun hv => htag.writable_released hlt hv w⟩

end Sys2Proof.Machine
end

section
/-! Where the machine stops, and that a machine whose warps are in step never does (41_pipeline_sync R102, R106, R107, R109,
46_sequencer R144, R147, R152; log 2). -/

namespace Sys2Proof.Machine
open Sys2Proof.Claims

/-! ## The only stop is the stuck state -/

/-- A WAIT that holds waits for a copy. -/
theorem copyWaits_of_holdsAtWait {s : State} {b : Block} {w : WarpId} (h : HoldsAtWait s b w) : CopyWaits b := by
  obtain ⟨_, _, -, -, g, hg, r, hr, hp⟩ := h
  exact ⟨w, r, List.mem_append_left _ (List.mem_flatten.2 ⟨g, List.mem_of_mem_take hg, hr⟩), hp⟩

/-- Where no agent of a block is enabled no warp of it is RUN: one that holds at a WAIT waits for a copy. -/
theorem st_ne_run_of_noneEnabled {s : State} {b : Block} (h : NoneEnabled s b) (w : WarpId) : b.warps[w].st ≠ .run := by
  obtain ⟨hruns, hcopies, -⟩ := h
  exact fun hrun => hcopies (copyWaits_of_holdsAtWait (hruns w hrun))

/-- Every record of a warp has a place. -/
theorem exists_recordAt {x : Warp} {r : CopyRecord} (h : r ∈ x.records) : ∃ place, x.recordAt place = some r := by
  rcases List.mem_append.1 h with h | h
  · obtain ⟨grp, hgrp, hr⟩ := List.mem_flatten.1 h
    obtain ⟨g, hg⟩ := List.mem_iff_getElem?.1 hgrp
    obtain ⟨k, hk⟩ := List.mem_iff_getElem?.1 hr
    exact ⟨.inGroup g k, Option.bind_eq_some_iff.2 ⟨grp, hg, hk⟩⟩
  · obtain ⟨k, hk⟩ := List.mem_iff_getElem?.1 h
    exact ⟨.inOpen k, hk⟩

theorem mem_records_of_recordAt {x : Warp} {place : CopyPlace} {r : CopyRecord} (h : x.recordAt place = some r) :
    r ∈ x.records := by
  obtain ⟨l₁, l₂, hl, -⟩ := records_performAt h
  exact hl ▸ List.mem_append_right _ List.mem_cons_self

theorem exists_toPerform_iff {b : Block} : (∃ w place r, b.toPerform w place = some r) ↔ CopyWaits b := by
  simp only [toPerform_eq_some]
  constructor
  · rintro ⟨w, place, r, hr, hp⟩
    exact ⟨w, r, mem_records_of_recordAt hr, hp⟩
  · rintro ⟨w, r, hr, hp⟩
    obtain ⟨place, hr⟩ := exists_recordAt hr
    exact ⟨w, place, r, hr, hp⟩

/-- While an invocation runs some agent is enabled exactly where an agent of some block is. -/
theorem exists_agentEnabled_iff {s : State} (hi : s.inv = .running) :
    (∃ a, s.agentEnabled a = true) ↔ ∃ b ∈ s.blocks, ¬NoneEnabled s b := by
  constructor
  · rintro ⟨a, ha⟩
    cases a with
    | warp blk w =>
      obtain ⟨-, b, hb, he⟩ := agentEnabled_warp.1 ha
      obtain ⟨hrun, -⟩ := warpEnabled_iff.1 he
      exact ⟨b, List.mem_of_getElem? hb, fun hn => st_ne_run_of_noneEnabled hn w hrun⟩
    | copy blk w place =>
      obtain ⟨-, b, r, hb, hr⟩ := agentEnabled_copy.1 ha
      exact ⟨b, List.mem_of_getElem? hb, fun hn => hn.2.1 (exists_toPerform_iff.1 ⟨w, place, r, hr⟩)⟩
    | barrier blk =>
      obtain ⟨-, b, hb, he⟩ := agentEnabled_barrier.1 ha
      refine ⟨b, List.mem_of_getElem? hb, fun ⟨_, _, w, hw⟩ => hw (Block.releaseEnabled_iff.1 he w)⟩
    | host => exact absurd hi (agentEnabled_host.1 ha).1
  · rintro ⟨b, hb, hn⟩
    obtain ⟨blk, hb⟩ := List.mem_iff_getElem?.1 hb
    by_contra hno
    refine hn ⟨fun w hrun => ?_, fun hc => ?_, ?_⟩
    · by_contra hw
      exact hno ⟨.warp blk w, agentEnabled_warp.2 ⟨hi, b, hb, warpEnabled_iff.2 ⟨hrun, hw⟩⟩⟩
    · obtain ⟨w, place, r, hr⟩ := exists_toPerform_iff.2 hc
      exact hno ⟨.copy blk w place, agentEnabled_copy.2 ⟨hi, b, r, hb, hr⟩⟩
    · by_contra hw
      push Not at hw
      exact hno ⟨.barrier blk, agentEnabled_barrier.2 ⟨hi, b, hb, Block.releaseEnabled_iff.2 hw⟩⟩

/-- In a stuck machine every choice stops. -/
theorem step_of_stuck {s : State} (h : s.inv = .running ∧ ∀ b ∈ s.blocks, NoneEnabled s b) :
    step s = .fault .stuck := by
  obtain ⟨hi, hnone⟩ := h
  have hdis : s.choiceTaken.agentEnabled s.nextAgent = false := by
    rw [agentEnabled_choiceTaken, ← Bool.not_eq_true]
    intro ha
    obtain ⟨b, hb, hn⟩ := (exists_agentEnabled_iff hi).1 ⟨_, ha⟩
    exact hn (hnone b hb)
  have hidle : s.choiceTaken.agentStep s.nextAgent = s.choiceTaken.idleStep := by
    cases ha : s.nextAgent with
    | warp blk w =>
      exact warpStep_idle fun b hb hc => st_ne_run_of_noneEnabled (hnone b (List.mem_of_getElem? hb)) w hc.2
    | copy blk w place => exact copyStep_idle (ha ▸ hdis)
    | barrier blk => exact barrierStep_idle (ha ▸ hdis)
    | host => exact hostStep_idle (ha ▸ hdis)
  rw [step, hidle, State.idleStep, if_pos ((stuck_iff (s := s.choiceTaken)).2 ⟨hi, hnone⟩)]

/-- In a machine that is not stuck every choice answers a next state. -/
theorem step_of_not_stuck {s : State} (h : ¬(s.inv = .running ∧ ∀ b ∈ s.blocks, NoneEnabled s b)) :
    ∃ t, step s = .next t := by
  obtain ⟨-, -, hdisabled, henabled⟩ := agentsWithoutAStepChangeNothing s
  cases ha : s.agentEnabled s.nextAgent with
  | true =>
    obtain ⟨t, ht, -⟩ := henabled ha
    exact ⟨t, ht⟩
  | false =>
    obtain ⟨c, hc⟩ := hdisabled ha h
    exact ⟨_, hc⟩

/-- Settles O37: a stuck machine stops whatever the choice, and any other answers a next state. -/
theorem stepStopsExactlyWhenStuck : Obligations.StepStopsExactlyWhenStuck := by
  intro s
  by_cases h : s.inv = .running ∧ ∀ b ∈ s.blocks, NoneEnabled s b
  · rw [step_of_stuck h]
    exact ⟨nofun, fun f => ⟨fun hf => ⟨(Host.Outcome.fault.inj hf).symm, h⟩, fun hf => hf.1 ▸ rfl⟩⟩
  · obtain ⟨t, ht⟩ := step_of_not_stuck h
    rw [ht]
    exact ⟨nofun, fun f => ⟨nofun, fun hf => absurd hf.2 h⟩⟩

/-! ## Warps in step -/

/-- An index before which there are no more BARs than before a BAR's is not past that BAR. -/
theorem le_of_count_take_le {cs : List Cmd} {p q : Nat} (hp : cs[p]? = some barWord)
    (hc : (cs.take q).count barWord ≤ (cs.take p).count barWord) : q ≤ p := by
  by_contra hlt
  have hsub : (cs.take (p + 1)).count barWord ≤ (cs.take q).count barWord :=
    (List.take_sublist_take_left (by omega)).count_le _
  rw [List.take_add_one, hp, List.count_append, Option.toList_some, List.count_singleton_self] at hsub
  omega

section WarpInStep
variable {cs : List Cmd} {gen : Nat} {pc pc' : U32} {a a' : Option U32}

/-- Two warps in step that wait at a barrier stand at one BAR. -/
theorem WarpInStep.pc_eq_of_atBar (h : WarpInStep cs gen pc .atBar a) (h' : WarpInStep cs gen pc' .atBar a') :
    pc = pc' :=
  BitVec.eq_of_toNat_eq (Nat.le_antisymm (le_of_count_take_le (h'.atBar rfl) (h.bars.trans h'.bars.symm).le)
    (le_of_count_take_le (h.atBar rfl) (h'.bars.trans h.bars.symm).le))

/-- No warp waits at a barrier that a DONE warp has not reached: the END is at or before the BAR, and the warp that waits
has passed no END. -/
theorem WarpInStep.not_atBar_of_done (h : WarpInStep cs gen pc .atBar a) (h' : WarpInStep cs gen pc' .done a') :
    False := by
  have hle : pc'.toNat ≤ pc.toNat := le_of_count_take_le (h.atBar rfl) (h'.bars.trans h.bars.symm).le
  rcases hle.eq_or_lt with he | hlt
  · have hword := (h'.atEnd rfl).symm.trans (he ▸ h.atBar rfl)
    exact absurd (Option.some.inj hword) (by decide)
  · exact h.ends (List.mem_take_iff_getElem.2 (by
      obtain ⟨hl, hw⟩ := List.getElem?_eq_some_iff.1 (h'.atEnd rfl)
      exact ⟨pc'.toNat, by omega, hw⟩))

end WarpInStep

section InStep
variable {s : State} {b : Block}

/-- The warps of a block that all wait at its barrier have recorded one pc (41_pipeline_sync R109). -/
theorem InStep.arrived_eq (hs : InStep s) (hb : b ∈ s.blocks) (hall : ∀ w : WarpId, b.warps[w].st = .atBar)
    (v w : WarpId) : b.arrived[v] = b.arrived[w] := by
  have h := hs.blockInStep hb
  have hv := h v
  have hw := h w
  rw [hall] at hv hw
  rw [hv.arrived, hw.arrived, hv.pc_eq_of_atBar hw]

/-- While the invocation runs no warp waits at a barrier with a DONE or FAULTED warp in its block. -/
theorem InStep.of_atBar (hs : InStep s) (hi : s.inv = .running) (hb : b ∈ s.blocks) {v : WarpId}
    (hv : b.warps[v].st = .atBar) (w : WarpId) : b.warps[w].st ≠ .done ∧ b.warps[w].st ≠ .faulted := by
  have h := hs.blockInStep hb
  have hbar := h v
  rw [hv] at hbar
  refine ⟨fun hw => ?_, fun hw => ?_⟩
  · have hdone := h w
    rw [hw] at hdone
    exact hbar.not_atBar_of_done hdone
  · cases hi.symm.trans (hs.faulted b hb w hw)

/-- A block none of whose agents is enabled has ended, where its warps are in step and the invocation runs. -/
theorem InStep.ended_of_noneEnabled (hs : InStep s) (hi : s.inv = .running) (hb : b ∈ s.blocks)
    (hn : NoneEnabled s b) : b.ended = true := by
  obtain ⟨-, hcopies, u, hu⟩ := id hn
  refine ended_iff.2 ⟨fun v => ?_, hcopies⟩
  have hfaulted : ∀ w : WarpId, b.warps[w].st ≠ .faulted := fun w => (hs.faultFree (by simp [hi]) hb).2 w
  have hdone : ∀ w : WarpId, b.warps[w].st ≠ .atBar → b.warps[w].st = .done := fun w hw => by
    cases hst : b.warps[w].st with
    | run => exact absurd hst (st_ne_run_of_noneEnabled hn w)
    | atBar => exact absurd hst hw
    | done => rfl
    | faulted => exact absurd hst (hfaulted w)
  exact hdone v fun hv => (hs.of_atBar hi hb hv u).1 (hdone u hu)

/-- A machine whose warps are in step is not stuck. -/
theorem InStep.not_stuck (hs : InStep s) : ¬(s.inv = .running ∧ ∀ b ∈ s.blocks, NoneEnabled s b) := by
  rintro ⟨hi, hnone⟩
  obtain ⟨b, hb, hend⟩ := hs.notEnded hi
  rw [hs.ended_of_noneEnabled hi hb (hnone b hb)] at hend
  cases hend

end InStep

/-- Settles O45: the block that has not ended has an enabled agent, and the warps at a barrier stand at one BAR. -/
theorem warpsInStepAreNeverStuck : Obligations.WarpsInStepAreNeverStuck := by
  intro s hs
  exact ⟨step_of_not_stuck hs.not_stuck, fun b hb => ⟨hs.arrived_eq hb, fun hi v w hv => hs.of_atBar hi hb hv w⟩⟩

end Sys2Proof.Machine
end

section
/-! Copies land in any order: two landings of different records commute (20_memory R63, 41_pipeline_sync R102, 46_sequencer
R148). -/

namespace Sys2Proof.Machine
open Sys2Proof.Claims

/-! ## A canonical block is said by its warps and its tags -/

section Cells
variable {α : Type} {d x : α} {k : Nat} {t : List (Nat × α)}

theorem cellGet_cons_self : cellGet d ((k, x) :: t) k = x := by simp [cellGet]

theorem cellGet_cons_of_lt {a : Nat} (h : a < k) : cellGet d ((k, x) :: t) a = d := by
  simp [cellGet, h, Nat.ne_of_lt h]

theorem cellGet_cons_of_gt {a : Nat} (h : k < a) : cellGet d ((k, x) :: t) a = cellGet d t a := by
  simp [cellGet, Nat.ne_of_gt h, Nat.not_lt_of_gt h]

/-- Two canonical lists with the same elements are one list: their first cells are the least address that is not the
default in either. -/
theorem cells_ext [DecidableEq α] {lim : Nat} {m m' : List (Nat × α)} (hm : cellsWf d lim m = true)
    (hm' : cellsWf d lim m' = true) (h : ∀ a, cellGet d m a = cellGet d m' a) : m = m' := by
  induction m generalizing m' with
  | nil =>
    cases m' with
    | nil => rfl
    | cons c t =>
      obtain ⟨-, hx, -, -⟩ := cellsWf_cons.1 hm'
      exact absurd (cellGet_cons_self.symm.trans (h c.1).symm) hx
  | cons c t ih =>
    obtain ⟨k, x⟩ := c
    obtain ⟨hk, hx, -, ht⟩ := cellsWf_cons.1 hm
    cases m' with
    | nil => exact absurd (cellGet_cons_self.symm.trans (h k)) hx
    | cons c' t' =>
      obtain ⟨k', x'⟩ := c'
      obtain ⟨hk', hx', -, ht'⟩ := cellsWf_cons.1 hm'
      rcases Nat.lt_trichotomy k k' with hlt | rfl | hlt
      · exact absurd (cellGet_cons_self.symm.trans ((h k).trans (cellGet_cons_of_lt hlt))) hx
      · obtain rfl : x = x' := cellGet_cons_self.symm.trans ((h k).trans cellGet_cons_self)
        refine congrArg _ (ih ht ht' fun a => ?_)
        rcases Nat.lt_or_ge k a with hlt | hge
        · exact (cellGet_cons_of_gt hlt).symm.trans ((h a).trans (cellGet_cons_of_gt hlt))
        · rw [cellGet_of_lt fun c hc => hge.trans_lt (hk c hc), cellGet_of_lt fun c hc => hge.trans_lt (hk' c hc)]
      · exact absurd (cellGet_cons_self.symm.trans ((h k').symm.trans (cellGet_cons_of_lt hlt))) hx'

end Cells

/-- Two blocks with canonical scratchpads that agree in every field and every tag are one block. -/
theorem Block.ext_of_tags {b c : Block} (hb : b.scrWf = true) (hc : c.scrWf = true) (hshared : SharedKept b c)
    (hwarps : c.warps = b.warps) (htag : ScratchKept b c) : c = b := by
  have hscr : c.scr = b.scr := cells_ext hc hb htag
  obtain ⟨hbm, hbn, hgen, harr, hlog⟩ := hshared
  cases b
  cases c
  cases hbm
  cases hbn
  cases hgen
  cases harr
  cases hlog
  cases hwarps
  cases hscr
  rfl

/-! ## Two landings in one block -/

/-- Changes at two places of a list commute, where they commute at one. -/
theorem modify_comm {α : Type} {f g : α → α} {i j : Nat} (l : List α) (h : i = j → f ∘ g = g ∘ f) :
    (l.modify i f).modify j g = (l.modify j g).modify i f := by
  by_cases hij : i = j
  · subst hij
    rw [List.modify_modify_eq, List.modify_modify_eq, h rfl]
  · exact List.modify_modify_ne f g l hij

/-- The performed flags of two places may be set in either order. -/
theorem performAt_comm (x : Warp) (p q : CopyPlace) : (x.performAt p).performAt q = (x.performAt q).performAt p := by
  cases p with
  | inOpen k =>
    cases q with
    | inOpen j => exact congrArg (fun l => { x with openGrp := l }) (modify_comm _ fun _ => rfl)
    | inGroup g j => rfl
  | inGroup g k =>
    cases q with
    | inOpen j => rfl
    | inGroup g' j =>
      refine congrArg (fun l => { x with groups := l }) (modify_comm _ fun _ => funext fun grp => ?_)
      exact modify_comm grp fun _ => rfl

section Landings
variable {b : Block} {w w' : WarpId} {p p' : CopyPlace} {r r' : CopyRecord}

/-- A landing leaves the unperformed record at every other place of the block. -/
theorem toPerform_performed (hr' : b.toPerform w' p' = some r') (hne : (w', p') ≠ (w, p)) :
    (b.performed w p r).toPerform w' p' = some r' := by
  obtain ⟨hat, hnot⟩ := toPerform_eq_some.1 hr'
  refine toPerform_eq_some.2 ⟨?_, hnot⟩
  by_cases hw : w' = w
  · subst hw
    rw [Block.performed_same, recordAt_performAt_ne _ fun e => hne (congrArg _ e), hat]
  · rw [Block.performed_other b p r hw, hat]

/-- Unperformed records at two places share no byte. -/
theorem BlockTagsOk.disjoint_of_ne (h : BlockTagsOk b) (hr : b.toPerform w p = some r)
    (hr' : b.toPerform w' p' = some r') (hne : (w', p') ≠ (w, p)) {off : Nat} (ho : off ∈ r.offs) : off ∉ r'.offs := by
  intro ho'
  have hat := (toPerform_eq_some.1 hr).1
  obtain ⟨hat', hnot⟩ := toPerform_eq_some.1 hr'
  obtain rfl : w' = w :=
    h.same_warp (mem_records_of_recordAt hat') (mem_records_of_recordAt hat) ho' ho
  obtain ⟨l₁, l₂, hl, hl'⟩ := records_performAt hat
  have hmem : r' ∈ (b.warps[w'].performAt p).records :=
    mem_records_of_recordAt ((recordAt_performAt_ne _ fun e => hne (congrArg _ e)).trans hat')
  have hdis := h.disjoint w'
  rw [hl, List.pairwise_append, List.pairwise_cons] at hdis
  obtain ⟨-, ⟨hafter, -⟩, hbefore⟩ := hdis
  rw [hl', List.mem_append, List.mem_cons] at hmem
  rcases hmem with hm | rfl | hm
  · exact hbefore r' hm r List.mem_cons_self off ho' ho
  · cases hnot
  · exact hafter r' hm off ho ho'

theorem Block.performed_warp (b : Block) (w v : WarpId) (p : CopyPlace) (r : CopyRecord) :
    (b.performed w p r).warps[v] = if v = w then b.warps[v].performAt p else b.warps[v] := by
  split
  · next h => rw [h, Block.performed_same]
  · next h => exact Block.performed_other b p r h

/-- The warps after two landings do not tell in which order they came. -/
theorem performed_warps_comm (b : Block) (w w' : WarpId) (p p' : CopyPlace) (r r' : CopyRecord) :
    ((b.performed w p r).performed w' p' r').warps = ((b.performed w' p' r').performed w p r).warps := by
  have hwarp : ∀ v : WarpId, ((b.performed w p r).performed w' p' r').warps[v] =
      ((b.performed w' p' r').performed w p r).warps[v] := fun v => by
    simp only [Block.performed_warp]
    split_ifs
    · exact performAt_comm _ p p'
    all_goals rfl
  exact Vector.ext fun i hi => hwarp ⟨i, hi⟩

/-- The tags after landings of two records that share no byte do not tell in which order they came. -/
theorem performed_tags_comm (hb : BlockCanonical b) (ht : BlockTagsOk b) (hr : b.toPerform w p = some r)
    (hr' : b.toPerform w' p' = some r') (hne : (w', p') ≠ (w, p)) :
    ScratchKept ((b.performed w' p' r').performed w p r) ((b.performed w p r).performed w' p' r') := by
  intro off
  obtain ⟨hin, hout⟩ := performed_tagsChange hb.scr w p r
  obtain ⟨hin', hout'⟩ := performed_tagsChange hb.scr w' p' r'
  obtain ⟨hthen', hthenNot'⟩ := performed_tagsChange (blockCanonical_performed hb hr).scr w' p' r'
  obtain ⟨hthen, hthenNot⟩ := performed_tagsChange (blockCanonical_performed hb hr').scr w p r
  by_cases ho : r.dst ≤ off ∧ off < r.dst + r.data.length
  · have ho' : ¬(r'.dst ≤ off ∧ off < r'.dst + r'.data.length) := fun ho' =>
      ht.disjoint_of_ne hr hr' hne (CopyRecord.mem_offs.2 ho) (CopyRecord.mem_offs.2 ho')
    rw [hthenNot' off ho', hin off ho, hthen off ho, hout' off ho']
  · rw [hthenNot off ho]
    by_cases ho' : r'.dst ≤ off ∧ off < r'.dst + r'.data.length
    · rw [hthen' off ho', hin' off ho', hout off ho]
    · rw [hthenNot' off ho', hout' off ho', hout off ho]

/-- Landings of two different records of a block commute. -/
theorem performed_comm (hb : BlockCanonical b) (ht : BlockTagsOk b) (hr : b.toPerform w p = some r)
    (hr' : b.toPerform w' p' = some r') (hne : (w', p') ≠ (w, p)) :
    (b.performed w p r).performed w' p' r' = (b.performed w' p' r').performed w p r := by
  have hc := blockCanonical_performed (blockCanonical_performed hb hr) (toPerform_performed hr' hne)
  have hc' := blockCanonical_performed (blockCanonical_performed hb hr') (toPerform_performed hr hne.symm)
  refine Block.ext_of_tags hc'.scr hc.scr ?_ (performed_warps_comm b w w' p p' r r')
    (performed_tags_comm hb ht hr hr' hne)
  constructor <;> simp [Block.performed]

end Landings

/-! ## Two landings in the grid -/

/-- While a copy waits the invocation does not end. -/
theorem settle_of_copyWaits {s : State} {b : Block} (hb : b ∈ s.blocks) (hw : CopyWaits b) : s.settle = s := by
  rw [State.settle, if_neg]
  rintro ⟨-, hall⟩
  have hend := List.all_eq_true.1 hall b hb
  rw [Bool.and_eq_true, ended_iff] at hend
  exact hend.1.2 hw

/-- A landing after which a copy of some block still waits changes its block alone. -/
theorem step_of_copy_of_copyWaits {s : State} {blk : Nat} {b c : Block} {w : WarpId} {p : CopyPlace} {r : CopyRecord}
    (ha : s.nextAgent = .copy blk w p) (hb : s.blocks[blk]? = some b) (hi : s.inv = .running)
    (hr : b.toPerform w p = some r) (hc : c ∈ s.blocks.set blk (b.performed w p r)) (hw : CopyWaits c) :
    step s = .next { s.choiceTaken with blocks := s.blocks.set blk (b.performed w p r) } :=
  (step_of_copy ha hb hi hr).trans (congrArg _ (settle_of_copyWaits hc hw))

/-- The two steps of a schedule that names two waiting copies, and the state they lead to. -/
theorem step_two_copies {s : State} {rest : List Agent} {blk blk' : Nat} {b b' : Block} {w w' : WarpId}
    {p p' : CopyPlace} {r r' : CopyRecord} (hi : s.inv = .running) (hb : s.blocks[blk]? = some b)
    (hr : b.toPerform w p = some r) (hb' : (s.blocks.set blk (b.performed w p r))[blk']? = some b')
    (hr' : b'.toPerform w' p' = some r') :
    ∃ u, step { s with sched := .copy blk w p :: .copy blk' w' p' :: rest } = .next u ∧
      step u = .next (State.settle { s with
        sched := rest
        tick := s.tick + 1 + 1
        blocks := (s.blocks.set blk (b.performed w p r)).set blk' (b'.performed w' p' r') }) := by
  have hwaits : CopyWaits b' := exists_toPerform_iff.1 ⟨w', p', r', hr'⟩
  exact ⟨_, step_of_copy_of_copyWaits (s := { s with sched := _ }) rfl hb hi hr (List.mem_of_getElem? hb') hwaits,
    step_of_copy rfl hb' hi hr'⟩

/-- Settles O46: each order performs both records, and the landings commute in one block and in two. -/
theorem copiesLandInAnyOrder : Obligations.CopiesLandInAnyOrder := by
  intro s rest blk₁ blk₂ b₁ b₂ w₁ w₂ p₁ p₂ r₁ r₂ hs ht hi hb₁ hb₂ hat₁ hnot₁ hat₂ hnot₂ hne
  have hr₁ := toPerform_eq_some.2 ⟨hat₁, hnot₁⟩
  have hr₂ := toPerform_eq_some.2 ⟨hat₂, hnot₂⟩
  by_cases hblk : blk₁ = blk₂
  · subst hblk
    obtain rfl := Option.some.inj (hb₁.symm.trans hb₂)
    obtain ⟨hlt, -⟩ := List.getElem?_eq_some_iff.1 hb₁
    have hm := List.mem_of_getElem? hb₁
    have hplace : (w₂, p₂) ≠ (w₁, p₁) := fun e => hne (by rw [e])
    obtain ⟨u, hu, hut⟩ := step_two_copies (rest := rest) hi hb₁ hr₁ (List.getElem?_set_self hlt)
      (toPerform_performed hr₂ hplace)
    obtain ⟨v, hv, hvt⟩ := step_two_copies (rest := rest) hi hb₁ hr₂ (List.getElem?_set_self hlt)
      (toPerform_performed hr₁ hplace.symm)
    refine ⟨u, v, _, hu, hut, hv, hvt.trans ?_⟩
    rw [List.set_set, List.set_set, performed_comm (hs.block hm) (tagsOk_iff.1 ht b₁ hm) hr₁ hr₂ hplace]
  · obtain ⟨u, hu, hut⟩ := step_two_copies (rest := rest) hi hb₁ hr₁ ((List.getElem?_set_ne hblk).trans hb₂) hr₂
    obtain ⟨v, hv, hvt⟩ := step_two_copies (rest := rest) hi hb₂ hr₂
      ((List.getElem?_set_ne (Ne.symm hblk)).trans hb₁) hr₁
    refine ⟨u, v, _, hu, hut, hv, hvt.trans ?_⟩
    rw [List.set_comm _ _ hblk]

end Sys2Proof.Machine
end

section
/-! Every fair execution of a machine whose warps are in step ends (41_pipeline_sync R103, R109, 46_sequencer R144, R148,
70_reset_and_hazards R187): the warps pass a finite stream, and between two of their steps finitely many copies land. -/

namespace Sys2Proof.Machine
open Sys2Proof.Claims

/-! ## The work that is left -/

/-- The steps a warp has left at most, two for each pc it can reach and one more while it is RUN, and then its copies that
have not landed. -/
def Warp.work (x : Warp) : ℕ ×ₗ ℕ :=
  toLex (2 * (2 ^ 32 - x.pc.toNat) + (if x.st = .run then 1 else 0), x.records.countP fun r => !r.performed)

/-- The work left to the warps of a block. -/
def Block.work (b : Block) : ℕ ×ₗ ℕ := ∑ w : WarpId, b.warps[w].work

/-- The work left to the blocks of the grid. -/
def State.work (s : State) : ℕ ×ₗ ℕ := (s.blocks.map Block.work).sum

section Warps
variable {x x' : Warp}

/-- A warp whose pc moves on, whatever becomes of its ST and its copies, has less work left. -/
theorem Warp.work_lt_of_pc (h : x'.pc.toNat = x.pc.toNat + 1) : x'.work < x.work := by
  have hlt := x'.pc.isLt
  refine Prod.Lex.toLex_lt_toLex.2 (.inl ?_)
  dsimp only
  split_ifs <;> omega

/-- A warp that stops being RUN has less work left. -/
theorem Warp.work_lt_of_st (hpc : x'.pc = x.pc) (hst : x.st = .run) (hst' : x'.st ≠ .run) : x'.work < x.work := by
  refine Prod.Lex.toLex_lt_toLex.2 (.inl ?_)
  dsimp only
  rw [hpc, if_pos hst, if_neg hst']
  omega

/-- A warp one of whose copies lands has less work left. -/
theorem Warp.work_performAt_lt {place : CopyPlace} {r : CopyRecord} (hr : x.recordAt place = some r)
    (hnot : r.performed = false) : (x.performAt place).work < x.work := by
  obtain ⟨l₁, l₂, hl, hl'⟩ := records_performAt hr
  refine Prod.Lex.toLex_lt_toLex.2 (.inr ⟨by rw [Warp.performAt_pc, Warp.performAt_st], ?_⟩)
  rw [hl, hl']
  simp [List.countP_append, CopyRecord.perform, hnot]

end Warps

section Blocks
variable {b b' : Block}

/-- A block whose one changed warp has less work left has less work left. -/
theorem Block.work_lt_of_warp {w : WarpId} (hothers : OtherWarpsKept b b' w)
    (hw : b'.warps[w].work < b.warps[w].work) : b'.work < b.work := by
  refine Finset.sum_lt_sum (fun v _ => ?_) ⟨w, Finset.mem_univ w, hw⟩
  by_cases hv : v = w
  · exact hv ▸ hw.le
  · rw [hothers v hv]

/-- A command leaves its block less work, but for a WAIT that holds. -/
theorem BlockEffect.work_lt {i : Instr} {s : State} (h : BlockEffect i s b b') (hne : b' ≠ b)
    (hrun : b.warps[s.cur.w].st = .run)
    (hpc : (b.warps[s.cur.w].pc + 1).toNat = b.warps[s.cur.w].pc.toNat + 1) : b'.work < b.work := by
  obtain ⟨hstays, hadvances⟩ := h.blockKept.pc
  refine Block.work_lt_of_warp h.blockKept.otherWarps ?_
  by_cases hi : LeavesPc i b.warps[s.cur.w]
  · refine Warp.work_lt_of_st (hstays hi) hrun ?_
    rw [h.st]
    rcases hi with rfl | rfl | ⟨n, rfl, hg⟩
    · nofun
    · nofun
    · rcases h with ⟨-, he⟩ | ⟨hno, -⟩
      · exact absurd he hne
      · cases hno.symm.trans (waitHolds_iff.2 hg)
  · exact Warp.work_lt_of_pc (by rw [hadvances hi, hpc])

/-- A step of a block that raises no fault leaves the block as it is, or leaves it less work. -/
theorem BlockStep.work_lt {s t : State} {blk : Nat} (h : BlockStep s t blk b b') (hfits : streamFits s.cs)
    (hb : BlockInStep s.cs b) (ht : t.inv ≠ .failed) (hne : b' ≠ b) : b'.work < b.work := by
  cases h with
  | fault _ _ _ _ failed => exact absurd failed ht
  | mismatched _ _ failed => exact absurd failed ht
  | command w i word _ run fetched _ effect _ => exact effect.work_lt hne run (toNat_add_one_of_index hfits fetched)
  | copy w place r _ waits block _ =>
    subst block
    obtain ⟨hr, hnot⟩ := toPerform_eq_some.1 waits
    refine Block.work_lt_of_warp (fun _ hv => Block.performed_other b place r hv) ?_
    rw [Block.performed_same]
    exact Warp.work_performAt_lt hr hnot
  | released _ enabled block =>
    subst block
    refine Finset.sum_lt_sum_of_nonempty Finset.univ_nonempty fun w _ => Warp.work_lt_of_pc ?_
    rw [Block.released_warp]
    exact toNat_add_one_of_index hfits ((hb w).atBar (Block.releaseEnabled_iff.1 enabled w))

end Blocks

/-- A machine one of whose blocks has less work left has less work left. -/
theorem work_lt_of_set {s t : State} {blk : Nat} {b b' : Block} (hb : s.blocks[blk]? = some b)
    (ht : t.blocks = s.blocks.set blk b') (hlt : b'.work < b.work) : t.work < s.work := by
  obtain ⟨l₁, l₂, hl, hl'⟩ := exists_split_modify (fun _ => b') hb
  rw [State.work, State.work, ht, List.set_eq_modify, hl', hl]
  simpa using hlt

/-- A step of a RUNNING machine whose warps are in step that raises no fault leaves every block as it is, or leaves the
machine less work. -/
theorem step_work_lt {s t : State} (hs : InStep s) (h : step s = .next t) (hi : s.inv = .running)
    (ht : t.inv ≠ .failed) : t.blocks = s.blocks ∨ t.work < s.work := by
  rcases step_of_running h hi with rfl | ⟨blk, b, b', hone⟩
  · exact .inl rfl
  · by_cases he : b' = b
    · obtain ⟨hlt, hat⟩ := List.getElem?_eq_some_iff.1 hone.before
      exact .inl (by rw [hone.after, he, ← hat, List.set_getElem_self])
    · exact .inr (work_lt_of_set hone.before hone.after
        (hone.step.work_lt hs.stream (hs.blockInStep (List.mem_of_getElem? hone.before)) ht he))

/-! ## What a step of a RUNNING machine makes of INV -/

theorem inv_settle {s : State} (h : s.inv = .running) : s.settle.inv = .running ∨ s.settle.inv = .complete := by
  rcases s.settle_eq with he | ⟨-, he⟩ <;> rw [he]
  · exact .inl h
  · exact .inr rfl

theorem inv_finish {i : Instr} {s : State} {b b' : Block} (h : s.inv = .running) :
    (finish i s b b').inv = .running ∨ (finish i s b b').inv = .complete := by
  by_cases hi : i = .endWarp
  · subst hi
    exact inv_settle h
  · exact .inl ((finish_inv s b b' hi).trans h)

/-- A RUNNING invocation runs on, or comes to its end. -/
theorem inv_of_running {s t : State} (h : step s = .next t) (hi : s.inv = .running) :
    t.inv = .running ∨ t.inv = .complete ∨ t.inv = .failed := by
  rcases step_next h with rfl | ⟨blk, w, b, -, -, -, -, hw⟩ | ⟨blk, w, place, b, r, -, -, -, -, rfl⟩ |
    ⟨blk, b, -, -, -, -, rfl⟩ | ⟨r, rest, -, -, hn, -⟩
  · exact .inl hi
  · rcases hw with ⟨-, rfl⟩ | ⟨word, -, ⟨e, -, rfl⟩ | ⟨i, -, he⟩⟩
    · exact .inr (.inr rfl)
    · exact .inr (.inr rfl)
    · obtain ⟨b, -, ⟨c, rfl⟩ | ⟨b', -, rfl⟩⟩ := exec_next he
      · exact .inr (.inr rfl)
      · exact (inv_finish (s := s.choiceTaken.asWarp blk w) hi).imp_right .inl
  · exact (inv_settle (s := { s.choiceTaken with blocks := _ }) hi).imp_right .inl
  · unfold State.release
    split
    · exact .inl hi
    · exact .inr (.inr rfl)
  · exact absurd hi hn

/-! ## Fair executions -/

/-- The step of an enabled agent changes a block of a RUNNING machine: only the host changes the queue of launches. -/
theorem blocks_ne_of_enabled {s t : State} (h : step s = .next t) (hi : s.inv = .running)
    (ha : s.agentEnabled s.nextAgent = true) : t.blocks ≠ s.blocks := by
  obtain ⟨-, -, -, henabled⟩ := agentsWithoutAStepChangeNothing s
  obtain ⟨u, hu, hne⟩ := henabled ha
  obtain rfl := Host.Outcome.next.inj (hu.symm.trans h)
  exact hne.resolve_right (not_not.2 (gridKept_of_running h hi).invocation.launches)

/-- While the invocation runs some agent is enabled, where the warps are in step. -/
theorem InStep.exists_agentEnabled {s : State} (hs : InStep s) (hi : s.inv = .running) :
    ∃ a, s.agentEnabled a = true := by
  by_contra hno
  exact hs.not_stuck ⟨hi, fun b hb => by_contra fun hn => hno ((exists_agentEnabled_iff hi).2 ⟨b, hb, hn⟩)⟩

section Runs
variable {run : Nat → State}

/-- An execution that never ends runs on with its warps in step. -/
theorem running_of_no_end (hrun : IsRun run) (hs : InStep (run 0)) (hi : (run 0).inv = .running)
    (hno : ∀ n, ¬((run n).inv = .complete ∨ (run n).inv = .failed)) (n : Nat) :
    InStep (run n) ∧ (run n).inv = .running := by
  induction n with
  | zero => exact ⟨hs, hi⟩
  | succ n ih =>
    obtain ⟨hin, hir⟩ := ih
    exact ⟨stepKeepsWarpsInStep _ _ hin (hrun n), (inv_of_running (hrun n) hir).resolve_right (hno (n + 1))⟩

end Runs

/-- Settles O58: were there no end, some state of the execution would have least work left; but it is not stuck, so some
later step is of an enabled agent, which leaves less. That the execution never idles forever is enough here: no copy can
be skipped forever, since the other agents run out of work. -/
theorem fairRunsEnd : Obligations.FairRunsEnd := by
  intro run hfair hs hi
  by_contra hend
  have hno := not_exists.1 hend
  have hruns := running_of_no_end hfair.steps hs hi hno
  have hstep : ∀ n, (run (n + 1)).blocks = (run n).blocks ∨ (run (n + 1)).work < (run n).work := fun n =>
    step_work_lt (hruns n).1 (hfair.steps n) (hruns n).2 fun hf => hno (n + 1) (.inr hf)
  have hanti : Antitone fun n => (run n).work := antitone_nat_of_succ_le fun n => by
    rcases hstep n with he | hlt
    · rw [State.work, State.work, he]
    · exact hlt.le
  obtain ⟨n, hleast⟩ : ∃ n, ∀ m, ¬(run m).work < (run n).work :=
    ⟨_, fun m => Function.not_lt_argmin (fun n => (run n).work) m⟩
  obtain ⟨m, hle, hen⟩ := hfair.progress n ((hruns n).1.exists_agentEnabled (hruns n).2)
  have hlt := (hstep m).resolve_left (blocks_ne_of_enabled (hfair.steps m) (hruns m).2 hen)
  exact hleast (m + 1) (hlt.trans_le (hanti hle))

end Sys2Proof.Machine
end

section
/-! What LDM.A, LDM.B and LDSC do (42_extract R113, R114, R116): the fault of the first byte that fails a check of ScrRead
(20_memory R60), else the load of their registers from the bytes of the pseudocode; and what they and the MMAs leave of the
register files they write (43_mma R119, R120). -/

namespace Sys2Proof.Machine
open Sys2Proof.Claims

/-! ## One byte -/

section Bytes
variable {b : Block} {lim off : Nat} {w : WarpId}

/-- The fault of a scratch byte is that of its first failing check (20_memory R60). -/
theorem readByteFault_of_readFails {f : Cause} (h : ReadFails lim b w off f) : b.readByteFault lim w off = some f := by
  unfold Block.readByteFault
  rcases h with ⟨hlim, rfl⟩ | ⟨hlt, hv, rfl⟩ | ⟨hlt, hv, rfl⟩ | ⟨hlt, g0, hv, hw, hg, rfl⟩
  · exact if_pos hlim
  · simp only [if_neg (Nat.not_le.2 hlt), hv]
  · simp only [if_neg (Nat.not_le.2 hlt), hv]
  · simp only [if_neg (Nat.not_le.2 hlt), hv, if_pos (And.intro hw hg)]

theorem Readable.val_eq (h : Readable lim b w off) : (b.tag off).val = some (b.byte off) := by
  obtain ⟨-, hval, -⟩ := h
  obtain ⟨v, hv⟩ := Option.isSome_iff_exists.1 hval
  rw [Block.byte, hv, Option.getD_some]

/-- The half-word at two readable bytes is their little-endian value (20_memory R43). -/
theorem halfAt_half (h : ∀ a ∈ List.range' off 2, Readable lim b w a) : HalfAt b off (b.half off) := by
  have hlo := h off (by simp)
  have hhi := h (off + 1) (by simp)
  refine ⟨_, _, hlo.val_eq, hhi.val_eq, ?_⟩
  rw [Block.half, BitVec.toNat_append, ← Nat.shiftLeft_add_eq_or_of_lt (b.byte off).isLt, Nat.shiftLeft_eq, Nat.mul_comm]

end Bytes

/-! ## A load of registers -/

section Load
variable {i : Instr} {s : State} {b : Block} {offs : List Nat} {f : Warp → Warp}

/-- A load that reads `offs` marks them read and changes the warp by `f` (20_memory R60). -/
theorem readsInto_markReads (hb : b.scrWf = true) (w : WarpId) (offs : List Nat) (f : Warp → Warp) :
    ReadsInto b ((b.markReads w offs).updWarp w fun x => (f x).advance) w (· ∈ offs) (f b.warps[w]).advance := by
  refine ⟨warpBecomes_updWarp ⟨by simp, by simp, by simp, by simp, by simp⟩ (by simp) w fun x => (f x).advance,
    fun off ho => ?_, fun off ho => ?_⟩ <;> rw [Block.updWarp_tag, Block.tag_markReads hb]
  · exact if_pos ho
  · exact if_neg ho

/-- A command that loads registers from readable bytes does so, and changes nothing else. -/
theorem exec_load (hb : s.block? = some b) (hs : Canonical s) (hm : meaning i s b = loadRegs s b offs f)
    (hread : ∀ off ∈ offs, Readable s.derived.scrBytes b s.cur.w off) :
    ∃ b', exec i s = .next (s.setBlock b') ∧ ReadsInto b b' s.cur.w (· ∈ offs) (f b.warps[s.cur.w]).advance := by
  refine ⟨_, ?_, readsInto_markReads (hs.scr b (List.mem_of_getElem? hb)) s.cur.w offs f⟩
  rw [exec_eq_runCommand]
  exact runCommand_ok hb (hm.trans (loadRegs_ok hread))

/-- A command that loads registers raises the fault of the first byte that fails a check (60_exceptions R162). -/
theorem readerFaults_of_meaning (hb : s.block? = some b) (hm : meaning i s b = loadRegs s b offs f) :
    ReaderFaults i s b offs := by
  rintro pre off post c rfl hpre hfails
  have hfirst : loadFault s b (pre ++ off :: post) = some c :=
    List.findSome?_eq_some_iff.2 ⟨pre, off, post, rfl, readByteFault_of_readFails hfails,
      fun a ha => readByteFault_eq_none.2 (hpre a ha)⟩
  rw [exec_eq_runCommand]
  exact runCommand_error hb (hm.trans (loadRegs_eq_error.2 hfirst))

end Load

/-! ## The bytes of a fragment -/

section Fragments
variable (s : State) (w : WarpId) (slot : Fin 4) (ks : Fin 2)

theorem ldmAOff_eq_ldmAByte (mi : Fin 2) : ldmAOff s w slot ks mi = ldmAByte s w slot ks mi := by
  funext r2 k
  rw [ldmAOff, opOff, swizzle_eq_xor_swzAt]
  rfl

theorem ldmBOff_eq_ldmBByte (ni : Fin 8) : ldmBOff s w slot ks ni = ldmBByte s w slot ks ni := by
  funext c2 k
  rw [ldmBOff, opOff, swizzle_eq_xor_swzAt]
  rfl

theorem ldmAOffs_eq_ldmALoop (mi : Fin 2) : ldmAOffs s w slot ks mi = ldmALoop s w slot ks mi := by
  rw [ldmAOffs, ldmAOff_eq_ldmAByte]
  rfl

theorem ldmBOffs_eq_ldmBLoop (ni : Fin 8) : ldmBOffs s w slot ks ni = ldmBLoop s w slot ks ni := by
  rw [ldmBOffs, ldmBOff_eq_ldmBByte]
  rfl

theorem fragAOf_getElem (b : Block) (mi : Fin 2) (r2 : Fin 16) (k : Fin 32) :
    (fragAOf s b w slot ks mi)[r2][k] = b.byte (ldmAOff s w slot ks mi r2 k) := by
  simp [fragAOf]

theorem fragBOf_getElem (b : Block) (ni : Fin 8) (c2 : Fin 8) (k : Fin 32) :
    (fragBOf s b w slot ks ni)[c2][k] = b.byte (ldmBOff s w slot ks ni c2 k) := by
  simp [fragBOf]

end Fragments

/-- Two nested loops visit `f i k` at every `i` and `k` in range. -/
theorem mem_nested_loops {m n : Nat} (f : Nat → Nat → Nat) (i : Fin m) (k : Fin n) :
    f i k ∈ (List.range m).flatMap fun i => (List.range n).map (f i) :=
  List.mem_flatMap.2 ⟨i, List.mem_range.2 i.isLt, List.mem_map_of_mem (List.mem_range.2 k.isLt)⟩

/-- Settles O15: the bytes the model reads are those of the loops, through the swizzle. -/
theorem ldmALoadsTheFragment : Obligations.LdmALoadsTheFragment := by
  intro s b slot ks mi hb hs
  rw [← ldmAOffs_eq_ldmALoop, ← ldmAOff_eq_ldmAByte]
  refine ⟨fun hread => ?_, readerFaults_of_meaning hb rfl⟩
  obtain ⟨b', hexec, hinto⟩ := exec_load (i := .ldmA slot ks mi) hb hs rfl hread
  refine ⟨b', fragAOf s b s.cur.w slot ks mi, hexec, fun r2 k => ?_, hinto⟩
  rw [fragAOf_getElem]
  exact (hread _ (mem_nested_loops (ldmAOff s s.cur.w slot ks mi) r2 k)).val_eq

/-- Settles O16: the bytes the model reads are those of the loops, through the swizzle. -/
theorem ldmBLoadsTheFragment : Obligations.LdmBLoadsTheFragment := by
  intro s b slot ks ni hb hs
  rw [← ldmBOffs_eq_ldmBLoop, ← ldmBOff_eq_ldmBByte]
  refine ⟨fun hread => ?_, readerFaults_of_meaning hb rfl⟩
  obtain ⟨b', hexec, hinto⟩ := exec_load (i := .ldmB slot ks ni) hb hs rfl hread
  refine ⟨b', fragBOf s b s.cur.w slot ks ni, hexec, fun c2 k => ?_, hinto⟩
  rw [fragBOf_getElem]
  exact (hread _ (mem_nested_loops (ldmBOff s s.cur.w slot ks ni) c2 k)).val_eq

/-! ## The scales -/

/-- An inverse of PERM_A shows that PERM_A is a permutation (20_memory R47). -/
theorem permA_injective_of_position {s : State} {pos : Nat → Nat} (h : PositionOf s .main pos) :
    Function.Injective fun p : Fin 128 => s.cfg.permA[p] := by
  refine Finite.injective_iff_surjective.2 fun r => ?_
  obtain ⟨hlt, hrow⟩ := h r r.isLt
  exact ⟨⟨pos r, hlt⟩, Fin.ext (by simpa [permAt, hlt] using hrow)⟩

/-- The model's PERM_A_INV is the inverse of PERM_A, where there is one (42_extract R116). -/
theorem permAInv_eq_position {s : State} {pos : Nat → Nat} (h : PositionOf s .main pos) {r : Nat} (hr : r < 128) :
    permAInv s r = pos r := by
  obtain ⟨hlt, hrow⟩ := h r hr
  have hpos : s.cfg.permA[(⟨pos r, hlt⟩ : Fin 128)].val = r := by simpa [permAt, hlt] using hrow
  unfold permAInv
  split
  · next p hp =>
    have hval : s.cfg.permA[p].val = r := by simpa using List.find?_some hp
    exact congrArg Fin.val (permA_injective_of_position h (Fin.ext (hval.trans hpos.symm)))
  · next hnone =>
    exact absurd (decide_eq_true hpos) (List.find?_eq_none.1 hnone _ (List.mem_finRange _))

section Scales
variable {s : State} {ph : Phase} {pos : Nat → Nat} (w : WarpId) (slot : Fin 4)

theorem saOf_getElem (b : Block) (mi : Fin 2) (i : Fin 16) :
    (saOf s b w ph slot)[mi][i] = b.half (scaOff s w ph slot mi i) := by
  simp [saOf]

theorem sbOf_getElem (b : Block) (ni j : Fin 8) : (sbOf b w slot)[ni][j] = b.half (scbOff w slot ni j) := by
  simp [sbOf]

/-- LDSC reads both bytes of each row scale. -/
theorem mem_ldscOffs_of_row {mi : Fin 2} {i : Fin 16} {off : Nat} (ho : off ∈ List.range' (scaOff s w ph slot mi i) 2) :
    off ∈ ldscOffs s w ph slot :=
  List.mem_append_left _ (List.mem_flatMap.2 ⟨mi, List.mem_finRange mi,
    List.mem_flatMap.2 ⟨i, List.mem_range.2 i.isLt, ho⟩⟩)

/-- LDSC reads both bytes of each column scale. -/
theorem mem_ldscOffs_of_col {ni j : Fin 8} {off : Nat} (ho : off ∈ List.range' (scbOff w slot ni j) 2) :
    off ∈ ldscOffs s w ph slot :=
  List.mem_append_right _ (List.mem_flatMap.2 ⟨ni, List.mem_finRange ni,
    List.mem_flatMap.2 ⟨j, List.mem_range.2 j.isLt, ho⟩⟩)

theorem scaOff_eq_rowScaleAt (h : PositionOf s ph pos) (mi : Fin 2) {i : Nat} (hi : i < 16) :
    scaOff s w ph slot mi i = rowScaleAt w slot pos mi i := by
  have hr : rowOf w mi i < 128 := rowOf_lt w hi
  cases ph with
  | main => exact congrArg (fun p => scaBase slot + 2 * p) (permAInv_eq_position h hr)
  | keeper => exact congrArg (fun p => scaBase slot + 2 * p) (h _ hr).symm

theorem ldscOffs_eq_ldscLoop (h : PositionOf s ph pos) : ldscOffs s w ph slot = ldscLoop w slot pos := by
  unfold ldscOffs ldscLoop
  rw [← List.map_coe_finRange_eq_range (n := 2), ← List.map_coe_finRange_eq_range (n := 8), List.flatMap_map,
    List.flatMap_map]
  refine congrArg (· ++ _) (List.flatMap_congr fun mi _ => List.flatMap_congr fun i hi => ?_)
  rw [scaOff_eq_rowScaleAt w slot h mi (List.mem_range.1 hi)]
  rfl

end Scales

/-- Settles O17: the model's PERM_A_INV is any inverse of PERM_A, so the bytes the model reads are those of the loops. -/
theorem ldscLoadsTheScales : Obligations.LdscLoadsTheScales := by
  intro s b ph slot pos hb hs hpos
  dsimp only
  rw [← ldscOffs_eq_ldscLoop s.cur.w slot hpos]
  refine ⟨fun hread => ?_, readerFaults_of_meaning hb rfl⟩
  obtain ⟨b', hexec, hinto⟩ := exec_load (i := .ldsc ph slot) hb hs rfl hread
  refine ⟨b', saOf s b s.cur.w ph slot, sbOf b s.cur.w slot, hexec, fun mi i => ?_, fun ni j => ?_, hinto⟩
  · rw [saOf_getElem, ← scaOff_eq_rowScaleAt s.cur.w slot hpos mi i.isLt]
    exact halfAt_half fun off ho => hread off (mem_ldscOffs_of_row s.cur.w slot ho)
  · rw [sbOf_getElem]
    exact halfAt_half fun off ho => hread off (mem_ldscOffs_of_col s.cur.w slot ho)

/-! ## Partial writes of a register file -/

/-- The warp of a command that answers a next state was FAULTED, or had the command's effect. -/
theorem exec_warp_cases {i : Instr} {s t : State} {b b' : Block} (hb : s.block? = some b) (hb' : t.block? = some b')
    (h : exec i s = .next t) :
    b'.warps[s.cur.w] = { b.warps[s.cur.w] with st := .faulted } ∨ BlockEffect i s b b' := by
  rcases exec_next_cases hb h with ⟨c, -, rfl⟩ | ⟨b₁, he, rfl⟩
  · obtain rfl := Option.some.inj ((raise_block hb c).symm.trans hb')
    exact .inl (Block.faultedWith_same ..)
  · obtain rfl := Option.some.inj ((finish_block hb).symm.trans hb')
    exact .inr he

theorem updSubtile_other {acc : AccFile} {mi i : Fin 2} {ni j : Fin 8} {f : Fin 16 → Fin 8 → BitVec 32 → BitVec 32}
    (h : ¬(i = mi ∧ j = ni)) : (updSubtile acc mi ni f)[i][j] = acc[i][j] := by
  by_cases hi : i = mi
  · subst hi
    have hj : ni.val ≠ j.val := fun e => h ⟨rfl, Fin.ext e.symm⟩
    simp [updSubtile, hj]
  · have hi' : mi.val ≠ i.val := fun e => hi (Fin.ext e.symm)
    simp [updSubtile, hi']

/-- An MMA sets one sub-tile of IACC (43_mma R119, R120). -/
theorem MmaEffect.iacc {s : State} {b b' : Block} {dot : Vector Byte 32 → Vector Byte 32 → Int} {mi : Fin 2} {ni : Fin 8}
    (h : MmaEffect s b dot mi ni b') :
    ∃ f, b'.warps[s.cur.w].iacc = updSubtile b.warps[s.cur.w].iacc mi ni f := by
  obtain ⟨fa, fb, -, -, rfl⟩ := h
  rw [Block.updWarp_same, Warp.advance_iacc]
  exact ⟨fun r c acc => accAdd acc (dot fa[r] fb[c]), rfl⟩

/-- The warp after a load of registers. -/
theorem ReadEffect.warp {s : State} {b b' : Block} {offs : List Nat} {f : Warp → Warp} (h : ReadEffect s b offs f b') :
    b'.warps[s.cur.w] = (f b.warps[s.cur.w]).advance := by
  obtain ⟨-, rfl⟩ := h
  rw [Block.updWarp_same, Block.markReads_warps]

/-- Settles O26: a fault keeps every register file, and an effect sets one sub-tile or one fragment. -/
theorem partialRegisterWritesKeepTheRest : Obligations.PartialRegisterWritesKeepTheRest := by
  intro s t b b' hb hb'
  refine ⟨fun mi ni i j h hne => ?_, fun slot ks mi i h hne => ?_, fun slot ks ni i h hne => ?_⟩
  · have hcases : b'.warps[s.cur.w] = { b.warps[s.cur.w] with st := .faulted } ∨
        ∃ dot, MmaEffect s b dot mi ni b' :=
      h.elim (fun h4 => (exec_warp_cases hb hb' h4).imp_right fun he => ⟨dot4, he⟩)
        fun h8 => (exec_warp_cases hb hb' h8).imp_right fun he => ⟨dot8, he⟩
    obtain hw | ⟨dot, he⟩ := hcases
    · rw [hw]
    · obtain ⟨f, hf⟩ := he.iacc
      rw [hf, updSubtile_other hne]
  · rcases exec_warp_cases hb hb' h with hw | he
    · rw [hw]
    · rw [ReadEffect.warp he]
      exact Vector.getElem_set_ne mi.isLt i.isLt fun e => hne (Fin.ext e.symm)
  · rcases exec_warp_cases hb hb' h with hw | he
    · rw [hw]
    · rw [ReadEffect.warp he]
      exact Vector.getElem_set_ne ni.isLt i.isLt fun e => hne (Fin.ext e.symm)

end Sys2Proof.Machine
end

section
/-! What MMA4 and MMA8 do (43_mma R118 to R121): the fault of FA before that of FB (60_exceptions R162), else the exact dot
products accumulated modulo 2^32. -/

namespace Sys2Proof.Machine
open Sys2Proof.Claims

/-! ## The dot products -/

theorem s4_eq_nibble (x : Vector Byte 32) (k : Fin 64) : s4 x k = nibble x k :=
  congrArg BitVec.toInt (BitVec.eq_of_toNat_eq rfl)

theorem dot4_eq_sum (x y : Vector Byte 32) : dot4 x y = ∑ k : Fin 64, nibble x k * nibble y k := by
  simp only [dot4, s4_eq_nibble, Fin.sum_univ_def]

theorem dot8_eq_sum (x y : Vector Byte 32) : dot8 x y = ∑ k : Fin 32, x[k].toInt * y[k].toInt :=
  (Fin.sum_univ_def _).symm

/-- A product of signed numbers of one width is least at the least times the greatest number, and greatest at the square
of the least. -/
theorem mul_bounds {m a b : Int} (ha : -m ≤ a ∧ a ≤ m - 1) (hb : -m ≤ b ∧ b ≤ m - 1) :
    -(m * (m - 1)) ≤ a * b ∧ a * b ≤ m * m := by
  obtain ⟨ha1, ha2⟩ := ha
  obtain ⟨hb1, hb2⟩ := hb
  have hm : 0 ≤ m - 1 := by omega
  rcases le_total 0 a with hnonneg | hnonpos
  · constructor <;> nlinarith
  · constructor <;> nlinarith

theorem sum_mul_bounds {n : Nat} {m : Int} {a b : Fin n → Int} (ha : ∀ k, -m ≤ a k ∧ a k ≤ m - 1)
    (hb : ∀ k, -m ≤ b k ∧ b k ≤ m - 1) :
    n * -(m * (m - 1)) ≤ ∑ k, a k * b k ∧ ∑ k, a k * b k ≤ n * (m * m) := by
  have hlo := Finset.univ.card_nsmul_le_sum (fun k => a k * b k) _ fun k _ => (mul_bounds (ha k) (hb k)).1
  have hhi := Finset.univ.sum_le_card_nsmul (fun k => a k * b k) _ fun k _ => (mul_bounds (ha k) (hb k)).2
  rw [Finset.card_fin, nsmul_eq_mul] at hlo hhi
  exact ⟨hlo, hhi⟩

/-- The range of a signed number of `n + 1` bits. -/
theorem toInt_bounds {n : Nat} (v : BitVec (n + 1)) : -2 ^ n ≤ v.toInt ∧ v.toInt ≤ 2 ^ n - 1 :=
  ⟨BitVec.le_toInt v, Int.le_sub_one_of_lt BitVec.toInt_lt⟩

theorem dot4_bounds (x y : Vector Byte 32) : -3584 ≤ dot4 x y ∧ dot4 x y ≤ 4096 := by
  rw [dot4_eq_sum]
  exact sum_mul_bounds (m := 8) (fun _ => toInt_bounds (n := 3) _) fun _ => toInt_bounds (n := 3) _

theorem dot8_bounds (x y : Vector Byte 32) : -520192 ≤ dot8 x y ∧ dot8 x y ≤ 524288 := by
  rw [dot8_eq_sum]
  exact sum_mul_bounds (m := 128) (fun _ => toInt_bounds (n := 7) _) fun _ => toInt_bounds (n := 7) _

/-! ## The accumulation -/

theorem accAdd_isWrap32 (a : S32) (n : Int) : IsWrap32 (accAdd a n) (a.toInt + n) := by
  rw [IsWrap32, accAdd, BitVec.toInt_ofInt]
  exact Int.emod_eq_zero_of_dvd Int.dvd_bmod_sub_self

theorem updSubtile_same (acc : AccFile) (mi : Fin 2) (ni : Fin 8) (f : Fin 16 → Fin 8 → BitVec 32 → BitVec 32)
    (r : Fin 16) (c : Fin 8) : (updSubtile acc mi ni f)[mi][ni][r][c] = f r c acc[mi][ni][r][c] := by
  simp [updSubtile]

/-- A sub-tile updated by `accAdd` accumulates its sums (43_mma R119 to R121). -/
theorem updSubtile_accumulates (acc : AccFile) (mi : Fin 2) (ni : Fin 8) (sum : Fin 16 → Fin 8 → Int) :
    Accumulates acc (updSubtile acc mi ni fun r c a => accAdd a (sum r c)) mi ni sum := by
  intro i j r c
  split
  · next h =>
    obtain ⟨rfl, rfl⟩ := h
    rw [updSubtile_same]
    exact accAdd_isWrap32 _ _
  · next h => rw [updSubtile_other h]

/-! ## The commands -/

/-- An MMA with the dot product `dot` does what R119 and R120 say. -/
theorem mmaResult_of_mmaWith {i : Instr} {mi : Fin 2} {ni : Fin 8} {dot : Vector Byte 32 → Vector Byte 32 → Int}
    {lo hi : Int} (hm : ∀ s b, meaning i s b = mmaWith dot mi ni s b) (hdot : ∀ x y, lo ≤ dot x y ∧ dot x y ≤ hi) :
    MmaResult i mi ni dot lo hi := by
  refine ⟨hdot, fun s b hb => ?_⟩
  rw [exec_eq_runCommand]
  refine ⟨fun hfa => ?_, fun fa hfa hfb => ?_, fun fa fb hfa hfb => ?_⟩
  · exact runCommand_error hb (by simp only [hm, mmaWith, hfa])
  · exact runCommand_error hb (by simp only [hm, mmaWith, hfa, hfb])
  · have hok := (mmaWith_eq_ok (dot := dot)).2 ⟨_, ⟨fa, fb, hfa, hfb, rfl⟩, rfl⟩
    refine ⟨_, _, runCommand_ok hb ((hm s b).trans hok), fun _ => rfl, ?_, updSubtile_accumulates _ mi ni _⟩
    exact warpBecomes_updWarp (sharedKept_refl b) rfl s.cur.w _

/-- Settles O18: the model's dot product is the sum of the products of the nibbles. -/
theorem mma4Accumulates : Obligations.Mma4Accumulates := by
  intro mi ni
  simp only [← dot4_eq_sum]
  exact mmaResult_of_mmaWith (fun _ _ => rfl) dot4_bounds

/-- Settles O19: the model's dot product is the sum of the products of the bytes. -/
theorem mma8Accumulates : Obligations.Mma8Accumulates := by
  intro mi ni
  simp only [← dot8_eq_sum]
  exact mmaResult_of_mmaWith (fun _ _ => rfl) dot8_bounds

end Sys2Proof.Machine
end

section
/-! Rounding to nearest, ties to even (44_dequant R124, R125, 45_epilogue R137), in a format with `eb` exponent and `fb`
fraction bits, the exponent unbounded above: its numbers are the integers below `2 ^ (fb + 1)` times a power of two, and
`roundMag` takes the nearest integer of the right scale. -/

namespace Sys2Proof.Machine
open Sys2Proof.Claims

/-! ## The nearest integer -/

/-- `n` is the natural number nearest to `x`, the even one of two. -/
def IsNearestEven (n : Nat) (x : ℚ) : Prop := |(n : ℚ) - x| ≤ 1 / 2 ∧ (|(n : ℚ) - x| = 1 / 2 → n % 2 = 0)

theorem isNearestEven_self (n : Nat) : IsNearestEven n n := by
  simp [IsNearestEven]

section Nearest
variable {n : Nat} {x : ℚ}

theorem IsNearestEven.le_of_le (h : IsNearestEven n x) {k : Nat} (hk : k ≤ x) : k ≤ n := by
  have hn := (abs_le.1 h.1).1
  have hlt : (k : ℚ) < n + 1 := by linarith
  exact Nat.lt_succ_iff.1 (by exact_mod_cast hlt)

theorem IsNearestEven.ge_of_ge (h : IsNearestEven n x) {k : Nat} (hk : x ≤ k) : n ≤ k := by
  have hn := (abs_le.1 h.1).2
  have hlt : (n : ℚ) < k + 1 := by linarith
  exact Nat.lt_succ_iff.1 (by exact_mod_cast hlt)

/-- Any other integer is at least 1/2 away. -/
theorem IsNearestEven.half_le (h : IsNearestEven n x) {k : Nat} (hk : k ≠ n) : 1 / 2 ≤ |(k : ℚ) - x| := by
  have hint : (1 : ℚ) ≤ |(k : ℚ) - n| := by
    exact_mod_cast Int.one_le_abs (sub_ne_zero.2 (Nat.cast_injective.ne hk : (k : ℤ) ≠ n))
  have htri := abs_sub_le (k : ℚ) x n
  have hn := h.1
  rw [abs_sub_comm] at hn
  linarith

theorem IsNearestEven.nearest (h : IsNearestEven n x) (k : Nat) : |(n : ℚ) - x| ≤ |(k : ℚ) - x| := by
  rcases eq_or_ne k n with rfl | hk
  · exact le_rfl
  · exact h.1.trans (h.half_le hk)

theorem IsNearestEven.even_of_tie (h : IsNearestEven n x) {k : Nat} (hk : k ≠ n) (ht : |(k : ℚ) - x| = |(n : ℚ) - x|) :
    n % 2 = 0 :=
  h.2 (le_antisymm h.1 (ht ▸ h.half_le hk))

/-- A nearest number of units `u` gives a nearest multiple of `u`. -/
theorem IsNearestEven.nearest_multiple {u : ℚ} (hu : 0 < u) (h : IsNearestEven n (x / u)) (k : Nat) :
    |n * u - x| ≤ |k * u - x| ∧ (k ≠ n → |k * u - x| = |n * u - x| → n % 2 = 0) := by
  have hunits : ∀ i : Nat, |i * u - x| = |i - x / u| * u := fun i => by
    rw [← abs_of_pos hu, ← abs_mul, sub_mul, abs_of_pos hu, div_mul_cancel₀ _ hu.ne']
  rw [hunits, hunits, mul_le_mul_iff_left₀ hu, mul_left_inj' hu.ne']
  exact ⟨h.nearest k, fun hk => h.even_of_tie hk⟩

end Nearest

theorem isNearestEven_div {n m d : Nat} (hd : 0 < d) (hlo : 2 * m ≤ 2 * (n * d) + d) (hhi : 2 * (n * d) ≤ 2 * m + d)
    (htie : 2 * m = 2 * (n * d) + d ∨ 2 * (n * d) = 2 * m + d → n % 2 = 0) : IsNearestEven n (m / d) := by
  have hd' : (0 : ℚ) < d := by exact_mod_cast hd
  have hsub : (n : ℚ) - m / d = (n * d - m) / d := by field_simp
  have hlo' : (2 * m : ℚ) ≤ 2 * (n * d) + d := by exact_mod_cast hlo
  have hhi' : (2 * (n * d) : ℚ) ≤ 2 * m + d := by exact_mod_cast hhi
  rw [IsNearestEven, hsub, abs_le, abs_eq (by norm_num)]
  refine ⟨⟨(le_div_iff₀ hd').2 (by linarith), (div_le_iff₀ hd').2 (by linarith)⟩, fun h => htie ?_⟩
  rcases h with h | h
  · rw [div_eq_iff hd'.ne'] at h
    exact .inr (by exact_mod_cast (by linarith : (2 * (n * d) : ℚ) = 2 * m + d))
  · rw [div_eq_iff hd'.ne'] at h
    exact .inl (by exact_mod_cast (by linarith : (2 * m : ℚ) = 2 * (n * d) + d))

theorem isNearestEven_rne (m sh : Nat) : IsNearestEven (rne m sh) (m / 2 ^ sh) := by
  have hm := Nat.div_add_mod' m (2 ^ sh)
  have hlt := Nat.mod_lt m (Nat.two_pow_pos sh)
  have hcast : ((2 ^ sh : Nat) : ℚ) = 2 ^ sh := by push_cast; rfl
  rw [rne, ← hcast]
  split
  · have hsucc := Nat.add_one_mul (m / 2 ^ sh) (2 ^ sh)
    refine isNearestEven_div (Nat.two_pow_pos sh) ?_ ?_ ?_ <;> omega
  · refine isNearestEven_div (Nat.two_pow_pos sh) ?_ ?_ ?_ <;> omega

/-! ## The numbers of a format -/

/-- The exponent of the least positive number of a format. -/
def leastExp (eb fb : Nat) : ℤ := 2 - 2 ^ (eb - 1) - fb

section Format
variable {eb fb : Nat}

/-- All magnitude bits count `j` units of a scale `k`, the bits below `2^fb` of scale 0. -/
theorem exists_scale (fb n : Nat) : ∃ k j, n = k * 2 ^ fb + j ∧ j < 2 ^ (fb + 1) ∧ (k = 0 ∨ 2 ^ fb ≤ j) := by
  have hn := Nat.div_add_mod' n (2 ^ fb)
  have hlt := Nat.mod_lt n (Nat.two_pow_pos fb)
  rw [pow_succ]
  rcases Nat.eq_zero_or_eq_succ_pred (n / 2 ^ fb) with h0 | hs
  · exact ⟨0, n, by omega, by rw [h0] at hn; omega, .inl rfl⟩
  · rw [hs, Nat.succ_mul] at hn
    exact ⟨(n / 2 ^ fb).pred, 2 ^ fb + n % 2 ^ fb, by omega, by omega, .inr (by omega)⟩

theorem magValue_of_lt {k i : Nat} (hi : i < 2 ^ fb) :
    magValue eb fb ((k + 1) * 2 ^ fb + i) = (2 ^ fb + i : ℕ) * 2 ^ (leastExp eb fb + k) := by
  have hdiv : ((k + 1) * 2 ^ fb + i) / 2 ^ fb = k + 1 :=
    Nat.div_eq_of_lt_le (Nat.le_add_right ..) (by rw [Nat.add_one_mul (k + 1)]; omega)
  have hnot : ¬(k + 1) * 2 ^ fb + i < 2 ^ fb := by rw [Nat.add_one_mul]; omega
  rw [magValue, if_neg hnot, hdiv, Nat.mul_add_mod_of_lt hi, leastExp, Nat.cast_succ, ← add_assoc, add_sub_cancel_right]

/-- `j` units of the scale `k` are `j · 2^k` times the least positive number. -/
theorem magValue_scale {k j : Nat} (hj : j ≤ 2 ^ (fb + 1)) (hk : k = 0 ∨ 2 ^ fb ≤ j) :
    magValue eb fb (k * 2 ^ fb + j) = j * 2 ^ (leastExp eb fb + k) := by
  have hpos := Nat.two_pow_pos fb
  rw [pow_succ] at hj
  rcases Nat.lt_or_ge j (2 ^ fb) with hlt | hge
  · obtain rfl : k = 0 := hk.resolve_right (by omega)
    simp [magValue, hlt, leastExp]
  · obtain ⟨i, rfl⟩ := Nat.exists_eq_add_of_le hge
    rcases Nat.lt_or_ge i (2 ^ fb) with hi | hi
    · rw [← Nat.add_assoc, ← Nat.add_one_mul, magValue_of_lt hi]
    · obtain rfl : i = 2 ^ fb := by omega
      have hcarry := magValue_of_lt (eb := eb) (k := k + 1) hpos
      rw [Nat.cast_succ, ← add_assoc, zpow_add_one₀ two_ne_zero] at hcarry
      rw [← Nat.add_assoc, ← Nat.add_one_mul, ← Nat.add_one_mul, ← Nat.add_zero (_ * _), hcarry]
      push_cast
      ring

theorem magValue_strictMono : StrictMono (magValue eb fb) := by
  refine strictMono_nat_of_lt_succ fun n => ?_
  obtain ⟨k, j, rfl, hj, hk⟩ := exists_scale fb n
  rw [magValue_scale hj.le hk, add_assoc, magValue_scale hj (hk.imp_right (Nat.le_succ_of_le))]
  gcongr
  exact Nat.lt_succ_self j

/-! ## Rounding -/

theorem isNearestEven_scaled (m : Nat) (e q : ℤ) :
    IsNearestEven (if q ≤ e then m * 2 ^ (e - q).toNat else rne m (q - e).toNat) (m * 2 ^ e / 2 ^ q) := by
  rw [mul_div_assoc, ← zpow_sub₀ two_ne_zero]
  split
  · next h =>
    have hexp : (2 : ℚ) ^ (e - q) = (2 ^ (e - q).toNat : ℕ) := by
      rw [Nat.cast_pow, ← zpow_natCast, Int.toNat_of_nonneg (by omega)]
      rfl
    rw [hexp, ← Nat.cast_mul]
    exact isNearestEven_self _
  · next h =>
    have hexp : (2 : ℚ) ^ (e - q) = (2 ^ (q - e).toNat)⁻¹ := by
      rw [← zpow_natCast, Int.toNat_of_nonneg (by omega), ← zpow_neg, neg_sub]
    rw [hexp, ← div_eq_mul_inv]
    exact isNearestEven_rne m _

/-- The binade of `m · 2^e`. -/
theorem log2_bounds {m : Nat} (hm : m ≠ 0) (e : ℤ) :
    (2 : ℚ) ^ (m.log2 + e) ≤ m * 2 ^ e ∧ (m * 2 ^ e : ℚ) < 2 ^ (m.log2 + e + 1) := by
  have hlo : ((2 ^ m.log2 : ℕ) : ℚ) ≤ m := by exact_mod_cast Nat.log2_self_le hm
  have hhi : (m : ℚ) < (2 ^ (m.log2 + 1) : ℕ) := by exact_mod_cast Nat.lt_log2_self
  rw [add_right_comm, zpow_add₀ two_ne_zero, zpow_add₀ two_ne_zero]
  rw [Nat.cast_pow, Nat.cast_ofNat, ← zpow_natCast] at hlo hhi
  exact ⟨by gcongr, by push_cast at hhi; gcongr⟩

/-- `roundMag` counts the nearest number of units of a scale `k`, at least `2^fb` of them where `k` is not 0. -/
theorem roundMag_eq_scale (eb fb m : Nat) (e : ℤ) : ∃ k n, roundMag eb fb m e = k * 2 ^ fb + n ∧
    IsNearestEven n (m * 2 ^ e / 2 ^ (leastExp eb fb + k)) ∧ n ≤ 2 ^ (fb + 1) ∧
    (k = 0 ∨ (2 ^ fb : ℕ) * 2 ^ (leastExp eb fb + k) ≤ (m * 2 ^ e : ℚ)) := by
  rcases eq_or_ne m 0 with rfl | hm
  · exact ⟨0, 0, by simp [roundMag], by simpa using isNearestEven_self 0, Nat.zero_le _, .inl rfl⟩
  obtain ⟨hlo, hhi⟩ := log2_bounds hm e
  obtain ⟨q, hq⟩ : ∃ q, q = max (Nat.log2 m + e - fb) (leastExp eb fb) := ⟨_, rfl⟩
  have hround : roundMag eb fb m e = (q - leastExp eb fb).toNat * 2 ^ fb +
      if q ≤ e then m * 2 ^ (e - q).toNat else rne m (q - e).toNat := by
    rw [roundMag, if_neg hm, hq, leastExp]
  have hk : leastExp eb fb + (q - leastExp eb fb).toNat = q := by omega
  have hnear := isNearestEven_scaled m e q
  refine ⟨_, _, hround, by rwa [hk], hnear.ge_of_ge ?_, ?_⟩
  · rw [div_le_iff₀ (by positivity), Nat.cast_pow, Nat.cast_ofNat, ← zpow_natCast, ← zpow_add₀ two_ne_zero]
    exact hhi.le.trans (zpow_le_zpow_right₀ one_le_two (by omega))
  · rw [hk, Nat.cast_pow, Nat.cast_ofNat, ← zpow_natCast, ← zpow_add₀ two_ne_zero]
    refine (eq_or_ne (q - leastExp eb fb).toNat 0).imp_right fun hne => hlo.trans' ?_
    exact zpow_le_zpow_right₀ one_le_two (by omega)

/-- Every number of the format is a multiple of the unit of the scale `k`, or below `2^fb` of those units. -/
theorem magValue_multiple_or_lt (eb fb k n : Nat) : (∃ i : Nat, magValue eb fb n = i * 2 ^ (leastExp eb fb + k)) ∨
    (k ≠ 0 ∧ magValue eb fb n < (2 ^ fb : ℕ) * 2 ^ (leastExp eb fb + k)) := by
  obtain ⟨l, j, rfl, hj, hl⟩ := exists_scale fb n
  rw [magValue_scale hj.le hl]
  rcases le_or_gt k l with hkl | hlk
  · obtain ⟨d, rfl⟩ := Nat.exists_eq_add_of_le hkl
    refine .inl ⟨j * 2 ^ d, ?_⟩
    rw [Nat.cast_add, ← add_assoc, zpow_add₀ two_ne_zero, zpow_natCast]
    push_cast
    ring
  · refine .inr ⟨by omega, ?_⟩
    calc (j : ℚ) * 2 ^ (leastExp eb fb + l) < (2 ^ (fb + 1) : ℕ) * 2 ^ (leastExp eb fb + l) := by gcongr
      _ = (2 ^ fb : ℕ) * 2 ^ (leastExp eb fb + l + 1) := by
        rw [zpow_add_one₀ two_ne_zero]; push_cast; ring
      _ ≤ _ := mul_le_mul_of_nonneg_left (zpow_le_zpow_right₀ one_le_two (by omega)) (Nat.cast_nonneg _)

/-- No number of the format is nearer to `m · 2^e` than the one `roundMag` gives, and that is even where another is as
near. -/
theorem roundMag_nearest (hfb : fb ≠ 0) (m : Nat) (e : ℤ) (n : Nat) :
    |magValue eb fb (roundMag eb fb m e) - m * 2 ^ e| ≤ |magValue eb fb n - m * 2 ^ e| ∧
      (n ≠ roundMag eb fb m e →
        |magValue eb fb n - m * 2 ^ e| = |magValue eb fb (roundMag eb fb m e) - m * 2 ^ e| →
        roundMag eb fb m e % 2 = 0) := by
  obtain ⟨k, j, hround, hnear, hj, hk⟩ := roundMag_eq_scale eb fb m e
  have hu : (0 : ℚ) < 2 ^ (leastExp eb fb + k) := by positivity
  have hval : magValue eb fb (roundMag eb fb m e) = j * 2 ^ (leastExp eb fb + k) := by
    rw [hround]
    exact magValue_scale hj (hk.imp_right fun h => hnear.le_of_le ((le_div_iff₀ hu).2 h))
  rcases magValue_multiple_or_lt eb fb k n with ⟨i, hi⟩ | ⟨hk0, hlt⟩
  · obtain ⟨hle, heven⟩ := hnear.nearest_multiple hu i
    rw [hi, hval]
    refine ⟨hle, fun hne htie => ?_⟩
    have hij : i ≠ j := fun hij => hne (magValue_strictMono.injective (by rw [hi, hval, hij]))
    rw [hround]
    exact Nat.even_iff.1 (((even_two.pow_of_ne_zero hfb).mul_left k).add (Nat.even_iff.2 (heven hij htie)))
  · have hx := hk.resolve_left hk0
    have hfar : |magValue eb fb (roundMag eb fb m e) - m * 2 ^ e| < |magValue eb fb n - m * 2 ^ e| := by
      rw [hval]
      refine (hnear.nearest_multiple hu (2 ^ fb)).1.trans_lt ?_
      rw [abs_of_nonpos (by linarith), abs_of_neg (by linarith)]
      linarith
    exact ⟨hfar.le, fun _ htie => absurd htie hfar.ne'⟩

/-- A number of the format rounds to itself. -/
theorem roundMag_eq_of_magValue (hfb : fb ≠ 0) {m n : Nat} {e : ℤ} (h : magValue eb fb n = m * 2 ^ e) :
    roundMag eb fb m e = n := by
  have hle := (roundMag_nearest (eb := eb) hfb m e n).1
  rw [h, sub_self, abs_zero, abs_nonpos_iff, sub_eq_zero, ← h] at hle
  exact magValue_strictMono.injective hle

end Format
end Sys2Proof.Machine
end

section
/-! Bit patterns and the numbers they read as (44_dequant R124, R125): reading a pattern, rounding to one, and reading a
rounded number back. -/

namespace Sys2Proof.Machine
open Sys2Proof.Claims

/-! ## Reading -/

/-- A bit pattern reads as the IEEE number of its sign and magnitude bits. -/
theorem unpack_readsAs (eb fb bits : Nat) :
    ReadsAs eb fb (decide (bits / 2 ^ (eb + fb) % 2 = 1)) (bits % 2 ^ (eb + fb)) (unpack eb fb bits) := by
  have hex : bits / 2 ^ fb % 2 ^ eb = bits % 2 ^ (eb + fb) / 2 ^ fb := by
    rw [Nat.add_comm, pow_add, Nat.mod_mul_right_div_self]
  have hfr : bits % 2 ^ fb = bits % 2 ^ (eb + fb) % 2 ^ fb :=
    (Nat.mod_mod_of_dvd _ (pow_dvd_pow 2 (Nat.le_add_left ..))).symm
  have hlt : bits % 2 ^ (eb + fb) / 2 ^ fb < 2 ^ eb := hex ▸ Nat.mod_lt _ (Nat.two_pow_pos eb)
  have hpos := Nat.two_pow_pos fb
  rw [unpack, ReadsAs, hex, hfr]
  generalize bits % 2 ^ (eb + fb) = n at *
  have hn := Nat.div_add_mod' n (2 ^ fb)
  have hmod := Nat.mod_lt n hpos
  rcases eq_or_ne (n / 2 ^ fb) (2 ^ eb - 1) with hmax | hmax
  · rw [hmax] at hn
    have hzero : n % 2 ^ fb = 0 ↔ n = (2 ^ eb - 1) * 2 ^ fb := by omega
    simp only [hmax, hzero, if_true]
    rw [if_neg (by omega)]
    split <;> rfl
  · have hfin : n < (2 ^ eb - 1) * 2 ^ fb := (Nat.div_lt_iff_lt_mul hpos).1 (by omega)
    rw [if_pos hfin, if_neg hmax]
    rcases eq_or_ne (n / 2 ^ fb) 0 with hsub | hnormal
    · have hlow := (Nat.div_eq_zero_iff_lt hpos).1 hsub
      refine ⟨_, _, if_pos hsub, ?_⟩
      rw [magValue, if_pos hlow, Nat.mod_eq_of_lt hlow]
      ring_nf
    · have hhigh : ¬n < 2 ^ fb := fun hlow => hnormal (Nat.div_eq_of_lt hlow)
      refine ⟨_, _, if_neg hnormal, ?_⟩
      rw [magValue, if_neg hhigh]
      ring_nf

theorem readF32_false (x : F32) : readF32 false x = unpack 8 23 x.toNat := by
  rw [readF32]
  cases unpack 8 23 x.toNat <;> rfl

theorem msb_eq_top_bit {n : Nat} (x : BitVec (n + 1)) : x.msb = decide (x.toNat / 2 ^ n % 2 = 1) := by
  rw [BitVec.msb_eq_getLsbD_last, BitVec.getLsbD, Nat.testBit_eq_decide_div_mod_eq, Nat.add_sub_cancel]

theorem readF16_readsAs (h : F16) : ReadsAs 5 10 h.msb (h.toNat % 2 ^ 15) (readF16 h) :=
  msb_eq_top_bit (n := 15) h ▸ unpack_readsAs 5 10 h.toNat

theorem readF32_readsAs (x : F32) : ReadsAs 8 23 x.msb (x.toNat % 2 ^ 31) (readF32 false x) :=
  readF32_false x ▸ msb_eq_top_bit (n := 31) x ▸ unpack_readsAs 8 23 x.toNat

section ReadsAs
variable {eb fb n : Nat} {neg : Bool} {v : FVal}

/-- Magnitude bits below those of the infinity are finite. -/
theorem exists_fin_of_readsAs (h : ReadsAs eb fb neg n v) (hn : n < (2 ^ eb - 1) * 2 ^ fb) :
    ∃ (m : Nat) (e : ℤ), v = .fin neg m e ∧ (m * 2 ^ e : ℚ) = magValue eb fb n := by
  rwa [ReadsAs, if_pos hn] at h

theorem lt_of_readsAs_of_isFinite (h : ReadsAs eb fb neg n v) (hv : IsFinite v) : n < (2 ^ eb - 1) * 2 ^ fb := by
  by_contra hn
  rw [ReadsAs, if_neg hn] at h
  split at h
  · exact (h ▸ hv : IsFinite (.inf neg))
  · exact (h ▸ hv : IsFinite .nan)

end ReadsAs

/-! ## Rounding -/

@[simp] theorem roundF16_nan (nan : F16) : roundF16 nan .nan = nan := BitVec.ofNat_toNat _ _
@[simp] theorem roundF32_nan (nan : F32) : roundF32 nan .nan = nan := BitVec.ofNat_toNat _ _

theorem roundF16_inf (nan : F16) (neg : Bool) : roundF16 nan (.inf neg) = if neg then 0xFC00 else 0x7C00 := by
  cases neg <;> rfl

theorem roundF32_inf (nan : F32) (neg : Bool) : roundF32 nan (.inf neg) = if neg then 0xFF800000 else 0x7F800000 := by
  cases neg <;> rfl

section Round
variable (neg : Bool) (m : Nat) (e : ℤ)

theorem packIeee_fin (eb fb nan : Nat) : packIeee eb fb nan (.fin neg m e) = (if neg then 2 ^ (eb + fb) else 0) +
    if roundMag eb fb m e < (2 ^ eb - 1) * 2 ^ fb then roundMag eb fb m e else (2 ^ eb - 1) * 2 ^ fb := by
  rw [packIeee, signBit, min_def_lt, Nat.add_assoc, Nat.add_sub_cancel_left]

theorem packIeee_fin_lt (eb fb nan : Nat) : packIeee eb fb nan (.fin neg m e) < 2 ^ (1 + eb + fb) := by
  have hmax : (2 ^ eb - 1) * 2 ^ fb < 2 ^ eb * 2 ^ fb :=
    Nat.mul_lt_mul_of_pos_right (Nat.sub_one_lt (Nat.two_pow_pos eb).ne') (Nat.two_pow_pos fb)
  have hmag : (if roundMag eb fb m e < (2 ^ eb - 1) * 2 ^ fb then roundMag eb fb m e else (2 ^ eb - 1) * 2 ^ fb) <
      2 ^ eb * 2 ^ fb := by split <;> omega
  rw [packIeee_fin, Nat.add_assoc 1, pow_add 2 1, pow_add]
  split <;> omega

theorem toNat_roundF16_fin (nan : F16) : (roundF16 nan (.fin neg m e)).toNat =
    (if neg then 2 ^ 15 else 0) + if roundMag 5 10 m e < 0x7C00 then roundMag 5 10 m e else 0x7C00 := by
  rw [roundF16, BitVec.toNat_ofNat, Nat.mod_eq_of_lt (packIeee_fin_lt neg m e 5 10 _)]
  exact packIeee_fin neg m e 5 10 _

theorem toNat_roundF32_fin (nan : F32) : (roundF32 nan (.fin neg m e)).toNat =
    (if neg then 2 ^ 31 else 0) + if roundMag 8 23 m e < 0x7F800000 then roundMag 8 23 m e else 0x7F800000 := by
  rw [roundF32, BitVec.toNat_ofNat, Nat.mod_eq_of_lt (packIeee_fin_lt neg m e 8 23 _)]
  exact packIeee_fin neg m e 8 23 _

end Round

/-- Settles O51: reading is `unpack_readsAs`, rounding `roundMag_nearest`. -/
theorem roundingIsToNearestEven : Obligations.RoundingIsToNearestEven := by
  refine ⟨readF16_readsAs, readF32_readsAs, toNat_roundF32_fin, toNat_roundF16_fin, fun f hf m e n => ?_⟩
  have hfb : f.2 ≠ 0 := by
    revert f
    decide
  exact roundMag_nearest hfb m e n

end Sys2Proof.Machine
end

section
/-! The widening conversions (44_dequant R127, R128): a number f32 can hold rounds to itself, and f32 holds every f16 and every
integer of magnitude at most 2^24. -/

namespace Sys2Proof.Machine
open Sys2Proof.Claims

/-! ## Numbers a format holds -/

/-- A format holds `m · 2^e` for `m` up to `2^(fb + 1)` and no exponent below the least. -/
theorem exists_magValue (eb fb k : Nat) {m : Nat} (hm : m ≤ 2 ^ (fb + 1)) :
    ∃ n, magValue eb fb n = m * 2 ^ (leastExp eb fb + k) := by
  induction k generalizing m with
  | zero => exact ⟨_, magValue_scale hm (.inl rfl)⟩
  | succ k ih =>
    rcases le_or_gt (2 ^ fb) m with hge | hlt
    · exact ⟨_, magValue_scale hm (.inr hge)⟩
    · obtain ⟨n, hn⟩ := ih (m := 2 * m) (by rw [pow_succ]; omega)
      refine ⟨n, hn.trans ?_⟩
      rw [Nat.cast_succ, ← add_assoc, zpow_add_one₀ two_ne_zero]
      push_cast
      ring

/-- f32 holds every f16. -/
theorem exists_magValue_f32_of_f16 (k : Nat) : ∃ n, magValue 8 23 n = magValue 5 10 k := by
  obtain ⟨l, j, rfl, hj, hl⟩ := exists_scale 10 k
  obtain ⟨n, hn⟩ := exists_magValue 8 23 (125 + l) (m := j) (by omega)
  refine ⟨n, ?_⟩
  rw [hn, magValue_scale hj.le hl, Nat.cast_add, ← add_assoc]
  rfl

/-- The bound of the finite f32 magnitudes. -/
theorem lt_inf_of_magValue {n : Nat} (h : magValue 8 23 n < 2 ^ 128) : n < 0x7F800000 := by
  have hinf : magValue 8 23 0x7F800000 = 2 ^ 128 := by norm_num [magValue]
  exact magValue_strictMono.lt_iff_lt.1 (h.trans_eq hinf.symm)

/-! ## Rounding what f32 holds -/

theorem valueOf_fin (neg : Bool) (m : Nat) (e : ℤ) : valueOf (.fin neg m e) = (if neg then -1 else 1) * (m * 2 ^ e) :=
  mul_assoc ..

/-- The sign and the magnitude bits of an f32 put together from them. -/
theorem sign_and_magnitude {x : F32} {neg : Bool} {n : Nat} (hn : n < 2 ^ 31)
    (h : x.toNat = (if neg then 2 ^ 31 else 0) + n) : x.msb = neg ∧ x.toNat % 2 ^ 31 = n := by
  rw [msb_eq_top_bit (n := 31)]
  cases neg with
  | false =>
    rw [if_neg Bool.false_ne_true] at h
    exact ⟨decide_eq_false (by omega), by omega⟩
  | true =>
    rw [if_pos rfl] at h
    exact ⟨decide_eq_true (by omega), by omega⟩

/-- Rounding to f32 is exact on a number f32 holds, and keeps its sign. -/
theorem roundF32_exact {m n : Nat} {e : ℤ} (hn : magValue 8 23 n = m * 2 ^ e) (hlt : (m * 2 ^ e : ℚ) < 2 ^ 128)
    (neg : Bool) (nan : F32) : IsFinite (readF32 false (roundF32 nan (.fin neg m e))) ∧
      valueOf (readF32 false (roundF32 nan (.fin neg m e))) = valueOf (.fin neg m e) ∧
      (roundF32 nan (.fin neg m e)).msb = neg := by
  have hfin : n < 0x7F800000 := lt_inf_of_magValue (hn.trans_lt hlt)
  have hbits := toNat_roundF32_fin neg m e nan
  rw [roundMag_eq_of_magValue (by decide) hn, if_pos hfin] at hbits
  obtain ⟨hsign, hmag⟩ := sign_and_magnitude (by omega) hbits
  have hread := readF32_readsAs (roundF32 nan (.fin neg m e))
  rw [hsign, hmag] at hread
  obtain ⟨m', e', hx, hval⟩ := exists_fin_of_readsAs hread hfin
  rw [hx, valueOf_fin, valueOf_fin, hval, hn]
  exact ⟨trivial, rfl, hsign⟩

/-- cvt_f16_f32 is exact (44_dequant R127). -/
theorem cvtF16F32_exact (nan : F32) (h : F16) (hfin : IsFinite (readF16 h)) :
    IsFinite (readF32 false (cvtF16F32 nan h)) ∧
      valueOf (readF32 false (cvtF16F32 nan h)) = valueOf (readF16 h) ∧ (cvtF16F32 nan h).msb = h.msb := by
  have hlt := lt_of_readsAs_of_isFinite (readF16_readsAs h) hfin
  obtain ⟨m, e, hread, hval⟩ := exists_fin_of_readsAs (readF16_readsAs h) hlt
  obtain ⟨n, hn⟩ := exists_magValue_f32_of_f16 (h.toNat % 2 ^ 15)
  have hinf : magValue 5 10 ((2 ^ 5 - 1) * 2 ^ 10) = 2 ^ 16 := by norm_num [magValue]
  have hbound := hval.trans_lt ((magValue_strictMono hlt).trans_eq hinf)
  rw [cvtF16F32, hread]
  exact roundF32_exact (hn.trans hval.symm) (hbound.trans (by norm_num)) h.msb nan

theorem cvtS32F32_eq (nan : F32) (p : S32) : cvtS32F32 p = roundF32 nan (.fin p.msb p.toInt.natAbs 0) := by
  rw [BitVec.msb_eq_toInt]
  rfl

theorem valueOf_s32 (p : S32) : valueOf (.fin p.msb p.toInt.natAbs 0) = p.toInt := by
  rw [valueOf_fin, BitVec.msb_eq_toInt, zpow_zero, mul_one, Nat.cast_natAbs, Int.cast_abs]
  rcases lt_or_ge p.toInt 0 with hneg | hpos
  · have hneg' : (p.toInt : ℚ) < 0 := by exact_mod_cast hneg
    simp [hneg, abs_of_neg hneg']
  · have hpos' : (0 : ℚ) ≤ p.toInt := by exact_mod_cast hpos
    simp [hpos.not_gt, abs_of_nonneg hpos']

/-- cvt_s32_f32 is exact up to 2^24 (44_dequant R128). -/
theorem cvtS32F32_exact (p : S32) (hp : p.toInt.natAbs ≤ 2 ^ 24) :
    IsFinite (readF32 false (cvtS32F32 p)) ∧ valueOf (readF32 false (cvtS32F32 p)) = p.toInt := by
  obtain ⟨n, hn⟩ := exists_magValue 8 23 149 hp
  have hbound : ((p.toInt.natAbs : ℚ) * 2 ^ (0 : ℤ)) < 2 ^ 128 := by
    have hp' : (p.toInt.natAbs : ℚ) ≤ 2 ^ 24 := by exact_mod_cast hp
    rw [zpow_zero, mul_one]
    exact hp'.trans_lt (by norm_num)
  obtain ⟨hfin, hval, -⟩ := roundF32_exact hn hbound p.msb 0
  rw [cvtS32F32_eq 0]
  exact ⟨hfin, hval.trans (valueOf_s32 p)⟩

/-- Settles O52: what f32 holds, it rounds to. -/
theorem wideningConversionsAreExact : Obligations.WideningConversionsAreExact := by
  refine ⟨fun nan h => ⟨cvtF16F32_exact nan h, fun neg hinf => ?_, fun hnan => ?_⟩, fun nan p => ?_, cvtS32F32_exact⟩
  · rw [cvtF16F32, hinf, roundF32_inf]
    cases neg <;> decide
  · rw [cvtF16F32, hnan, roundF32_nan]
  · refine ⟨_, _, ?_, cvtS32F32_eq nan p⟩
    rw [zpow_zero, mul_one, Nat.cast_natAbs, Int.cast_abs]

end Sys2Proof.Machine
end

section
/-! The primitives of the fold (44_dequant R126, R129, R130): exact products and sums, rounded once; FTZ flushes operands and
results. -/

namespace Sys2Proof.Machine
open Sys2Proof.Claims

/-! ## Exact products and sums -/

theorem FVal.mul_isExactProduct : ∀ x y : FVal, IsExactProduct (x.mul y) x y
  | .nan, _ => rfl
  | .inf _, .nan => rfl
  | .fin _ _ _, .nan => rfl
  | .inf _, .inf _ => rfl
  | .inf _, .fin _ _ _ => rfl
  | .fin _ _ _, .inf _ => rfl
  | .fin p m e, .fin q n f => by
    refine ⟨m * n, e + f, rfl, ?_⟩
    rw [zpow_add₀ two_ne_zero]
    push_cast
    ring

/-- A number in units of `2^lo`, for any `lo` up to its exponent. -/
theorem signedMag_mul_zpow (neg : Bool) (m : Nat) {e lo : ℤ} (h : lo ≤ e) :
    (signedMag neg m (e - lo).toNat : ℚ) * 2 ^ lo = valueOf (.fin neg m e) := by
  have hexp : (2 : ℚ) ^ e = 2 ^ (e - lo).toNat * 2 ^ lo := by
    rw [← zpow_natCast, ← zpow_add₀ two_ne_zero, Int.toNat_of_nonneg (by omega), sub_add_cancel]
  rw [valueOf, hexp, signedMag]
  cases neg <;> push_cast <;> simp [mul_assoc]

/-- The exact value and the signs of a finite sum. -/
theorem FVal.add_fin_isExactSum (p q : Bool) (m n : Nat) (e f : ℤ) :
    IsExactSum ((FVal.fin p m e).add (.fin q n f)) (.fin p m e) (.fin q n f) := by
  have hpos : (0 : ℚ) < 2 ^ min e f := by positivity
  have hsum : valueOf (.fin p m e) + valueOf (.fin q n f) =
      ((signedMag p m (e - min e f).toNat + signedMag q n (f - min e f).toNat : ℤ) : ℚ) * 2 ^ min e f := by
    rw [Int.cast_add, add_mul, signedMag_mul_zpow p m (min_le_left e f), signedMag_mul_zpow q n (min_le_right e f)]
  simp only [IsExactSum, FVal.add, hsum]
  generalize signedMag p m (e - min e f).toNat + signedMag q n (f - min e f).toNat = sum
  rcases eq_or_ne sum 0 with rfl | hne
  · exact ⟨_, 0, _, if_pos rfl, by simp, by simp, by simp, fun _ => rfl⟩
  · refine ⟨_, _, _, if_neg hne, ?_, fun h => ?_, fun h => ?_, fun h => ?_⟩
    · rw [abs_mul, abs_of_pos hpos, Nat.cast_natAbs, Int.cast_abs]
    · exact decide_eq_true (by exact_mod_cast neg_of_mul_neg_left h hpos.le)
    · exact decide_eq_false (not_lt.2 (by exact_mod_cast (pos_of_mul_pos_left h hpos.le).le))
    · exact absurd (by exact_mod_cast (mul_eq_zero.1 h).resolve_right hpos.ne') hne

theorem FVal.add_isExactSum : ∀ x y : FVal, IsExactSum (x.add y) x y
  | .nan, _ => rfl
  | .inf _, .nan => rfl
  | .fin _ _ _, .nan => rfl
  | .inf _, .inf _ => rfl
  | .inf _, .fin _ _ _ => rfl
  | .fin _ _ _, .inf _ => rfl
  | .fin _ _ _, .fin _ _ _ => add_fin_isExactSum ..

/-! ## FTZ -/

theorem flushF32_false (x : F32) : flushF32 false x = x := rfl

theorem flushF32_true (x : F32) : flushF32 true x = flushed x := by
  have hsub : x.toNat / 2 ^ 23 % 2 ^ 8 = 0 ↔ x.toNat % 2 ^ 31 < 2 ^ 23 := by omega
  rw [flushF32, flushed, signBit]
  simp only [Bool.true_and, decide_eq_true_eq, hsub]
  cases x.msb <;> rfl

/-- An exponent field of 0 reads as a subnormal or a zero. -/
theorem unpack_f32_of_lt {x : F32} (h : x.toNat % 2 ^ 31 < 2 ^ 23) :
    unpack 8 23 x.toNat = .fin x.msb (x.toNat % 2 ^ 23) (-149) := by
  have hex : x.toNat / 2 ^ 23 % 2 ^ 8 = 0 := by omega
  rw [unpack, msb_eq_top_bit (n := 31)]
  exact (if_neg (by omega)).trans (if_pos hex)

/-- Any other exponent field of a finite f32 gives the hidden bit. -/
theorem le_of_unpack_f32 {x : F32} (h : ¬x.toNat % 2 ^ 31 < 2 ^ 23) {neg : Bool} {m : Nat} {e : ℤ}
    (hx : unpack 8 23 x.toNat = .fin neg m e) : 2 ^ 23 ≤ m := by
  have hex : x.toNat / 2 ^ 23 % 2 ^ 8 ≠ 0 := by omega
  rw [unpack] at hx
  simp only [if_neg hex] at hx
  split at hx
  · split at hx <;> cases hx
  · cases hx
    exact Nat.le_add_right ..

/-- Reading under FTZ is reading the flushed operand. -/
theorem readF32_true (x : F32) : readF32 true x = readF32 false (flushed x) := by
  rw [flushed]
  split
  · next hsub =>
    have hread : readF32 true x = .fin x.msb 0 (-149) := by
      rw [readF32, unpack_f32_of_lt hsub]
      exact if_pos (by simpa using Nat.mod_lt x.toNat (Nat.two_pow_pos 23))
    rw [hread]
    cases x.msb <;> decide
  · next hnormal =>
    rw [readF32_false, readF32]
    cases hx : unpack 8 23 x.toNat with
    | nan => rfl
    | inf neg => rfl
    | fin neg m e => exact if_neg (by simpa using le_of_unpack_f32 hnormal hx)

/-- Settles O59: each primitive rounds its exact result, and FTZ flushes before and after. -/
theorem primitivesRoundTheExactResult : Obligations.PrimitivesRoundTheExactResult := by
  refine ⟨fun nan neg => ⟨roundF16_nan nan, roundF16_inf nan neg⟩, fun nan neg => ⟨roundF32_nan nan, roundF32_inf nan neg⟩,
    fun _ _ _ => ⟨_, FVal.mul_isExactProduct .., rfl⟩, fun _ _ _ => ⟨_, FVal.mul_isExactProduct .., rfl⟩,
    fun _ _ _ => ⟨_, FVal.add_isExactSum .., rfl⟩,
    fun _ _ _ _ => ⟨_, _, FVal.mul_isExactProduct .., FVal.add_isExactSum .., rfl⟩, fun nan a b c => ?_⟩
  simp only [f32mul, f32add, f32fma, flushF32_true, flushF32_false, readF32_true, and_self]

end Sys2Proof.Machine
end

section
/-! What DEQ does (44_dequant R131, R134): REG_UNINIT without valid scales, else every element folded on its own, each NaN
result one that NAN_MODE allows (R130). -/

namespace Sys2Proof.Machine
open Sys2Proof.Claims

theorem nanOk32_nanF32 (cfg : Config) (d p : Nat) : NanOk32 cfg (nanF32 cfg d p) := by
  rw [NanOk32, nanF32]
  cases cfg.nanMode with
  | canonical => rfl
  | anyNan =>
    simp only [nanOfBits, BitVec.toNat_ofNat]
    split <;> omega

theorem nanOk16_nanF16 (cfg : Config) (d p : Nat) : NanOk16 cfg (nanF16 cfg d p) := by
  rw [NanOk16, nanF16]
  cases cfg.nanMode with
  | canonical => rfl
  | anyNan =>
    simp only [nanOfBits, BitVec.toNat_ofNat]
    split <;> omega

theorem foldElem_isFold (cfg : Config) (d p : Nat) (acc : F32) (i : S32) (x y : F16) :
    IsFold cfg acc (foldElem cfg d p acc i x y) i x y :=
  ⟨_, _, _, _, nanOk16_nanF16 .., nanOk32_nanF32 .., nanOk32_nanF32 .., nanOk32_nanF32 .., rfl⟩

theorem foldedFacc_getElem (s : State) (x : Warp) (sa : Vector (Vector F16 16) 2) (sb : Vector (Vector F16 8) 8)
    (mi : Fin 2) (ni : Fin 8) (r : Fin 16) (c : Fin 8) : (foldedFacc s x sa sb)[mi][ni][r][c] =
      foldElem s.cfg s.draws (accPlace mi ni r c) x.facc[mi][ni][r][c] x.iacc[mi][ni][r][c] sa[mi][r] sb[ni][c] := by
  simp [foldedFacc]

theorem deqFault_of_none {x : Warp} (h : x.sa = none ∨ x.sb = none) : deqFault x = some (.regUninit .scales 0) := by
  rcases h with hsa | hsb
  · rw [deqFault, hsa]
  · cases hsa : x.sa <;> rw [deqFault, hsa, hsb]

/-- Settles O20: the fault is the missing scales', and the effect is `dequantized`, element by element `foldElem`. -/
theorem deqFoldsEveryElement : Obligations.DeqFoldsEveryElement := by
  intro s b hb x
  refine ⟨fun h => ?_, fun sa sb hsa hsb => ?_⟩
  · exact exec_of_fault hb (deqFault_of_none h)
  · refine ⟨_, accFill 0, foldedFacc s x sa sb, exec_of_effect hb ⟨sa, sb, hsa, hsb, rfl⟩, fun _ => rfl,
      warpBecomes_updWarp (sharedKept_refl b) rfl s.cur.w _, fun mi ni r c => ⟨getElem_accFill 0 mi ni r c, ?_⟩⟩
    rw [foldedFacc_getElem]
    exact foldElem_isFold ..

end Sys2Proof.Machine
end

section
/-! What END and STG do (45_epilogue R140, R141): END makes its warp DONE in a settled machine; the pieces STG stores lie in D,
apart from each other, and it raises the fault of the first piece that fails a check, its scratch read before its device
write (60_exceptions R162), else stores them all. -/

namespace Sys2Proof.Machine
open Sys2Proof.Claims

/-- Settles O23: END has its effect on the current warp, in a settled machine. -/
theorem endMakesTheWarpDone : Obligations.EndMakesTheWarpDone := by
  intro s b hb
  exact ⟨_, _, exec_of_effect (i := .endWarp) hb rfl, settle_endsInto s _, fun _ => rfl,
    warpBecomes_updWarp (sharedKept_refl b) rfl s.cur.w fun x => { x with st := .done }⟩

theorem PieceOk.fits {s : State} {b : Block} {w : WarpId} {p : StorePiece} (h : PieceOk s b w p) :
    p.dst + 16 ≤ 2 ^ 64 := by
  obtain ⟨-, -, hfits, -⟩ := h
  exact hfits

/-- Settles O28: a fault stores nothing, and the effect of STG stores its pieces alone. -/
theorem stgKeepsOtherDeviceBytes : Obligations.StgKeepsOtherDeviceBytes := by
  intro s t b it hb hs h a ha
  rcases exec_next_cases hb h with ⟨c, -, rfl⟩ | ⟨b', ⟨-, hok, -⟩, rfl⟩
  · rfl
  · exact read_storePieces hs.mem fun p hp => ⟨(hok p hp).fits, ha p hp⟩

/-! ## Where the pieces lie -/

/-- Numbers of two digits, the low one below `n`, are equal only digit by digit. -/
theorem digits_eq {n a b x y : Nat} (hx : x < n) (hy : y < n) (h : n * a + x = n * b + y) : a = b ∧ x = y := by
  have hlow : x = y := by simpa [Nat.mod_eq_of_lt hx, Nat.mod_eq_of_lt hy] using congrArg (· % n) h
  subst hlow
  exact ⟨Nat.eq_of_mul_eq_mul_left (Nat.zero_lt_of_lt hx) (Nat.add_right_cancel h), rfl⟩

/-- The place in D of chunk `c` of the tile of block `b`, in units of 16 bytes: D's row, the tile in that row and the chunk in
the 128 columns of the tile, from the high digit to the low (20_memory R50, 45_epilogue R140). -/
def pieceUnit (s : State) (b : Block) (c : Nat) : Nat :=
  8 * s.derived.sz * (s.derived.gn * (128 * b.bm.toNat + c / (8 * s.derived.sz)) + b.bn.toNat) + c % (8 * s.derived.sz)

section Pieces
variable {s : State} {b b' : Block} {w : WarpId} {it l c c' : Nat} {p : StorePiece}

/-- A stored piece is of a live row, and lies in D at its unit. -/
theorem stgPiece_eq_some (hcols : s.params.n.toNat = 128 * s.derived.gn) (h : stgPiece s b w it l = some p) :
    128 * b.bm.toNat + chunkIdx w it l / (8 * s.derived.sz) < s.params.m.toNat ∧
      p.dst = s.params.pD.toNat + 16 * pieceUnit s b (chunkIdx w it l) := by
  simp only [stgPiece, Option.ite_none_right_eq_some, Option.some.injEq] at h
  obtain ⟨hlive, rfl⟩ := h
  refine ⟨of_decide_eq_true hlive, ?_⟩
  rw [pieceUnit, chunkIdx, hcols]
  ring

/-- The unit of a chunk of a live row lies in D. -/
theorem pieceUnit_lt (hbn : b.bn.toNat < s.derived.gn) (hsz : 0 < s.derived.sz)
    (hrow : 128 * b.bm.toNat + c / (8 * s.derived.sz) < s.params.m.toNat) :
    pieceUnit s b c < s.params.m.toNat * s.derived.gn * (8 * s.derived.sz) := by
  have hlow : c % (8 * s.derived.sz) < 8 * s.derived.sz := Nat.mod_lt c (by omega)
  exact Nat.mul_add_lt_mul_of_lt_of_lt (Nat.mul_add_lt_mul_of_lt_of_lt hrow hbn) hlow

/-- Units of chunks of a tile are equal only for one chunk of one tile. -/
theorem pieceUnit_inj (hbn : b.bn.toNat < s.derived.gn) (hbn' : b'.bn.toNat < s.derived.gn)
    (hc : c < 1024 * s.derived.sz) (hc' : c' < 1024 * s.derived.sz) (h : pieceUnit s b c = pieceUnit s b' c') :
    b.bm = b'.bm ∧ b.bn = b'.bn ∧ c = c' := by
  have hcpr : 0 < 8 * s.derived.sz := by omega
  have hrow : c / (8 * s.derived.sz) < 128 := (Nat.div_lt_iff_lt_mul hcpr).2 (by omega)
  have hrow' : c' / (8 * s.derived.sz) < 128 := (Nat.div_lt_iff_lt_mul hcpr).2 (by omega)
  obtain ⟨hhigh, hmod⟩ := digits_eq (Nat.mod_lt c hcpr) (Nat.mod_lt c' hcpr) h
  obtain ⟨hgrow, hn⟩ := digits_eq hbn hbn' hhigh
  obtain ⟨hm, hdiv⟩ := digits_eq hrow hrow' hgrow
  refine ⟨BitVec.eq_of_toNat_eq hm, BitVec.eq_of_toNat_eq hn, ?_⟩
  rw [← Nat.div_add_mod c (8 * s.derived.sz), hdiv, hmod, Nat.div_add_mod]

end Pieces

theorem LaunchOk.cols_eq {s : State} (h : LaunchOk s) (hne : s.blocks ≠ []) : s.params.n.toNat = 128 * s.derived.gn := by
  have hd : s.derived = s.params.derive := h.derived hne
  rw [hd]
  exact (Nat.mul_div_cancel' (h.addressFacts hne).cols).symm

/-- The chunks of the iterations in range are those of a tile of 128 rows of 8·SZ chunks. -/
theorem chunkIdx_lt_tile {s : State} (h : AddressFacts s) {w : WarpId} {it l : Nat} (hit : it < s.derived.iters)
    (hl : l < 32) : chunkIdx w it l < 1024 * s.derived.sz := by
  have hiters := h.iters
  rw [← h.sz] at hiters
  unfold chunkIdx threadIdx
  omega

/-- Settles O56: the unit of a piece determines its chunk and its tile. -/
theorem storedPiecesAreDisjoint : Obligations.StoredPiecesAreDisjoint := by
  intro s b₁ b₂ w₁ w₂ it₁ it₂ l₁ l₂ p₁ p₂ hok hb₁ hb₂ hit₁ hit₂ hl₁ hl₂ hp₁ hp₂
  have hne := List.ne_nil_of_mem hb₁
  have hfacts := hok.addressFacts hne
  have hcols := hok.cols_eq hne
  obtain ⟨-, hbn₁⟩ := hok.grid b₁ hb₁
  obtain ⟨-, hbn₂⟩ := hok.grid b₂ hb₂
  have hc₁ := chunkIdx_lt_tile hfacts (w := w₁) hit₁ hl₁
  have hc₂ := chunkIdx_lt_tile hfacts (w := w₂) hit₂ hl₂
  obtain ⟨hlive₁, hdst₁⟩ := stgPiece_eq_some hcols hp₁
  obtain ⟨-, hdst₂⟩ := stgPiece_eq_some hcols hp₂
  refine ⟨?_, fun hdiff => ?_⟩
  · have hlt := pieceUnit_lt hbn₁ (by omega) hlive₁
    have hsize : s.derived.sz * s.params.m.toNat * s.params.n.toNat =
        16 * (s.params.m.toNat * s.derived.gn * (8 * s.derived.sz)) := by rw [hcols]; ring
    omega
  · have hunits : pieceUnit s b₁ (chunkIdx w₁ it₁ l₁) ≠ pieceUnit s b₂ (chunkIdx w₂ it₂ l₂) := fun heq => hdiff <| by
      obtain ⟨hbm, hbn, hc⟩ := pieceUnit_inj hbn₁ hbn₂ hc₁ hc₂ heq
      unfold chunkIdx threadIdx at hc
      obtain rfl : w₁ = w₂ := Fin.ext (by omega)
      obtain rfl : it₁ = it₂ := by omega
      obtain rfl : l₁ = l₂ := by omega
      rw [hbm, hbn]
    omega

/-! ## The fault of one piece -/

section Faults
variable {s : State} {b : Block} {w : WarpId} {f : Cause}

/-- A device write that fails a check raises MISALIGNED before OOB_GLOBAL (20_memory R56). -/
theorem memWriteFault_of_not_writeOk {a n : Nat} (h : ¬WriteOk s a n) : s.memWriteFault a n = some (accessFault a n) := by
  rw [← memWriteFault_eq_none, State.memWriteFault] at h
  rw [State.memWriteFault, accessFault]
  split_ifs at h ⊢ with halign hadmit
  · rfl
  · exact absurd rfl h
  · rfl

/-- The first byte that fails a check of ScrRead gives the fault of the range (20_memory R60). -/
theorem readFault_of_readFails {lim off n k : Nat} (hk : k < n) (hpre : ∀ j < k, Readable lim b w (off + j))
    (h : ReadFails lim b w (off + k) f) : b.readFault lim w off n = some f := by
  have hsplit : List.range' off n = List.range' off k ++ (off + k) :: List.range' (off + k + 1) (n - k - 1) := by
    rw [← List.range'_succ, List.range'_append_1]
    congr 1
    omega
  refine List.findSome?_eq_some_iff.2 ⟨_, _, _, hsplit, readByteFault_of_readFails h, ?_⟩
  simpa [List.range'_eq_map_range, readByteFault_eq_none] using hpre

theorem storeFault_of_pieceFails {p : StorePiece} (h : PieceFails s b s.cur.w p f) : storeFault s b p = some f := by
  rw [storeFault, Option.or_eq_some_iff]
  rcases h with ⟨k, hk, hpre, hfails⟩ | ⟨hread, hwrite, rfl⟩
  · exact .inl (readFault_of_readFails hk hpre hfails)
  · refine .inr ⟨readFault_eq_none.2 ?_, memWriteFault_of_not_writeOk hwrite⟩
    simpa [List.range'_eq_map_range] using hread

end Faults

/-! ## The store -/

section Store
variable {s : State} {b : Block} {w : WarpId} {it : Nat} {ps : List StorePiece}

theorem stgPieces_eq_stgLoop : stgPieces s b w it = stgLoop s b w it := by
  refine List.filterMap_congr fun l _ => ?_
  unfold stgPiece stgCopy threadIdx
  simp only [epiBase, Nat.zero_add, ← Nat.add_assoc]
  exact if_congr decide_eq_true_iff rfl rfl

theorem getD_pieceBytes (p : StorePiece) {j : Nat} (hj : j < 16) : (pieceBytes b p).getD j 0 = b.byte (p.off + j) := by
  simp [pieceBytes, hj]

/-- A device byte that all pieces covering it agree on takes that value. -/
theorem read_storePieces_of_agree {m : Memory} {a : Nat} {v : Byte} (hm : m.wf = true)
    (hfits : ∀ p ∈ ps, p.dst + 16 ≤ 2 ^ 64) (hcover : ∃ p ∈ ps, p.dst ≤ a ∧ a < p.dst + 16)
    (hagree : ∀ p ∈ ps, p.dst ≤ a → a < p.dst + 16 → b.byte (p.off + (a - p.dst)) = v) :
    (storePieces b ps m).read a = v := by
  induction ps using List.reverseRecOn with
  | nil => simp at hcover
  | append_singleton t p ih =>
    have hp : p ∈ t ++ [p] := by simp
    have hlen : (pieceBytes b p).length = 16 := by simp [pieceBytes]
    have hread := Memory.read_writeBytes (m := storePieces b t m) (wf_foldl_writeBytes _ _ t hm) (pieceBytes b p)
      (hlen ▸ hfits p hp) a
    rw [show storePieces b (t ++ [p]) m = (storePieces b t m).writeBytes p.dst (pieceBytes b p) from List.foldl_append,
      hread, hlen]
    split
    · next hin => rw [getD_pieceBytes p (by omega), hagree p hp hin.1 hin.2]
    · next hout =>
      refine ih (fun q hq => hfits q (by simp [hq])) ?_ fun q hq => hagree q (by simp [hq])
      obtain ⟨q, hq, hin⟩ := hcover
      rcases List.mem_append.1 hq with hq | hq
      · exact ⟨q, hq, hin⟩
      · exact absurd (List.mem_singleton.1 hq ▸ hin) hout

/-- Two pieces of one STG that cover a common device byte are one piece. -/
theorem eq_of_stgPieces_overlap (hl : LaunchOk s) (hb : b ∈ s.blocks) (hit : it < s.derived.iters) {p q : StorePiece}
    {a : Nat} (hp : p ∈ stgPieces s b w it) (hq : q ∈ stgPieces s b w it) (hpa : p.dst ≤ a ∧ a < p.dst + 16)
    (hqa : q.dst ≤ a ∧ a < q.dst + 16) : p = q := by
  obtain ⟨l, hlane, hpl⟩ := List.mem_filterMap.1 hp
  obtain ⟨k, hlane', hqk⟩ := List.mem_filterMap.1 hq
  obtain ⟨-, hapart⟩ := storedPiecesAreDisjoint s b b w w it it l k p q hl hb hb hit hit (List.mem_range.1 hlane)
    (List.mem_range.1 hlane') hpl hqk
  obtain rfl : l = k := by
    by_contra hne
    have := hapart (by simpa using hne)
    omega
  exact Option.some.inj (hpl.symm.trans hqk)

/-- Storing the pieces of an STG leaves the staged byte at each device byte of a piece. -/
theorem read_storePieces_stgPieces (hs : Canonical s) (hl : LaunchOk s) (hb : b ∈ s.blocks) (hit : it < s.derived.iters)
    (hok : ∀ p ∈ stgPieces s b w it, PieceOk s b w p) {p : StorePiece} (hp : p ∈ stgPieces s b w it) {j : Nat}
    (hj : j < 16) : (storePieces b (stgPieces s b w it) s.mem).read (p.dst + j) = b.byte (p.off + j) := by
  have hin : p.dst ≤ p.dst + j ∧ p.dst + j < p.dst + 16 := by omega
  refine read_storePieces_of_agree hs.mem (fun q hq => (hok q hq).fits) ⟨p, hp, hin⟩ fun q hq hlo hhi => ?_
  rw [eq_of_stgPieces_overlap hl hb hit hq hp ⟨hlo, hhi⟩ hin, Nat.add_sub_cancel_left]

/-- A store marks the bytes of its pieces read and advances the pc. -/
theorem readsInto_storedFrom (hb : b.scrWf = true) (w : WarpId) (ps : List StorePiece) :
    ReadsInto b (storedFrom b w ps) w (fun off => ∃ p ∈ ps, p.off ≤ off ∧ off < p.off + 16) b.warps[w].advance := by
  have h := readsInto_markReads hb w (ps.flatMap fun p => List.range' p.off 16) id
  simp only [List.mem_flatMap, List.mem_range'_1] at h
  exact h

end Store

/-- Settles O22: the pieces the model stores are those of the loop, and lie apart. -/
theorem stgStoresTheLiveRows : Obligations.StgStoresTheLiveRows := by
  intro s b it hb hs hl
  have hmem := List.mem_of_getElem? hb
  rw [← stgPieces_eq_stgLoop]
  refine ⟨fun hbad => ?_, fun hit => ⟨fun hok => ?_, fun pre p post f hsplit hpre hfails => ?_⟩⟩
  · exact exec_of_fault (i := .stg it) hb (if_pos (decide_eq_true hbad))
  · have hgood : stgItBad s it = false := decide_eq_false (Nat.not_le.2 hit)
    refine ⟨_, _, exec_of_effect (i := .stg it) hb ⟨hgood, hok, rfl⟩, readsInto_storedFrom (hs.scr b hmem) _ _,
      fun p hp j hj => ?_, fun a ha => read_storePieces hs.mem fun p hp => ⟨(hok p hp).fits, ha p hp⟩⟩
    obtain ⟨hread, -⟩ := hok p hp
    rw [read_storePieces_stgPieces hs hl hmem hit hok hp hj]
    exact (hread _ (List.mem_range'_1.2 ⟨by omega, by omega⟩)).val_eq
  · have hfirst : (stgPieces s b s.cur.w it).findSome? (storeFault s b) = some f :=
      List.findSome?_eq_some_iff.2 ⟨pre, p, post, hsplit, storeFault_of_pieceFails hfails,
        fun q hq => storeFault_eq_none.2 (hpre q hq)⟩
    exact exec_of_fault (i := .stg it) hb ((if_neg (by simpa [stgItBad] using hit)).trans hfirst)

end Sys2Proof.Machine
end

section
/-! What CVTS does (45_epilogue R135, R138, R139): the fault of the first staged byte that fails a check of ScrWrite (20_memory
R61), else every element converted and staged at its own bytes, each NaN result one that NAN_MODE allows (44_dequant
R130). -/

namespace Sys2Proof.Machine
open Sys2Proof.Claims

/-! ## cvt_out -/

theorem nanOk8_nanF8 (cfg : Config) (d p : Nat) : NanOk8 cfg (nanF8 cfg d p) := by
  rw [NanOk8, nanF8]
  cases cfg.nanMode with
  | canonical => cases cfg.fp8Fmt <;> rfl
  | anyNan =>
    cases cfg.fp8Fmt with
    | e4m3Sat =>
      dsimp only
      rcases Nat.mod_two_eq_zero_or_one (Config.nanDraw d p).toNat with h | h <;> rw [h]
      · exact .inl rfl
      · exact .inr rfl
    | e5m2Sat =>
      simp only [nanOfBits, BitVec.toNat_ofNat]
      split <;> omega

theorem outTypeOfBits_eq_some {bits : BitVec 2} {o : OutType} (h : outTypeOfBits bits = some o) :
    bits = match o with
      | .f32 => 0
      | .f16 => 1
      | .f8 => 2 := by
  revert bits
  cases o <;> decide

/-- The converted element is the SZ bytes of cvt_out of it, the lowest first (45_epilogue R135, 20_memory R43). -/
theorem exists_isCvtOut {s : State} {o : OutType} (h : outTypeOfBits s.params.outType = some o) (p : Nat) (x : F32) :
    ∃ v, IsCvtOut s x v ∧ cvtOut s p x = leBytes (szOf s.params.outType) v := by
  have hbits := outTypeOfBits_eq_some h
  rw [cvtOut, szOf, h]
  cases o with
  | f32 => exact ⟨_, .inl ⟨hbits, rfl⟩, rfl⟩
  | f16 => exact ⟨_, .inr (.inl ⟨hbits, _, nanOk16_nanF16 .., rfl⟩), rfl⟩
  | f8 => exact ⟨_, .inr (.inr ⟨hbits, _, nanOk8_nanF8 .., rfl⟩), rfl⟩

theorem getD_leBytes {n j : Nat} (hj : j < n) (v : Nat) : (leBytes n v).getD j 0 = BitVec.ofNat 8 (v / 256 ^ j) := by
  simp [leBytes, hj]

/-! ## The staged bytes -/

/-- The bytes of the element of index `i` = (mi, ni, r, c) (45_epilogue R138, R139). -/
def stagedBytes (s : State) (w : WarpId) (i : Fin 2 × Fin 8 × Fin 16 × Fin 8) : List Nat :=
  (List.range s.derived.sz).map fun j => stagedAt s w i.1 i.2.1 i.2.2.1 i.2.2.2 + j

/-- The write of the element of index `i`: its offset and its converted bytes (45_epilogue R139). -/
def stageWrite (s : State) (x : Warp) (w : WarpId) (i : Fin 2 × Fin 8 × Fin 16 × Fin 8) : Nat × List Byte :=
  (stageOff s w i.1 i.2.1 i.2.2.1 i.2.2.2,
    cvtOut s (accPlace i.1 i.2.1 i.2.2.1 i.2.2.2) x.facc[i.1][i.2.1][i.2.2.1][i.2.2.2])

theorem mem_accIndices (i : Fin 2 × Fin 8 × Fin 16 × Fin 8) : i ∈ accIndices := by
  simp [accIndices, Prod.ext_iff]

section Places
variable {s : State} {w : WarpId} {x : Warp} {off : Nat}

theorem stageWrites_eq_map : stageWrites s x w = accIndices.map (stageWrite s x w) := rfl

theorem stagedLoop_eq_flatMap : stagedLoop s w = accIndices.flatMap (stagedBytes s w) := by
  rw [stagedLoop, ← List.map_coe_finRange_eq_range (n := 2), ← List.map_coe_finRange_eq_range (n := 8),
    ← List.map_coe_finRange_eq_range (n := 16)]
  simp only [accIndices, stagedBytes, List.flatMap_assoc, List.flatMap_map]

theorem stageOff_eq_stagedAt (mi : Fin 2) (ni : Fin 8) (r : Fin 16) (c : Fin 8) :
    stageOff s w mi ni r c = stagedAt s w mi ni r c :=
  Nat.zero_add _

/-- The model's write of an element covers the element's bytes. -/
theorem stageWrite_range (h : AddressFacts s) (i : Fin 2 × Fin 8 × Fin 16 × Fin 8) :
    List.range' (stageWrite s x w i).1 (stageWrite s x w i).2.length = stagedBytes s w i := by
  rw [stageWrite, length_cvtOut, ← h.sz, List.range'_eq_map_range, stagedBytes, stageOff_eq_stagedAt]

/-- The bytes the model stages are those of the loops. -/
theorem stageWrites_flatMap (h : AddressFacts s) :
    ((stageWrites s x w).flatMap fun p => List.range' p.1 p.2.length) = stagedLoop s w := by
  rw [stagedLoop_eq_flatMap, stageWrites_eq_map, List.flatMap_map]
  exact List.flatMap_congr fun i _ => stageWrite_range h i

/-- Two elements of a warp share no staged byte (45_epilogue R138). -/
theorem eq_of_mem_stagedBytes {i k : Fin 2 × Fin 8 × Fin 16 × Fin 8} (hi : off ∈ stagedBytes s w i)
    (hk : off ∈ stagedBytes s w k) : i = k := by
  obtain ⟨j, hj, rfl⟩ := List.mem_map.1 hi
  obtain ⟨j', hj', h⟩ := List.mem_map.1 hk
  unfold stagedAt at h
  rw [Nat.mul_comm _ s.derived.sz, Nat.mul_comm _ s.derived.sz] at h
  obtain ⟨helem, -⟩ := digits_eq (List.mem_range.1 hj') (List.mem_range.1 hj) h
  unfold aRow bCol at helem
  exact Prod.ext (Fin.ext (by omega)) (Prod.ext (Fin.ext (by omega)) (Prod.ext (Fin.ext (by omega)) (Fin.ext (by omega))))

end Places

/-! ## The writes -/

section Writes
variable {b : Block} {w : WarpId} {ws : List (Nat × List Byte)} {off : Nat} {v : Byte}

/-- A byte that all writes covering it agree on takes that value. -/
theorem Block.val_writeAll_of_agree (hb : b.scrWf = true)
    (hws : ∀ p ∈ ws, ∀ a ∈ List.range' p.1 p.2.length, a < 67584)
    (hcover : ∃ p ∈ ws, off ∈ List.range' p.1 p.2.length)
    (hagree : ∀ p ∈ ws, off ∈ List.range' p.1 p.2.length → p.2.getD (off - p.1) 0 = v) :
    ((b.writeAll w ws).tag off).val = some v := by
  induction ws using List.reverseRecOn with
  | nil => simp at hcover
  | append_singleton t p ih =>
    have hp : p ∈ t ++ [p] := by simp
    have ht : ∀ q ∈ t, q ∈ t ++ [p] := fun q hq => List.mem_append_left _ hq
    have hbt : (b.writeAll w t).scrWf = true := Block.scrWf_writeAll hb fun q hq => hws q (ht q hq)
    rw [show b.writeAll w (t ++ [p]) = (b.writeAll w t).writeBytes w p.1 p.2 from List.foldl_append,
      Block.tag_writeBytes hbt]
    split
    · next hin => rw [Tag.written, hagree p hp (List.mem_range'_1.2 hin)]
    · next hout =>
      refine ih (fun q hq => hws q (ht q hq)) ?_ fun q hq => hagree q (ht q hq)
      obtain ⟨q, hq, hin⟩ := hcover
      rcases List.mem_append.1 hq with hq | hq
      · exact ⟨q, hq, hin⟩
      · exact absurd (List.mem_range'_1.1 (List.mem_singleton.1 hq ▸ hin)) hout

/-- Such a byte is written with that value. -/
theorem Block.tag_writeAll_of_agree (hb : b.scrWf = true)
    (hws : ∀ p ∈ ws, ∀ a ∈ List.range' p.1 p.2.length, a < 67584)
    (hcover : ∃ p ∈ ws, off ∈ List.range' p.1 p.2.length)
    (hagree : ∀ p ∈ ws, off ∈ List.range' p.1 p.2.length → p.2.getD (off - p.1) 0 = v) :
    (b.writeAll w ws).tag off = (b.tag off).written b.gen w v := by
  have hval := Block.val_writeAll_of_agree (w := w) hb hws hcover hagree
  rcases Block.tag_writeAll (w := w) hb hws off with ⟨-, v', htag⟩ | ⟨hnot, -⟩
  · rw [htag] at hval ⊢
    rw [Option.some.inj hval]
  · exact absurd hcover hnot

end Writes

theorem findSome?_flatMap {α β γ : Type} (l : List α) (g : α → List β) (f : β → Option γ) :
    (l.flatMap g).findSome? f = l.findSome? fun x => (g x).findSome? f := by
  induction l with
  | nil => rfl
  | cons x t ih =>
    rw [List.flatMap_cons, List.findSome?_append, ih, List.findSome?_cons]
    cases (g x).findSome? f <;> rfl

section Cvts
variable {s : State} {b : Block} {w : WarpId} {x : Warp}

/-- The fault of CVTS is that of the first staged byte that fails a check. -/
theorem commandFault_cvts (h : AddressFacts s) : commandFault .cvts s b =
    (stagedLoop s s.cur.w).findSome? (b.writeByteFault s.derived.scrBytes s.cur.w) := by
  rw [← stageWrites_flatMap h (x := b.warps[s.cur.w]), findSome?_flatMap]
  rfl

theorem exists_stageWrite_iff (h : AddressFacts s) (off : Nat) :
    (∃ p ∈ stageWrites s x w, off ∈ List.range' p.1 p.2.length) ↔ off ∈ stagedLoop s w := by
  rw [← stageWrites_flatMap h (x := x), List.mem_flatMap]

/-- After the writes of CVTS a byte of an element holds its byte of the element's conversion. -/
theorem tag_writeAll_stageWrites (h : AddressFacts s) (hb : b.scrWf = true)
    (hin : ∀ p ∈ stageWrites s x w, ∀ a ∈ List.range' p.1 p.2.length, a < 67584) {i : Fin 2 × Fin 8 × Fin 16 × Fin 8}
    {v j : Nat} (hv : (stageWrite s x w i).2 = leBytes s.derived.sz v) (hj : j < s.derived.sz) :
    (b.writeAll w (stageWrites s x w)).tag (stagedAt s w i.1 i.2.1 i.2.2.1 i.2.2.2 + j) =
      (b.tag (stagedAt s w i.1 i.2.1 i.2.2.1 i.2.2.2 + j)).written b.gen w (BitVec.ofNat 8 (v / 256 ^ j)) := by
  have hi : stagedAt s w i.1 i.2.1 i.2.2.1 i.2.2.2 + j ∈ stagedBytes s w i := List.mem_map_of_mem (List.mem_range.2 hj)
  refine Block.tag_writeAll_of_agree hb hin ⟨stageWrite s x w i, List.mem_map_of_mem (mem_accIndices i), ?_⟩ ?_
  · rwa [stageWrite_range h]
  · intro p hp hcovers
    rw [stageWrites_eq_map] at hp
    obtain ⟨k, -, rfl⟩ := List.mem_map.1 hp
    obtain rfl : k = i := eq_of_mem_stagedBytes (stageWrite_range h k ▸ hcovers) hi
    rw [hv, stageWrite, stageOff_eq_stagedAt, Nat.add_sub_cancel_left, getD_leBytes hj]

end Cvts

/-- Settles O21: the bytes the model stages are those of the loops, and each is one element's. -/
theorem cvtsStagesTheAccumulator : Obligations.CvtsStagesTheAccumulator := by
  intro s b hb hs hl
  have hmem := List.mem_of_getElem? hb
  have hfacts := hl.addressFacts (List.ne_nil_of_mem hmem)
  refine ⟨fun hok => ?_, fun pre off post hsplit hpre hbad => ?_⟩
  · obtain ⟨-, o, -, ho⟩ := hl.supported (List.ne_nil_of_mem hmem)
    choose v hv hbytes using fun mi ni r c =>
      exists_isCvtOut ho (accPlace mi ni r c) b.warps[s.cur.w].facc[mi][ni][r][c]
    rw [← hfacts.sz] at hbytes
    have hwritable : ∀ p ∈ stageWrites s b.warps[s.cur.w] s.cur.w, ∀ a ∈ List.range' p.1 p.2.length,
        Writable s.derived.scrBytes b s.cur.w a :=
      fun p hp a ha => hok a ((exists_stageWrite_iff hfacts a).1 ⟨p, hp, ha⟩)
    have hin : ∀ p ∈ stageWrites s b.warps[s.cur.w] s.cur.w, ∀ a ∈ List.range' p.1 p.2.length, a < 67584 :=
      fun p hp a ha => hs.size ▸ (hwritable p hp a ha).1
    refine ⟨_, v, exec_of_effect (i := .cvts) hb ⟨hwritable, rfl⟩, ?_, fun mi ni r c => ⟨hv mi ni r c, fun j hj => ?_⟩,
      fun off hoff => ?_⟩
    · exact warpBecomes_updWarp ⟨by simp, by simp, by simp, by simp, by simp⟩ (by simp) s.cur.w Warp.advance
    · rw [Block.updWarp_tag]
      exact tag_writeAll_stageWrites hfacts (hs.scr b hmem) hin (i := (mi, ni, r, c)) (hbytes mi ni r c) hj
    · rw [Block.updWarp_tag]
      rcases Block.tag_writeAll (w := s.cur.w) (hs.scr b hmem) hin off with ⟨hcover, -⟩ | ⟨-, htag⟩
      · exact absurd ((exists_stageWrite_iff hfacts off).1 hcover) hoff
      · exact htag
  · obtain ⟨f, hf⟩ := Option.ne_none_iff_exists'.1 (writeByteFault_eq_none.not.2 hbad)
    refine ⟨f, writeFails_of_writeByteFault hf, exec_of_fault (i := .cvts) hb ?_⟩
    rw [commandFault_cvts hfacts]
    exact List.findSome?_eq_some_iff.2 ⟨pre, off, post, hsplit, hf, fun a ha => writeByteFault_eq_none.2 (hpre a ha)⟩

end Sys2Proof.Machine
end

section
/-! The narrowing conversions (45_epilogue R136, R137): the f16 overflows from half way to the next binade on, the 8-bit floats
saturate after rounding, and FTZ reads the flushed operand (44_dequant R129). -/

namespace Sys2Proof.Machine
open Sys2Proof.Claims

/-! ## Rounding about an odd number -/

/-- What rounds to an odd number of the format or below is what lies below the midpoint above that number: a tie goes to the even
neighbour. -/
theorem roundMag_le_iff_of_odd {eb fb n : Nat} (hfb : fb ≠ 0) (hn : n % 2 = 1) (m : Nat) (e : ℤ) :
    roundMag eb fb m e ≤ n ↔ (m * 2 ^ e : ℚ) < (magValue eb fb n + magValue eb fb (n + 1)) / 2 := by
  have hmono := magValue_strictMono (eb := eb) (fb := fb)
  have hsucc := hmono (Nat.lt_succ_self n)
  have hnear := roundMag_nearest (eb := eb) hfb m e
  generalize roundMag eb fb m e = v at hnear ⊢
  generalize (m * 2 ^ e : ℚ) = x at hnear ⊢
  constructor
  · intro hv
    have hle := hmono.monotone hv
    obtain ⟨hdist, htie⟩ := hnear (n + 1)
    by_contra hx
    have hleft : |magValue eb fb v - x| = x - magValue eb fb v := by
      rw [abs_sub_comm, abs_of_nonneg (by linarith)]
    have hright : |magValue eb fb (n + 1) - x| = magValue eb fb (n + 1) - x := by
      refine abs_of_nonneg (not_lt.1 fun hneg => ?_)
      rw [hleft, abs_of_neg hneg] at hdist
      linarith
    rw [hleft, hright] at hdist htie
    obtain rfl : v = n := hmono.injective (by linarith)
    exact absurd (htie (Nat.succ_ne_self v) (by linarith)) (by omega)
  · intro hx
    by_contra hv
    have hle := hmono.monotone (Nat.succ_le_of_lt (not_le.1 hv))
    have hdist := (hnear n).1
    rw [abs_of_pos (by linarith)] at hdist
    rcases abs_cases (magValue eb fb n - x) with ⟨habs, -⟩ | ⟨habs, -⟩ <;> rw [habs] at hdist <;> linarith

/-- The f16 of a finite number is finite exactly below 65520, half way from the largest f16 to the next binade (45_epilogue
R136). -/
theorem roundMag_f16_lt_inf_iff (m : Nat) (e : ℤ) : roundMag 5 10 m e < 0x7C00 ↔ (m * 2 ^ e : ℚ) < 65520 := by
  have hmax : magValue 5 10 0x7BFF = 65504 := by norm_num [magValue]
  have hinf : magValue 5 10 (0x7BFF + 1) = 65536 := by norm_num [magValue]
  calc roundMag 5 10 m e < 0x7C00 ↔ roundMag 5 10 m e ≤ 0x7BFF := Nat.lt_succ_iff
    _ ↔ (m * 2 ^ e : ℚ) < (65504 + 65536) / 2 := by
      rw [roundMag_le_iff_of_odd (by decide) (by decide), hmax, hinf]
    _ ↔ (m * 2 ^ e : ℚ) < 65520 := by norm_num

/-! ## Sign and magnitude -/

/-- The sign and the magnitude bits of a float of any width put together from them. -/
theorem msb_and_magnitude {k n : Nat} {x : BitVec (k + 1)} {neg : Bool} (hn : n < 2 ^ k)
    (h : x.toNat = (if neg then 2 ^ k else 0) + n) : x.msb = neg ∧ x.toNat % 2 ^ k = n := by
  rw [msb_eq_top_bit, h]
  cases neg <;> simp [Nat.mod_eq_of_lt hn, Nat.div_eq_of_lt hn]

/-- The sign and the magnitude of a finite number rounded to f16. -/
theorem roundF16_fin_bits (neg : Bool) (m : Nat) (e : ℤ) (nan : F16) :
    (roundF16 nan (.fin neg m e)).msb = neg ∧ (roundF16 nan (.fin neg m e)).toNat % 2 ^ 15 =
      if roundMag 5 10 m e < 0x7C00 then roundMag 5 10 m e else 0x7C00 :=
  msb_and_magnitude (by split <;> omega) (toNat_roundF16_fin neg m e nan)

theorem fp8Max_eq (fmt : Fp8Fmt) : fp8Max fmt = (fp8Format fmt).2.2 := by
  cases fmt <;> rfl

theorem fp8Mag_eq (fmt : Fp8Fmt) (m : Nat) (e : ℤ) :
    fp8Mag fmt m e = roundMag (fp8Format fmt).1 (fp8Format fmt).2.1 m e := by
  cases fmt <;> rfl

theorem fp8Max_lt (fmt : Fp8Fmt) : fp8Max fmt < 2 ^ 7 := by
  cases fmt <;> decide

/-- An 8-bit float put together from its sign and its magnitude. -/
theorem f8_bits (neg : Bool) {n : Nat} (hn : n < 2 ^ 7) : (BitVec.ofNat 8 (signBit 8 neg + n)).msb = neg ∧
    (BitVec.ofNat 8 (signBit 8 neg + n)).toNat % 2 ^ 7 = n := by
  refine msb_and_magnitude (k := 7) hn ?_
  rw [BitVec.toNat_ofNat, Nat.mod_eq_of_lt]
  · rfl
  · unfold signBit
    split <;> omega

/-! ## Reading the operand -/

section Read
variable {x : F32}

theorem readF32_eq_inf (h : x.toNat % 2 ^ 31 = 0x7F800000) : readF32 false x = .inf x.msb := by
  have hread := readF32_readsAs x
  rwa [ReadsAs, if_neg (by omega), if_pos (by omega)] at hread

theorem readF32_eq_nan (h : 0x7F800000 < x.toNat % 2 ^ 31) : readF32 false x = .nan := by
  have hread := readF32_readsAs x
  rwa [ReadsAs, if_neg (by omega), if_neg (by omega)] at hread

theorem flushed_bits (x : F32) : (flushed x).msb = x.msb ∧
    (flushed x).toNat % 2 ^ 31 = if x.toNat % 2 ^ 31 < 2 ^ 23 then 0 else x.toNat % 2 ^ 31 := by
  unfold flushed
  split
  · cases x.msb <;> decide
  · exact ⟨rfl, rfl⟩

/-- FTZ does nothing but flush the operand. -/
theorem cvtF32F16_true (nan : F16) (x : F32) : cvtF32F16 true nan x = cvtF32F16 false nan (flushed x) := by
  rw [cvtF32F16, cvtF32F16, readF32_true]

theorem cvtF32F8_true (fmt : Fp8Fmt) (nan : Byte) (x : F32) :
    cvtF32F8 fmt true nan x = cvtF32F8 fmt false nan (flushed x) := by
  rw [cvtF32F8, cvtF32F8, readF32_true]

end Read

/-! ## The conversions without FTZ -/

section Conversions
variable {x : F32}

/-- A finite f32 of magnitude 65520 or more overflows to infinity, and an infinity is one (45_epilogue R136). -/
theorem cvtF32F16_bits (nan : F16) (h : x.toNat % 2 ^ 31 ≤ 0x7F800000) :
    (0x477FF000 ≤ x.toNat % 2 ^ 31 → (cvtF32F16 false nan x).toNat % 2 ^ 15 = 0x7C00) ∧
      (x.toNat % 2 ^ 31 < 0x477FF000 → (cvtF32F16 false nan x).toNat % 2 ^ 15 ≤ 0x7BFF) ∧
      (cvtF32F16 false nan x).msb = x.msb := by
  rw [cvtF32F16]
  rcases h.eq_or_lt with hinf | hfin
  · rw [readF32_eq_inf hinf, roundF16_inf, hinf]
    cases x.msb <;> decide
  · obtain ⟨m, e, hread, hval⟩ := exists_fin_of_readsAs (readF32_readsAs x) hfin
    obtain ⟨hsign, hmag⟩ := roundF16_fin_bits x.msb m e nan
    have hbound : magValue 8 23 0x477FF000 = 65520 := by norm_num [magValue]
    have hover : x.toNat % 2 ^ 31 < 0x477FF000 ↔ roundMag 5 10 m e < 0x7C00 := by
      rw [roundMag_f16_lt_inf_iff, hval, ← hbound, magValue_strictMono.lt_iff_lt]
    rw [hread, hmag]
    refine ⟨fun hge => if_neg (hover.not.1 (not_lt.2 hge)), fun hlt => ?_, hsign⟩
    have hlt' := hover.1 hlt
    rw [if_pos hlt']
    omega

/-- An 8-bit float saturates, and keeps the sign (45_epilogue R137). -/
theorem cvtF32F8_bits (fmt : Fp8Fmt) (nan : Byte) (h : x.toNat % 2 ^ 31 ≤ 0x7F800000) :
    (cvtF32F8 fmt false nan x).toNat % 2 ^ 7 ≤ (fp8Format fmt).2.2 ∧ (cvtF32F8 fmt false nan x).msb = x.msb ∧
      (x.toNat % 2 ^ 31 = 0x7F800000 → (cvtF32F8 fmt false nan x).toNat % 2 ^ 7 = (fp8Format fmt).2.2) := by
  have hmax := fp8Max_lt fmt
  rw [cvtF32F8, ← fp8Max_eq]
  rcases h.eq_or_lt with hinf | hfin
  · rw [readF32_eq_inf hinf]
    obtain ⟨hsign, hmag⟩ := f8_bits x.msb hmax
    exact ⟨hmag.le, hsign, fun _ => hmag⟩
  · obtain ⟨m, e, hread, -⟩ := exists_fin_of_readsAs (readF32_readsAs x) hfin
    rw [hread]
    obtain ⟨hsign, hmag⟩ := f8_bits x.msb ((min_le_right (fp8Mag fmt m e) _).trans_lt hmax)
    exact ⟨hmag.trans_le (min_le_right ..), hsign, fun hinf => absurd hinf hfin.ne⟩

/-- A finite f32 rounds once, to nearest even, and then saturates (45_epilogue R137). -/
theorem cvtF32F8_of_fin (fmt : Fp8Fmt) (nan : Byte) {neg : Bool} {m : Nat} {e : ℤ}
    (hread : readF32 false x = .fin neg m e) : (cvtF32F8 fmt false nan x).toNat % 2 ^ 7 =
      let v := roundMag (fp8Format fmt).1 (fp8Format fmt).2.1 m e
      if v ≤ (fp8Format fmt).2.2 then v else (fp8Format fmt).2.2 := by
  rw [cvtF32F8, hread, ← fp8Max_eq, ← fp8Mag_eq]
  obtain ⟨-, hmag⟩ := f8_bits neg ((min_le_right (fp8Mag fmt m e) _).trans_lt (fp8Max_lt fmt))
  exact hmag.trans (min_def ..)

end Conversions

/-- Settles O53: FTZ flushes the operand, and a flushed operand overflows as it did. -/
theorem narrowingConversionsOverflow : Obligations.NarrowingConversionsOverflow := by
  refine ⟨fun ftz x h => ?_, fun x hfin => ?_, fun x => ⟨fun hnan ftz fmt => ?_, fun nan => cvtF32F16_true nan x,
    fun fmt nan => cvtF32F8_true fmt nan x⟩⟩
  · cases ftz with
    | false => exact ⟨fun nan => cvtF32F16_bits nan h, fun fmt nan => cvtF32F8_bits fmt nan h⟩
    | true =>
      obtain ⟨hsign, hmag⟩ := flushed_bits x
      have hflushed : (flushed x).toNat % 2 ^ 31 ≤ 0x7F800000 := by rw [hmag]; split <;> omega
      refine ⟨fun nan => ?_, fun fmt nan => ?_⟩
      · rw [cvtF32F16_true, ← hsign]
        obtain ⟨hover, hfin, hmsb⟩ := cvtF32F16_bits nan hflushed
        exact ⟨fun hge => hover (by rw [hmag, if_neg (by omega)]; exact hge),
          fun hlt => hfin (by rw [hmag]; split <;> omega), hmsb⟩
      · rw [cvtF32F8_true, ← hsign]
        obtain ⟨hle, hmsb, hinf⟩ := cvtF32F8_bits fmt nan hflushed
        exact ⟨hle, hmsb, fun heq => hinf (by rw [hmag, if_neg (by omega)]; exact heq)⟩
  · obtain ⟨m, e, hread, hval⟩ := exists_fin_of_readsAs (readF32_readsAs x) hfin
    exact ⟨m, e, hval, fun nan => by rw [cvtF32F16, hread], fun fmt nan => cvtF32F8_of_fin fmt nan hread⟩
  · have hread : readF32 ftz x = .nan := by
      cases ftz with
      | false => exact readF32_eq_nan hnan
      | true => rw [readF32_true, flushed, if_neg (by omega), readF32_eq_nan hnan]
    exact ⟨fun nan => by rw [cvtF32F16, hread, roundF16_nan], fun nan => by rw [cvtF32F8, hread]⟩

end Sys2Proof.Machine
end

section
/-! The warp step and NOP, what a step that completes the invocation leaves, and the grid of a launch that starts
(46_sequencer R144 to R146, R152 to R154). -/

namespace Sys2Proof.Machine
open Sys2Proof.Claims

/-! ## The warp step and NOP -/

/-- A RUN warp of a RUNNING invocation overruns the stream, meets an illegal word or runs the command of its word
(46_sequencer R144). -/
theorem warpStep_of_run {s : State} {blk : Nat} {w : WarpId} {b : Block} (hb : s.blocks[blk]? = some b)
    (hi : s.inv = .running) (hrun : b.warps[w].st = .run) :
    (s.fetch b w = none → s.warpStep blk w = .next ((s.asWarp blk w).raise b .pcOverrun)) ∧
    (∀ word e, s.fetch b w = some word → decode word = .error e →
      s.warpStep blk w = .next ((s.asWarp blk w).raise b .illegalCmd)) ∧
    ∀ word i, s.fetch b w = some word → decode word = .ok i → s.warpStep blk w = exec i (s.asWarp blk w) := by
  simp only [State.warpStep, hb, hi, hrun, and_self, if_true]
  exact ⟨fun hf => by rw [hf], fun word e hf hd => by simp only [hf, hd], fun word i hf hd => by simp only [hf, hd]⟩

/-- Settles O6: the step of a RUN warp, and of one that holds at a WAIT, in the state whose choice is used up. -/
theorem warpStepRunsTheDecodedCommand : Obligations.WarpStepRunsTheDecodedCommand := by
  intro s blk w b ha hb hi hrun c
  have hstep : step s = s.choiceTaken.warpStep blk w := by rw [step, ha]; rfl
  obtain ⟨overrun, illegal, runs⟩ := warpStep_of_run (s := s.choiceTaken) hb hi hrun
  rw [hstep]
  exact ⟨hb, rfl, fun hlen => overrun (List.getElem?_eq_none hlen), illegal, runs,
    warpStep_of_holds (s := s.choiceTaken) hb hi hrun⟩

/-- Settles O24: the effect of NOP advances the current warp. -/
theorem nopOnlyAdvancesThePc : Obligations.NopOnlyAdvancesThePc := by
  intro s b hb
  exact ⟨_, exec_of_effect (i := .nop) hb rfl, fun _ => rfl,
    warpBecomes_updWarp (sharedKept_refl b) rfl s.cur.w Warp.advance⟩

/-! ## The end of the invocation -/

/-- A machine that settling makes COMPLETE was RUNNING, and all its blocks have ended without a fault (46_sequencer
R154). -/
theorem all_ended_of_settle {s : State} (hs : s.inv ≠ .complete) (h : s.settle.inv = .complete) :
    s.inv = .running ∧ ∀ b ∈ s.settle.blocks, Ended b ∧ b.log = [] := by
  obtain ⟨⟨-, hkept⟩, -⟩ := settle_endsInto s s.blocks
  rw [State.settle_blocks]
  by_contra hn
  exact hs ((hkept hn).symm.trans h)

theorem launch_inv_ne_complete (s : State) (r : LaunchRecord) : (s.launch r).inv ≠ .complete := by
  rcases launch_refused_or_started s r with ⟨-, -, h⟩ | ⟨-, h⟩
  · simp [h]
  · rw [h]
    exact nofun

/-- A release leaves INV as it is, or makes it FAILED. -/
theorem release_inv (s : State) (blk : Nat) (b : Block) :
    (s.release blk b).inv = s.inv ∨ (s.release blk b).inv = .failed := by
  unfold State.release
  split
  · exact .inl rfl
  · exact .inr rfl

/-- Settles O38: only an END and a landing settle the machine, and no other step makes INV COMPLETE. -/
theorem completeMeansEveryBlockEnded : Obligations.CompleteMeansEveryBlockEnded := by
  intro s t h hs ht
  rcases step_next h with rfl | ⟨blk, w, b, -, -, -, -, hw⟩ | ⟨blk, w, place, b, r, -, -, -, -, rfl⟩ |
    ⟨blk, b, -, -, -, -, rfl⟩ | ⟨r, rest, -, -, -, rfl⟩
  · exact absurd ht hs
  · rcases hw with ⟨-, rfl⟩ | ⟨word, -, ⟨e, -, rfl⟩ | ⟨i, -, he⟩⟩
    · cases ht
    · cases ht
    · obtain ⟨b, -, ⟨c, rfl⟩ | ⟨b', -, rfl⟩⟩ := exec_next he
      · cases ht
      · by_cases hend : i = .endWarp
        · subst hend
          exact all_ended_of_settle (s := (s.choiceTaken.asWarp blk w).setBlock b') hs ht
        · exact absurd ((finish_inv _ b b' hend).symm.trans ht) hs
  · exact all_ended_of_settle (s := { s.choiceTaken with blocks := _ }) hs ht
  · rcases release_inv s.choiceTaken blk b with hr | hr
    · exact absurd (hr.symm.trans ht) hs
    · cases hr.symm.trans ht
  · exact absurd ht (launch_inv_ne_complete _ r)

/-! ## The grid of a launch that starts -/

/-- A launch that starts found RET true and its arguments within the dimension check. -/
theorem launch_of_running {s : State} {r : LaunchRecord} (h : (s.launch r).inv = .running) :
    retFlag s.cfg r.outType = true ∧ DimsPass r ∧ s.launch r = s.started r := by
  rcases launch_refused_or_started s r with ⟨-, -, hrej⟩ | ⟨hd, hstart⟩
  · cases hrej.symm.trans h
  · refine ⟨?_, hd, hstart⟩
    rcases launch_cases s r with hnone | ⟨hret, -, -⟩
    · obtain ⟨bm, bn, hb⟩ := exists_reset_mem_started (s := s) hd
      rw [← hstart, hnone] at hb
      cases hb
    · exact hret

/-- The derived registers of a launch whose M, N and K fit their registers are those of its arguments. -/
theorem derive_of_dimsPass {r : LaunchRecord} (h : DimsPass r) :
    r.params.derive = deriveRegs r.m r.n r.k r.outType := by
  obtain ⟨hm, hn, hk⟩ := toNat_params_of_dimsPass h
  rw [Params.derive, hm, hn, hk]
  rfl

/-- SZ of an output type a launch accepts (00_scope R9). -/
theorem szOf_of_retFlag {cfg : Config} {bits : BitVec 2} (h : retFlag cfg bits = true) :
    szOf bits = if bits = 0 then 4 else if bits = 1 then 2 else 1 := by
  obtain ⟨o, -, ho⟩ := retFlag_eq_true.1 h
  rw [outTypeOfBits_eq_some ho]
  cases o <;> rfl

theorem stream_eq_getD (r : LaunchRecord) (d : Derived) :
    r.stream d = (r.cs.map Subtype.val).getD (canonicalWords d.t d.sz) := by
  unfold LaunchRecord.stream
  cases r.cs <;> rfl

theorem length_gridOf (gm gn : Nat) : (gridOf gm gn).length = gm * gn := by
  simp [gridOf, List.length_flatMap]

/-- Every place of a grid whose numbers of rows and columns fit a register has a block. -/
theorem exists_mem_gridOf {gm gn bm bn : Nat} (hgm : gm ≤ 2 ^ 32) (hgn : gn ≤ 2 ^ 32) (hm : bm < gm) (hn : bn < gn) :
    ∃ b ∈ gridOf gm gn, b.bm.toNat = bm ∧ b.bn.toNat = bn :=
  ⟨_, mem_gridOf.2 ⟨bm, hm, bn, hn, rfl⟩, Nat.mod_eq_of_lt (hm.trans_le hgm), Nat.mod_eq_of_lt (hn.trans_le hgn)⟩

/-- Settles O48: a launch that starts leaves `started`, whose registers are those of the arguments. -/
theorem launchStartsTheGrid : Obligations.LaunchStartsTheGrid := by
  intro s r h
  obtain ⟨hret, hd, hstart⟩ := launch_of_running h
  obtain ⟨hm, hn, hk⟩ := toNat_params_of_dimsPass hd
  have hderive := derive_of_dimsPass hd
  have hscr : (deriveRegs r.m r.n r.k r.outType).scrBytes = 67584 := hderive ▸ r.params.derive_scrBytes
  have hfits : streamFits (r.stream (deriveRegs r.m r.n r.k r.outType)) := hderive ▸ streamFits_stream hd
  obtain ⟨-, -, -, -, -, -, hm32, hn32, -⟩ := hd
  rw [hstart, State.started, hderive]
  have hgm : (r.m + 127) / 128 ≤ 2 ^ 32 := by omega
  have hgn : r.n / 128 ≤ 2 ^ 32 := by omega
  refine ⟨⟨rfl, rfl, rfl, rfl, rfl, rfl, rfl, rfl, rfl⟩, hm, hn, hk, rfl, rfl, rfl, rfl, rfl, rfl, rfl, rfl, rfl, rfl, rfl,
    szOf_of_retFlag hret, rfl, hscr, stream_eq_getD r _, Nat.le_sub_one_of_lt hfits, length_gridOf _ _,
    fun bm hbm bn hbn => exists_mem_gridOf hgm hgn hbm hbn, fun b hb => ?_⟩
  obtain ⟨bm, -, bn, -, rfl⟩ := mem_gridOf.1 hb
  exact blockAtReset_reset _ _

end Sys2Proof.Machine
end

section
/-! The canonical stream (46_sequencer R149, R150, 30_encoding R84): where each of its parts stands, its length, and that
each of its commands is well-formed. -/

namespace Sys2Proof.Machine
open Sys2Proof.Claims

/-! ## Parts of a stream -/

/-- The commands `seg` stand in `l` from index `k` on. -/
def StandsAt (l : List Instr) (k : Nat) (seg : List Instr) : Prop := ∃ a c, a.length = k ∧ a ++ seg ++ c = l

section StandsAt
variable {l seg sub : List Instr} {k : Nat}

theorem standsAt_append {a : List Instr} (ha : a.length = k) (seg : List Instr) : StandsAt (a ++ seg) k seg :=
  ⟨a, [], ha, List.append_nil _⟩

/-- A part of a part. -/
theorem StandsAt.trans (h : StandsAt l k seg) {i : Nat} (hsub : StandsAt seg i sub) : StandsAt l (k + i) sub := by
  obtain ⟨a, c, rfl, rfl⟩ := h
  obtain ⟨a', c', rfl, rfl⟩ := hsub
  exact ⟨a ++ a', c' ++ c, List.length_append, by simp only [List.append_assoc]⟩

theorem StandsAt.append_right (h : StandsAt l k seg) (d : List Instr) : StandsAt (l ++ d) k seg := by
  obtain ⟨a, c, ha, rfl⟩ := h
  exact ⟨a, c ++ d, ha, by simp only [List.append_assoc]⟩

theorem StandsAt.append_left (h : StandsAt l k seg) (d : List Instr) : StandsAt (d ++ l) (d.length + k) seg := by
  obtain ⟨a, c, rfl, rfl⟩ := h
  exact ⟨d ++ a, c, List.length_append, by simp only [List.append_assoc]⟩

theorem StandsAt.getElem? (h : StandsAt l k seg) {n : Nat} {i : Instr} (hi : seg[n]? = some i) : l[k + n]? = some i := by
  obtain ⟨a, c, rfl, rfl⟩ := h
  obtain ⟨hn, -⟩ := List.getElem?_eq_some_iff.1 hi
  rw [List.append_assoc, List.getElem?_append_right (Nat.le_add_right ..), Nat.add_sub_cancel_left,
    List.getElem?_append_left hn, hi]

end StandsAt

/-- Parts one after another: each begins where those before it end. -/
theorem flatMap_range_parts {f : Nat → List Instr} {start : Nat → Nat} {n : Nat} (h0 : start 0 = 0)
    (hs : ∀ j < n, start (j + 1) = start j + (f j).length) :
    ((List.range n).flatMap f).length = start n ∧ ∀ j < n, StandsAt ((List.range n).flatMap f) (start j) (f j) := by
  induction n with
  | zero => exact ⟨h0.symm, nofun⟩
  | succ n ih =>
    obtain ⟨hlen, hparts⟩ := ih fun j hj => hs j (by omega)
    rw [List.range_succ, List.flatMap_append, List.flatMap_singleton, List.length_append, hlen]
    refine ⟨(hs n (by omega)).symm, fun j hj => ?_⟩
    rcases Nat.lt_succ_iff_lt_or_eq.1 hj with hlt | rfl
    · exact (hparts j hlt).append_right _
    · exact standsAt_append hlen _

/-! ## The parts of the canonical stream -/

theorem stageOf_phase (t j : Nat) : (stageOf t j).1 = phaseOf t j := by
  unfold stageOf phaseOf
  split <;> rfl

theorem stageOf_kt (t j : Nat) : (stageOf t j).2 = if j < t then j else j - t := by
  unfold stageOf
  split <;> rfl

/-- Every stage but the first keeper stage ends a group (46_sequencer R149). -/
theorem foldStage_eq {t j : Nat} (hj : j < t + 2) :
    foldStage t j = if j = t then [] else [.ldsc (phaseOf t j) (ringSlot j), .deq] := by
  have hends : ((stageOf t j).1 = .main ∨ (stageOf t j).2 = 1) ↔ j ≠ t := by
    unfold stageOf
    split
    · simp only [true_or, true_iff]
      omega
    · simp only [reduceCtorEq, false_or]
      omega
  simp only [foldStage, hends, ite_not]
  rw [stageOf_phase]
  rfl

theorem length_prologueIter (t j : Nat) : (prologueIter t j).length = if j < t + 2 then 4 else 1 := by
  unfold prologueIter
  split <;> rfl

/-- What an iteration of the main loop loads into the slot just freed. -/
def refill (t j : Nat) : List Instr := if j + 3 < t + 2 then loadStage t (j + 3) else []

theorem length_refill (t j : Nat) : (refill t j).length = if j + 3 < t + 2 then 3 else 0 := by
  unfold refill
  split <;> rfl

theorem mainIter_eq (t j : Nat) : mainIter t j =
    [.wait 2, .bar] ++ refill t j ++ [.commit] ++ pseudoCompute (phaseOf t j) (ringSlot j) ++ foldStage t j := by
  rw [← stageOf_phase]
  rfl

/-- The parts of iteration `j` of the main loop. -/
theorem mainIter_parts (t j : Nat) :
    StandsAt (mainIter t j) 0 [.wait 2, .bar] ∧
    (j + 3 < t + 2 → StandsAt (mainIter t j) 2 (loadStage t (j + 3))) ∧
    StandsAt (mainIter t j) (2 + (refill t j).length) [.commit] ∧
    StandsAt (mainIter t j) (2 + (refill t j).length + 1) (pseudoCompute (phaseOf t j) (ringSlot j)) ∧
    StandsAt (mainIter t j) (2 + (refill t j).length + 53) (foldStage t j) := by
  have hcompute := length_pseudoCompute (phaseOf t j) (ringSlot j)
  have happroach : ([Instr.wait 2, .bar] ++ refill t j).length = 2 + (refill t j).length := List.length_append
  rw [mainIter_eq]
  refine ⟨((((standsAt_append (a := []) rfl _).append_right _).append_right _).append_right _).append_right _,
    fun h => ?_, ((standsAt_append happroach _).append_right _).append_right _,
    (standsAt_append (List.length_append.trans (by rw [happroach]; rfl)) _).append_right _,
    standsAt_append ?_ _⟩
  · have hrefill : refill t j = loadStage t (j + 3) := if_pos h
    rw [hrefill]
    exact (((standsAt_append (a := [.wait 2, .bar]) rfl _).append_right _).append_right _).append_right _
  · rw [List.length_append, List.length_append, happroach, hcompute]
    rfl

theorem length_mainIter {t j : Nat} (hj : j < t + 2) :
    (mainIter t j).length = 55 + (if j + 3 < t + 2 then 3 else 0) + if j = t then 0 else 2 := by
  have hfold : (foldStage t j).length = if j = t then 0 else 2 := by
    rw [foldStage_eq hj]
    split <;> rfl
  rw [mainIter_eq]
  simp only [List.length_append, length_refill, length_pseudoCompute, hfold, List.length_cons, List.length_nil]
  omega

/-- Where iteration `j` of the prologue begins. -/
def prologueAt (t j : Nat) : Nat := j + 3 * min j (t + 2)

/-- The iterations of the prologue, one after another. -/
theorem prologue_parts (t : Nat) : ((List.range 3).flatMap (prologueIter t)).length = prologueEnd t ∧
    ∀ j < 3, StandsAt ((List.range 3).flatMap (prologueIter t)) (prologueAt t j) (prologueIter t j) := by
  obtain ⟨hlen, hparts⟩ := flatMap_range_parts (f := prologueIter t) (start := prologueAt t) (n := 3) (by simp [prologueAt])
    fun j hj => by
      rw [length_prologueIter, prologueAt, prologueAt]
      split <;> omega
  refine ⟨hlen.trans ?_, hparts⟩
  rw [prologueAt, prologueEnd]
  omega

/-- Where iteration `j` begins in the main loop. -/
def bodyAt (t j : Nat) : Nat := 55 * j + 3 * min j (t - 1) + 2 * (min j t + (j - (t + 1)))

theorem iterationAt_eq {t j : Nat} (hj : j < t + 2) : iterationAt t j = prologueEnd t + bodyAt t j := by
  rw [iterationAt, bodyAt]
  omega

theorem epilogueAt_eq (t : Nat) : epilogueAt t = prologueEnd t + bodyAt t (t + 2) := by
  rw [epilogueAt, bodyAt]
  omega

/-- The iterations of the main loop, one after another. -/
theorem mainLoop_parts (t : Nat) : ((List.range (t + 2)).flatMap (mainIter t)).length = bodyAt t (t + 2) ∧
    ∀ j < t + 2, StandsAt ((List.range (t + 2)).flatMap (mainIter t)) (bodyAt t j) (mainIter t j) :=
  flatMap_range_parts (by simp [bodyAt]) fun j hj => by
    rw [length_mainIter hj, bodyAt, bodyAt]
    split <;> split <;> omega

/-- Where the prologue, each iteration and the epilogue of the canonical stream stand. -/
theorem canonical_parts (t sz : Nat) :
    (∀ j < 3, StandsAt (canonical t sz) (prologueAt t j) (prologueIter t j)) ∧
    (∀ j < t + 2, StandsAt (canonical t sz) (iterationAt t j) (mainIter t j)) ∧
    StandsAt (canonical t sz) (epilogueAt t) (pseudoEpilogue sz) ∧
    (canonical t sz).length = epilogueAt t + 5 + 4 * sz := by
  obtain ⟨hplen, hprologue⟩ := prologue_parts t
  obtain ⟨hmlen, hmain⟩ := mainLoop_parts t
  refine ⟨fun j hj => ?_, fun j hj => ?_, standsAt_append ?_ _, ?_⟩
  · exact ((hprologue j hj).append_right _).append_right _
  · rw [iterationAt_eq hj, ← hplen]
    exact ((hmain j hj).append_left _).append_right _
  · rw [List.length_append, hplen, hmlen, epilogueAt_eq]
  · rw [canonical, List.length_append, List.length_append, hplen, hmlen, epilogueAt_eq]
    have hend : (pseudoEpilogue sz).length = 4 * sz + 5 := by simp [pseudoEpilogue]
    omega

theorem length_canonicalWords (t sz : Nat) : (canonicalWords t sz).length = epilogueAt t + 5 + 4 * sz := by
  obtain ⟨-, -, -, hlen⟩ := canonical_parts t sz
  rw [canonicalWords, List.length_map, hlen]

/-! ## The words of the stream -/

theorem streamHas_of_getElem? {t sz k : Nat} {i : Instr} (h : (canonical t sz)[k]? = some i) : StreamHas t sz k i := by
  rw [StreamHas, canonicalWords, List.getElem?_map, h, Option.map_some]

section Places
variable {t sz k j : Nat} {seg : List Instr}

/-- The command at place `n` of a part of the stream stands in the stream that far from where the part begins. -/
theorem StandsAt.streamHas (h : StandsAt (canonical t sz) k seg) (n : Nat) {i : Instr} (hi : seg[n]? = some i) {p : Nat}
    (hp : p = k + n := by omega) : StreamHas t sz p i :=
  hp ▸ streamHas_of_getElem? (h.getElem? hi)

theorem loadStage_eq (t j : Nat) : loadStage t j =
    pseudoLoad (phaseOf t j) (ringSlot j) (if j < t then j else j - t) := by
  rw [← stageOf_phase, ← stageOf_kt]
  rfl

/-- A LOAD in the stream. -/
theorem StandsAt.loadsAt (h : StandsAt (canonical t sz) k (loadStage t j)) : LoadsAt t sz k j := by
  rw [loadStage_eq] at h
  exact ⟨h.streamHas 0 rfl, h.streamHas 1 rfl, h.streamHas 2 rfl⟩

/-- The K-steps of a COMPUTE. -/
theorem standsAt_pseudoKstep (ph : Phase) (slot : Fin 4) (ks : Fin 2) :
    StandsAt (pseudoCompute ph slot) (26 * ks.val) (pseudoKstep ph slot ks) := by
  match ks with
  | 0 => exact (standsAt_append (a := []) rfl _).append_right _
  | 1 => exact standsAt_append rfl _

/-- The commands of a K-step. -/
theorem pseudoKstep_getElem? (ph : Phase) (slot : Fin 4) (ks mi : Fin 2) (ni : Fin 8) :
    (pseudoKstep ph slot ks)[mi.val]? = some (.ldmA slot ks mi) ∧
    (pseudoKstep ph slot ks)[2 + ni.val]? = some (.ldmB slot ks ni) ∧
    (pseudoKstep ph slot ks)[10 + 8 * mi.val + ni.val]? = some (mmaOf ph mi ni) := by
  fin_cases mi <;> fin_cases ni <;> exact ⟨rfl, rfl, rfl⟩

theorem pseudoEpilogue_stg {sz it : Nat} (h : it < 4 * sz) : (pseudoEpilogue sz)[it + 4]? = some (.stg it) := by
  change ((List.range (4 * sz)).map Instr.stg ++ [.endWarp])[it]? = _
  rw [List.getElem?_append_left (by simpa using h)]
  simp [h]

theorem pseudoEpilogue_endWarp (sz : Nat) : (pseudoEpilogue sz)[4 * sz + 4]? = some .endWarp := by
  change ((List.range (4 * sz)).map Instr.stg ++ [.endWarp])[4 * sz]? = _
  simp

theorem mmaOf_phaseOf (t j : Nat) (mi : Fin 2) (ni : Fin 8) :
    mmaOf (phaseOf t j) mi ni = if j < t then .mma4 mi ni else .mma8 mi ni := by
  unfold phaseOf
  split <;> rfl

/-- A COMPUTE in the stream. -/
theorem StandsAt.computesAt (h : StandsAt (canonical t sz) k (pseudoCompute (phaseOf t j) (ringSlot j))) :
    ComputesAt t sz k j := by
  intro ks mi
  have hstep := h.trans (standsAt_pseudoKstep _ _ ks)
  refine ⟨?_, fun ni => ?_⟩
  · obtain ⟨ha, -, -⟩ := pseudoKstep_getElem? (phaseOf t j) (ringSlot j) ks mi 0
    exact hstep.streamHas _ ha
  · obtain ⟨-, hb, hmma⟩ := pseudoKstep_getElem? (phaseOf t j) (ringSlot j) ks mi ni
    exact ⟨hstep.streamHas _ hb, hstep.streamHas _ (mmaOf_phaseOf t j mi ni ▸ hmma)⟩

end Places

/-- Settles O57: each command stands at its place in its part, and each part at its place in the stream. -/
theorem canonicalStreamPlacesItsCommands : Obligations.CanonicalStreamPlacesItsCommands := by
  intro t sz
  obtain ⟨hprologue, hmain, hepi, -⟩ := canonical_parts t sz
  refine ⟨fun j hj => ?_, fun j hj => ?_, ?_⟩
  · have hiter := hprologue j hj
    rw [prologueIter] at hiter
    constructor
    · intro hload
      have hat : prologueAt t j = 4 * j := by unfold prologueAt; omega
      rw [if_pos hload, hat] at hiter
      exact ⟨(hiter.trans ((standsAt_append (a := []) rfl _).append_right _)).loadsAt,
        (hiter.trans (standsAt_append (k := 3) rfl _)).streamHas 0 rfl⟩
    · intro hnone
      have hat : prologueAt t j = 3 * (t + 2) + j := by unfold prologueAt; omega
      rw [if_neg (by omega), hat] at hiter
      exact hiter.streamHas 0 rfl
  · obtain ⟨hwait, hload, hcommit, hcompute, hfold⟩ := mainIter_parts t j
    have hiter := hmain j hj
    have hc : (if j + 3 < t + 2 then iterationAt t j + 5 else iterationAt t j + 2) =
        iterationAt t j + (2 + (refill t j).length) := by
      rw [length_refill]
      split <;> rfl
    dsimp only
    rw [hc]
    refine ⟨(hiter.trans hwait).streamHas 0 rfl, (hiter.trans hwait).streamHas 1 rfl, fun h => (hiter.trans (hload h)).loadsAt,
      (hiter.trans hcommit).streamHas 0 rfl, (hiter.trans hcompute).computesAt, fun hne => ?_⟩
    rw [foldStage_eq hj, if_neg hne] at hfold
    exact ⟨(hiter.trans hfold).streamHas 0 rfl, (hiter.trans hfold).streamHas 1 rfl⟩
  · exact ⟨hepi.streamHas 0 rfl, hepi.streamHas 1 rfl, hepi.streamHas 2 rfl, hepi.streamHas 3 rfl,
      fun it hit => hepi.streamHas (it + 4) (pseudoEpilogue_stg hit), hepi.streamHas _ (pseudoEpilogue_endWarp sz),
      length_canonicalWords t sz⟩

/-! ## The commands of the stream are well-formed -/

/-- The k-tile of a stage fits its field where T does (30_encoding R83). -/
theorem wf_loadStage {t j : Nat} (ht : t ≤ 65536) (hj : j < t + 2) : ∀ i ∈ loadStage t j, i.wf = true := by
  have hkt : ktFits (if j < t then j else j - t) = true := by
    rw [ktFits, decide_eq_true_eq]
    split <;> omega
  rw [loadStage_eq]
  simp [pseudoLoad, Instr.wf, hkt]

theorem wf_pseudoCompute (ph : Phase) (slot : Fin 4) : ∀ i ∈ pseudoCompute ph slot, i.wf = true := by
  have hstep (ks : Fin 2) : ∀ i ∈ pseudoKstep ph slot ks, i.wf = true := by
    cases ph <;> simp [pseudoKstep, mmaOf, Instr.wf, or_imp, forall_and]
  exact List.forall_mem_append.2 ⟨hstep 0, hstep 1⟩

theorem wf_prologueIter {t j : Nat} (ht : t ≤ 65536) : ∀ i ∈ prologueIter t j, i.wf = true := by
  refine List.forall_mem_append.2 ⟨?_, by simp [Instr.wf]⟩
  split
  · next hj => exact wf_loadStage ht hj
  · exact nofun

theorem wf_mainIter {t j : Nat} (ht : t ≤ 65536) (hj : j < t + 2) : ∀ i ∈ mainIter t j, i.wf = true := by
  have hrefill : ∀ i ∈ refill t j, i.wf = true := by
    unfold refill
    split
    · next h => exact wf_loadStage ht h
    · exact nofun
  have hfold : ∀ i ∈ foldStage t j, i.wf = true := by
    rw [foldStage_eq hj]
    split <;> simp [Instr.wf]
  rw [mainIter_eq]
  simp only [List.forall_mem_append]
  exact ⟨⟨⟨⟨by decide, hrefill⟩, by decide⟩, wf_pseudoCompute _ _⟩, hfold⟩

theorem wf_pseudoEpilogue {sz : Nat} (hsz : sz ≤ 4) : ∀ i ∈ pseudoEpilogue sz, i.wf = true := by
  simp only [pseudoEpilogue, List.forall_mem_append]
  refine ⟨⟨by decide, fun i hi => ?_⟩, by decide⟩
  obtain ⟨it, hit, rfl⟩ := List.mem_map.1 hi
  have := List.mem_range.1 hit
  exact decide_eq_true (by omega)

/-- Every command of a canonical stream whose T and SZ a launch may have is well-formed. -/
theorem wf_of_mem_canonical {t sz : Nat} (ht : t ≤ 65536) (hsz : sz ≤ 4) : ∀ i ∈ canonical t sz, i.wf = true := by
  simp only [canonical, List.forall_mem_append, List.forall_mem_flatMap, List.mem_range]
  exact ⟨⟨fun j _ => wf_prologueIter ht, fun j hj => wf_mainIter ht hj⟩, wf_pseudoEpilogue hsz⟩

/-- Settles O50: the length is where the epilogue ends, and the encoding of a well-formed command decodes to it. -/
theorem canonicalStreamLengthAndWords : Obligations.CanonicalStreamLengthAndWords := by
  refine ⟨fun t sz => ?_, length_canonicalWords 0 4, length_canonicalWords 1 4, length_canonicalWords 3 4,
    length_canonicalWords 0 1, fun t sz ht hsz => ?_, fun t sz ht hsz k i hi => ⟨encode i, streamHas_of_getElem? hi,
      decodeOfEncodeIsTheCommand i (wf_of_mem_canonical ht hsz i (List.mem_of_getElem? hi))⟩⟩
  · rw [length_canonicalWords, epilogueAt, prologueEnd]
    omega
  · rw [length_canonicalWords, epilogueAt, prologueEnd]
    omega

end Sys2Proof.Machine
end

section
/-! What a fault records, and for how long (60_exceptions R158, R159, R162, 10_state R36): a step of a RUNNING invocation
appends one record and makes INV FAILED, or records nothing, and no step of a FAILED invocation but a launch changes it. -/

namespace Sys2Proof.Machine
open Sys2Proof.Claims

/-! ## INV and the fault log after a step -/

/-- Settling a machine never makes INV FAILED. -/
theorem settle_inv_ne_failed {s : State} (h : s.inv ≠ .failed) : s.settle.inv ≠ .failed := by
  rcases s.settle_eq with e | ⟨-, e⟩ <;> rw [e]
  · exact h
  · exact nofun

/-- A command that completes never makes INV FAILED. -/
theorem finish_inv_ne_failed {s : State} (i : Instr) (b b' : Block) (h : s.inv ≠ .failed) :
    (finish i s b b').inv ≠ .failed := by
  by_cases hend : i = .endWarp
  · subst hend
    exact settle_inv_ne_failed h
  · rw [finish_inv s b b' hend]
    exact h

theorem launch_inv_ne_failed (s : State) (r : LaunchRecord) : (s.launch r).inv ≠ .failed := by
  rcases launch_refused_or_started s r with ⟨-, -, h⟩ | ⟨-, h⟩
  · simp [h]
  · rw [h]
    exact nofun

/-- A release that leaves the block `released` leaves INV as it is: a mismatch leaves GEN behind. -/
theorem release_inv_of_released {s : State} {blk : Nat} {b : Block} (hb : s.blocks[blk]? = some b)
    (h : (s.release blk b).blocks = s.blocks.set blk b.released) : (s.release blk b).inv = s.inv := by
  unfold State.release at h ⊢
  split at h
  · next hsame => rw [if_pos hsame]
  · obtain ⟨hlt, -⟩ := List.getElem?_eq_some_iff.1 hb
    have hat := congrArg (·[blk]?) h
    simp only [List.getElem?_set_self hlt, Option.some.injEq] at hat
    have hgen : b.gen = b.gen + 1 := congrArg Block.gen hat
    omega

/-- A step of a block appends one record to the block's fault log and makes INV FAILED, or does neither. -/
theorem OneBlockStep.log_inv {s t : State} {blk : Nat} {b b' : Block} (hone : OneBlockStep s t blk b b')
    (h : Machine.step s = .next t) (hi : s.inv = .running) :
    (t.inv = .failed ∧ ∃ r, b'.log = b.log ++ [r]) ∨ (t.inv ≠ .failed ∧ b'.log = b.log) := by
  have hr : s.inv ≠ .failed := by simp [hi]
  cases hone.step with
  | fault w r _ _ failed block =>
    subst block
    exact .inl ⟨failed, r, rfl⟩
  | mismatched _ _ failed block =>
    subst block
    exact .inl ⟨failed, _, rfl⟩
  | command w i _ _ _ _ _ effect result =>
    obtain ⟨-, -, -, hlog⟩ := effect.blockKept.identity
    subst result
    exact .inr ⟨finish_inv_ne_failed i b b' hr, hlog⟩
  | copy w place r _ _ block result =>
    subst block result
    exact .inr ⟨settle_inv_ne_failed hr, Block.performed_log b w place r⟩
  | released agent enabled block =>
    subst block
    have hstep := step_of_release agent hone.before hi (Block.releaseEnabled_iff.1 enabled)
    obtain rfl : s.choiceTaken.release blk b = t := Host.Outcome.next.inj (hstep.symm.trans h)
    refine .inr ⟨?_, rfl⟩
    rw [release_inv_of_released (s := s.choiceTaken) hone.before hone.after]
    exact hr

/-! ## One fault record -/

theorem faultCount_eq_zero {s : State} : s.faultCount = 0 ↔ ∀ b ∈ s.blocks, b.log = [] := by
  simp [State.faultCount, List.sum_eq_zero_iff]

/-- The records of a grid in which the block at `blk` is put in the place of another. -/
theorem faultCount_of_set {s t : State} {blk : Nat} {b b' : Block} (hb : s.blocks[blk]? = some b)
    (h : t.blocks = s.blocks.set blk b') : t.faultCount + b.log.length = s.faultCount + b'.log.length := by
  obtain ⟨hlt, hat⟩ := List.getElem?_eq_some_iff.1 hb
  obtain ⟨pre, post, hs, -, ht⟩ := List.exists_of_set (a' := b') hlt
  rw [hat] at hs
  rw [State.faultCount, State.faultCount, h, ht, hs]
  simp only [List.map_append, List.map_cons, List.sum_append, List.sum_cons]
  omega

/-- A step of one block of a RUNNING invocation without a record leaves one record where it makes INV FAILED, else none. -/
theorem OneBlockStep.oneFault {s t : State} {blk : Nat} {b b' : Block} (hone : OneBlockStep s t blk b b')
    (h : Machine.step s = .next t) (hi : s.inv = .running) (hs : OneFault s) : OneFault t := by
  have hcount := faultCount_of_set hone.before hone.after
  rw [OneFault, hi, if_neg nofun] at hs
  rcases hone.log_inv h hi with ⟨hf, r, hlog⟩ | ⟨hf, hlog⟩
  · rw [hlog, List.length_append, List.length_singleton] at hcount
    rw [OneFault, if_pos hf]
    omega
  · rw [hlog] at hcount
    rw [OneFault, if_neg hf]
    omega

theorem launch_oneFault (s : State) (r : LaunchRecord) : OneFault (s.launch r) := by
  rw [OneFault, if_neg (launch_inv_ne_failed s r), faultCount_eq_zero]
  intro b hb
  obtain ⟨bm, bn, rfl⟩ := exists_reset_of_mem_launch hb
  rfl

/-- Settles O41: an idle step records nothing, a step of one block of a RUNNING invocation records a fault exactly where it
makes INV FAILED, and a launch starts blocks without a record. -/
theorem stepKeepsOneFaultRecord : Obligations.StepKeepsOneFaultRecord := by
  intro s t hs h
  rcases step_cases h with rfl | ⟨hi, -, blk, b, b', hone⟩ | ⟨-, u, r, rfl⟩
  · exact hs
  · exact hone.oneFault h hi hs
  · exact launch_oneFault u r

/-! ## Faults are sticky -/

/-- A FAULTED warp stays FAULTED under every step of its block: it runs no command and waits at no barrier. -/
theorem BlockStep.faulted {s t : State} {blk : Nat} {b b' : Block} (h : BlockStep s t blk b b') {v : WarpId}
    (hv : b.warps[v].st = .faulted) : b'.warps[v].st = .faulted := by
  cases h with
  | fault w r _ _ _ block =>
    subst block
    by_cases hw : v = w
    · rw [hw, Block.faultedWith_same]
    · rw [Block.faultedWith_other b r hw]
      exact hv
  | command w _ _ _ run _ _ effect _ =>
    have hw : v ≠ w := by
      rintro rfl
      cases hv.symm.trans run
    rw [effect.blockKept.otherWarps v hw]
    exact hv
  | copy w place r _ _ block _ =>
    subst block
    rw [Block.performed_st]
    exact hv
  | released _ enabled _ => cases hv.symm.trans (Block.releaseEnabled_iff.1 enabled v)
  | mismatched _ _ _ block =>
    subst block
    rw [Block.mismatched_warp]

/-- Where no invocation runs a choice that launches nothing is used up, and changes nothing else. -/
theorem step_of_not_running {s : State} (hi : s.inv ≠ .running) (h : s.launches = [] ∨ s.nextAgent ≠ .host) :
    step s = .next s.choiceTaken := by
  rcases h with hl | ha
  · exact agentStep_of_ended (s := s.choiceTaken) hi hl s.nextAgent
  · exact step_of_idle (agentStep_of_not_running (s := s.choiceTaken) hi ha) fun hr => hi hr.1

/-- Settles O36: during a run a log only has a record appended, and no agent steps a FAULTED warp; afterwards every agent
but the host idles. -/
theorem faultsAreStickyAndFinal : Obligations.FaultsAreStickyAndFinal := by
  refine ⟨fun s t k c c' h hi hc hc' => ?_, fun s hi hl => step_of_not_running (by simp [hi]) hl⟩
  have kept : c' = c → c.log <+: c'.log ∧ ∀ w : WarpId, c.warps[w].st = .faulted → c'.warps[w].st = .faulted := by
    rintro rfl
    exact ⟨⟨[], List.append_nil _⟩, fun _ hw => hw⟩
  rcases step_of_running h hi with rfl | ⟨blk, b, b', hone⟩
  · exact kept (Option.some.inj (hc'.symm.trans hc))
  · rcases hone.block_cases hc hc' with he | ⟨-, rfl, rfl⟩
    · exact kept he
    · refine ⟨?_, fun w => hone.step.faulted⟩
      rcases hone.log_inv h hi with ⟨-, r, hlog⟩ | ⟨-, hlog⟩ <;> rw [hlog]
      exact ⟨[r], rfl⟩

/-! ## Raising a fault -/

/-- Settles O7: the block of the current warp becomes `faultedWith` the record, and INV FAILED. -/
theorem raisingAFaultIsPrecise : Obligations.RaisingAFaultIsPrecise := by
  intro s b c hb
  exact ⟨_, raise_block hb c, rfl, rfl, Block.faultedWith_same .., fun _ hv => Block.faultedWith_other _ _ hv,
    rfl, rfl, rfl, rfl, fun _ => rfl, otherBlocksKept_of_set rfl, ⟨rfl, rfl, rfl, rfl, rfl, rfl, rfl, rfl, rfl⟩, rfl,
    rfl⟩

end Sys2Proof.Machine
end

section
/-! The return flag and the checks of a launch, in their order (60_exceptions R164 to R169). -/

namespace Sys2Proof.Machine
open Sys2Proof.Claims

/-! ## The checks, one by one -/

/-- RET is true exactly where OUT_TYPE is supported (60_exceptions R164). -/
theorem retFlag_iff_supported {cfg : Config} {bits : BitVec 2} : retFlag cfg bits = true ↔ OutTypeSupported cfg bits := by
  rw [retFlag_eq_true, OutTypeSupported]
  constructor
  · rintro ⟨o, ho, hbits⟩
    have heq := outTypeOfBits_eq_some hbits
    cases o with
    | f32 => exact .inl ⟨heq, ho⟩
    | f16 => exact .inr (.inl ⟨heq, ho⟩)
    | f8 => exact .inr (.inr ⟨heq, ho⟩)
  · rintro (⟨rfl, ho⟩ | ⟨rfl, ho⟩ | ⟨rfl, ho⟩)
    · exact ⟨.f32, ho, rfl⟩
    · exact ⟨.f16, ho, rfl⟩
    · exact ⟨.f8, ho, rfl⟩

/-- The first index, in rising order, at which `f` answers gives the answer of the search. -/
theorem findSome?_finRange_of_first {α : Type} {n : Nat} {f : Fin n → Option α} {i : Fin n} {a : α} (hi : f i = some a)
    (hfirst : ∀ j < i, f j = none) : (List.finRange n).findSome? f = some a := by
  cases hfound : (List.finRange n).findSome? f with
  | none => cases (List.findSome?_eq_none_iff.1 hfound i (List.mem_finRange i)).symm.trans hi
  | some a' =>
    obtain ⟨pre, k, post, hsplit, hk, hpre⟩ := List.findSome?_eq_some_iff.1 hfound
    have hsorted : (pre ++ k :: post).Pairwise (· < ·) := hsplit ▸ List.pairwise_lt_finRange n
    have hmem : i ∈ pre ++ k :: post := hsplit ▸ List.mem_finRange i
    rcases List.mem_append.1 hmem with hm | hm
    · cases (hpre i hm).symm.trans hi
    · rcases List.mem_cons.1 hm with rfl | hm
      · exact hk.symm.trans hi
      · have hlt : k < i := List.rel_of_pairwise_cons (List.pairwise_append.1 hsorted).2.1 hm
        cases (hfirst k hlt).symm.trans hk

/-- The pointer check names the first pointer that is no multiple of 128 (60_exceptions R167). -/
theorem misalignedPtr?_of_first {r : LaunchRecord} {i : Fin 9} (hpass : ∀ j < i, PointerPasses r j)
    (hi : ¬PointerPasses r i) : misalignedPtr? r = some (.misalignedPtr i.val r.ptrs[i]) :=
  findSome?_finRange_of_first (if_neg hi) fun j hj => if_pos (hpass j hj)

/-- The aliasing check names an input that shares a byte with D (60_exceptions R168). -/
theorem overlapsD?_of_shares {r : LaunchRecord} (h : ∃ i, SharesByteWithD r i) :
    ∃ i : Fin 8, SharesByteWithD r i ∧ overlapsD? r = some (.overlapsD i.val 8) := by
  cases hfound : overlapsD? r with
  | none =>
    obtain ⟨i, hi⟩ := h
    exact absurd hi (overlapsD?_eq_none.1 hfound i)
  | some f =>
    obtain ⟨i, -, hi⟩ := List.exists_of_findSome?_eq_some hfound
    rw [Option.ite_none_right_eq_some] at hi
    obtain ⟨hmeet, hf⟩ := hi
    exact ⟨i, rangesMeet_eq_true.1 hmeet, hf.symm⟩

/-- The scratch check by the numbers of 20_memory R58 (60_exceptions R169). -/
theorem scratchFault?_eq (cfg : Config) (r : LaunchRecord) : scratchFault? cfg r =
    if 67584 ≤ r.rs ∧ 67584 ≤ cfg.scratchCapacity then none
    else some (.scratchSize r.rs 67584 cfg.scratchCapacity) := by
  have hneed : scrBytesOf (szOf r.outType) = 67584 := r.params.derive_scrBytes
  rw [scratchFault?, hneed]

/-! ## The checks in their order -/

section Order
variable {cfg : Config} {r : LaunchRecord}

theorem launchCheck_of_badDims (h : ¬DimsPass r) : launchCheck cfg r = some (.badDims r.m r.n r.k) := by
  rw [launchCheck, if_neg (dimsOk_eq_true.not.2 h)]

/-- Where the dimensions pass, the pointers are checked before the aliasing and that before the scratch. -/
theorem launchCheck_of_dims (h : DimsPass r) :
    launchCheck cfg r = (misalignedPtr? r).or ((overlapsD? r).or (scratchFault? cfg r)) := by
  rw [launchCheck, if_pos (dimsOk_eq_true.2 h)]

theorem launchCheck_of_pointers (h : DimsPass r) (hptr : ∀ i, PointerPasses r i) :
    launchCheck cfg r = (overlapsD? r).or (scratchFault? cfg r) := by
  rw [launchCheck_of_dims h, misalignedPtr?_eq_none.2 hptr, Option.none_or]

theorem launchCheck_of_apart (h : DimsPass r) (hptr : ∀ i, PointerPasses r i) (hapart : ∀ i, ¬SharesByteWithD r i) :
    launchCheck cfg r = scratchFault? cfg r := by
  rw [launchCheck_of_pointers h hptr, overlapsD?_eq_none.2 hapart, Option.none_or]

end Order

/-! ## What a launch answers -/

section Launch
variable {s : State} {r : LaunchRecord}

theorem launch_of_unsupported (h : ¬OutTypeSupported s.cfg r.outType) : s.launch r = s.withArguments r := by
  rw [State.launch, if_neg (retFlag_iff_supported.not.2 h)]

theorem launch_ret_of_supported (h : OutTypeSupported s.cfg r.outType) : (s.launch r).ret = true := by
  rw [State.launch, if_pos (retFlag_iff_supported.2 h)]
  split <;> rfl

theorem launch_refused_of_fault {f : LaunchFault} (h : OutTypeSupported s.cfg r.outType)
    (hc : launchCheck s.cfg r = some f) : Refused (s.launch r) (some f) := by
  rw [State.launch, if_pos (retFlag_iff_supported.2 h), hc]
  exact ⟨rfl, rfl, rfl⟩

theorem launch_starts (h : OutTypeSupported s.cfg r.outType) (hc : launchCheck s.cfg r = none) :
    s.launch r = s.started r := by
  rw [State.launch, if_pos (retFlag_iff_supported.2 h), hc]
  rfl

end Launch

/-- Settles O47: RET is the first test, and the checks answer in their order, each where those before it pass. -/
theorem launchChecksInOrder : Obligations.LaunchChecksInOrder := by
  intro s r
  refine ⟨(launch_mem_derived s r).1, fun hno => ?_, fun hret => ⟨launch_ret_of_supported hret, fun hdims => ?_,
    fun hdims => ⟨fun i hpass hi => ?_, fun hptr => ⟨fun hshares => ?_, fun hapart => ⟨fun hscr => ?_, fun hscr => ?_⟩⟩⟩⟩⟩
  · rw [launch_of_unsupported hno]
    exact ⟨rfl, rfl, rfl, rfl⟩
  · exact launch_refused_of_fault hret (launchCheck_of_badDims hdims)
  · refine launch_refused_of_fault hret ?_
    rw [launchCheck_of_dims hdims, misalignedPtr?_of_first hpass hi, Option.some_or]
  · obtain ⟨i, hi, hfound⟩ := overlapsD?_of_shares hshares
    refine ⟨i, hi, launch_refused_of_fault hret ?_⟩
    rw [launchCheck_of_pointers hdims hptr, hfound, Option.some_or]
  · refine launch_refused_of_fault hret ?_
    rw [launchCheck_of_apart hdims hptr hapart, scratchFault?_eq]
    exact if_neg hscr
  · rw [launch_starts hret]
    · exact ⟨rfl, rfl⟩
    · rw [launchCheck_of_apart hdims hptr hapart, scratchFault?_eq]
      exact if_pos hscr

end Sys2Proof.Machine
end
